-- ==== Sys2Proof/Word.lean ====
section
/-! DEFINITION. The words of HUFBLK: registers of 32 bits, bytes, node indices of 9 bits (00_scope.md R8). -/

namespace Sys2Proof

/-- A register of the block (R8: "Register width 32 bits"). -/
abbrev Word := BitVec 32

/-- A byte of a stream, a symbol, an opcode. -/
abbrev Byte := BitVec 8

/-- The index of a node of the arena, or NONE = 0x1FF (R8). -/
abbrev NodeIdx := BitVec 9

end Sys2Proof
end

