-- ==== Sys2Proof/Syntax.lean ====
section
/-! DEFINITION. The commands of HUFBLK, the fields of a command word, and what the host can do to the block. -/

namespace Sys2Proof

/-- The command set, version 1: one constructor per row of spec/opcode_table.json (30_encoding.md R65). The word holds no
operands (R64: they come from ARG0 and ARG1), except PQ_OFFER's P bit (R63). -/
inductive Instr where
  /-- NOP, opcode 0x01, 40_control.md R72. -/
  | nop
  /-- CLR_ERR, opcode 0x02, 40_control.md R73. -/
  | clrErr
  /-- SRESET, opcode 0x03, 40_control.md R74. -/
  | sreset
  /-- RD_BIT, opcode 0x10, 41_bitstream_in.md R80. -/
  | rdBit
  /-- RD_BITS, opcode 0x11, 41_bitstream_in.md R81. -/
  | rdBits
  /-- RD_BYTE, opcode 0x12, 41_bitstream_in.md R82. -/
  | rdByte
  /-- RD_BYTES, opcode 0x13, 41_bitstream_in.md R83. -/
  | rdBytes
  /-- RD_INT, opcode 0x14, 41_bitstream_in.md R84. -/
  | rdInt
  /-- IN_LENGTH, opcode 0x15, 41_bitstream_in.md R85. -/
  | inLength
  /-- IN_RESET, opcode 0x16, 41_bitstream_in.md R86. -/
  | inReset
  /-- WR_BIT, opcode 0x20, 42_bitstream_out.md R91. -/
  | wrBit
  /-- WR_BITS, opcode 0x21, 42_bitstream_out.md R92. -/
  | wrBits
  /-- WR_BYTE, opcode 0x22, 42_bitstream_out.md R93. -/
  | wrByte
  /-- WR_BYTES, opcode 0x23, 42_bitstream_out.md R94. -/
  | wrBytes
  /-- WR_INT, opcode 0x24, 42_bitstream_out.md R95. -/
  | wrInt
  /-- WR_FLUSH, opcode 0x25, 42_bitstream_out.md R96. -/
  | wrFlush
  /-- PQ_INIT, opcode 0x30, 43_pqueue.md R102. -/
  | pqInit
  /-- PQ_OFFER, opcode 0x31, 43_pqueue.md R103; `present` is the P bit of the word (R63). -/
  | pqOffer (present : Bool)
  /-- PQ_POLL, opcode 0x32, 43_pqueue.md R104. -/
  | pqPoll
  /-- PQ_PEEK, opcode 0x33, 43_pqueue.md R105. -/
  | pqPeek
  /-- PQ_SIZE, opcode 0x34, 43_pqueue.md R106. -/
  | pqSize
  /-- PQ_AT, opcode 0x35, 43_pqueue.md R107. -/
  | pqAt
  /-- FREQ_CLEAR, opcode 0x40, 44_huffman_tree.md R113. -/
  | freqClear
  /-- FREQ_SET, opcode 0x41, 44_huffman_tree.md R114. -/
  | freqSet
  /-- FREQ_SCAN, opcode 0x42, 44_huffman_tree.md R115. -/
  | freqScan
  /-- HUF_BUILD, opcode 0x43, 44_huffman_tree.md R116. -/
  | hufBuild
  /-- HUF_NODE, opcode 0x44, 44_huffman_tree.md R117. -/
  | hufNode
  /-- HUF_LEAF, opcode 0x45, 44_huffman_tree.md R118. -/
  | hufLeaf
  /-- HUF_WRHDR, opcode 0x48, 45_huffman_code.md R124. -/
  | hufWrhdr
  /-- HUF_RDHDR, opcode 0x49, 45_huffman_code.md R125. -/
  | hufRdhdr
  /-- HUF_ENC, opcode 0x4A, 45_huffman_code.md R126. -/
  | hufEnc
  /-- HUF_DEC, opcode 0x4B, 45_huffman_code.md R127. -/
  | hufDec
  /-- HUF_COMPRESS, opcode 0x4C, 46_huffman_stream.md R129. -/
  | hufCompress
  /-- HUF_EXPAND, opcode 0x4D, 46_huffman_stream.md R130. -/
  | hufExpand
  /-- LZW_WINIT, opcode 0x50, 47_lzw_codec.md R133. -/
  | lzwWinit
  /-- LZW_WRITE, opcode 0x51, 47_lzw_codec.md R134. -/
  | lzwWrite
  /-- LZW_RINIT, opcode 0x52, 47_lzw_codec.md R135. -/
  | lzwRinit
  /-- LZW_READ, opcode 0x53, 47_lzw_codec.md R136. -/
  | lzwRead
deriving DecidableEq, Repr

/-- The fields of a command word, format C (30_encoding.md R62): RSV in bits 31:9, P in bit 8, OPC in bits 7:0. -/
structure FormatC where
  rsv : BitVec 23
  p   : Bool
  opc : Byte
deriving DecidableEq, Repr

/-- The widths of a host access (20_memory.md R47): 1, 2 or 4 bytes. -/
inductive Width where
  | one
  | two
  | four
deriving DecidableEq, Repr

/-- What the world outside the block does to it: the host's accesses `MemRead(addr, n)` and `MemWrite(addr, n, v)` at an
offset of the 2^28-byte host offset space (20_memory.md R43, R47), and the platform's power-on reset
(70_reset_and_hazards.md R152). -/
inductive HostEvent where
  | read (addr : BitVec 28) (n : Width)
  | write (addr : BitVec 28) (n : Width) (v : Word)
  | powerOn
deriving DecidableEq, Repr

end Sys2Proof
end

