-- ==== Sys2Proof/WellFormed.lean ====
section
/-! DEFINITION. When the fields of a command word make a legal command (30_encoding.md R66). -/

namespace Sys2Proof

/-- The opcodes of the map of 30_encoding.md R65. -/
def opcodeMap : List Byte :=
  [0x01#8, 0x02#8, 0x03#8, 0x10#8, 0x11#8, 0x12#8, 0x13#8, 0x14#8,
   0x15#8, 0x16#8, 0x20#8, 0x21#8, 0x22#8, 0x23#8, 0x24#8, 0x25#8,
   0x30#8, 0x31#8, 0x32#8, 0x33#8, 0x34#8, 0x35#8, 0x40#8, 0x41#8,
   0x42#8, 0x43#8, 0x44#8, 0x45#8, 0x48#8, 0x49#8, 0x4A#8, 0x4B#8,
   0x4C#8, 0x4D#8, 0x50#8, 0x51#8, 0x52#8, 0x53#8]

/-- R66, first check: the reserved bits are 0. -/
def FormatC.reservedClear (f : FormatC) : Bool := f.rsv == 0#23

/-- R66, second check: the opcode is in the map. -/
def FormatC.opcodeKnown (f : FormatC) : Bool := opcodeMap.contains f.opc

/-- R66, third check: P = 1 stands with PQ_OFFER's opcode 0x31 only. -/
def FormatC.operandBitLegal (f : FormatC) : Bool := !f.p || f.opc == 0x31#8

/-- A command word is legal when none of the conditions of R66 makes it illegal. -/
def FormatC.wellFormed (f : FormatC) : Bool :=
  f.reservedClear && f.opcodeKnown && f.operandBitLegal

end Sys2Proof
end

