-- ==== Sys2Proof/Decode.lean ====
section
/-! DEFINITION. The decoder, total on every 32-bit word (30_encoding.md R67), and the encoder, written from the same
tables (R62, R65). -/

namespace Sys2Proof

/-- Why a word is illegal (R66), in the order the decoder of R67 checks. -/
inductive DecodeError where
  | reservedBits
  | unknownOpcode
  | strayOperandBit
deriving DecidableEq, Repr

/-- The fields of a word, format C (R62). -/
def fieldsOf (w : Word) : FormatC :=
  { rsv := w.extractLsb' 9 23, p := w.getLsbD 8, opc := w.extractLsb' 0 8 }

/-- OPMAP of R67: the command of an opcode (R65); the P bit is PQ_OFFER's. -/
def opMap (opc : Nat) (p : Bool) : Option Instr :=
  match opc with
  | 0x01 => some .nop
  | 0x02 => some .clrErr
  | 0x03 => some .sreset
  | 0x10 => some .rdBit
  | 0x11 => some .rdBits
  | 0x12 => some .rdByte
  | 0x13 => some .rdBytes
  | 0x14 => some .rdInt
  | 0x15 => some .inLength
  | 0x16 => some .inReset
  | 0x20 => some .wrBit
  | 0x21 => some .wrBits
  | 0x22 => some .wrByte
  | 0x23 => some .wrBytes
  | 0x24 => some .wrInt
  | 0x25 => some .wrFlush
  | 0x30 => some .pqInit
  | 0x31 => some (.pqOffer p)
  | 0x32 => some .pqPoll
  | 0x33 => some .pqPeek
  | 0x34 => some .pqSize
  | 0x35 => some .pqAt
  | 0x40 => some .freqClear
  | 0x41 => some .freqSet
  | 0x42 => some .freqScan
  | 0x43 => some .hufBuild
  | 0x44 => some .hufNode
  | 0x45 => some .hufLeaf
  | 0x48 => some .hufWrhdr
  | 0x49 => some .hufRdhdr
  | 0x4A => some .hufEnc
  | 0x4B => some .hufDec
  | 0x4C => some .hufCompress
  | 0x4D => some .hufExpand
  | 0x50 => some .lzwWinit
  | 0x51 => some .lzwWrite
  | 0x52 => some .lzwRinit
  | 0x53 => some .lzwRead
  | _ => none

/-- The decoder of R67. -/
def decode (w : Word) : Except DecodeError Instr :=
  let f := fieldsOf w
  if f.rsv ≠ 0#23 then .error .reservedBits
  else
    match opMap f.opc.toNat f.p with
    | none => .error .unknownOpcode
    | some i => if f.p ∧ f.opc ≠ 0x31#8 then .error .strayOperandBit else .ok i

/-- The decoder on an instruction of the opcode table: `w` holds the row's `nbits` bits, bit 0 the least significant.
Every command is one 32-bit word (R61) that the host writes to CMD whole, so the word's bits are numbered as the table
numbers them; bits above `nbits` are 0. -/
def decodeTableWord (nbits w : Nat) : Option Instr :=
  let v := w % 2 ^ nbits
  if v < 2 ^ 32 then
    match decode (BitVec.ofNat 32 v) with
    | .ok i => some i
    | .error _ => none
  else none

/-- The opcode of a command (R65). -/
def opcodeOf (i : Instr) : Byte :=
  match i with
  | .nop => 0x01#8
  | .clrErr => 0x02#8
  | .sreset => 0x03#8
  | .rdBit => 0x10#8
  | .rdBits => 0x11#8
  | .rdByte => 0x12#8
  | .rdBytes => 0x13#8
  | .rdInt => 0x14#8
  | .inLength => 0x15#8
  | .inReset => 0x16#8
  | .wrBit => 0x20#8
  | .wrBits => 0x21#8
  | .wrByte => 0x22#8
  | .wrBytes => 0x23#8
  | .wrInt => 0x24#8
  | .wrFlush => 0x25#8
  | .pqInit => 0x30#8
  | .pqOffer _ => 0x31#8
  | .pqPoll => 0x32#8
  | .pqPeek => 0x33#8
  | .pqSize => 0x34#8
  | .pqAt => 0x35#8
  | .freqClear => 0x40#8
  | .freqSet => 0x41#8
  | .freqScan => 0x42#8
  | .hufBuild => 0x43#8
  | .hufNode => 0x44#8
  | .hufLeaf => 0x45#8
  | .hufWrhdr => 0x48#8
  | .hufRdhdr => 0x49#8
  | .hufEnc => 0x4A#8
  | .hufDec => 0x4B#8
  | .hufCompress => 0x4C#8
  | .hufExpand => 0x4D#8
  | .lzwWinit => 0x50#8
  | .lzwWrite => 0x51#8
  | .lzwRinit => 0x52#8
  | .lzwRead => 0x53#8

/-- The P bit of a command's word: PQ_OFFER's operand bit, 0 for every other command (R62). -/
def operandBitOf (i : Instr) : Bool :=
  match i with
  | .pqOffer present => present
  | .nop => false
  | .clrErr => false
  | .sreset => false
  | .rdBit => false
  | .rdBits => false
  | .rdByte => false
  | .rdBytes => false
  | .rdInt => false
  | .inLength => false
  | .inReset => false
  | .wrBit => false
  | .wrBits => false
  | .wrByte => false
  | .wrBytes => false
  | .wrInt => false
  | .wrFlush => false
  | .pqInit => false
  | .pqPoll => false
  | .pqPeek => false
  | .pqSize => false
  | .pqAt => false
  | .freqClear => false
  | .freqSet => false
  | .freqScan => false
  | .hufBuild => false
  | .hufNode => false
  | .hufLeaf => false
  | .hufWrhdr => false
  | .hufRdhdr => false
  | .hufEnc => false
  | .hufDec => false
  | .hufCompress => false
  | .hufExpand => false
  | .lzwWinit => false
  | .lzwWrite => false
  | .lzwRinit => false
  | .lzwRead => false

/-- The fields of a command's word. -/
def formatOf (i : Instr) : FormatC := { rsv := 0#23, p := operandBitOf i, opc := opcodeOf i }

/-- A word from its fields (R62), RSV highest. -/
def assemble (f : FormatC) : Word := f.rsv ++ BitVec.ofBool f.p ++ f.opc

/-- The word of a command. -/
def encode (i : Instr) : Word := assemble (formatOf i)

end Sys2Proof
end

