-- ==== Sys2Proof/Config.lean ====
section
/-! DEFINITION. What is fixed for a machine: the fixed values of 00_scope.md R8, the parameters of R9, and the two
things the spec leaves free, as opaque constants nothing can evaluate (the external comparator, the power-on bytes). -/

namespace Sys2Proof

/-- An entry of the priority queue, the pair (key, tag) of 10_state.md R30; EXT_LT compares two of them. -/
structure Entry where
  key : Word
  tag : Word
deriving DecidableEq, Repr

namespace Config

/-- HEAP_PHYS (R8): the physical size of the heap, positions 1 to 1023. -/
abbrev heapPhys : Nat := 1023

/-- NODE_CAP (R8): the nodes of the arena, indices 0 to 510. -/
abbrev nodeCap : Nat := 511

/-- NONE (R8): the index that means "no node". -/
abbrev noNode : NodeIdx := 0x1FF#9

/-- DSTACK_CAP (R8). -/
abbrev dstackCap : Nat := 511

/-- PQ_RESET_CAP (R8): the queue capacity after reset. -/
abbrev pqResetCap : BitVec 10 := 1#10

/-- HUF_PQ_INIT_CAP (R8): the queue capacity at the start of tree construction. -/
abbrev hufPqInitCap : BitVec 10 := 1#10

/-- The LZW minimum initial table size (R8), also the reset value of both sizes (10_state.md R39). -/
abbrev lzwMinSize : Nat := 256

/-- The read-only ID register, "HUF1" in ASCII (R2, 10_state.md R25). -/
abbrev idValue : Word := 0x48554631#32

/-- The sentinel of the end of a stream (60_exceptions.md R139). -/
abbrev eosValue : Word := 0xFFFFFFFF#32

/-- The parameters of R9 that are data. They are configuration (10_state.md R18): no step changes them. -/
structure Params where
  inCap         : Nat
  outCap        : Nat
  scrCap        : Nat
  extCmpPresent : Bool
deriving DecidableEq, Repr

/-- The defaults of R9. -/
abbrev Params.default : Params :=
  { inCap := 65536, outCap := 65536, scrCap := 4096, extCmpPresent := false }

/-- The ranges of R9: each capacity from 1 to 2^24. -/
abbrev Params.legal (p : Params) : Prop :=
  (1 ≤ p.inCap ∧ p.inCap ≤ 2 ^ 24) ∧ (1 ≤ p.outCap ∧ p.outCap ≤ 2 ^ 24) ∧
    (1 ≤ p.scrCap ∧ p.scrCap ≤ 2 ^ 24)

/-- EXT_LT, the external comparator of R9: any function of its two operands, and nothing else is known of it
(43_pqueue.md R97). -/
opaque extLt : Entry → Entry → Bool

/-- The free draw of 10_state.md R42: the byte that the power-on draw numbered `draw` leaves at a host offset of one of
the three byte memories. -/
opaque powerOnByte (draw offset : Nat) : Byte

end Config

end Sys2Proof
end

