-- ==== Sys2Proof/Machine/State.lean ====
section
/-! DEFINITION. The state of HUFBLK as plain data: every register, register file and memory that 10_state.md gives it
(R42's table), the parameters it was built with, and the host accesses still to be performed. -/

namespace Sys2Proof.Machine

open Sys2Proof

/-- The error codes of 60_exceptions.md R138. -/
inductive ErrCode where
  | illegalCommand
  | nullArgument
  | invalidArgument
  | invalidFormat
  | prematureEos
  | capacityExceeded
  | outOverflow
  | misaligned
deriving DecidableEq, Repr

/-- Where the machine stops. None of these is an error of the block: those (R138) are next states. -/
inductive Fault where
  /-- Raised by the host side of `step` on a host access that is a bus error (20_memory.md R46, R47, R49: "the host is
  stuck there"). Safe: no claim can rest on what such an access does. -/
  | busError
  /-- Raised by Ser, Path, DecodeSym and Build when they read a node at or above NODE_COUNT
  (93_implementation_defined.md item 17: "a read of one would be a model error (fault)"). Safe: reached only from states
  whose tree links are broken (10_state.md R36). -/
  | unallocatedNode
  /-- Raised by Ser and Path when a walk through the tree is longer than the arena. Safe: reached only from states whose
  tree links are broken (10_state.md R36). -/
  | endlessWalk
  /-- Raised by the stream and copy primitives when they reach for a byte at or beyond IN_CAP, OUT_CAP or SCR_CAP
  (10_state.md R40). Safe: reached only from states whose stream lengths exceed their buffers (R26, R28). -/
  | noSuchByte
deriving DecidableEq, Repr

/-- Where the model has no meaning to give. -/
inductive Refusal where
  /-- Raised by the dispatcher for an instruction the model gives no meaning. Safe. -/
  | notModelled (mnemonic : String)
deriving DecidableEq, Repr

/-- STATUS (10_state.md R22), one field per field of the register; bits 7:6 and 31:16 read 0 and hold no state. -/
structure Status where
  busy    : Bool
  done    : Bool
  err     : Bool
  eos     : Bool
  empty   : Bool
  ign     : Bool
  errCode : Byte
deriving DecidableEq, Repr

/-- CTRL (10_state.md R24), bits 0, 1 and 2; bits 31:3 are write-ignored and read 0. -/
structure Ctrl where
  inEn  : Bool
  outEn : Bool
  irqEn : Bool
deriving DecidableEq, Repr

/-- The input bit-stream unit (10_state.md R26). -/
structure InUnit where
  len   : Word
  pos   : Word
  buf   : Byte
  nbits : BitVec 4
deriving DecidableEq, Repr

/-- The output bit-stream unit (10_state.md R28). -/
structure OutUnit where
  len   : Word
  buf   : Byte
  nbits : BitVec 3
deriving DecidableEq, Repr

/-- The priority queue unit (10_state.md R30). `external` is PQ_CMP: false natural, true external. Position p of HEAP is
`heap[p - 1]`. -/
structure Queue where
  size     : BitVec 10
  cap      : BitVec 10
  external : Bool
  heap     : Vector Entry Config.heapPhys
deriving DecidableEq, Repr

/-- The frequency table (10_state.md R33): FREQ and FT_VALID. -/
structure FreqTable where
  counts : Vector Word 256
  valid  : Bool
deriving DecidableEq, Repr

/-- A node of the arena (10_state.md R34). -/
structure Node where
  leaf   : Bool
  sym    : Byte
  freq   : Word
  left   : NodeIdx
  right  : NodeIdx
  parent : NodeIdx
deriving DecidableEq, Repr

/-- The node arena and the code registers (10_state.md R34, R35). -/
structure Code where
  nodes   : Vector Node Config.nodeCap
  count   : BitVec 10
  root    : NodeIdx
  leafMap : Vector NodeIdx 256
  valid   : Bool
deriving DecidableEq, Repr

/-- An entry of DSTACK (10_state.md R38): the placeholder PH or NODE(n). -/
inductive StackEntry where
  | ph
  | node (n : NodeIdx)
deriving DecidableEq, Repr

/-- The deserialization stack DSTACK with its depth DSP (10_state.md R38). -/
structure DStack where
  slots : Vector StackEntry Config.dstackCap
  dsp   : BitVec 9
deriving DecidableEq, Repr

/-- The LZW unit (10_state.md R39). -/
structure Lzw where
  wsize  : Word
  rsize  : Word
  wValid : Bool
  rValid : Bool
deriving DecidableEq, Repr

/-- The three byte memories (10_state.md R40) as one list over the host offset space (20_memory.md R44), addresses
strictly rising. A byte that nothing has written since power-on is not listed: it is the byte of the free draw `draw`
(R42, R152). -/
structure Memory where
  cells : List Host.Cell
  draw  : Nat
deriving DecidableEq, Repr

/-- The block. The fields after `mem` are the model's own: the accesses the host has issued and the block has not yet
performed, oldest first (20_memory.md R56), and the data its last read returned. -/
structure State where
  cfg      : Config.Params
  arg0     : Word
  arg1     : Word
  res0     : Word
  res1     : Word
  res2     : Word
  a0       : Word
  a1       : Word
  lastCmd  : Word
  cmdCnt   : Word
  status   : Status
  errInfo  : Word
  ctrl     : Ctrl
  inp      : InUnit
  out      : OutUnit
  pq       : Queue
  freq     : FreqTable
  code     : Code
  dstack   : DStack
  lzw      : Lzw
  mem      : Memory
  host     : List HostEvent
  readData : Option Word
deriving DecidableEq, Repr

/-- STATUS after reset: 0 (R22). -/
def Status.reset : Status :=
  { busy := false, done := false, err := false, eos := false, empty := false, ign := false, errCode := 0#8 }

/-- CTRL after reset: 0, both streams absent (R24). -/
def Ctrl.reset : Ctrl := { inEn := false, outEn := false, irqEn := false }

/-- The input unit after reset (R26). -/
def InUnit.reset : InUnit := { len := 0#32, pos := 0#32, buf := 0#8, nbits := 0#4 }

/-- The output unit after reset (R28). -/
def OutUnit.reset : OutUnit := { len := 0#32, buf := 0#8, nbits := 0#3 }

/-- The queue after reset (R30). HEAP's contents are unspecified and unobservable; zero is a DESIGN CHOICE (log 7). -/
def Queue.reset : Queue :=
  { size := 0#10, cap := Config.pqResetCap, external := false,
    heap := Vector.replicate Config.heapPhys { key := 0#32, tag := 0#32 } }

/-- The frequency table after reset (R33): every count 0, absent. -/
def FreqTable.reset : FreqTable := { counts := Vector.replicate 256 0#32, valid := false }

/-- The arena and code registers after reset (R34, R35). NODE's and LEAF_MAP's contents are unspecified and unobservable;
zero is a DESIGN CHOICE (log 7). -/
def Code.reset : Code :=
  { nodes := Vector.replicate Config.nodeCap
      { leaf := false, sym := 0#8, freq := 0#32, left := 0#9, right := 0#9, parent := 0#9 }
    count := 0#10, root := Config.noNode, leafMap := Vector.replicate 256 0#9, valid := false }

/-- DSTACK after reset (R38): DSP = 0; the contents are unspecified, PH is a DESIGN CHOICE (log 7). -/
def DStack.reset : DStack := { slots := Vector.replicate Config.dstackCap .ph, dsp := 0#9 }

/-- The LZW unit after reset (R39). -/
def Lzw.reset : Lzw :=
  { wsize := BitVec.ofNat 32 Config.lzwMinSize, rsize := BitVec.ofNat 32 Config.lzwMinSize,
    wValid := false, rValid := false }

/-- Power-on reset of a machine with the parameters `cfg`, whose byte memories come up with the free draw `draw`
(10_state.md R42, 70_reset_and_hazards.md R152). The latched operands, which R42 does not list, are 0: a DESIGN CHOICE
(log 3). -/
def State.powerOn (cfg : Config.Params) (draw : Nat) : State :=
  { cfg, arg0 := 0#32, arg1 := 0#32, res0 := 0#32, res1 := 0#32, res2 := 0#32, a0 := 0#32, a1 := 0#32
    lastCmd := 0#32, cmdCnt := 0#32, status := Status.reset, errInfo := 0#32, ctrl := Ctrl.reset
    inp := InUnit.reset, out := OutUnit.reset, pq := Queue.reset, freq := FreqTable.reset, code := Code.reset
    dstack := DStack.reset, lzw := Lzw.reset, mem := { cells := [], draw }, host := [], readData := none }

/-- The machine right after reset, with the default parameters of R9 (log 4). -/
def State.reset : State := State.powerOn Config.Params.default 0

end Sys2Proof.Machine
end

