-- ==== Sys2Proof/Machine/Flags.lean ====
section
/-! DEFINITION. The status flags: the words of STATUS and CTRL (10_state.md R22, R24), and every rule that sets or clears a
flag (30_encoding.md R68, 60_exceptions.md R139, R140, R143, 40_control.md R73). -/

namespace Sys2Proof.Machine

open Sys2Proof

/-- The code of an error, written to STATUS.ERRCODE (60_exceptions.md R138). -/
def errCodeByte (c : ErrCode) : Byte :=
  match c with
  | .illegalCommand   => 1#8
  | .nullArgument     => 2#8
  | .invalidArgument  => 3#8
  | .invalidFormat    => 4#8
  | .prematureEos     => 5#8
  | .capacityExceeded => 6#8
  | .outOverflow      => 7#8
  | .misaligned       => 8#8

/-- STATUS as the host reads it (R22): BUSY, DONE, ERR, EOS, EMPTY, IGN in bits 0 to 5, ERRCODE in bits 15:8. -/
def statusWord (f : Status) : Word :=
  0#16 ++ f.errCode ++ 0#2 ++ BitVec.ofBool f.ign ++ BitVec.ofBool f.empty ++ BitVec.ofBool f.eos ++
    BitVec.ofBool f.err ++ BitVec.ofBool f.done ++ BitVec.ofBool f.busy

/-- CTRL as the host reads it (R24). -/
def ctrlWord (c : Ctrl) : Word :=
  0#29 ++ BitVec.ofBool c.irqEn ++ BitVec.ofBool c.outEn ++ BitVec.ofBool c.inEn

/-- CTRL after a host write of `v` (R24): bits 31:3 are write-ignored. -/
def ctrlOfWord (v : Word) : Ctrl := { inEn := v.getLsbD 0, outEn := v.getLsbD 1, irqEn := v.getLsbD 2 }

/-- The flags at the issue of an accepted command (R68): DONE was cleared by the write of CMD; IGN, EOS and EMPTY are
cleared and BUSY is set. -/
def flagsAtIssue (f : Status) : Status :=
  { f with done := false, ign := false, eos := false, empty := false, busy := true }

/-- The flags when a command completes (R68). -/
def flagsCompleted (f : Status) : Status := { f with busy := false, done := true }

/-- The flags after `raise c` (R140). -/
def flagsRaised (c : ErrCode) (f : Status) : Status :=
  { f with err := true, errCode := errCodeByte c, busy := false, done := true }

/-- The flags after an ignored command (R143). -/
def flagsIgnored (f : Status) : Status := { f with ign := true, done := true }

/-- The flags CLR_ERR clears (R73). -/
def flagsCleared (f : Status) : Status := { f with err := false, errCode := 0#8 }

/-- The end-of-stream flag (R139). -/
def flagsEos (f : Status) : Status := { f with eos := true }

/-- The empty-queue flag (R139). -/
def flagsEmpty (f : Status) : Status := { f with empty := true }

/-- A host write of `v` to STATUS (R22): writing one to bit 1 clears DONE, every other bit is ignored. -/
def flagsHostWrite (v : Word) (f : Status) : Status :=
  if v.getLsbD 1 then { f with done := false } else f

/-- The interrupt output, a level (60_exceptions.md R145). -/
def irq (s : State) : Bool := s.ctrl.irqEn && s.status.done

end Sys2Proof.Machine
end

