-- ==== Sys2Proof/Machine/Ops.lean ====
section
/-! DEFINITION. The operations every command shares: the byte memories, the register files, running a command to its end,
raising an error (60_exceptions.md R140), the return from the error state (R144) and the ignored command (R143). -/

namespace Sys2Proof.Machine

open Sys2Proof

/-! ### The byte memories (10_state.md R40, 20_memory.md R44) -/

/-- The byte listed at a host offset, if that offset has been written since power-on. -/
def lookupCell : List Host.Cell → Nat → Option Byte
  | [], _ => none
  | (b, v) :: rest, a => if b = a then some v else lookupCell rest a

/-- Lists the byte `v` at `a`, keeping the addresses strictly rising. -/
def insertCell : List Host.Cell → Nat → Byte → List Host.Cell
  | [], a, v => [(a, v)]
  | (b, w) :: rest, a, v =>
    if a < b then (a, v) :: (b, w) :: rest
    else if a = b then (a, v) :: rest
    else (b, w) :: insertCell rest a v

/-- What an unlisted host offset reads as: the byte of the free draw (10_state.md R42, log 6). -/
def unlistedByte (m : Memory) (a : Nat) : Byte := Config.powerOnByte m.draw a

/-- The byte at a host offset. -/
def Memory.read (m : Memory) (a : Nat) : Byte := (lookupCell m.cells a).getD (unlistedByte m a)

/-- Writes one byte. -/
def Memory.write (m : Memory) (a : Nat) (v : Byte) : Memory := { m with cells := insertCell m.cells a v }

/-- The canonical form: addresses strictly rising. An unlisted offset holds no known byte, so no listed byte equals what
it holds (log 6). -/
abbrev Memory.wf (m : Memory) : Prop := m.cells.Pairwise (fun c d => c.1 < d.1)

/-- Where the IN_MEM window begins (20_memory.md R44). -/
abbrev inBase : Nat := 0x1000000

/-- Where the OUT_MEM window begins (R44). -/
abbrev outBase : Nat := 0x2000000

/-- Where the SCRATCH window begins (R44). -/
abbrev scrBase : Nat := 0x3000000

/-- `n` bytes at a host offset, little-endian (20_memory.md R48). -/
def readBytes (m : Memory) : (n a : Nat) → Word
  | 0, _ => 0#32
  | n + 1, a => (readBytes m n (a + 1) <<< 8) ||| (m.read a).setWidth 32

/-- Writes the low `n` bytes of `v`, little-endian (20_memory.md R48). -/
def writeBytes : (n : Nat) → Memory → (a : Nat) → Word → Memory
  | 0, m, _, _ => m
  | n + 1, m, a, v => writeBytes n (m.write a (v.setWidth 8)) (a + 1) (v >>> 8)

/-! ### Register files -/

/-- Writes entry `i` of a register file; an index the file does not have writes nothing. -/
def fileSet {α : Type} {n : Nat} (v : Vector α n) (i : Nat) (x : α) : Vector α n :=
  if h : i < n then v.set i x else v

/-- Reads entry `i` of a register file; an index the file does not have reads as `d`. -/
def fileGet {α : Type} {n : Nat} (v : Vector α n) (i : Nat) (d : α) : α :=
  if h : i < n then v[i] else d

/-! ### Commands as sequences of primitives (00_scope.md R11, R12) -/

/-- How a command ends before its last step: by `raise` (R11), or where the model stops. -/
inductive Stop where
  | raise (c : ErrCode)
  | fault (f : Fault)
deriving DecidableEq, Repr

/-- A primitive or a command's body: it changes the state and answers a value, or stops. A stop keeps the state it was
reached in, so nothing is rolled back (60_exceptions.md R141). -/
abbrev Op (α : Type) := EStateM Stop State α

/-- `raise E` (R11). -/
def raise {α : Type} (c : ErrCode) : Op α := throw (.raise c)

/-- Where the model stops. -/
def halt {α : Type} (f : Fault) : Op α := throw (.fault f)

/-- A check: raises `c` unless `p` holds. -/
def require (p : Prop) [Decidable p] (c : ErrCode) : Op Unit := if p then pure () else raise c

/-! ### Taking an error, and the return from it -/

/-- `raise c` in a command issued with the word in LASTCMD (60_exceptions.md R140): what the block saves and where it goes.
It has no vector and no mode; nothing else changes. -/
def takeError (c : ErrCode) (s : State) : State :=
  { s with status := flagsRaised c s.status, errInfo := s.lastCmd }

/-- The return from the error state (60_exceptions.md R144): ERR, ERRCODE and ERRINFO are cleared, nothing else changes. -/
def returnFromError (s : State) : State :=
  { s with status := flagsCleared s.status, errInfo := 0#32 }

/-- The end of a command that raised nothing (30_encoding.md R68). -/
def complete (s : State) : State := { s with status := flagsCompleted s.status }

/-- Runs a command's body to its end: completion (R68), the error it raised (R140), or the model's stop. -/
def command (body : Op Unit) (s : State) : Host.Outcome State Fault Refusal :=
  match body s with
  | .ok _ t => .next (complete t)
  | .error (.raise c) t => .next (takeError c t)
  | .error (.fault f) _ => .fault f

/-- The write of word `w` to CMD, before it is known whether the command is ignored (30_encoding.md R68). -/
def latchCommand (w : Word) (s : State) : State :=
  { s with lastCmd := w, status := { s.status with done := false } }

/-- Whether a word is accepted (R68): ERR = 0, or the opcode field is CLR_ERR's or SRESET's. -/
def accepted (w : Word) (s : State) : Bool :=
  !s.status.err || w.setWidth 8 == 0x02#8 || w.setWidth 8 == 0x03#8

/-- The issue of an accepted command (R68): flags, the latched operands, CMDCNT. -/
def issue (w : Word) (s : State) : State :=
  { s with lastCmd := w, status := flagsAtIssue s.status, a0 := s.arg0, a1 := s.arg1, cmdCnt := s.cmdCnt + 1#32 }

/-- Ignore (60_exceptions.md R143), after the write of `w` to CMD. -/
def ignore (w : Word) (s : State) : State :=
  let t := latchCommand w s
  { t with status := flagsIgnored t.status }

/-! ### Bytes of the three buffers, as the engine reaches them (20_memory.md R53) -/

/-- IN_MEM[a]. -/
def inByte (a : Nat) : Op Byte := do
  let s ← get
  if a < s.cfg.inCap then pure (s.mem.read (inBase + a)) else halt .noSuchByte

/-- SCRATCH[a]. -/
def scratchByte (a : Nat) : Op Byte := do
  let s ← get
  if a < s.cfg.scrCap then pure (s.mem.read (scrBase + a)) else halt .noSuchByte

/-- `SCRATCH[a] <- v`. -/
def setScratchByte (a : Nat) (v : Byte) : Op Unit := do
  let s ← get
  if a < s.cfg.scrCap then set { s with mem := s.mem.write (scrBase + a) v } else halt .noSuchByte

/-- `OUT_MEM[a] <- v`. -/
def setOutByte (a : Nat) (v : Byte) : Op Unit := do
  let s ← get
  if a < s.cfg.outCap then set { s with mem := s.mem.write (outBase + a) v } else halt .noSuchByte

end Sys2Proof.Machine
end

