-- ==== Sys2Proof/Machine/Operands.lean ====
section
/-! DEFINITION. Operands and results (30_encoding.md R64): a0 and a1 unsigned or as s32, RES0 to RES2, the sentinels
(60_exceptions.md R139), and the streams' absence (10_state.md R24). -/

namespace Sys2Proof.Machine

open Sys2Proof

/-- `a0`, an unsigned 32-bit integer (R64). -/
def operand0 : Op Nat := do return (← get).a0.toNat

/-- `a1`, an unsigned 32-bit integer (R64). -/
def operand1 : Op Nat := do return (← get).a1.toNat

/-- `s32(a0)` (00_scope.md R10). -/
def signedOperand0 : Op Int := do return (← get).a0.toInt

/-- `RES0 <- v`. -/
def setRes0 (v : Word) : Op Unit := modify fun s => { s with res0 := v }

/-- `RES1 <- v`. -/
def setRes1 (v : Word) : Op Unit := modify fun s => { s with res1 := v }

/-- `RES2 <- v`. -/
def setRes2 (v : Word) : Op Unit := modify fun s => { s with res2 := v }

/-- `(RES0, RES1) <- e` (43_pqueue.md R104, R105, R107). -/
def setResEntry (e : Entry) : Op Unit := do
  setRes0 e.key
  setRes1 e.tag

/-- The end-of-stream sentinel (60_exceptions.md R139): RES0 = 0xFFFF_FFFF and STATUS.EOS = 1. -/
def endOfStream : Op Unit :=
  modify fun s => { s with res0 := Config.eosValue, status := flagsEos s.status }

/-- The empty-queue sentinel (60_exceptions.md R139): RES0 = RES1 = 0 and STATUS.EMPTY = 1. -/
def emptyQueue : Op Unit :=
  modify fun s => { s with res0 := 0#32, res1 := 0#32, status := flagsEmpty s.status }

/-- The first check of every command that reads the input stream: CTRL.IN_EN = 0 raises NULL_ARGUMENT (10_state.md R24). -/
def needReader : Op Unit := do require ((← get).ctrl.inEn = true) .nullArgument

/-- The first check of every command that writes the output stream: CTRL.OUT_EN = 0 raises NULL_ARGUMENT (R24). -/
def needWriter : Op Unit := do require ((← get).ctrl.outEn = true) .nullArgument

/-- The check that a code is held: CODE_VALID = 0 raises NULL_ARGUMENT (60_exceptions.md R138). -/
def needCode : Op Unit := do require ((← get).code.valid = true) .nullArgument

end Sys2Proof.Machine
end

