-- ==== Sys2Proof/Machine/BitIn.lean ====
section
/-! DEFINITION. The bit-stream reader: BitsLeft, GetBit, GetBits, InReset, ReadVarint and the seven reading commands
(41_bitstream_in.md). -/

namespace Sys2Proof.Machine

open Sys2Proof

/-- BitsLeft() (R75) of an input unit. -/
def inBitsLeft (u : InUnit) : Nat := u.nbits.toNat + 8 * (u.len.toNat - u.pos.toNat)

/-- BitsLeft() (R75). -/
def bitsLeft : Op Nat := do return inBitsLeft (← get).inp

/-- The first half of GetBit (R76): with no bit buffered, the next byte of IN_MEM is buffered whole. -/
def refill : Op Unit := do
  let s ← get
  if s.inp.nbits = 0#4 then
    let b ← inByte s.inp.pos.toNat
    set { s with inp := { s.inp with buf := b, pos := s.inp.pos + 1#32, nbits := 8#4 } }
  else pure ()

/-- The second half of GetBit (R76): the highest buffered bit is consumed. -/
def drainBit : Op Bool := do
  let s ← get
  let n := s.inp.nbits - 1#4
  set { s with inp := { s.inp with nbits := n } }
  return s.inp.buf.getLsbD n.toNat

/-- GetBit() (R76). -/
def getBit : Op Bool := do
  refill
  drainBit

/-- The loop of GetBits (R77): `n` more bits after the value `v` of those already read. -/
def getBitsFrom : (n v : Nat) → Op Nat
  | 0, v => pure v
  | n + 1, v => do
    let b ← getBit
    getBitsFrom n (2 * v + b.toNat)

/-- GetBits(n) (R77): the first bit read is the highest of the result. -/
def getBits (n : Nat) : Op Nat := getBitsFrom n 0

/-- The input unit after InReset() (R78). -/
def rewound (u : InUnit) : InUnit := { u with pos := 0#32, nbits := 0#4, buf := 0#8 }

/-- InReset() (R78). -/
def inReset : Op Unit := modify fun s => { s with inp := rewound s.inp }

/-- One byte of a varint (R79): fewer than 8 bits left raises PREMATURE_EOS. -/
def varintByte : Op Nat := do
  require (8 ≤ (← bitsLeft)) .prematureEos
  getBits 8

/-- The loop of ReadVarint (R79): `k` more bytes may be followed by another, the next group goes to bit `sh`. With k = 0
the byte is the fifth, sh = 28: a group above 7 or a continuation flag raises INVALID_FORMAT. -/
def readVarintFrom : (k sh v : Nat) → Op Nat
  | 0, sh, v => do
    let b ← varintByte
    require (b % 128 ≤ 7 ∧ b < 128) .invalidFormat
    return v + (b % 128) * 2 ^ sh
  | k + 1, sh, v => do
    let b ← varintByte
    let w := v + (b % 128) * 2 ^ sh
    if b < 128 then return w else readVarintFrom k (sh + 7) w

/-- ReadVarint() (R79). -/
def readVarint : Op Nat := readVarintFrom 4 0 0

/-- A read of `n` bits that answers the end-of-stream sentinel, consuming nothing, when fewer are left (R80 to R82,
47_lzw_codec.md R136); `after` runs when the read was made. -/
def readOrEos (n : Nat) (after : Op Unit) : Op Unit := do
  if (← bitsLeft) < n then endOfStream
  else
    setRes0 (BitVec.ofNat 32 (← getBits n))
    after

/-- The copy loop of RD_BYTES (R83): `SCRATCH[dst + j] <- IN_MEM[src + j]` for j = 0 .. k − 1. -/
def copyInput : (k src dst : Nat) → Op Unit
  | 0, _, _ => pure ()
  | k + 1, src, dst => do
    setScratchByte dst (← inByte src)
    copyInput k (src + 1) (dst + 1)

/-- RD_BIT (R80). -/
def opRdBit : Op Unit := do
  needReader
  readOrEos 1 (pure ())

/-- RD_BITS (R81). -/
def opRdBits : Op Unit := do
  needReader
  let n ← operand0
  require (n ≤ 31) .invalidArgument
  readOrEos n (pure ())

/-- RD_BYTE (R82). -/
def opRdByte : Op Unit := do
  needReader
  readOrEos 8 (pure ())

/-- The move of RD_BYTES (R83) once its checks have passed: `k` bytes to SCRATCH at `off`; IN_BUF is left as if they had
been read bit by bit. -/
def moveInput (off k : Nat) : Op Unit := do
  let s ← get
  copyInput k s.inp.pos.toNat off
  let last ← inByte (s.inp.pos.toNat + k - 1)
  modify fun t => { t with inp := { t.inp with pos := s.inp.pos + BitVec.ofNat 32 k, buf := last } }
  setRes0 (BitVec.ofNat 32 k)

/-- RD_BYTES (R83). -/
def opRdBytes : Op Unit := do
  needReader
  let off ← operand0
  let n ← operand1
  let s ← get
  require (off + n ≤ s.cfg.scrCap) .invalidArgument
  require (s.inp.nbits = 0#4) .misaligned
  let avail := s.inp.len.toNat - s.inp.pos.toNat
  if n = 0 then setRes0 0#32
  else if avail = 0 then endOfStream
  else moveInput off (min n avail)

/-- RD_INT (R84). -/
def opRdInt : Op Unit := do
  needReader
  setRes0 (BitVec.ofNat 32 (← readVarint))

/-- IN_LENGTH (R85). -/
def opInLength : Op Unit := do
  needReader
  setRes0 (← get).inp.len

/-- IN_RESET (R86). -/
def opInReset : Op Unit := do
  needReader
  inReset

/-- The meaning of RD_BIT. -/
def execRdBit (s : State) : Host.Outcome State Fault Refusal := command opRdBit s

/-- The meaning of RD_BITS. -/
def execRdBits (s : State) : Host.Outcome State Fault Refusal := command opRdBits s

/-- The meaning of RD_BYTE. -/
def execRdByte (s : State) : Host.Outcome State Fault Refusal := command opRdByte s

/-- The meaning of RD_BYTES. -/
def execRdBytes (s : State) : Host.Outcome State Fault Refusal := command opRdBytes s

/-- The meaning of RD_INT. -/
def execRdInt (s : State) : Host.Outcome State Fault Refusal := command opRdInt s

/-- The meaning of IN_LENGTH. -/
def execInLength (s : State) : Host.Outcome State Fault Refusal := command opInLength s

/-- The meaning of IN_RESET. -/
def execInReset (s : State) : Host.Outcome State Fault Refusal := command opInReset s

end Sys2Proof.Machine
end

