-- ==== Sys2Proof/Machine/BitOut.lean ====
section
/-! DEFINITION. The bit-stream writer: PutBit, PutBits, Flush, WriteVarint and the six writing commands
(42_bitstream_out.md). -/

namespace Sys2Proof.Machine

open Sys2Proof

/-- The byte the pending bits become when `b` is appended (R87): `((OUT_BUF << 1) | b) & 0xFF`. -/
def appendBit (buf : Byte) (b : Bool) : Byte := (buf <<< 1) ||| (BitVec.ofBool b).setWidth 8

/-- Stores a completed byte at OUT_LEN and starts the next one (R87, R89). -/
def storeByte (v : Byte) : Op Unit := do
  let s ← get
  setOutByte s.out.len.toNat v
  modify fun t => { t with out := { len := s.out.len + 1#32, buf := 0#8, nbits := 0#3 } }

/-- PutBit(b) (R87). OUT_NBITS reaches 8 exactly when it was 7. -/
def putBit (b : Bool) : Op Unit := do
  let s ← get
  require (¬ (s.out.nbits = 7#3 ∧ s.out.len.toNat = s.cfg.outCap)) .outOverflow
  if s.out.nbits = 7#3 then storeByte (appendBit s.out.buf b)
  else set { s with out := { s.out with buf := appendBit s.out.buf b, nbits := s.out.nbits + 1#3 } }

/-- PutBits(n, v) (R88): bits n − 1 down to 0 of `v`. -/
def putBits : (n v : Nat) → Op Unit
  | 0, _ => pure ()
  | n + 1, v => do
    putBit (v.testBit n)
    putBits n v

/-- Flush() (R89). -/
def flush : Op Unit := do
  let s ← get
  if s.out.nbits = 0#3 then pure ()
  else
    require (s.out.len.toNat ≠ s.cfg.outCap) .outOverflow
    storeByte (s.out.buf <<< (8 - s.out.nbits.toNat))

/-- The loop of WriteVarint (R90); `k` bounds the bytes that may follow this one, and 4 is enough for 31 bits. -/
def writeVarintFrom : (k v : Nat) → Op Unit
  | 0, v => putBits 8 (v % 128)
  | k + 1, v =>
    if v / 128 = 0 then putBits 8 (v % 128)
    else do
      putBits 8 (v % 128 + 128)
      writeVarintFrom k (v / 128)

/-- WriteVarint(v) (R90), 0 ≤ v ≤ 2^31 − 1. -/
def writeVarint (v : Nat) : Op Unit := writeVarintFrom 4 v

/-- The copy loop of WR_BYTES (R94): `OUT_MEM[dst + j] <- SCRATCH[src + j]` for j = 0 .. k − 1. -/
def copyOutput : (k src dst : Nat) → Op Unit
  | 0, _, _ => pure ()
  | k + 1, src, dst => do
    setOutByte dst (← scratchByte src)
    copyOutput k (src + 1) (dst + 1)

/-- WR_BIT (R91). -/
def opWrBit : Op Unit := do
  needWriter
  let b ← operand0
  require (b ≤ 1) .invalidArgument
  putBit (b == 1)

/-- WR_BITS (R92). -/
def opWrBits : Op Unit := do
  needWriter
  let n ← operand0
  let v ← operand1
  require (n ≤ 31) .invalidArgument
  require (v < 2 ^ n) .invalidArgument
  putBits n v

/-- WR_BYTE (R93). -/
def opWrByte : Op Unit := do
  needWriter
  let b ← operand0
  require (b ≤ 255) .invalidArgument
  putBits 8 b

/-- WR_BYTES (R94). -/
def opWrBytes : Op Unit := do
  needWriter
  let off ← operand0
  let n ← operand1
  let s ← get
  require (off + n ≤ s.cfg.scrCap) .invalidArgument
  require (s.out.nbits = 0#3) .misaligned
  require (s.out.len.toNat + n ≤ s.cfg.outCap) .outOverflow
  copyOutput n off s.out.len.toNat
  modify fun t => { t with out := { t.out with len := s.out.len + BitVec.ofNat 32 n } }

/-- WR_INT (R95). -/
def opWrInt : Op Unit := do
  needWriter
  let v ← operand0
  require (v < 2 ^ 31) .invalidArgument
  writeVarint v

/-- WR_FLUSH (R96). -/
def opWrFlush : Op Unit := do
  needWriter
  flush

/-- The meaning of WR_BIT. -/
def execWrBit (s : State) : Host.Outcome State Fault Refusal := command opWrBit s

/-- The meaning of WR_BITS. -/
def execWrBits (s : State) : Host.Outcome State Fault Refusal := command opWrBits s

/-- The meaning of WR_BYTE. -/
def execWrByte (s : State) : Host.Outcome State Fault Refusal := command opWrByte s

/-- The meaning of WR_BYTES. -/
def execWrBytes (s : State) : Host.Outcome State Fault Refusal := command opWrBytes s

/-- The meaning of WR_INT. -/
def execWrInt (s : State) : Host.Outcome State Fault Refusal := command opWrInt s

/-- The meaning of WR_FLUSH. -/
def execWrFlush (s : State) : Host.Outcome State Fault Refusal := command opWrFlush s

end Sys2Proof.Machine
end

