-- ==== Sys2Proof/Machine/Control.lean ====
section
/-! DEFINITION. The control commands: NOP, CLR_ERR, SRESET (40_control.md). -/

namespace Sys2Proof.Machine

open Sys2Proof

/-- NOP (40_control.md R72). -/
def opNop : Op Unit := pure ()

/-- CLR_ERR (R73). -/
def opClrErr : Op Unit := modify returnFromError

/-- Soft reset (R74, 10_state.md R42): every element gets its reset value but those R42 says are unchanged: HEAP, NODE,
LEAF_MAP, DSTACK and the three byte memories. -/
def softReset (s : State) : State :=
  { s with
    arg0 := 0#32, arg1 := 0#32, res0 := 0#32, res1 := 0#32, res2 := 0#32
    lastCmd := 0#32, cmdCnt := 0#32, status := Status.reset, errInfo := 0#32, ctrl := Ctrl.reset
    inp := InUnit.reset, out := OutUnit.reset
    pq := { s.pq with size := 0#10, cap := Config.pqResetCap, external := false }
    freq := FreqTable.reset
    code := { s.code with count := 0#10, root := Config.noNode, valid := false }
    dstack := { s.dstack with dsp := 0#9 }
    lzw := Lzw.reset }

/-- SRESET (R74); DONE is set by its completion. -/
def opSreset : Op Unit := modify softReset

/-- The meaning of NOP. -/
def execNop (s : State) : Host.Outcome State Fault Refusal := command opNop s

/-- The meaning of CLR_ERR. -/
def execClrErr (s : State) : Host.Outcome State Fault Refusal := command opClrErr s

/-- The meaning of SRESET. -/
def execSreset (s : State) : Host.Outcome State Fault Refusal := command opSreset s

end Sys2Proof.Machine
end

