-- ==== Sys2Proof/Machine/PQueue.lean ====
section
/-! DEFINITION. The priority queue: Lt, SiftUp, Offer, SiftDown, PollMin and the six queue commands (43_pqueue.md). The
primitives are functions of the queue alone. -/

namespace Sys2Proof.Machine

open Sys2Proof

/-- HEAP[p], p from 1 to 1023 (10_state.md R30). -/
def heapAt (q : Queue) (p : Nat) : Entry := fileGet q.heap (p - 1) { key := 0#32, tag := 0#32 }

/-- `HEAP[p] <- e`. -/
def setHeap (q : Queue) (p : Nat) (e : Entry) : Queue := { q with heap := fileSet q.heap (p - 1) e }

/-- Swaps HEAP[i] and HEAP[j]. -/
def swapHeap (q : Queue) (i j : Nat) : Queue := setHeap (setHeap q i (heapAt q j)) j (heapAt q i)

/-- Lt(x, y) (43_pqueue.md R97): the active ordering, natural on s32(key) or the external comparator. -/
def entryLt (external : Bool) (x y : Entry) : Bool :=
  if external then Config.extLt x y else x.key.slt y.key

/-- The loop of SiftUp (R98). `i div 2 < i`, so `fuel ≥ i` never runs out before i = 1. -/
def siftUpFrom : (fuel : Nat) → (q : Queue) → (i : Nat) → Queue
  | 0, q, _ => q
  | fuel + 1, q, i =>
    if i > 1 ∧ entryLt q.external (heapAt q i) (heapAt q (i / 2)) then
      siftUpFrom fuel (swapHeap q i (i / 2)) (i / 2)
    else q

/-- SiftUp(i) (R98). -/
def siftUp (q : Queue) (i : Nat) : Queue := siftUpFrom i q i

/-- The last three lines of Offer (R99): the entry goes to the end and is sifted up. -/
def insertLast (q : Queue) (e : Entry) : Queue :=
  let n := q.size.toNat + 1
  siftUp (setHeap { q with size := q.size + 1#10 } n e) n

/-- Offer(e) (R99); `none` is CAPACITY_EXCEEDED, with no effect. -/
def offered (q : Queue) (e : Entry) : Option Queue :=
  if q.size = q.cap then
    let nc := 2 * q.cap.toNat + 1
    if nc > Config.heapPhys then none
    else some (insertLast { q with cap := BitVec.ofNat 10 nc } e)
  else some (insertLast q e)

/-- The child SiftDown compares against (R100): the left one on a tie. -/
def smallerChild (q : Queue) (l : Nat) : Nat :=
  if l + 1 ≤ q.size.toNat ∧ entryLt q.external (heapAt q (l + 1)) (heapAt q l) then l + 1 else l

/-- The loop of SiftDown (R100). `i` at least doubles, so `fuel ≥ PQ_SIZE` never runs out before the children are absent. -/
def siftDownFrom : (fuel : Nat) → (q : Queue) → (i : Nat) → Queue
  | 0, q, _ => q
  | fuel + 1, q, i =>
    if 2 * i > q.size.toNat then q
    else
      let c := smallerChild q (2 * i)
      if entryLt q.external (heapAt q c) (heapAt q i) then siftDownFrom fuel (swapHeap q i c) c else q

/-- SiftDown(i) (R100). -/
def siftDown (q : Queue) (i : Nat) : Queue := siftDownFrom q.size.toNat q i

/-- The queue after PollMin() (R101), called only with PQ_SIZE ≥ 1; the entry it returns is HEAP[1]. -/
def polled (q : Queue) : Queue :=
  siftDown { setHeap q 1 (heapAt q q.size.toNat) with size := q.size - 1#10 } 1

/-- Offer(e) (R99). -/
def offer (e : Entry) : Op Unit := do
  let s ← get
  match offered s.pq e with
  | some q => set { s with pq := q }
  | none => raise .capacityExceeded

/-- PollMin() (R101). -/
def pollMin : Op Entry := do
  let s ← get
  set { s with pq := polled s.pq }
  return heapAt s.pq 1

/-- The new, empty queue of PQ_INIT (R102) and Build (44_huffman_tree.md R111); HEAP's contents stay. -/
def freshQueue (q : Queue) (cap : BitVec 10) (external : Bool) : Queue :=
  { q with size := 0#10, cap, external }

/-- PQ_INIT (R102). -/
def opPqInit : Op Unit := do
  let cap ← operand0
  let capSigned ← signedOperand0
  let ordering ← operand1
  let s ← get
  require (¬ (ordering = 1 ∧ s.cfg.extCmpPresent = false)) .nullArgument
  require (ordering ≤ 1) .invalidArgument
  require (0 < capSigned) .invalidArgument
  require (cap ≤ Config.heapPhys) .capacityExceeded
  set { s with pq := freshQueue s.pq (BitVec.ofNat 10 cap) (ordering == 1) }

/-- PQ_OFFER (R103). -/
def opPqOffer (present : Bool) : Op Unit := do
  require (present = true) .nullArgument
  let s ← get
  offer { key := s.a0, tag := s.a1 }

/-- PQ_POLL (R104). -/
def opPqPoll : Op Unit := do
  if (← get).pq.size = 0#10 then emptyQueue
  else setResEntry (← pollMin)

/-- PQ_PEEK (R105). -/
def opPqPeek : Op Unit := do
  let s ← get
  if s.pq.size = 0#10 then emptyQueue
  else setResEntry (heapAt s.pq 1)

/-- PQ_SIZE (R106). -/
def opPqSize : Op Unit := do setRes0 ((← get).pq.size.setWidth 32)

/-- PQ_AT (R107). -/
def opPqAt : Op Unit := do
  let i ← operand0
  let s ← get
  require (1 ≤ i ∧ i ≤ s.pq.size.toNat) .invalidArgument
  setResEntry (heapAt s.pq i)

/-- The meaning of PQ_INIT. -/
def execPqInit (s : State) : Host.Outcome State Fault Refusal := command opPqInit s

/-- The meaning of PQ_OFFER. -/
def execPqOffer (present : Bool) (s : State) : Host.Outcome State Fault Refusal := command (opPqOffer present) s

/-- The meaning of PQ_POLL. -/
def execPqPoll (s : State) : Host.Outcome State Fault Refusal := command opPqPoll s

/-- The meaning of PQ_PEEK. -/
def execPqPeek (s : State) : Host.Outcome State Fault Refusal := command opPqPeek s

/-- The meaning of PQ_SIZE. -/
def execPqSize (s : State) : Host.Outcome State Fault Refusal := command opPqSize s

/-- The meaning of PQ_AT. -/
def execPqAt (s : State) : Host.Outcome State Fault Refusal := command opPqAt s

end Sys2Proof.Machine
end

