-- ==== Sys2Proof/Machine/HufTree.lean ====
section
/-! DEFINITION. The frequency table, the node arena and the heap-driven merge: Alloc, Scan, Build and the six table and
tree commands (44_huffman_tree.md). -/

namespace Sys2Proof.Machine

open Sys2Proof

/-- FREQ[s] (10_state.md R33). -/
def freqAt (f : FreqTable) (sym : Nat) : Word := fileGet f.counts sym 0#32

/-- A table with `FREQ[sym] <- n`. -/
def setFreq (f : FreqTable) (sym : Nat) (n : Word) : FreqTable := { f with counts := fileSet f.counts sym n }

/-- The empty table (R113). -/
def emptyFreq : FreqTable := { counts := Vector.replicate 256 0#32, valid := true }

/-- The sum over s of FREQ[s] (R116), as an integer. -/
def freqTotal (f : FreqTable) : Nat := (f.counts.toList.map BitVec.toNat).sum

/-- LEAF_MAP[s] (10_state.md R35). -/
def leafAt (c : Code) (sym : Nat) : NodeIdx := fileGet c.leafMap sym Config.noNode

/-- A code with `LEAF_MAP[sym] <- n`. -/
def setLeaf (c : Code) (sym : Nat) (n : NodeIdx) : Code := { c with leafMap := fileSet c.leafMap sym n }

/-- NODE[n], `none` where it has no architectural value: only NODE[0 .. NODE_COUNT − 1] are allocated (10_state.md
R34). -/
def nodeOf (c : Code) (n : Nat) : Option Node :=
  if h : n < Config.nodeCap ∧ n < c.count.toNat then some (c.nodes[n]'h.1) else none

/-- NODE[n] (R34). A node at or above NODE_COUNT has no value to read: the model stops (93_implementation_defined.md
item 17). -/
def nodeAt (n : Nat) : Op Node := do
  match nodeOf (← get).code n with
  | some nd => pure nd
  | none => halt .unallocatedNode

/-- `NODE[n].PARENT <- p`. -/
def setParent (n p : NodeIdx) : Op Unit := do
  let nd ← nodeAt n.toNat
  modify fun s => { s with code := { s.code with nodes := fileSet s.code.nodes n.toNat { nd with parent := p } } }

/-- Alloc(leaf, sym, freq, l, r) (R109). -/
def alloc (leaf : Bool) (sym : Byte) (freq : Word) (l r : NodeIdx) : Op NodeIdx := do
  let s ← get
  require (s.code.count.toNat < Config.nodeCap) .capacityExceeded
  let nd : Node := { leaf, sym, freq, left := l, right := r, parent := Config.noNode }
  set { s with code := { s.code with nodes := fileSet s.code.nodes s.code.count.toNat nd, count := s.code.count + 1#10 } }
  return s.code.count.setWidth 9

/-- `LEAF_MAP[sym] <- n`. -/
def mapLeaf (sym : Nat) (n : NodeIdx) : Op Unit := modify fun s => { s with code := setLeaf s.code sym n }

/-- The counting loop of Scan (R110): `n` more bytes from IN_MEM[k]. -/
def countFrom : (n k : Nat) → Op Unit
  | 0, _ => pure ()
  | n + 1, k => do
    let b ← inByte k
    modify fun s => { s with freq := setFreq s.freq b.toNat (freqAt s.freq b.toNat + 1#32) }
    countFrom n (k + 1)

/-- Scan() (R110). -/
def scan : Op Unit := do
  modify fun s => { s with freq := { s.freq with counts := Vector.replicate 256 0#32 } }
  countFrom (← get).inp.len.toNat 0
  inReset
  modify fun s => { s with freq := { s.freq with valid := true } }

/-- The code registers with no code and an empty arena (R111, 45_huffman_code.md R120). -/
def noCode (c : Code) : Code :=
  { c with valid := false, root := Config.noNode, count := 0#10, leafMap := Vector.replicate 256 Config.noNode }

/-- The body of Build's first loop (R111) for one symbol. -/
def offerLeaf (sym : Nat) : Op Unit := do
  let f := freqAt (← get).freq sym
  if f = 0#32 then pure ()
  else
    let n ← alloc true (BitVec.ofNat 8 sym) f Config.noNode Config.noNode
    mapLeaf sym n
    offer { key := f, tag := n.setWidth 32 }

/-- Build's first loop (R111) over the symbols of a list. -/
def offerLeaves : List Nat → Op Unit
  | [] => pure ()
  | sym :: rest => do
    offerLeaf sym
    offerLeaves rest

/-- The body of Build's second loop (R111): the two least trees become the LEFT and RIGHT of a new node. -/
def mergeTwo : Op Unit := do
  let x ← pollMin
  let y ← pollMin
  let n ← alloc false 0#8 (x.key + y.key) (x.tag.setWidth 9) (y.tag.setWidth 9)
  setParent (x.tag.setWidth 9) n
  setParent (y.tag.setWidth 9) n
  offer { key := x.key + y.key, tag := n.setWidth 32 }

/-- Build's second loop (R111): each merge takes one entry from the queue, so `fuel ≥ PQ_SIZE` never runs out. -/
def mergeAll : (fuel : Nat) → Op Unit
  | 0 => pure ()
  | fuel + 1 => do
    if 1 < (← get).pq.size.toNat then
      mergeTwo
      mergeAll fuel
    else pure ()

/-- Build() (R111). -/
def build : Op Unit := do
  modify fun s => { s with code := noCode s.code, pq := freshQueue s.pq Config.hufPqInitCap false }
  offerLeaves (List.range 256)
  mergeAll (← get).pq.size.toNat
  let top ← pollMin
  modify fun s => { s with code := { s.code with root := top.tag.setWidth 9, valid := true } }

/-- RES1 of HUF_NODE (R117): LEFT in bits 8:0, RIGHT 17:9, PARENT 26:18, LEAF in bit 31. -/
def nodeLinks (n : Node) : Word := BitVec.ofBool n.leaf ++ 0#4 ++ n.parent ++ n.right ++ n.left

/-- FREQ_CLEAR (R113). -/
def opFreqClear : Op Unit := modify fun s => { s with freq := emptyFreq }

/-- FREQ_SET (R114). -/
def opFreqSet : Op Unit := do
  let sym ← operand0
  let n ← operand1
  require (sym ≤ 255) .invalidArgument
  require (n < 2 ^ 31) .invalidArgument
  modify fun s => { s with freq := { setFreq s.freq sym (BitVec.ofNat 32 n) with valid := true } }

/-- FREQ_SCAN (R115). -/
def opFreqScan : Op Unit := do
  needReader
  scan

/-- HUF_BUILD (R116). The sum is 0 exactly when every FREQ[s] is. -/
def opHufBuild : Op Unit := do
  let s ← get
  require (s.freq.valid = true) .nullArgument
  require (freqTotal s.freq ≠ 0) .invalidArgument
  require (freqTotal s.freq ≤ 2 ^ 31 - 1) .invalidArgument
  build

/-- HUF_NODE (R117). -/
def opHufNode : Op Unit := do
  let i ← operand0
  let s ← get
  require (i < s.code.count.toNat) .invalidArgument
  let nd ← nodeAt i
  setRes0 nd.freq
  setRes1 (nodeLinks nd)
  setRes2 (nd.sym.setWidth 32)

/-- HUF_LEAF (R118). -/
def opHufLeaf : Op Unit := do
  needCode
  let sym ← operand0
  require (sym ≤ 255) .invalidArgument
  setRes0 ((leafAt (← get).code sym).setWidth 32)

/-- The meaning of FREQ_CLEAR. -/
def execFreqClear (s : State) : Host.Outcome State Fault Refusal := command opFreqClear s

/-- The meaning of FREQ_SET. -/
def execFreqSet (s : State) : Host.Outcome State Fault Refusal := command opFreqSet s

/-- The meaning of FREQ_SCAN. -/
def execFreqScan (s : State) : Host.Outcome State Fault Refusal := command opFreqScan s

/-- The meaning of HUF_BUILD. -/
def execHufBuild (s : State) : Host.Outcome State Fault Refusal := command opHufBuild s

/-- The meaning of HUF_NODE. -/
def execHufNode (s : State) : Host.Outcome State Fault Refusal := command opHufNode s

/-- The meaning of HUF_LEAF. -/
def execHufLeaf (s : State) : Host.Outcome State Fault Refusal := command opHufLeaf s

end Sys2Proof.Machine
end

