-- ==== Sys2Proof/Machine/HufCode.lean ====
section
/-! DEFINITION. The header, encode and decode: Ser, Deser, Path, EncodeSym, DecodeSym and the four code commands
(45_huffman_code.md). -/

namespace Sys2Proof.Machine

open Sys2Proof

/-- Ser(n) (R119). The recursion visits a node of the arena at each level, so a proper tree has fewer levels than the
arena has nodes; a walk that is longer follows broken links (10_state.md R36), and the model stops. -/
def ser : (fuel : Nat) → (n : NodeIdx) → Op Unit
  | 0, _ => halt .endlessWalk
  | fuel + 1, n => do
    let nd ← nodeAt n.toNat
    if nd.leaf then
      putBit false
      putBits 8 nd.sym.toNat
    else
      putBit true
      ser fuel nd.left
      ser fuel nd.right

/-- Ser(ROOT) (R124, 46_huffman_stream.md R129). -/
def serRoot : Op Unit := do ser Config.nodeCap (← get).code.root

/-- DSTACK[i] (10_state.md R38). -/
def stackAt (d : DStack) (i : Nat) : StackEntry := fileGet d.slots i .ph

/-- The stack with `DSTACK[DSP] <- e; DSP <- DSP + 1` (R120). -/
def pushed (d : DStack) (e : StackEntry) : DStack :=
  { slots := fileSet d.slots d.dsp.toNat e, dsp := d.dsp + 1#9 }

/-- Pushes an entry on DSTACK. -/
def push (e : StackEntry) : Op Unit := modify fun s => { s with dstack := pushed s.dstack e }

/-- The pattern of R120's collapse, "placeholder, child, child": DSTACK[DSP−3] = PH, DSTACK[DSP−2] = NODE(l),
DSTACK[DSP−1] = NODE(r). -/
def collapsible (d : DStack) : Option (NodeIdx × NodeIdx) :=
  let n := d.dsp.toNat
  if 3 ≤ n then
    match stackAt d (n - 3), stackAt d (n - 2), stackAt d (n - 1) with
    | .ph, .node l, .node r => some (l, r)
    | _, _, _ => none
  else none

/-- The success test of R120: DSP = 1 and DSTACK[0] = NODE(t). -/
def soleNode (d : DStack) : Option NodeIdx :=
  if d.dsp = 1#9 then
    match stackAt d 0 with
    | .node t => some t
    | .ph => none
  else none

/-- The inner loop of Deser (R120): a collapse takes two entries from the stack, so `fuel ≥ DSP` never runs out. -/
def collapse : (fuel : Nat) → Op Unit
  | 0 => pure ()
  | fuel + 1 => do
    match collapsible (← get).dstack with
    | none => pure ()
    | some (l, r) =>
      modify fun s => { s with dstack := { s.dstack with dsp := s.dstack.dsp - 3#9 } }
      let m ← alloc false 0#8 0#32 l r
      setParent l m
      setParent r m
      push (.node m)
      collapse fuel

/-- The PARENT marker of Deser (R120). -/
def parentMarker : Op Unit := do
  require ((← get).dstack.dsp ≠ 511#9) .capacityExceeded
  push .ph

/-- The LEAF marker of Deser (R120): the leaf byte, the new leaf, and the collapses. -/
def leafMarker : Op Unit := do
  require (8 ≤ (← bitsLeft)) .invalidFormat
  let sym ← getBits 8
  let s ← get
  require (s.code.count.toNat < Config.nodeCap ∧ s.dstack.dsp ≠ 511#9) .capacityExceeded
  let n ← alloc true (BitVec.ofNat 8 sym) 0#32 Config.noNode Config.noNode
  mapLeaf sym n
  push (.node n)
  collapse (← get).dstack.dsp.toNat

/-- The loop of Deser (R120). Each turn consumes a bit, so with `fuel = BitsLeft()` the loop has run out of bits when the
fuel is gone: INVALID_FORMAT, as the loop's own first check says. -/
def deserFrom : (fuel : Nat) → Op Unit
  | 0 => raise .invalidFormat
  | fuel + 1 => do
    require (1 ≤ (← bitsLeft)) .invalidFormat
    if (← getBit) then
      parentMarker
      deserFrom fuel
    else
      leafMarker
      match soleNode (← get).dstack with
      | some t => modify fun s => { s with code := { s.code with root := t, valid := true } }
      | none => deserFrom fuel

/-- Deser() (R120). -/
def deser : Op Unit := do
  modify fun s => { s with code := noCode s.code, dstack := { s.dstack with dsp := 0#9 } }
  deserFrom (← bitsLeft)

/-- The upward walk of Path(s) (R121): the bits from node `n` to the root, leaf to root. A walk longer than the arena
follows broken links (10_state.md R36), and the model stops. -/
def pathUp : (fuel : Nat) → (n : NodeIdx) → Op (List Bool)
  | 0, _ => halt .endlessWalk
  | fuel + 1, n => do
    if n = (← get).code.root then return []
    else
      let nd ← nodeAt n.toNat
      let p ← nodeAt nd.parent.toNat
      let up ← pathUp fuel nd.parent
      return decide (p.right = n) :: up

/-- Path(s) (R121), root to leaf. -/
def path (sym : Nat) : Op (List Bool) := do
  let up ← pathUp Config.nodeCap (leafAt (← get).code sym)
  return up.reverse

/-- Writes a bit sequence, first to last (R122). -/
def putAll : List Bool → Op Unit
  | [] => pure ()
  | b :: rest => do
    putBit b
    putAll rest

/-- EncodeSym(s) (R122). -/
def encodeSym (sym : Nat) : Op Unit := do
  let r ← nodeAt (← get).code.root.toNat
  if r.leaf then pure ()
  else putAll (← path sym)

/-- The loop of DecodeSym (R123) from node `n`. Each turn consumes a bit, so with `fuel = BitsLeft()` no bit is left when
the fuel is gone: PREMATURE_EOS, as the loop's own check says. -/
def decodeFrom : (fuel : Nat) → (n : NodeIdx) → Op Byte
  | 0, n => do
    let nd ← nodeAt n.toNat
    if nd.leaf then return nd.sym else raise .prematureEos
  | fuel + 1, n => do
    let nd ← nodeAt n.toNat
    if nd.leaf then return nd.sym
    else
      require (1 ≤ (← bitsLeft)) .prematureEos
      if (← getBit) then decodeFrom fuel nd.right else decodeFrom fuel nd.left

/-- DecodeSym() (R123). -/
def decodeSym : Op Byte := do decodeFrom (← bitsLeft) (← get).code.root

/-- HUF_WRHDR (R124). -/
def opHufWrhdr : Op Unit := do
  needWriter
  needCode
  serRoot

/-- HUF_RDHDR (R125). -/
def opHufRdhdr : Op Unit := do
  needReader
  deser

/-- HUF_ENC (R126). -/
def opHufEnc : Op Unit := do
  needWriter
  needCode
  let sym ← operand0
  require (sym ≤ 255) .invalidArgument
  require (leafAt (← get).code sym ≠ Config.noNode) .invalidArgument
  encodeSym sym

/-- HUF_DEC (R127). -/
def opHufDec : Op Unit := do
  needReader
  needCode
  setRes0 ((← decodeSym).setWidth 32)

/-- The meaning of HUF_WRHDR. -/
def execHufWrhdr (s : State) : Host.Outcome State Fault Refusal := command opHufWrhdr s

/-- The meaning of HUF_RDHDR. -/
def execHufRdhdr (s : State) : Host.Outcome State Fault Refusal := command opHufRdhdr s

/-- The meaning of HUF_ENC. -/
def execHufEnc (s : State) : Host.Outcome State Fault Refusal := command opHufEnc s

/-- The meaning of HUF_DEC. -/
def execHufDec (s : State) : Host.Outcome State Fault Refusal := command opHufDec s

end Sys2Proof.Machine
end

