-- ==== Sys2Proof/Machine/HufStream.lean ====
section
/-! DEFINITION. Huffman compress and expand (46_huffman_stream.md). -/

namespace Sys2Proof.Machine

open Sys2Proof

/-- The coding loop of HUF_COMPRESS (R129): `n` more bytes of the input. -/
def compressBytes : (n : Nat) → Op Unit
  | 0 => pure ()
  | n + 1 => do
    encodeSym (← getBits 8)
    compressBytes n

/-- The sequence of HUF_COMPRESS (R129) on a stream that is not empty. -/
def compressStream : Op Unit := do
  let n := (← get).inp.len.toNat
  scan
  build
  serRoot
  writeVarint n
  inReset
  compressBytes n
  flush

/-- The decoding loop of HUF_EXPAND (R130): `n` more symbols. -/
def expandSymbols : (n : Nat) → Op Unit
  | 0 => pure ()
  | n + 1 => do
    putBits 8 (← decodeSym).toNat
    expandSymbols n

/-- The sequence of HUF_EXPAND (R130) on a stream that is not empty. -/
def expandStream : Op Unit := do
  inReset
  deser
  let n ← readVarint
  expandSymbols n
  flush

/-- HUF_COMPRESS (R129). -/
def opHufCompress : Op Unit := do
  needReader
  needWriter
  if (← get).inp.len = 0#32 then pure () else compressStream

/-- HUF_EXPAND (R130). -/
def opHufExpand : Op Unit := do
  needReader
  needWriter
  if (← get).inp.len = 0#32 then pure () else expandStream

/-- The meaning of HUF_COMPRESS. -/
def execHufCompress (s : State) : Host.Outcome State Fault Refusal := command opHufCompress s

/-- The meaning of HUF_EXPAND. -/
def execHufExpand (s : State) : Host.Outcome State Fault Refusal := command opHufExpand s

end Sys2Proof.Machine
end

