-- ==== Sys2Proof/Machine/Lzw.lean ====
section
/-! DEFINITION. The LZW variable-width code writer and reader (47_lzw_codec.md). -/

namespace Sys2Proof.Machine

open Sys2Proof

/-- Width(sz) = ceil(log2(sz)) (R132, 00_scope.md R16). -/
def codeWidth (sz : Nat) : Nat := if sz ≤ 1 then 0 else Nat.log2 (sz - 1) + 1

/-- LZW_WINIT (R133). -/
def opLzwWinit : Op Unit := do
  require (256 ≤ (← signedOperand0)) .invalidArgument
  modify fun s => { s with lzw := { s.lzw with wsize := s.a0, wValid := true } }

/-- LZW_WRITE (R134). -/
def opLzwWrite : Op Unit := do
  needWriter
  let s ← get
  require (s.lzw.wValid = true) .nullArgument
  let w := codeWidth s.lzw.wsize.toNat
  require (w ≤ 31) .invalidArgument
  let k ← operand0
  require (k < s.lzw.wsize.toNat) .invalidArgument
  putBits w k
  modify fun t => { t with lzw := { t.lzw with wsize := t.lzw.wsize + 1#32 } }

/-- LZW_RINIT (R135). -/
def opLzwRinit : Op Unit := do
  require (256 ≤ (← signedOperand0)) .invalidArgument
  modify fun s => { s with lzw := { s.lzw with rsize := s.a0, rValid := true } }

/-- LZW_READ (R136). -/
def opLzwRead : Op Unit := do
  needReader
  let s ← get
  require (s.lzw.rValid = true) .nullArgument
  let w := codeWidth s.lzw.rsize.toNat
  require (w ≤ 31) .invalidArgument
  readOrEos w (modify fun t => { t with lzw := { t.lzw with rsize := t.lzw.rsize + 1#32 } })

/-- The meaning of LZW_WINIT. -/
def execLzwWinit (s : State) : Host.Outcome State Fault Refusal := command opLzwWinit s

/-- The meaning of LZW_WRITE. -/
def execLzwWrite (s : State) : Host.Outcome State Fault Refusal := command opLzwWrite s

/-- The meaning of LZW_RINIT. -/
def execLzwRinit (s : State) : Host.Outcome State Fault Refusal := command opLzwRinit s

/-- The meaning of LZW_READ. -/
def execLzwRead (s : State) : Host.Outcome State Fault Refusal := command opLzwRead s

end Sys2Proof.Machine
end

