-- ==== Sys2Proof/Machine/Dispatch.lean ====
section
/-! DEFINITION. The dispatcher: one arm per command, each one call of its meaning. -/

namespace Sys2Proof.Machine

open Sys2Proof

def exec (i : Instr) (s : State) : Host.Outcome State Fault Refusal :=
  match i with
  | .nop => Sys2Proof.Machine.execNop s
  | .clrErr => Sys2Proof.Machine.execClrErr s
  | .sreset => Sys2Proof.Machine.execSreset s
  | .rdBit => Sys2Proof.Machine.execRdBit s
  | .rdBits => Sys2Proof.Machine.execRdBits s
  | .rdByte => Sys2Proof.Machine.execRdByte s
  | .rdBytes => Sys2Proof.Machine.execRdBytes s
  | .rdInt => Sys2Proof.Machine.execRdInt s
  | .inLength => Sys2Proof.Machine.execInLength s
  | .inReset => Sys2Proof.Machine.execInReset s
  | .wrBit => Sys2Proof.Machine.execWrBit s
  | .wrBits => Sys2Proof.Machine.execWrBits s
  | .wrByte => Sys2Proof.Machine.execWrByte s
  | .wrBytes => Sys2Proof.Machine.execWrBytes s
  | .wrInt => Sys2Proof.Machine.execWrInt s
  | .wrFlush => Sys2Proof.Machine.execWrFlush s
  | .pqInit => Sys2Proof.Machine.execPqInit s
  | .pqOffer present => Sys2Proof.Machine.execPqOffer present s
  | .pqPoll => Sys2Proof.Machine.execPqPoll s
  | .pqPeek => Sys2Proof.Machine.execPqPeek s
  | .pqSize => Sys2Proof.Machine.execPqSize s
  | .pqAt => Sys2Proof.Machine.execPqAt s
  | .freqClear => Sys2Proof.Machine.execFreqClear s
  | .freqSet => Sys2Proof.Machine.execFreqSet s
  | .freqScan => Sys2Proof.Machine.execFreqScan s
  | .hufBuild => Sys2Proof.Machine.execHufBuild s
  | .hufNode => Sys2Proof.Machine.execHufNode s
  | .hufLeaf => Sys2Proof.Machine.execHufLeaf s
  | .hufWrhdr => Sys2Proof.Machine.execHufWrhdr s
  | .hufRdhdr => Sys2Proof.Machine.execHufRdhdr s
  | .hufEnc => Sys2Proof.Machine.execHufEnc s
  | .hufDec => Sys2Proof.Machine.execHufDec s
  | .hufCompress => Sys2Proof.Machine.execHufCompress s
  | .hufExpand => Sys2Proof.Machine.execHufExpand s
  | .lzwWinit => Sys2Proof.Machine.execLzwWinit s
  | .lzwWrite => Sys2Proof.Machine.execLzwWrite s
  | .lzwRinit => Sys2Proof.Machine.execLzwRinit s
  | .lzwRead => Sys2Proof.Machine.execLzwRead s

end Sys2Proof.Machine
end

