-- ==== Sys2Proof/Machine/Bus.lean ====
section
/-! DEFINITION. The host's side: the register block and the windows (20_memory.md R44 to R49), reads and writes, and the
issue of a command by a write of CMD (30_encoding.md R68). -/

namespace Sys2Proof.Machine

open Sys2Proof

/-- The registers of the register block (20_memory.md R45). -/
inductive Reg where
  | cmd | arg0 | arg1 | res0 | res1 | res2 | status | errInfo | ctrl | cmdCnt | id
  | inLen | inPos | inBits | outLen | outBits | pqSize | pqCap | pqCmp
  | hufStat | nodeCount | lzwWsize | lzwRsize | lzwStat
deriving DecidableEq, Repr

/-- The register at an offset of the register block (R45); every other offset of it is unmapped (R44). -/
def regAt (offset : Nat) : Option Reg :=
  match offset with
  | 0x000 => some .cmd
  | 0x004 => some .arg0
  | 0x008 => some .arg1
  | 0x010 => some .res0
  | 0x014 => some .res1
  | 0x018 => some .res2
  | 0x020 => some .status
  | 0x024 => some .errInfo
  | 0x028 => some .ctrl
  | 0x02C => some .cmdCnt
  | 0x030 => some .id
  | 0x040 => some .inLen
  | 0x044 => some .inPos
  | 0x048 => some .inBits
  | 0x050 => some .outLen
  | 0x054 => some .outBits
  | 0x060 => some .pqSize
  | 0x064 => some .pqCap
  | 0x068 => some .pqCmp
  | 0x070 => some .hufStat
  | 0x074 => some .nodeCount
  | 0x080 => some .lzwWsize
  | 0x084 => some .lzwRsize
  | 0x088 => some .lzwStat
  | _ => none

/-- What a host access reaches. The three windows carry the host offset, which is the byte's key in memory. -/
inductive Target where
  | reg (r : Reg)
  | freq (sym : Nat)
  | input (offset : Nat)
  | output (offset : Nat)
  | scratch (offset : Nat)
deriving DecidableEq, Repr

/-- The bytes of an access (R47). -/
def widthBytes (n : Width) : Nat :=
  match n with
  | .one  => 1
  | .two  => 2
  | .four => 4

/-- Whether an access of `n` bytes at `a` lies wholly in the mapped length of a window (R46). -/
abbrev inWindow (base cap a n : Nat) : Prop := base ≤ a ∧ a + n ≤ base + cap

/-- The map of R44 with the widths and the alignment of R46 and R47; `none` is a bus error whichever way the access goes. -/
def locate (cfg : Config.Params) (a n : Nat) : Option Target :=
  if a % n ≠ 0 then none
  else if a < 0x1000 then (if n = 4 then (regAt a).map .reg else none)
  else if a < 0x1400 then (if n = 4 then some (.freq ((a - 0x1000) / 4)) else none)
  else if inWindow inBase cfg.inCap a n then some (.input a)
  else if inWindow outBase cfg.outCap a n then some (.output a)
  else if inWindow scrBase cfg.scrCap a n then some (.scratch a)
  else none

/-- IN_BITS (10_state.md R27): IN_BUF in bits 7:0, IN_NBITS in bits 11:8. -/
def inBitsWord (u : InUnit) : Word := 0#20 ++ u.nbits ++ u.buf

/-- OUT_BITS (10_state.md R29): OUT_BUF in bits 7:0, OUT_NBITS in bits 10:8. -/
def outBitsWord (u : OutUnit) : Word := 0#21 ++ u.nbits ++ u.buf

/-- HUF_STAT (10_state.md R37): CODE_VALID in bit 0, FT_VALID in bit 1, ROOT in bits 24:16. -/
def hufStatWord (c : Code) (f : FreqTable) : Word :=
  0#7 ++ c.root ++ 0#14 ++ BitVec.ofBool f.valid ++ BitVec.ofBool c.valid

/-- LZW_STAT (10_state.md R39): W_VALID in bit 0, R_VALID in bit 1. -/
def lzwStatWord (l : Lzw) : Word := 0#30 ++ BitVec.ofBool l.rValid ++ BitVec.ofBool l.wValid

/-- A host read of a register (R45). -/
def readReg (s : State) (r : Reg) : Word :=
  match r with
  | .cmd       => s.lastCmd
  | .arg0      => s.arg0
  | .arg1      => s.arg1
  | .res0      => s.res0
  | .res1      => s.res1
  | .res2      => s.res2
  | .status    => statusWord s.status
  | .errInfo   => s.errInfo
  | .ctrl      => ctrlWord s.ctrl
  | .cmdCnt    => s.cmdCnt
  | .id        => Config.idValue
  | .inLen     => s.inp.len
  | .inPos     => s.inp.pos
  | .inBits    => inBitsWord s.inp
  | .outLen    => s.out.len
  | .outBits   => outBitsWord s.out
  | .pqSize    => s.pq.size.setWidth 32
  | .pqCap     => s.pq.cap.setWidth 32
  | .pqCmp     => (BitVec.ofBool s.pq.external).setWidth 32
  | .hufStat   => hufStatWord s.code s.freq
  | .nodeCount => s.code.count.setWidth 32
  | .lzwWsize  => s.lzw.wsize
  | .lzwRsize  => s.lzw.rsize
  | .lzwStat   => lzwStatWord s.lzw

/-- MemRead(addr, n) (R47, R48); `none` is a bus error. -/
def hostRead (s : State) (addr : BitVec 28) (n : Width) : Option Word :=
  match locate s.cfg addr.toNat (widthBytes n) with
  | none => none
  | some (.reg r) => some (readReg s r)
  | some (.freq sym) => some (freqAt s.freq sym)
  | some (.input a) => some (readBytes s.mem (widthBytes n) a)
  | some (.output a) => some (readBytes s.mem (widthBytes n) a)
  | some (.scratch a) => some (readBytes s.mem (widthBytes n) a)

/-- The engine runs the command in LASTCMD, which has been issued: the decoder (30_encoding.md R67), ILLEGAL_COMMAND for an
illegal word (R66), else the command. -/
def runIssued (s : State) : Host.Outcome State Fault Refusal :=
  match decode s.lastCmd with
  | .ok i => exec i s
  | .error _ => .next (takeError .illegalCommand s)

/-- A host write of `w` to CMD (30_encoding.md R68): ignored (60_exceptions.md R143), or issued and run to its end. -/
def writeCmd (w : Word) (s : State) : Host.Outcome State Fault Refusal :=
  if accepted w s then runIssued (issue w s) else .next (ignore w s)

/-- A host write of IN_LEN (10_state.md R27): `min(v, IN_CAP)`, and a new input stream. -/
def writeInLen (v : Word) (s : State) : State :=
  { s with inp := { len := BitVec.ofNat 32 (min v.toNat s.cfg.inCap), pos := 0#32, buf := 0#8, nbits := 0#4 } }

/-- A host write of OUT_LEN (10_state.md R29): a new output stream, whatever the value. -/
def writeOutLen (s : State) : State := { s with out := { len := 0#32, buf := 0#8, nbits := 0#3 } }

/-- A host write to a register (R45); a write to a read-only register is ignored and is no bus error. -/
def writeReg (r : Reg) (v : Word) (s : State) : Host.Outcome State Fault Refusal :=
  match r with
  | .cmd    => writeCmd v s
  | .arg0   => .next { s with arg0 := v }
  | .arg1   => .next { s with arg1 := v }
  | .status => .next { s with status := flagsHostWrite v s.status }
  | .ctrl   => .next { s with ctrl := ctrlOfWord v }
  | .inLen  => .next (writeInLen v s)
  | .outLen => .next (writeOutLen s)
  | .res0 | .res1 | .res2 | .errInfo | .cmdCnt | .id | .inPos | .inBits | .outBits | .pqSize | .pqCap | .pqCmp
  | .hufStat | .nodeCount | .lzwWsize | .lzwRsize | .lzwStat => .next s

/-- MemWrite(addr, n, v) (R46 to R49): the FREQ and OUT_MEM windows are read-only, and a write to them is a bus error. -/
def hostWrite (s : State) (addr : BitVec 28) (n : Width) (v : Word) : Host.Outcome State Fault Refusal :=
  match locate s.cfg addr.toNat (widthBytes n) with
  | none => .fault .busError
  | some (.reg r) => writeReg r v s
  | some (.freq _) => .fault .busError
  | some (.input a) => .next { s with mem := writeBytes (widthBytes n) s.mem a v }
  | some (.output _) => .fault .busError
  | some (.scratch a) => .next { s with mem := writeBytes (widthBytes n) s.mem a v }

/-- Performs one event of the outside world (20_memory.md R54 to R56). Power-on reset keeps the parameters and takes the
next free draw for the byte memories; the accesses still to be performed are the host's and stay. -/
def perform (e : HostEvent) (s : State) : Host.Outcome State Fault Refusal :=
  match e with
  | .read addr n =>
    match hostRead s addr n with
    | some v => .next { s with readData := some v }
    | none => .fault .busError
  | .write addr n v => hostWrite s addr n v
  | .powerOn => .next { State.powerOn s.cfg (s.mem.draw + 1) with host := s.host, readData := s.readData }

/-- One step (log 1, log 2). While BUSY = 1 the engine runs the issued command and the host is held (R55); else the
host's oldest access is performed; with none the block is idle and holds its state (60_exceptions.md R151). -/
def advance (s : State) : Host.Outcome State Fault Refusal :=
  if s.status.busy then runIssued s
  else
    match s.host with
    | [] => .next s
    | e :: rest => perform e { s with host := rest }

/-- The host's next access is a write of `w` to CMD, performed once BUSY = 0 (20_memory.md R55). -/
def withNextCommand (w : Word) (s : State) : State :=
  { s with status := { s.status with busy := false }, host := .write 0x000#28 .four w :: s.host }

end Sys2Proof.Machine
end

