-- ==== Sys2Proof/Machine/Step.lean ====
section
/-! DEFINITION. The step of the machine, and how a command word is put where the next step takes it. -/

namespace Sys2Proof.Machine

open Sys2Proof

/-- One step of the block with its host: one atomic command, one host access, or idleness (20_memory.md R55, R56). -/
def step (s : State) : Host.Outcome State Fault Refusal := advance s

/-- `s` with the instruction whose bits are `w` as the host's next write of CMD: the block fetches nothing (20_memory.md
R59), so that is where its next command comes from (log 1). -/
def State.withFetchWord (s : State) (nbits w : Nat) : State :=
  withNextCommand (BitVec.ofNat 32 (w % 2 ^ nbits)) s

end Sys2Proof.Machine
end

