-- ==== Sys2Proof/Safety.lean ====
section
/-! DEFINITION. The terms claims are stated in: the streams as lists of bits, the queue as a list of entries, the held code as
a tree, varints as lists of bytes, and the invariants that rule out states no run reaches. No meaning uses any of this. -/

namespace Sys2Proof.Safety

open Sys2Proof Sys2Proof.Machine

/-! ### Streams as bits (20_memory.md R50) -/

/-- The `n` low bits of `v`, most significant first. -/
def bitsMSB : (n v : Nat) → List Bool
  | 0, _ => []
  | n + 1, v => v.testBit n :: bitsMSB n v

/-- The bits of bytes, in stream order. -/
def bytesBits (bs : List Nat) : List Bool := bs.flatMap (bitsMSB 8)

/-- The bytes of IN_MEM from index `k` on, `n` of them. -/
def inputBytes (s : State) (k n : Nat) : List Nat :=
  (List.range n).map fun j => (s.mem.read (inBase + (k + j))).toNat

/-- The bytes OUT_MEM[0 .. n − 1]. -/
def outputBytes (s : State) (n : Nat) : List Nat :=
  (List.range n).map fun j => (s.mem.read (outBase + j)).toNat

/-- The unconsumed bits of the input stream, next one first (10_state.md R26). -/
def inputBits (s : State) : List Bool :=
  bitsMSB s.inp.nbits.toNat s.inp.buf.toNat ++
    bytesBits (inputBytes s s.inp.pos.toNat (s.inp.len.toNat - s.inp.pos.toNat))

/-- The bits of the output stream, earliest first: the complete bytes and the pending bits (10_state.md R28). -/
def outputBits (s : State) : List Bool :=
  bytesBits (outputBytes s s.out.len.toNat) ++ bitsMSB s.out.nbits.toNat s.out.buf.toNat

/-- How many bits can be appended before a PutBit raises OUT_OVERFLOW (42_bitstream_out.md R87). -/
def room (s : State) : Nat := 8 * s.cfg.outCap + 7 - (8 * s.out.len.toNat + s.out.nbits.toNat)

/-! ### Ranges of the units (10_state.md R26, R28, R30, R33) -/

/-- The input unit between commands (R26, R27). -/
abbrev InputOk (s : State) : Prop :=
  s.cfg.legal ∧ s.inp.len.toNat ≤ s.cfg.inCap ∧ s.inp.pos.toNat ≤ s.inp.len.toNat ∧ s.inp.nbits.toNat ≤ 7

/-- The output unit between commands (R28): OUT_LEN ≤ OUT_CAP and OUT_BUF[7 : OUT_NBITS] = 0. -/
abbrev OutputOk (s : State) : Prop :=
  s.cfg.legal ∧ s.out.len.toNat ≤ s.cfg.outCap ∧ s.out.buf.toNat < 2 ^ s.out.nbits.toNat

/-- The queue's size and capacity (R30). -/
abbrev QueueOk (q : Queue) : Prop := 1 ≤ q.cap.toNat ∧ q.size.toNat ≤ q.cap.toNat

/-- The legal values of the frequency counters (R33). -/
def FreqOk (f : FreqTable) : Prop := ∀ sym, (freqAt f sym).toNat < 2 ^ 31

/-- The heap-order invariant (R31). -/
def HeapOrdered (q : Queue) : Prop :=
  ∀ i, 2 ≤ i → i ≤ q.size.toNat → entryLt q.external (heapAt q i) (heapAt q (i / 2)) = false

/-- The live entries in heap storage order, positions 1 to PQ_SIZE (R30). -/
def entries (q : Queue) : List Entry := (List.range q.size.toNat).map fun k => heapAt q (k + 1)

/-- What STATUS, ERRINFO and the results say between commands: BUSY = 0; ERRCODE and ERRINFO are 0 while ERR = 0, and ERRCODE
is one of R138's codes while ERR = 1 (10_state.md R22, R23); EOS and EMPTY stand with their sentinels (60_exceptions.md
R139). -/
abbrev StatusOk (s : State) : Prop :=
  s.status.busy = false ∧
  (s.status.err = false → s.status.errCode = 0#8 ∧ s.errInfo = 0#32) ∧
  (s.status.err = true → 1 ≤ s.status.errCode.toNat ∧ s.status.errCode.toNat ≤ 8) ∧
  (s.status.eos = true → s.res0 = 0xFFFFFFFF#32) ∧
  (s.status.empty = true → s.res0 = 0#32 ∧ s.res1 = 0#32)

/-- From `s` to `t` exactly the bits `bs` have been consumed from the front of the input stream, and nothing but the input
unit has changed; IN_BUF holds the last byte fetched (R26, 41_bitstream_in.md R76). -/
structure Consumed (s t : State) (bs : List Bool) : Prop where
  shape : t = { s with inp := t.inp }
  ok    : InputOk t
  len   : t.inp.len = s.inp.len
  bits  : inputBits s = bs ++ inputBits t
  buf   : t.inp.buf = if t.inp.pos = s.inp.pos then s.inp.buf else s.mem.read (inBase + (t.inp.pos.toNat - 1))

/-- From `s` to `t` exactly the bits `bs` have been appended to the output stream, and nothing but the output unit and the
bytes of OUT_MEM that completed has changed (R28, 42_bitstream_out.md R87): every other byte reads as before. -/
structure Appended (s t : State) (bs : List Bool) : Prop where
  shape   : t = { s with mem := t.mem, out := t.out }
  ok      : OutputOk t
  bits    : outputBits t = outputBits s ++ bs
  outside : ∀ a, (a < outBase + s.out.len.toNat ∨ outBase + t.out.len.toNat ≤ a) → t.mem.read a = s.mem.read a

/-! ### Varints (20_memory.md R51) -/

/-- The value of a varint's bytes: 7 bits of magnitude per byte, the least significant group first. -/
def varintValue : List Nat → Nat
  | [] => 0
  | b :: bs => b % 128 + 128 * varintValue bs

/-- The bytes of a varint the reader accepts (41_bitstream_in.md R79): every byte but the last has its high bit set, at most
five bytes, a value below 2^31. -/
abbrev IsVarint (bs : List Nat) : Prop :=
  bs ≠ [] ∧ bs.length ≤ 5 ∧ (∀ b ∈ bs.dropLast, 128 ≤ b ∧ b < 256) ∧ (∀ b ∈ bs.getLast?, b < 128) ∧
    varintValue bs < 2 ^ 31

/-- A varint with no byte to spare (42_bitstream_out.md R90): its last byte is not 0, unless it is the only one. -/
abbrev IsMinimalVarint (bs : List Nat) : Prop := IsVarint bs ∧ (bs.length = 1 ∨ ∀ b ∈ bs.getLast?, b ≠ 0)

/-! ### Codes as trees (10_state.md R34 to R36) -/

/-- A full binary tree whose leaves are symbols (00_scope.md R14). -/
inductive HTree where
  | leaf (sym : Byte)
  | node (l r : HTree)
deriving DecidableEq, Repr

/-- The number of nodes. -/
def HTree.size : HTree → Nat
  | .leaf _ => 1
  | .node l r => l.size + r.size + 1

/-- The symbols of the leaves, left to right. -/
def HTree.symbols : HTree → List Byte
  | .leaf sym => [sym]
  | .node l r => l.symbols ++ r.symbols

/-- The header of a tree (46_huffman_stream.md R128, 45_huffman_code.md R119): `0` and a raw byte for a leaf, `1` and the two
subtrees for a parent. -/
def HTree.header : HTree → List Bool
  | .leaf sym => false :: bitsMSB 8 sym.toNat
  | .node l r => true :: (l.header ++ r.header)

/-- The codeword of a symbol, root to leaf, LEFT = 0 and RIGHT = 1 (R121): the leftmost leaf that carries it. -/
def HTree.codeword (sym : Byte) : HTree → Option (List Bool)
  | .leaf x => if x = sym then some [] else none
  | .node l r =>
    match l.codeword sym with
    | some p => some (false :: p)
    | none => (r.codeword sym).map (true :: ·)

/-- The symbol at the end of a path, if the path ends at a leaf. -/
def HTree.symbolAt : HTree → List Bool → Option Byte
  | .leaf sym, [] => some sym
  | .node l _, false :: p => l.symbolAt p
  | .node _ r, true :: p => r.symbolAt p
  | _, _ => none

/-- One codeword read from the front of a bit sequence (R123): its symbol and the bits after it. -/
def HTree.decode : HTree → List Bool → Option (Byte × List Bool)
  | .leaf sym, bs => some (sym, bs)
  | .node l _, false :: bs => l.decode bs
  | .node _ r, true :: bs => r.decode bs
  | .node _ _, [] => none

/-- `n` codewords read from the front of a bit sequence: their symbols and the bits after them. -/
def HTree.decodeMany (T : HTree) : (n : Nat) → List Bool → Option (List Byte × List Bool)
  | 0, bs => some ([], bs)
  | n + 1, bs =>
    match T.decode bs with
    | none => none
    | some (sym, rest) =>
      match T.decodeMany n rest with
      | none => none
      | some (syms, out) => some (sym :: syms, out)

/-- The codewords of a list of symbols, one after the other. -/
def HTree.encodeMany (T : HTree) : List Byte → Option (List Bool)
  | [] => some []
  | sym :: rest =>
    match T.codeword sym, T.encodeMany rest with
    | some p, some bs => some (p ++ bs)
    | _, _ => none

/-- The arena holds the tree `T` at node `n`, whose PARENT is `p` (R34, R36): every node is allocated, a leaf has no
children, an internal node has two different ones, and each child's PARENT points back. -/
def Holds (c : Code) : (p n : NodeIdx) → HTree → Prop
  | p, n, .leaf sym =>
    ∃ nd, nodeOf c n.toNat = some nd ∧ nd.leaf = true ∧ nd.sym = sym ∧ nd.parent = p ∧
      nd.left = Config.noNode ∧ nd.right = Config.noNode
  | p, n, .node l r =>
    ∃ nd, nodeOf c n.toNat = some nd ∧ nd.leaf = false ∧ nd.parent = p ∧ nd.left ≠ nd.right ∧
      Holds c n nd.left l ∧ Holds c n nd.right r

/-- The node at the end of a path of child links from node `n`. -/
def follow (c : Code) : NodeIdx → List Bool → Option NodeIdx
  | n, [] => some n
  | n, b :: path =>
    match nodeOf c n.toNat with
    | none => none
    | some nd => if nd.leaf then none else follow c (if b then nd.right else nd.left) path

/-- LEAF_MAP agrees with the tree at the root (R36): a symbol it maps is the leaf at the end of some path, and it maps
exactly the tree's symbols. -/
def MapsLeaves (c : Code) (T : HTree) : Prop :=
  ∀ sym : Byte,
    (leafAt c sym.toNat ≠ Config.noNode ↔ sym ∈ T.symbols) ∧
    (leafAt c sym.toNat ≠ Config.noNode →
      ∃ p, follow c c.root p = some (leafAt c sym.toNat) ∧ T.symbolAt p = some sym)

/-- The held code is the tree `T`: the arena's allocated nodes are exactly its nodes (R34 to R36). -/
def HoldsTree (c : Code) (T : HTree) : Prop :=
  c.valid = true ∧ Holds c Config.noNode c.root T ∧ T.size = c.count.toNat ∧ T.size ≤ Config.nodeCap ∧ MapsLeaves c T

/-- NODE_COUNT's range (R34) and the tree invariants of R36: whenever CODE_VALID = 1 a tree is held. -/
def CodeOk (c : Code) : Prop := c.count.toNat ≤ Config.nodeCap ∧ (c.valid = true → ∃ T, HoldsTree c T)

/-- Whether a leaf of the arena's tree carries each symbol at most once is not part of R36: a header may repeat a symbol
(R120). A tree Build makes repeats none. -/
abbrev HTree.distinct (T : HTree) : Prop := T.symbols.Nodup

/-- The weighted length of a code (44_huffman_tree.md R112): the sum over the leaves of weight times depth, for a tree whose
root stands at depth `d`. -/
def HTree.cost (weight : Byte → Nat) : (d : Nat) → HTree → Nat
  | d, .leaf sym => weight sym * d
  | d, .node l r => l.cost weight (d + 1) + r.cost weight (d + 1)

/-- The sum of all frequencies (44_huffman_tree.md R116). -/
def totalFreq (f : FreqTable) : Nat := ((List.range 256).map fun sym => (freqAt f sym).toNat).sum

/-- The symbols of a frequency table, ascending (44_huffman_tree.md R111). -/
def tableSymbols (f : FreqTable) : List Nat := (List.range 256).filter fun sym => decide (freqAt f sym ≠ 0#32)

/-- The bytes of a list of symbols. -/
def symbolBytes (syms : List Byte) : List Nat := syms.map BitVec.toNat

/-- The symbols of a list of bytes. -/
def byteSymbols (bs : List Nat) : List Byte := bs.map (BitVec.ofNat 8)

/-- How many zero bits Flush adds after `n` bits (42_bitstream_out.md R89). -/
def padding (n : Nat) : List Bool := List.replicate ((8 - n % 8) % 8) false

/-- The bits in the output stream, pending ones included. -/
def outputLength (s : State) : Nat := 8 * s.out.len.toNat + s.out.nbits.toNat

/-! ### What the sifts do (43_pqueue.md R98, R100) -/

/-- From `q` to `r` the entry `e` has entered at position `n` and risen: at every one of its `k` swaps it was strictly less
than the parent, which moved down one place, and it stopped at position 1 or below a parent it is not less than. Every other
position is as it was. -/
def RisesFrom (n : Nat) (e : Entry) (q r : Queue) : Prop :=
  ∃ k, 1 ≤ n >>> k ∧
    (∀ m, m < k → entryLt q.external e (heapAt q (n >>> (m + 1))) = true) ∧
    (n >>> k = 1 ∨ entryLt q.external e (heapAt q (n >>> (k + 1))) = false) ∧
    heapAt r (n >>> k) = e ∧
    (∀ m, m < k → heapAt r (n >>> m) = heapAt q (n >>> (m + 1))) ∧
    ∀ p, 1 ≤ p → (∀ m, m ≤ k → p ≠ n >>> m) → heapAt r p = heapAt q p

/-- The child of position `p` that SiftDown compares against with `n` live entries (R100): the right one only where there is
one and it is strictly less than the left one. -/
def comparedChild (q : Queue) (n p : Nat) : Nat :=
  if 2 * p + 1 ≤ n ∧ entryLt q.external (heapAt q (2 * p + 1)) (heapAt q (2 * p)) = true then 2 * p + 1 else 2 * p

/-- From `q` to `r`, with `n` live entries left, the entry `e` has been put at the root and has sunk along the positions
`path 0 = 1, …, path k`: at every step the compared child was strictly less than `e` and moved up one place, and `e` stopped
where there is no child or the compared child is not less. Every other position is as it was. -/
def SinksFromRoot (n : Nat) (e : Entry) (q r : Queue) : Prop :=
  ∃ (k : Nat) (path : Nat → Nat), path 0 = 1 ∧
    (∀ m, m < k → 2 * path m ≤ n ∧ path (m + 1) = comparedChild q n (path m) ∧
      entryLt q.external (heapAt q (path (m + 1))) e = true) ∧
    (n < 2 * path k ∨ entryLt q.external (heapAt q (comparedChild q n (path k))) e = false) ∧
    heapAt r (path k) = e ∧
    (∀ m, m < k → heapAt r (path m) = heapAt q (path (m + 1))) ∧
    ∀ p, 1 ≤ p → (∀ m, m ≤ k → p ≠ path m) → heapAt r p = heapAt q p

/-- The active ordering is a strict weak order (10_state.md R31): asymmetric, and whatever is less than another is less than,
or has above it, any third. -/
abbrev StrictWeak (external : Bool) : Prop :=
  ∀ x y z : Entry,
    (entryLt external x y = true → entryLt external y x = false) ∧
    (entryLt external x y = true → entryLt external x z = true ∨ entryLt external z y = true)

/-! ### Code widths (47_lzw_codec.md R132) -/

/-- `w` is ceil(log2(size)): the least w with 2^w ≥ size (00_scope.md R16). -/
abbrev IsWidth (size w : Nat) : Prop := size ≤ 2 ^ w ∧ ∀ v, v < w → 2 ^ v < size

/-! ### Invariants between steps -/

/-- The streams, the frequency counters and memory's form (10_state.md R26, R28, R33; log 6). -/
def StreamsLegal (s : State) : Prop := s.mem.wf ∧ InputOk s ∧ OutputOk s ∧ FreqOk s.freq

/-- The queue's size and capacity (10_state.md R30) and its heap order (R31), which is promised only as far as the active
ordering is a strict weak order. -/
def QueueLegal (s : State) : Prop := QueueOk s.pq ∧ (StrictWeak s.pq.external → HeapOrdered s.pq)

/-! ### The host's side -/

/-- The block is not busy and the host's next access is a write of the word `w` to CMD. -/
abbrev NextCommand (s : State) (w : Word) (rest : List HostEvent) : Prop :=
  s.status.busy = false ∧ s.host = .write 0x000#28 .four w :: rest

/-- The block is not busy and `e` happens next. -/
abbrev NextEvent (s : State) (e : HostEvent) (rest : List HostEvent) : Prop :=
  s.status.busy = false ∧ s.host = e :: rest

/-- The offsets of the registers (20_memory.md R45). -/
def registerOffsets : List Nat :=
  [0x000, 0x004, 0x008, 0x010, 0x014, 0x018, 0x020, 0x024, 0x028, 0x02C, 0x030, 0x040,
   0x044, 0x048, 0x050, 0x054, 0x060, 0x064, 0x068, 0x070, 0x074, 0x080, 0x084, 0x088]

/-- The offsets of the registers the host cannot write (R45). -/
def readOnlyOffsets : List Nat :=
  [0x010, 0x014, 0x018, 0x024, 0x02C, 0x030, 0x044, 0x048, 0x054, 0x060, 0x064, 0x068, 0x070, 0x074, 0x080, 0x084, 0x088]

/-- All `n` bytes at `a` lie in the window of `cap` bytes at `base`. -/
abbrev Inside (base cap a n : Nat) : Prop := base ≤ a ∧ a + n ≤ base + cap

/-- The host reads that are no bus error (20_memory.md R44, R46, R47). -/
abbrev LegalRead (cfg : Config.Params) (a n : Nat) : Prop :=
  (n = 4 ∧ a ∈ registerOffsets) ∨ (n = 4 ∧ a % 4 = 0 ∧ 0x1000 ≤ a ∧ a < 0x1400) ∨
    (a % n = 0 ∧ (Inside 0x1000000 cfg.inCap a n ∨ Inside 0x2000000 cfg.outCap a n ∨ Inside 0x3000000 cfg.scrCap a n))

/-- The host writes that are no bus error (R44, R46, R47): not the FREQ window, not the OUT_MEM window. -/
abbrev LegalWrite (cfg : Config.Params) (a n : Nat) : Prop :=
  (n = 4 ∧ a ∈ registerOffsets) ∨ (a % n = 0 ∧ (Inside 0x1000000 cfg.inCap a n ∨ Inside 0x3000000 cfg.scrCap a n))

/-! ### Which commands do what -/

/-- The commands that read the input stream (60_exceptions.md R138, row 2). -/
def inputCommands : List Instr :=
  [.rdBit, .rdBits, .rdByte, .rdBytes, .rdInt, .inLength, .inReset, .freqScan, .hufRdhdr, .hufDec, .hufCompress, .hufExpand,
   .lzwRead]

/-- The commands that write the output stream (R138, row 2). -/
def outputCommands : List Instr :=
  [.wrBit, .wrBits, .wrByte, .wrBytes, .wrInt, .wrFlush, .hufWrhdr, .hufEnc, .hufCompress, .hufExpand, .lzwWrite]

/-- The errors a command can raise, row by row of the table of 60_exceptions.md R138 (ILLEGAL_COMMAND is raised by words that
are no command). -/
def errorsOf (i : Instr) : List ErrCode :=
  match i with
  | .nop => []
  | .clrErr => []
  | .sreset => []
  | .rdBit => [.nullArgument]
  | .rdBits => [.nullArgument, .invalidArgument]
  | .rdByte => [.nullArgument]
  | .rdBytes => [.nullArgument, .invalidArgument, .misaligned]
  | .rdInt => [.nullArgument, .invalidFormat, .prematureEos]
  | .inLength => [.nullArgument]
  | .inReset => [.nullArgument]
  | .wrBit => [.nullArgument, .invalidArgument, .outOverflow]
  | .wrBits => [.nullArgument, .invalidArgument, .outOverflow]
  | .wrByte => [.nullArgument, .invalidArgument, .outOverflow]
  | .wrBytes => [.nullArgument, .invalidArgument, .outOverflow, .misaligned]
  | .wrInt => [.nullArgument, .invalidArgument, .outOverflow]
  | .wrFlush => [.nullArgument, .outOverflow]
  | .pqInit => [.nullArgument, .invalidArgument, .capacityExceeded]
  | .pqOffer _ => [.nullArgument, .capacityExceeded]
  | .pqPoll => []
  | .pqPeek => []
  | .pqSize => []
  | .pqAt => [.invalidArgument]
  | .freqClear => []
  | .freqSet => [.invalidArgument]
  | .freqScan => [.nullArgument]
  | .hufBuild => [.nullArgument, .invalidArgument]
  | .hufNode => [.invalidArgument]
  | .hufLeaf => [.nullArgument, .invalidArgument]
  | .hufWrhdr => [.nullArgument, .outOverflow]
  | .hufRdhdr => [.nullArgument, .invalidFormat, .capacityExceeded]
  | .hufEnc => [.nullArgument, .invalidArgument, .outOverflow]
  | .hufDec => [.nullArgument, .prematureEos]
  | .hufCompress => [.nullArgument, .outOverflow]
  | .hufExpand => [.nullArgument, .invalidFormat, .prematureEos, .capacityExceeded, .outOverflow]
  | .lzwWinit => [.invalidArgument]
  | .lzwWrite => [.nullArgument, .invalidArgument, .outOverflow]
  | .lzwRinit => [.invalidArgument]
  | .lzwRead => [.nullArgument, .invalidArgument]

/-! ### What no program can see (10_state.md R42, 70_reset_and_hazards.md R155) -/

/-- Two states that differ at most in what R42 calls unspecified and unobservable: HEAP above PQ_SIZE, NODE at and above
NODE_COUNT, LEAF_MAP while CODE_VALID = 0, DSTACK and DSP. -/
structure SameSeen (s t : State) : Prop where
  others : t = { s with pq := t.pq, code := t.code, dstack := t.dstack }
  queue  : t.pq = { s.pq with heap := t.pq.heap }
  heap   : ∀ p, 1 ≤ p → p ≤ s.pq.size.toNat → heapAt t.pq p = heapAt s.pq p
  code   : t.code = { s.code with nodes := t.code.nodes, leafMap := t.code.leafMap }
  nodes  : ∀ n, nodeOf t.code n = nodeOf s.code n
  leaves : s.code.valid = true → t.code.leafMap = s.code.leafMap

/-- Two states that differ at most in bytes of memory at offsets of which `hidden` holds. -/
def SameBut (hidden : Nat → Prop) (s t : State) : Prop :=
  t = { s with mem := t.mem } ∧ ∀ a, ¬ hidden a → t.mem.read a = s.mem.read a

end Sys2Proof.Safety
end

