-- ==== Sys2Proof/Certificates/Slice0/Obligations.lean ====
section
/-! DEFINITION. The statements for the provers, in the order of OBLIGATIONS.json. -/

section

open Sys2Proof Sys2Proof.Machine Sys2Proof.Safety

/-! ### Encoding -/

/-- 30_encoding.md R62, R65, R67: a word has a meaning exactly when it is the word of a command, and then that one. -/
def Obligations.DecodeInvertsEncode : Prop :=
  ∀ (w : Word) (i : Instr), decode w = .ok i ↔ w = encode i

/-- Words written out from the table of 30_encoding.md R65 and the format of R62. -/
def Obligations.TableWordsDecode : Prop :=
  decode 0x00000001#32 = .ok .nop ∧ decode 0x00000011#32 = .ok .rdBits ∧ decode 0x00000024#32 = .ok .wrInt ∧
  decode 0x00000131#32 = .ok (.pqOffer true) ∧ decode 0x00000031#32 = .ok (.pqOffer false) ∧
  decode 0x00000043#32 = .ok .hufBuild ∧ decode 0x0000004A#32 = .ok .hufEnc ∧ decode 0x0000004D#32 = .ok .hufExpand ∧
  decode 0x00000053#32 = .ok .lzwRead

/-- 30_encoding.md R66: which words are illegal, and what an accepted one does: it counts in CMDCNT and raises
ILLEGAL_COMMAND. -/
def Obligations.IllegalWordRaises : Prop :=
  (∀ w : Word, (∃ e, decode w = .error e) ↔
    (w.toNat / 2 ^ 9 ≠ 0 ∨
     (w.toNat / 2 ^ 8 % 2 = 1 ∧ w.toNat % 2 ^ 8 ≠ 0x31) ∨
     (w.toNat % 2 ^ 8 = 0x00 ∨ (0x04 ≤ w.toNat % 2 ^ 8 ∧ w.toNat % 2 ^ 8 ≤ 0x0F) ∨
      (0x17 ≤ w.toNat % 2 ^ 8 ∧ w.toNat % 2 ^ 8 ≤ 0x1F) ∨ (0x26 ≤ w.toNat % 2 ^ 8 ∧ w.toNat % 2 ^ 8 ≤ 0x2F) ∨
      (0x36 ≤ w.toNat % 2 ^ 8 ∧ w.toNat % 2 ^ 8 ≤ 0x3F) ∨ w.toNat % 2 ^ 8 = 0x46 ∨ w.toNat % 2 ^ 8 = 0x47 ∨
      (0x4E ≤ w.toNat % 2 ^ 8 ∧ w.toNat % 2 ^ 8 ≤ 0x4F) ∨ 0x54 ≤ w.toNat % 2 ^ 8))) ∧
  ∀ (s : State) (w : Word) (rest : List HostEvent), NextCommand s w rest → (∃ e, decode w = .error e) →
    (s.status.err = false ∨ w.toNat % 2 ^ 8 = 0x02 ∨ w.toNat % 2 ^ 8 = 0x03) →
    step s = .next { s with
      host := rest, lastCmd := w, a0 := s.arg0, a1 := s.arg1, cmdCnt := s.cmdCnt + 1#32, errInfo := w,
      status := { busy := false, done := true, err := true, eos := false, empty := false, ign := false, errCode := 1#8 } }

/-! ### The step -/

/-- 30_encoding.md R68: a host write of a command's word to CMD, while no error is pending or for CLR_ERR and SRESET, runs
that command on the state with the word and the operands latched, CMDCNT counted and the flags of issue. A block that is
busy runs the command in LASTCMD (log 2). -/
def Obligations.StepRunsDecodedCommand : Prop :=
  (∀ (s : State) (i : Instr) (rest : List HostEvent), NextCommand s (encode i) rest →
    (s.status.err = false ∨ i = .clrErr ∨ i = .sreset) →
    step s = exec i { s with
      host := rest, lastCmd := encode i, a0 := s.arg0, a1 := s.arg1, cmdCnt := s.cmdCnt + 1#32,
      status := { s.status with busy := true, done := false, eos := false, empty := false, ign := false } }) ∧
  ∀ (s : State) (i : Instr), s.status.busy = true → decode s.lastCmd = .ok i → step s = exec i s

/-- 60_exceptions.md R143: while ERR = 1 a word whose opcode is neither CLR_ERR's nor SRESET's sets IGN and DONE and is kept
in LASTCMD; nothing else changes. -/
def Obligations.CommandIgnoredWhileError : Prop :=
  ∀ (s : State) (w : Word) (rest : List HostEvent), NextCommand s w rest → s.status.err = true →
    w.toNat % 2 ^ 8 ≠ 0x02 → w.toNat % 2 ^ 8 ≠ 0x03 →
    step s = .next { s with host := rest, lastCmd := w, status := { s.status with ign := true, done := true } }

/-- 60_exceptions.md R144 (with R73): CLR_ERR clears ERR, ERRCODE and ERRINFO and nothing but what its issue and completion
change; an illegal word with opcode 0x02 or 0x03 is the only error while ERR = 1, and the later error is the one kept. -/
def Obligations.ReturnFromError : Prop :=
  (∀ (s : State) (rest : List HostEvent), NextCommand s 0x00000002#32 rest →
    step s = .next { s with
      host := rest, lastCmd := 0x00000002#32, a0 := s.arg0, a1 := s.arg1, cmdCnt := s.cmdCnt + 1#32, errInfo := 0#32,
      status := { busy := false, done := true, err := false, eos := false, empty := false, ign := false, errCode := 0#8 } }) ∧
  ∀ (s t : State) (w : Word) (rest : List HostEvent), NextCommand s w rest → s.status.err = true → step s = .next t →
    t.status.err = true → (t.status.errCode ≠ s.status.errCode ∨ t.errInfo ≠ s.errInfo) →
    (w.toNat % 2 ^ 8 = 0x02 ∨ w.toNat % 2 ^ 8 = 0x03) ∧ w.toNat / 2 ^ 8 ≠ 0 ∧ t.status.errCode = 1#8 ∧ t.errInfo = w

/-- 70_reset_and_hazards.md R152 with the table of 10_state.md R42, and 60_exceptions.md R151: the registers after power-on
reset, from any state; the bytes of the three memories are the free draw; and a block with nothing to do holds its state. -/
def Obligations.PowerOnAndIdle : Prop :=
  (∀ (s : State) (rest : List HostEvent), NextEvent s .powerOn rest →
    ∃ t, step s = .next t ∧ t.cfg = s.cfg ∧ t.host = rest ∧
      t.arg0 = 0#32 ∧ t.arg1 = 0#32 ∧ t.res0 = 0#32 ∧ t.res1 = 0#32 ∧ t.res2 = 0#32 ∧
      t.lastCmd = 0#32 ∧ t.cmdCnt = 0#32 ∧ t.errInfo = 0#32 ∧ statusWord t.status = 0#32 ∧ ctrlWord t.ctrl = 0#32 ∧
      t.inp = { len := 0#32, pos := 0#32, buf := 0#8, nbits := 0#4 } ∧
      t.out = { len := 0#32, buf := 0#8, nbits := 0#3 } ∧
      t.pq.size = 0#10 ∧ t.pq.cap = 1#10 ∧ t.pq.external = false ∧
      (∀ sym, sym < 256 → freqAt t.freq sym = 0#32) ∧ t.freq.valid = false ∧
      t.code.count = 0#10 ∧ t.code.root = 0x1FF#9 ∧ t.code.valid = false ∧ t.dstack.dsp = 0#9 ∧
      t.lzw = { wsize := 256#32, rsize := 256#32, wValid := false, rValid := false } ∧ irq t = false ∧
      ∃ draw, ∀ a, t.mem.read a = Config.powerOnByte draw a) ∧
  ∀ s : State, s.status.busy = false → s.host = [] → step s = .next s

/-! ### The host's accesses -/

/-- 20_memory.md R46, R47, R49: exactly the accesses that are not aligned, not of a legal width, not mapped or not permitted
are bus errors, and such an access is no step; every other access is performed (a write of CMD runs a command: see the other
statements). -/
def Obligations.BusErrorsExactly : Prop :=
  ∀ (s : State) (a : BitVec 28) (n : Width) (rest : List HostEvent), s.cfg.legal →
    (NextEvent s (.read a n) rest →
      (¬ LegalRead s.cfg a.toNat (widthBytes n) → step s = .fault .busError) ∧
      (LegalRead s.cfg a.toNat (widthBytes n) → ∃ t, step s = .next t)) ∧
    ∀ v : Word, NextEvent s (.write a n v) rest →
      (¬ LegalWrite s.cfg a.toNat (widthBytes n) → step s = .fault .busError) ∧
      (LegalWrite s.cfg a.toNat (widthBytes n) → a.toNat ≠ 0 → ∃ t, step s = .next t)

/-- 20_memory.md R45 with the field layouts of 10_state.md R21 to R39: what a 32-bit read of each register returns, and that a
write to a read-only register is ignored. -/
def Obligations.RegisterMap : Prop :=
  ∀ s : State,
    hostRead s 0x000#28 .four = some s.lastCmd ∧
    hostRead s 0x004#28 .four = some s.arg0 ∧ hostRead s 0x008#28 .four = some s.arg1 ∧
    hostRead s 0x010#28 .four = some s.res0 ∧ hostRead s 0x014#28 .four = some s.res1 ∧
    hostRead s 0x018#28 .four = some s.res2 ∧
    (hostRead s 0x020#28 .four).map BitVec.toNat = some
      (s.status.busy.toNat + 2 * s.status.done.toNat + 4 * s.status.err.toNat + 8 * s.status.eos.toNat +
        16 * s.status.empty.toNat + 32 * s.status.ign.toNat + 256 * s.status.errCode.toNat) ∧
    hostRead s 0x024#28 .four = some s.errInfo ∧
    (hostRead s 0x028#28 .four).map BitVec.toNat = some
      (s.ctrl.inEn.toNat + 2 * s.ctrl.outEn.toNat + 4 * s.ctrl.irqEn.toNat) ∧
    hostRead s 0x02C#28 .four = some s.cmdCnt ∧ hostRead s 0x030#28 .four = some 0x48554631#32 ∧
    hostRead s 0x040#28 .four = some s.inp.len ∧ hostRead s 0x044#28 .four = some s.inp.pos ∧
    (hostRead s 0x048#28 .four).map BitVec.toNat = some (s.inp.buf.toNat + 256 * s.inp.nbits.toNat) ∧
    hostRead s 0x050#28 .four = some s.out.len ∧
    (hostRead s 0x054#28 .four).map BitVec.toNat = some (s.out.buf.toNat + 256 * s.out.nbits.toNat) ∧
    (hostRead s 0x060#28 .four).map BitVec.toNat = some s.pq.size.toNat ∧
    (hostRead s 0x064#28 .four).map BitVec.toNat = some s.pq.cap.toNat ∧
    (hostRead s 0x068#28 .four).map BitVec.toNat = some s.pq.external.toNat ∧
    (hostRead s 0x070#28 .four).map BitVec.toNat = some
      (s.code.valid.toNat + 2 * s.freq.valid.toNat + 65536 * s.code.root.toNat) ∧
    (hostRead s 0x074#28 .four).map BitVec.toNat = some s.code.count.toNat ∧
    hostRead s 0x080#28 .four = some s.lzw.wsize ∧ hostRead s 0x084#28 .four = some s.lzw.rsize ∧
    (hostRead s 0x088#28 .four).map BitVec.toNat = some (s.lzw.wValid.toNat + 2 * s.lzw.rValid.toNat) ∧
    ∀ (a : BitVec 28) (v : Word) (rest : List HostEvent), a.toNat ∈ readOnlyOffsets → NextEvent s (.write a .four v) rest →
      step s = .next { s with host := rest }

/-- 20_memory.md R48: window accesses are little-endian, byte by byte, and the FREQ window reads the counters; a write then
reads back. The write changes no other byte (R54). -/
def Obligations.WindowsAreLittleEndian : Prop :=
  ∀ (s : State) (a : BitVec 28) (n : Width), s.cfg.legal → a.toNat % widthBytes n = 0 →
    ((Inside 0x1000000 s.cfg.inCap a.toNat (widthBytes n) ∨ Inside 0x2000000 s.cfg.outCap a.toNat (widthBytes n) ∨
        Inside 0x3000000 s.cfg.scrCap a.toNat (widthBytes n)) →
      ∃ v, hostRead s a n = some v ∧ v.toNat < 2 ^ (8 * widthBytes n) ∧
        ∀ k, k < widthBytes n → v.toNat / 2 ^ (8 * k) % 2 ^ 8 = (s.mem.read (a.toNat + k)).toNat) ∧
    (0x1000 ≤ a.toNat → a.toNat < 0x1400 → n = .four → hostRead s a n = some (freqAt s.freq ((a.toNat - 0x1000) / 4))) ∧
    ∀ (v : Word) (rest : List HostEvent), NextEvent s (.write a n v) rest →
      (Inside 0x1000000 s.cfg.inCap a.toNat (widthBytes n) ∨ Inside 0x3000000 s.cfg.scrCap a.toNat (widthBytes n)) →
      ∃ t, step s = .next t ∧ t = { s with host := rest, mem := t.mem } ∧
        (∀ k, k < widthBytes n → (t.mem.read (a.toNat + k)).toNat = v.toNat / 2 ^ (8 * k) % 2 ^ 8) ∧
        (∀ b, (b < a.toNat ∨ a.toNat + widthBytes n ≤ b) → t.mem.read b = s.mem.read b) ∧
        (hostRead t a n).map BitVec.toNat = some (v.toNat % 2 ^ (8 * widthBytes n))

/-- 20_memory.md R54: a host read changes nothing (the model records the data it returned, log 11), so it can be repeated;
ARG0, ARG1, CTRL and the two writable windows only store; a window write repeated changes nothing more. -/
def Obligations.HostAccessSideEffects : Prop :=
  (∀ (s t : State) (a : BitVec 28) (n : Width) (rest : List HostEvent), NextEvent s (.read a n) rest → step s = .next t →
    t = { s with host := rest, readData := hostRead s a n } ∧ ∀ b m, hostRead t b m = hostRead s b m) ∧
  (∀ (s : State) (v : Word) (rest : List HostEvent),
    (NextEvent s (.write 0x004#28 .four v) rest → step s = .next { s with host := rest, arg0 := v }) ∧
    (NextEvent s (.write 0x008#28 .four v) rest → step s = .next { s with host := rest, arg1 := v }) ∧
    (NextEvent s (.write 0x028#28 .four v) rest → step s = .next { s with
      host := rest, ctrl := { inEn := v.getLsbD 0, outEn := v.getLsbD 1, irqEn := v.getLsbD 2 } }) ∧
    (NextEvent s (.write 0x020#28 .four v) rest → step s = .next { s with
      host := rest, status := { s.status with done := s.status.done && !v.getLsbD 1 } })) ∧
  ∀ (s t u : State) (a : BitVec 28) (n : Width) (v : Word) (rest : List HostEvent), s.mem.wf → 0x1000000 ≤ a.toNat →
    NextEvent s (.write a n v) (.write a n v :: rest) → step s = .next t → step t = .next u →
    u = { t with host := rest }

/-- 10_state.md R27 and R29: a write of IN_LEN stores `min(v, IN_CAP)` and starts a new input stream, a write of OUT_LEN of
any value starts a new output stream; the registers of the two units read as R27 and R29 say. -/
def Obligations.StreamRegisterWrites : Prop :=
  ∀ (s : State) (v : Word) (rest : List HostEvent), s.cfg.legal →
    (NextEvent s (.write 0x040#28 .four v) rest →
      ∃ len : Word, len.toNat = min v.toNat s.cfg.inCap ∧
        step s = .next { s with host := rest, inp := { len := len, pos := 0#32, buf := 0#8, nbits := 0#4 } }) ∧
    (NextEvent s (.write 0x050#28 .four v) rest →
      step s = .next { s with host := rest, out := { len := 0#32, buf := 0#8, nbits := 0#3 } }) ∧
    hostRead s 0x040#28 .four = some s.inp.len ∧ hostRead s 0x044#28 .four = some s.inp.pos ∧
    hostRead s 0x048#28 .four = some (0#20 ++ s.inp.nbits ++ s.inp.buf) ∧
    hostRead s 0x050#28 .four = some s.out.len ∧ hostRead s 0x054#28 .four = some (0#21 ++ s.out.nbits ++ s.out.buf) ∧
    (NextEvent s (.write 0x044#28 .four v) rest → step s = .next { s with host := rest }) ∧
    (NextEvent s (.write 0x048#28 .four v) rest → step s = .next { s with host := rest }) ∧
    (NextEvent s (.write 0x054#28 .four v) rest → step s = .next { s with host := rest })

/-- 60_exceptions.md R145: IRQ = CTRL.IRQ_EN AND STATUS.DONE; every command, ended well, in error or ignored, raises it when
IRQ_EN = 1 (SRESET clears IRQ_EN); the acknowledgement and the clearing of IRQ_EN drop it; setting IRQ_EN while DONE = 1
raises it at once. -/
def Obligations.InterruptLine : Prop :=
  (∀ s : State, irq s = (s.ctrl.irqEn && s.status.done)) ∧
  (∀ (s t : State) (w : Word) (rest : List HostEvent), NextCommand s w rest → step s = .next t → w ≠ 0x00000003#32 →
    irq t = s.ctrl.irqEn) ∧
  (∀ (s t : State) (rest : List HostEvent), NextCommand s 0x00000003#32 rest → step s = .next t → irq t = false) ∧
  (∀ (s t : State) (v : Word) (rest : List HostEvent), NextEvent s (.write 0x020#28 .four v) rest → v.getLsbD 1 = true →
    step s = .next t → irq t = false) ∧
  ∀ (s t : State) (v : Word) (rest : List HostEvent), NextEvent s (.write 0x028#28 .four v) rest → step s = .next t →
    irq t = (v.getLsbD 2 && s.status.done)

/-! ### What every command does and does not do -/

/-- 30_encoding.md R68 and 60_exceptions.md R140: a command that ends leaves BUSY = 0 and DONE = 1. 10_state.md R19, R24, R21:
none but SRESET writes ARG0, ARG1, CTRL, LASTCMD or CMDCNT (their issue does), and none at all writes the parameters, the
latched operands, the accesses the host still has to make or the draw of the power-on bytes. -/
def Obligations.EveryCommandEndsDone : Prop :=
  ∀ (i : Instr) (s t : State), exec i s = .next t →
    t.status.busy = false ∧ t.status.done = true ∧ t.cfg = s.cfg ∧ t.a0 = s.a0 ∧ t.a1 = s.a1 ∧ t.host = s.host ∧
    t.readData = s.readData ∧ t.mem.draw = s.mem.draw ∧
    (i ≠ .sreset → t.arg0 = s.arg0 ∧ t.arg1 = s.arg1 ∧ t.ctrl = s.ctrl ∧ t.lastCmd = s.lastCmd ∧ t.cmdCnt = s.cmdCnt ∧
      t.status.ign = s.status.ign)

/-- 60_exceptions.md R140: what a raise records, and that a command that fails writes no result. -/
def Obligations.RaiseRecordsError : Prop :=
  (∀ (c : ErrCode) (s : State), takeError c s = { s with
    errInfo := s.lastCmd,
    status := { s.status with err := true, errCode := errCodeByte c, busy := false, done := true } }) ∧
  ∀ (i : Instr) (s t : State), s.status.err = false → exec i s = .next t → t.status.err = true →
    t.errInfo = s.lastCmd ∧ 1 ≤ t.status.errCode.toNat ∧ t.status.errCode.toNat ≤ 8 ∧
    t.status.busy = false ∧ t.status.done = true ∧
    t.status.eos = s.status.eos ∧ t.status.empty = s.status.empty ∧ t.status.ign = s.status.ign ∧
    t.res0 = s.res0 ∧ t.res1 = s.res1 ∧ t.res2 = s.res2

/-- 60_exceptions.md R138: the codes, which command can raise which, and that only a raise sets ERR. -/
def Obligations.ErrorCodesAsTabled : Prop :=
  (errCodeByte .illegalCommand = 1#8 ∧ errCodeByte .nullArgument = 2#8 ∧ errCodeByte .invalidArgument = 3#8 ∧
    errCodeByte .invalidFormat = 4#8 ∧ errCodeByte .prematureEos = 5#8 ∧ errCodeByte .capacityExceeded = 6#8 ∧
    errCodeByte .outOverflow = 7#8 ∧ errCodeByte .misaligned = 8#8) ∧
  ∀ (i : Instr) (s t : State), s.status.err = false → exec i s = .next t → t.status.err = true →
    ∃ c, c ∈ errorsOf i ∧ t.status.errCode = errCodeByte c

/-- 60_exceptions.md R139: the two sentinels are no errors, come from the tabled commands only, and change nothing else: they
consume nothing and leave ERR as it is. -/
def Obligations.SentinelsAreNotErrors : Prop :=
  (∀ (i : Instr) (s t : State), s.status.eos = false → exec i s = .next t → t.status.eos = true →
    (i = .rdBit ∨ i = .rdBits ∨ i = .rdByte ∨ i = .rdBytes ∨ i = .lzwRead) ∧
    t = { s with res0 := 0xFFFFFFFF#32, status := { s.status with eos := true, busy := false, done := true } }) ∧
  ∀ (i : Instr) (s t : State), s.status.empty = false → exec i s = .next t → t.status.empty = true →
    (i = .pqPoll ∨ i = .pqPeek) ∧
    t = { s with res0 := 0#32, res1 := 0#32, status := { s.status with empty := true, busy := false, done := true } }

/-- 10_state.md R24: the fields of CTRL, written by the host and by SRESET alone; a command that reads the input with
IN_EN = 0, or writes the output with OUT_EN = 0, raises NULL_ARGUMENT and does nothing else; bits 31:3 read 0. -/
def Obligations.ControlRegister : Prop :=
  (∀ (s : State) (v : Word) (rest : List HostEvent), NextEvent s (.write 0x028#28 .four v) rest →
    ∃ t, step s = .next t ∧ hostRead t 0x028#28 .four = some (v &&& 7#32) ∧
      t = { s with host := rest, ctrl := { inEn := v.getLsbD 0, outEn := v.getLsbD 1, irqEn := v.getLsbD 2 } }) ∧
  (∀ (i : Instr) (s t : State), exec i s = .next t → i ≠ .sreset → t.ctrl = s.ctrl) ∧
  (∀ (s t : State), exec .sreset s = .next t → ctrlWord t.ctrl = 0#32) ∧ ctrlWord State.reset.ctrl = 0#32 ∧
  (∀ (i : Instr) (s : State), i ∈ inputCommands → s.ctrl.inEn = false → exec i s = .next (takeError .nullArgument s)) ∧
  ∀ (i : Instr) (s : State), i ∈ outputCommands → s.ctrl.outEn = false → exec i s = .next (takeError .nullArgument s)

/-- 10_state.md R20: which commands write which result register. -/
def Obligations.ResultsWrittenAsNamed : Prop :=
  ∀ (i : Instr) (s t : State), exec i s = .next t →
    (t.res0 ≠ s.res0 → i ∈ [Instr.sreset, .rdBit, .rdBits, .rdByte, .rdBytes, .rdInt, .inLength, .pqPoll, .pqPeek, .pqSize,
      .pqAt, .hufNode, .hufLeaf, .hufDec, .lzwRead]) ∧
    (t.res1 ≠ s.res1 → i ∈ [Instr.sreset, .pqPoll, .pqPeek, .pqAt, .hufNode]) ∧
    (t.res2 ≠ s.res2 → i ∈ [Instr.sreset, .hufNode])

/-- 70_reset_and_hazards.md R158: nothing but the listed commands touches the queue, the frequency table, the code, the
streams, the LZW sizes or the deserialization stack. -/
def Obligations.ResourcesMovedByTheirCommands : Prop :=
  ∀ (i : Instr) (s t : State), exec i s = .next t →
    (t.pq ≠ s.pq → (∃ p, i = .pqOffer p) ∨ i ∈ [Instr.sreset, .pqInit, .pqPoll, .hufBuild, .hufCompress]) ∧
    (t.freq ≠ s.freq → i ∈ [Instr.sreset, .freqClear, .freqSet, .freqScan, .hufCompress]) ∧
    (t.code ≠ s.code → i ∈ [Instr.sreset, .hufBuild, .hufRdhdr, .hufCompress, .hufExpand]) ∧
    (t.inp ≠ s.inp → i ∈ [Instr.sreset, .rdBit, .rdBits, .rdByte, .rdBytes, .rdInt, .inReset, .freqScan, .hufRdhdr,
      .hufDec, .hufCompress, .hufExpand, .lzwRead]) ∧
    (t.out ≠ s.out → i ∈ [Instr.sreset, .wrBit, .wrBits, .wrByte, .wrBytes, .wrInt, .wrFlush, .hufWrhdr, .hufEnc,
      .hufCompress, .hufExpand, .lzwWrite]) ∧
    (t.lzw ≠ s.lzw → i ∈ [Instr.sreset, .lzwWinit, .lzwWrite, .lzwRinit, .lzwRead]) ∧
    (t.dstack ≠ s.dstack → i ∈ [Instr.sreset, .hufRdhdr, .hufExpand])

/-- 20_memory.md R53, 10_state.md R40: a command changes a byte of OUT_MEM only in the range its output has grown by, a byte of
SCRATCH only in the range RD_BYTES was given, and no other byte. -/
def Obligations.CommandsStoreWhereTheySay : Prop :=
  ∀ (i : Instr) (s t : State) (a : Nat), InputOk s → OutputOk s → exec i s = .next t → t.mem.read a ≠ s.mem.read a →
    (i ∈ outputCommands ∧ outBase + s.out.len.toNat ≤ a ∧ a < outBase + t.out.len.toNat) ∨
    (i = .rdBytes ∧ scrBase + s.a0.toNat ≤ a ∧ a < scrBase + s.a0.toNat + t.res0.toNat ∧ t.res0.toNat ≤ s.a1.toNat)

/-! ### Control commands -/

/-- 40_control.md R72, R73: NOP and CLR_ERR. -/
def Obligations.NopAndClrErrEffects : Prop :=
  encode .nop = 0x00000001#32 ∧ encode .clrErr = 0x00000002#32 ∧
  ∀ s : State,
    exec .nop s = .next { s with status := { s.status with busy := false, done := true } } ∧
    exec .clrErr s = .next { s with
      errInfo := 0#32, status := { s.status with err := false, errCode := 0#8, busy := false, done := true } }

/-- 40_control.md R74, 10_state.md R42: SRESET gives every element its reset value, DONE = 1 and CMDCNT = 0, and leaves HEAP,
NODE, LEAF_MAP, the contents of DSTACK and the three byte memories. -/
def Obligations.SoftResetEffect : Prop :=
  encode .sreset = 0x00000003#32 ∧
  ∀ s : State, ∃ t : State, exec .sreset s = .next t ∧
    t = { s with
      arg0 := 0#32, arg1 := 0#32, res0 := 0#32, res1 := 0#32, res2 := 0#32, lastCmd := 0#32, cmdCnt := 0#32,
      errInfo := 0#32, ctrl := { inEn := false, outEn := false, irqEn := false },
      status := { busy := false, done := true, err := false, eos := false, empty := false, ign := false, errCode := 0#8 },
      inp := { len := 0#32, pos := 0#32, buf := 0#8, nbits := 0#4 }, out := { len := 0#32, buf := 0#8, nbits := 0#3 },
      pq := { s.pq with size := 0#10, cap := 1#10, external := false }, freq := t.freq,
      code := { s.code with count := 0#10, root := 0x1FF#9, valid := false }, dstack := { s.dstack with dsp := 0#9 },
      lzw := { wsize := 256#32, rsize := 256#32, wValid := false, rValid := false } } ∧
    t.freq.valid = false ∧ ∀ sym, sym < 256 → freqAt t.freq sym = 0#32

/-! ### The bit-stream reader -/

/-- 41_bitstream_in.md R80, R81, R82 (with R75 to R77): RD_BIT, RD_BITS and RD_BYTE, every check in its order; the bits read are
the front of the stream, the first one the highest of the result. -/
def Obligations.BitReads : Prop :=
  encode .rdBit = 0x00000010#32 ∧ encode .rdBits = 0x00000011#32 ∧ encode .rdByte = 0x00000012#32 ∧
  ∀ s : State,
    (s.ctrl.inEn = false → ∀ i, i = .rdBit ∨ i = .rdBits ∨ i = .rdByte → exec i s = .next (takeError .nullArgument s)) ∧
    (s.ctrl.inEn = true → 31 < s.a0.toNat → exec .rdBits s = .next (takeError .invalidArgument s)) ∧
    (s.ctrl.inEn = true → InputOk s →
      ∀ (i : Instr) (n : Nat),
        (i = .rdBit ∧ n = 1) ∨ (i = .rdBits ∧ n = s.a0.toNat ∧ n ≤ 31) ∨ (i = .rdByte ∧ n = 8) →
        ((inputBits s).length < n →
          exec i s = .next (complete { s with res0 := 0xFFFFFFFF#32, status := { s.status with eos := true } })) ∧
        (n ≤ (inputBits s).length →
          ∃ (t : State) (v : Nat), exec i s = .next (complete { t with res0 := BitVec.ofNat 32 v }) ∧ v < 2 ^ n ∧ Consumed s t (bitsMSB n v)))

/-- 41_bitstream_in.md R83: RD_BYTES, every check in its order, the bytes moved and everything left alone. -/
def Obligations.ByteRangeRead : Prop :=
  encode .rdBytes = 0x00000013#32 ∧
  ∀ s : State,
    (s.ctrl.inEn = false → exec .rdBytes s = .next (takeError .nullArgument s)) ∧
    (s.ctrl.inEn = true → s.cfg.scrCap < s.a0.toNat + s.a1.toNat → exec .rdBytes s = .next (takeError .invalidArgument s)) ∧
    (s.ctrl.inEn = true → s.a0.toNat + s.a1.toNat ≤ s.cfg.scrCap →
      (s.inp.nbits ≠ 0#4 → exec .rdBytes s = .next (takeError .misaligned s)) ∧
      (s.inp.nbits = 0#4 → s.a1 = 0#32 → exec .rdBytes s = .next (complete { s with res0 := 0#32 })) ∧
      (s.inp.nbits = 0#4 → s.a1 ≠ 0#32 → InputOk s →
        (s.inp.pos = s.inp.len →
          exec .rdBytes s = .next (complete { s with res0 := 0xFFFFFFFF#32, status := { s.status with eos := true } })) ∧
        (s.inp.pos ≠ s.inp.len →
          ∃ (t : State) (k : Nat), exec .rdBytes s = .next (complete { t with res0 := BitVec.ofNat 32 k }) ∧
            k = min s.a1.toNat (s.inp.len.toNat - s.inp.pos.toNat) ∧
            t = { s with mem := t.mem, inp := { s.inp with
              pos := s.inp.pos + BitVec.ofNat 32 k, buf := s.mem.read (inBase + (s.inp.pos.toNat + k - 1)) } } ∧
            (∀ j, j < k →
              t.mem.read (scrBase + (s.a0.toNat + j)) = s.mem.read (inBase + (s.inp.pos.toNat + j))) ∧
            ∀ a, a < scrBase + s.a0.toNat ∨ scrBase + s.a0.toNat + k ≤ a → t.mem.read a = s.mem.read a)))

/-- 41_bitstream_in.md R84 (with R79): RD_INT reads a varint at any bit position; the stream ending inside it and a value beyond
31 bits are errors, and the bytes read stay consumed. -/
def Obligations.VarintRead : Prop :=
  encode .rdInt = 0x00000014#32 ∧
  ∀ s : State,
    (s.ctrl.inEn = false → exec .rdInt s = .next (takeError .nullArgument s)) ∧
    (s.ctrl.inEn = true → InputOk s → ∀ (bs : List Nat) (rest : List Bool), inputBits s = bytesBits bs ++ rest →
      (IsVarint bs →
        ∃ t : State, exec .rdInt s = .next (complete { t with res0 := BitVec.ofNat 32 (varintValue bs) }) ∧
          Consumed s t (bytesBits bs)) ∧
      ((∀ b ∈ bs, 128 ≤ b ∧ b < 256) → bs.length ≤ 4 → rest.length < 8 →
        ∃ t : State, exec .rdInt s = .next (takeError .prematureEos t) ∧ Consumed s t (bytesBits bs)) ∧
      (∀ front last, bs = front ++ [last] → front.length = 4 → (∀ b ∈ front, 128 ≤ b ∧ b < 256) → last < 256 →
        (7 < last % 128 ∨ 128 ≤ last) →
        ∃ t : State, exec .rdInt s = .next (takeError .invalidFormat t) ∧ Consumed s t (bytesBits bs)))

/-- 41_bitstream_in.md R85, R86 (with R78): IN_LENGTH and IN_RESET. -/
def Obligations.LengthAndReset : Prop :=
  encode .inLength = 0x00000015#32 ∧ encode .inReset = 0x00000016#32 ∧
  ∀ s : State,
    (s.ctrl.inEn = false → exec .inLength s = .next (takeError .nullArgument s) ∧
      exec .inReset s = .next (takeError .nullArgument s)) ∧
    (s.ctrl.inEn = true → exec .inLength s = .next (complete { s with res0 := s.inp.len }) ∧
      exec .inReset s = .next (complete { s with inp := { len := s.inp.len, pos := 0#32, buf := 0#8, nbits := 0#4 } }))

/-! ### The bit-stream writer -/

/-- 42_bitstream_out.md R91, R92, R93 (with R87, R88): WR_BIT, WR_BITS and WR_BYTE, every check in its order; the bits go to the
end of the stream, most significant first; where they do not fit, those that do stay written and OUT_OVERFLOW is raised. -/
def Obligations.BitWrites : Prop :=
  encode .wrBit = 0x00000020#32 ∧ encode .wrBits = 0x00000021#32 ∧ encode .wrByte = 0x00000022#32 ∧
  ∀ s : State,
    (s.ctrl.outEn = false → ∀ i, i = .wrBit ∨ i = .wrBits ∨ i = .wrByte → exec i s = .next (takeError .nullArgument s)) ∧
    (s.ctrl.outEn = true →
      (1 < s.a0.toNat → exec .wrBit s = .next (takeError .invalidArgument s)) ∧
      (31 < s.a0.toNat ∨ 2 ^ s.a0.toNat ≤ s.a1.toNat → exec .wrBits s = .next (takeError .invalidArgument s)) ∧
      (255 < s.a0.toNat → exec .wrByte s = .next (takeError .invalidArgument s))) ∧
    (s.ctrl.outEn = true → OutputOk s →
      ∀ (i : Instr) (n v : Nat),
        (i = .wrBit ∧ n = 1 ∧ v = s.a0.toNat ∧ v ≤ 1) ∨
        (i = .wrBits ∧ n = s.a0.toNat ∧ n ≤ 31 ∧ v = s.a1.toNat ∧ v < 2 ^ n) ∨
        (i = .wrByte ∧ n = 8 ∧ v = s.a0.toNat ∧ v ≤ 255) →
        (n ≤ room s → ∃ t : State, exec i s = .next (complete t) ∧ Appended s t (bitsMSB n v)) ∧
        (room s < n →
          ∃ t : State, exec i s = .next (takeError .outOverflow t) ∧ Appended s t ((bitsMSB n v).take (room s))))

/-- 42_bitstream_out.md R94: WR_BYTES, every check in its order, the bytes moved and everything left alone. -/
def Obligations.ByteRangeWrite : Prop :=
  encode .wrBytes = 0x00000023#32 ∧
  ∀ s : State,
    (s.ctrl.outEn = false → exec .wrBytes s = .next (takeError .nullArgument s)) ∧
    (s.ctrl.outEn = true → s.cfg.scrCap < s.a0.toNat + s.a1.toNat → exec .wrBytes s = .next (takeError .invalidArgument s)) ∧
    (s.ctrl.outEn = true → s.a0.toNat + s.a1.toNat ≤ s.cfg.scrCap →
      (s.out.nbits ≠ 0#3 → exec .wrBytes s = .next (takeError .misaligned s)) ∧
      (s.out.nbits = 0#3 → s.cfg.outCap < s.out.len.toNat + s.a1.toNat →
        exec .wrBytes s = .next (takeError .outOverflow s)) ∧
      (s.out.nbits = 0#3 → s.out.len.toNat + s.a1.toNat ≤ s.cfg.outCap → s.cfg.legal →
        ∃ t : State, exec .wrBytes s = .next (complete t) ∧
          t = { s with mem := t.mem, out := { s.out with len := s.out.len + s.a1 } } ∧
          (∀ j, j < s.a1.toNat →
            t.mem.read (outBase + (s.out.len.toNat + j)) = s.mem.read (scrBase + (s.a0.toNat + j))) ∧
          ∀ a, a < outBase + s.out.len.toNat ∨ outBase + s.out.len.toNat + s.a1.toNat ≤ a →
            t.mem.read a = s.mem.read a))

/-- 42_bitstream_out.md R95 (with R90): WR_INT writes the minimal varint of its operand at any bit position. -/
def Obligations.VarintWrite : Prop :=
  encode .wrInt = 0x00000024#32 ∧
  ∀ s : State,
    (s.ctrl.outEn = false → exec .wrInt s = .next (takeError .nullArgument s)) ∧
    (s.ctrl.outEn = true → 2 ^ 31 ≤ s.a0.toNat → exec .wrInt s = .next (takeError .invalidArgument s)) ∧
    (s.ctrl.outEn = true → s.a0.toNat < 2 ^ 31 → OutputOk s →
      ∃ bs, IsMinimalVarint bs ∧ varintValue bs = s.a0.toNat ∧
        (8 * bs.length ≤ room s → ∃ t : State, exec .wrInt s = .next (complete t) ∧ Appended s t (bytesBits bs)) ∧
        (room s < 8 * bs.length →
          ∃ t : State, exec .wrInt s = .next (takeError .outOverflow t) ∧ Appended s t ((bytesBits bs).take (room s))))

/-- 42_bitstream_out.md R96 (with R89): WR_FLUSH pads the partial byte with zero bits and stores it; with none it does
nothing. -/
def Obligations.FlushPads : Prop :=
  encode .wrFlush = 0x00000025#32 ∧
  ∀ s : State,
    (s.ctrl.outEn = false → exec .wrFlush s = .next (takeError .nullArgument s)) ∧
    (s.ctrl.outEn = true → s.out.nbits = 0#3 → exec .wrFlush s = .next (complete s)) ∧
    (s.ctrl.outEn = true → s.out.nbits ≠ 0#3 → s.out.len.toNat = s.cfg.outCap →
      exec .wrFlush s = .next (takeError .outOverflow s)) ∧
    (s.ctrl.outEn = true → s.out.nbits ≠ 0#3 → s.out.len.toNat < s.cfg.outCap → OutputOk s →
      ∃ t : State, exec .wrFlush s = .next (complete t) ∧ Appended s t (List.replicate (8 - s.out.nbits.toNat) false) ∧
        t.out = { len := s.out.len + 1#32, buf := 0#8, nbits := 0#3 })

/-! ### The priority queue -/

/-- 43_pqueue.md R102: PQ_INIT, every check in its order. -/
def Obligations.QueueConstruction : Prop :=
  encode .pqInit = 0x00000030#32 ∧
  ∀ s : State,
    (s.a1 = 1#32 → s.cfg.extCmpPresent = false → exec .pqInit s = .next (takeError .nullArgument s)) ∧
    (1 < s.a1.toNat → exec .pqInit s = .next (takeError .invalidArgument s)) ∧
    (s.a1 = 0#32 ∨ (s.a1 = 1#32 ∧ s.cfg.extCmpPresent = true) →
      (s.a0.toInt ≤ 0 → exec .pqInit s = .next (takeError .invalidArgument s)) ∧
      (0 < s.a0.toInt → 1023 < s.a0.toNat → exec .pqInit s = .next (takeError .capacityExceeded s)) ∧
      (0 < s.a0.toInt → s.a0.toNat ≤ 1023 →
        ∃ cap : BitVec 10, cap.toNat = s.a0.toNat ∧
          exec .pqInit s = .next (complete { s with
            pq := { s.pq with size := 0#10, cap := cap, external := decide (s.a1 = 1#32) } })))

/-- 43_pqueue.md R103 with R98 and R99, for either ordering: PQ_OFFER without its operand is an error; a full queue grows to
2c + 1 where that is at most 1023 and is otherwise an error; the entry rises from the end, past strictly greater parents
only. -/
def Obligations.OfferPlacesEntry : Prop :=
  encode (.pqOffer true) = 0x00000131#32 ∧ encode (.pqOffer false) = 0x00000031#32 ∧
  ∀ s : State,
    exec (.pqOffer false) s = .next (takeError .nullArgument s) ∧
    (s.pq.size = s.pq.cap → 1023 < 2 * s.pq.cap.toNat + 1 →
      exec (.pqOffer true) s = .next (takeError .capacityExceeded s)) ∧
    (QueueOk s.pq → s.pq.size ≠ s.pq.cap ∨ 2 * s.pq.cap.toNat + 1 ≤ 1023 →
      ∃ q : Queue, exec (.pqOffer true) s = .next (complete { s with pq := q }) ∧
        q.size.toNat = s.pq.size.toNat + 1 ∧ q.external = s.pq.external ∧
        q.cap.toNat = (if s.pq.size = s.pq.cap then 2 * s.pq.cap.toNat + 1 else s.pq.cap.toNat) ∧
        RisesFrom (s.pq.size.toNat + 1) { key := s.a0, tag := s.a1 } s.pq q)

/-- 43_pqueue.md R104 with R100 and R101, for either ordering: PQ_POLL returns HEAP[1]; the last entry is put there and sinks
towards the smaller child, the left one on a tie; on an empty queue the sentinel. -/
def Obligations.PollReplacesRoot : Prop :=
  encode .pqPoll = 0x00000032#32 ∧
  ∀ s : State,
    (s.pq.size = 0#10 →
      exec .pqPoll s = .next (complete { s with
        res0 := 0#32, res1 := 0#32, status := { s.status with empty := true } })) ∧
    (s.pq.size ≠ 0#10 →
      ∃ q : Queue, exec .pqPoll s = .next (complete { s with
          pq := q, res0 := (heapAt s.pq 1).key, res1 := (heapAt s.pq 1).tag }) ∧
        q.size.toNat + 1 = s.pq.size.toNat ∧ q.cap = s.pq.cap ∧ q.external = s.pq.external ∧
        SinksFromRoot q.size.toNat (heapAt s.pq s.pq.size.toNat) s.pq q)

/-- 43_pqueue.md R105, R106, R107: PQ_PEEK, PQ_SIZE and PQ_AT read and change nothing but the result registers. -/
def Obligations.QueueReads : Prop :=
  encode .pqPeek = 0x00000033#32 ∧ encode .pqSize = 0x00000034#32 ∧ encode .pqAt = 0x00000035#32 ∧
  ∀ s : State,
    (s.pq.size = 0#10 →
      exec .pqPeek s = .next (complete { s with
        res0 := 0#32, res1 := 0#32, status := { s.status with empty := true } })) ∧
    (s.pq.size ≠ 0#10 →
      exec .pqPeek s = .next (complete { s with res0 := (heapAt s.pq 1).key, res1 := (heapAt s.pq 1).tag })) ∧
    (∃ v : Word, v.toNat = s.pq.size.toNat ∧ exec .pqSize s = .next (complete { s with res0 := v })) ∧
    (s.a0.toNat < 1 ∨ s.pq.size.toNat < s.a0.toNat → exec .pqAt s = .next (takeError .invalidArgument s)) ∧
    (1 ≤ s.a0.toNat → s.a0.toNat ≤ s.pq.size.toNat →
      exec .pqAt s = .next (complete { s with
        res0 := (heapAt s.pq s.a0.toNat).key, res1 := (heapAt s.pq s.a0.toNat).tag }))

/-- 43_pqueue.md R99, R101, the source's priority queue: an offer adds one entry to the live ones, a poll takes one away, and
under a strict weak order the entry it takes is a minimum of a heap-ordered queue. -/
def Obligations.QueueHoldsAMultiset : Prop :=
  ∀ s t : State, QueueOk s.pq →
    (exec (.pqOffer true) s = .next t → t.status.err = false →
      (entries t.pq).Perm ({ key := s.a0, tag := s.a1 } :: entries s.pq)) ∧
    (exec .pqPoll s = .next t → s.pq.size ≠ 0#10 →
      ({ key := t.res0, tag := t.res1 } :: entries t.pq).Perm (entries s.pq) ∧
      (StrictWeak s.pq.external → HeapOrdered s.pq →
        ∀ e ∈ entries s.pq, entryLt s.pq.external e { key := t.res0, tag := t.res1 } = false))

/-! ### The frequency table and the tree -/

/-- 44_huffman_tree.md R113, R114: FREQ_CLEAR and FREQ_SET, every check in its order. -/
def Obligations.FrequencyTableCommands : Prop :=
  encode .freqClear = 0x00000040#32 ∧ encode .freqSet = 0x00000041#32 ∧
  ∀ s : State,
    (∃ f : FreqTable, exec .freqClear s = .next (complete { s with freq := f }) ∧ f.valid = true ∧
      ∀ sym, sym < 256 → freqAt f sym = 0#32) ∧
    (255 < s.a0.toNat ∨ 2 ^ 31 ≤ s.a1.toNat → exec .freqSet s = .next (takeError .invalidArgument s)) ∧
    (s.a0.toNat ≤ 255 → s.a1.toNat < 2 ^ 31 →
      ∃ f : FreqTable, exec .freqSet s = .next (complete { s with freq := f }) ∧ f.valid = true ∧
        ∀ sym, sym < 256 → freqAt f sym = if sym = s.a0.toNat then s.a1 else freqAt s.freq sym)

/-- 44_huffman_tree.md R115 (with R110): FREQ_SCAN counts every byte of the input stream, whatever the read position, and leaves
the stream at its start. -/
def Obligations.ScanCountsInput : Prop :=
  encode .freqScan = 0x00000042#32 ∧
  ∀ s : State,
    (s.ctrl.inEn = false → exec .freqScan s = .next (takeError .nullArgument s)) ∧
    (s.ctrl.inEn = true → InputOk s →
      ∃ f : FreqTable, exec .freqScan s = .next (complete { s with
          freq := f, inp := { len := s.inp.len, pos := 0#32, buf := 0#8, nbits := 0#4 } }) ∧
        f.valid = true ∧
        ∀ sym, sym < 256 → (freqAt f sym).toNat = (inputBytes s 0 s.inp.len.toNat).count sym)

/-- 44_huffman_tree.md R116 with R111 and R112: HUF_BUILD's checks, and the tree it makes: exactly the symbols of the table, one
leaf each, the leaves allocated in ascending order with their counts; 2k − 1 nodes; every internal node weighs its two
children, the lighter on the left; the root weighs all; the queue is left empty with the least capacity of the growth sequence that holds
the leaves. -/
def Obligations.BuildMakesTree : Prop :=
  encode .hufBuild = 0x00000043#32 ∧
  ∀ s : State,
    (s.freq.valid = false → exec .hufBuild s = .next (takeError .nullArgument s)) ∧
    (s.freq.valid = true → (∀ sym, sym < 256 → freqAt s.freq sym = 0#32) →
      exec .hufBuild s = .next (takeError .invalidArgument s)) ∧
    (s.freq.valid = true → 2 ^ 31 - 1 < totalFreq s.freq → exec .hufBuild s = .next (takeError .invalidArgument s)) ∧
    (s.freq.valid = true → (∃ sym, sym < 256 ∧ freqAt s.freq sym ≠ 0#32) → totalFreq s.freq ≤ 2 ^ 31 - 1 →
      ∃ (t : State) (T : HTree), exec .hufBuild s = .next (complete t) ∧ t = { s with pq := t.pq, code := t.code } ∧
        HoldsTree t.code T ∧ T.symbols.Nodup ∧
        (∀ sym : Byte, sym ∈ T.symbols ↔ freqAt s.freq sym.toNat ≠ 0#32) ∧
        t.code.count.toNat + 1 = 2 * T.symbols.length ∧
        (∀ sym : Byte, sym ∈ T.symbols →
          (leafAt t.code sym.toNat).toNat =
            ((List.range sym.toNat).filter fun x => decide (freqAt s.freq x ≠ 0#32)).length) ∧
        (∀ n nd, nodeOf t.code n = some nd → nd.leaf = true → nd.freq = freqAt s.freq nd.sym.toNat) ∧
        (∀ n nd, nodeOf t.code n = some nd → nd.leaf = false → nd.sym = 0#8 ∧
          ∃ l r, nodeOf t.code nd.left.toNat = some l ∧ nodeOf t.code nd.right.toNat = some r ∧
            nd.freq.toNat = l.freq.toNat + r.freq.toNat ∧ l.freq.toNat ≤ r.freq.toNat) ∧
        (∃ nd, nodeOf t.code t.code.root.toNat = some nd ∧ nd.freq.toNat = totalFreq s.freq) ∧
        t.pq.size = 0#10 ∧ t.pq.external = false ∧
        ∃ j, 1 ≤ j ∧ t.pq.cap.toNat = 2 ^ j - 1 ∧ T.symbols.length ≤ 2 ^ j - 1 ∧
          (j = 1 ∨ 2 ^ (j - 1) - 1 < T.symbols.length))

/-- 44_huffman_tree.md R112, "the code is a Huffman code": no tree with the same leaves has a smaller weighted length. -/
def Obligations.BuildIsOptimal : Prop :=
  ∀ (s t : State) (T U : HTree), s.freq.valid = true → (∃ sym, sym < 256 ∧ freqAt s.freq sym ≠ 0#32) →
    totalFreq s.freq ≤ 2 ^ 31 - 1 → exec .hufBuild s = .next t → HoldsTree t.code T → U.symbols.Perm T.symbols →
    T.cost (fun sym => (freqAt s.freq sym.toNat).toNat) 0 ≤ U.cost (fun sym => (freqAt s.freq sym.toNat).toNat) 0

/-- 44_huffman_tree.md R117, R118: HUF_NODE and HUF_LEAF, every check in its order and the layout of RES1. -/
def Obligations.NodeAndLeafReads : Prop :=
  encode .hufNode = 0x00000044#32 ∧ encode .hufLeaf = 0x00000045#32 ∧
  ∀ s : State,
    (s.code.count.toNat ≤ s.a0.toNat → exec .hufNode s = .next (takeError .invalidArgument s)) ∧
    (s.a0.toNat < s.code.count.toNat → s.code.count.toNat ≤ 511 →
      ∃ nd links sym, nodeOf s.code s.a0.toNat = some nd ∧
        links.toNat = 2 ^ 31 * nd.leaf.toNat + 2 ^ 18 * nd.parent.toNat + 2 ^ 9 * nd.right.toNat + nd.left.toNat ∧
        sym.toNat = nd.sym.toNat ∧
        exec .hufNode s = .next (complete { s with res0 := nd.freq, res1 := links, res2 := sym })) ∧
    (s.code.valid = false → exec .hufLeaf s = .next (takeError .nullArgument s)) ∧
    (s.code.valid = true → 255 < s.a0.toNat → exec .hufLeaf s = .next (takeError .invalidArgument s)) ∧
    (s.code.valid = true → s.a0.toNat ≤ 255 →
      ∃ v : Word, v.toNat = (leafAt s.code s.a0.toNat).toNat ∧ exec .hufLeaf s = .next (complete { s with res0 := v }))

/-! ### Header, encode, decode -/

/-- 45_huffman_code.md R124 (with R119): HUF_WRHDR writes the pre-order header of the held tree, 10k − 1 bits for k leaves. -/
def Obligations.HeaderWritten : Prop :=
  encode .hufWrhdr = 0x00000048#32 ∧
  ∀ s : State,
    (s.ctrl.outEn = false ∨ s.code.valid = false → exec .hufWrhdr s = .next (takeError .nullArgument s)) ∧
    (s.ctrl.outEn = true → OutputOk s → ∀ T : HTree, HoldsTree s.code T →
      T.header.length + 1 = 10 * T.symbols.length ∧
      (T.header.length ≤ room s → ∃ t : State, exec .hufWrhdr s = .next (complete t) ∧ Appended s t T.header) ∧
      (room s < T.header.length →
        ∃ t : State, exec .hufWrhdr s = .next (takeError .outOverflow t) ∧ Appended s t (T.header.take (room s))))

/-- 45_huffman_code.md R125 (with R120): HUF_RDHDR reads a header from the current position and holds its tree, with every FREQ 0;
input that does not begin with the header of a tree the arena can hold raises INVALID_FORMAT or CAPACITY_EXCEEDED and leaves
no code. Nothing but the input position, the code and the stack changes. -/
def Obligations.HeaderRead : Prop :=
  encode .hufRdhdr = 0x00000049#32 ∧
  ∀ s : State,
    (s.ctrl.inEn = false → exec .hufRdhdr s = .next (takeError .nullArgument s)) ∧
    (s.ctrl.inEn = true → InputOk s →
      (∀ (T : HTree) (rest : List Bool), inputBits s = T.header ++ rest → T.symbols.length ≤ 256 →
        ∃ (t u : State), exec .hufRdhdr s = .next (complete t) ∧ Consumed s u T.header ∧
          t = { u with code := t.code, dstack := t.dstack } ∧ HoldsTree t.code T ∧
          ∀ n nd, nodeOf t.code n = some nd → nd.freq = 0#32) ∧
      ((∀ (T : HTree) (rest : List Bool), inputBits s = T.header ++ rest → 256 < T.symbols.length) →
        ∃ (t u : State) (c : ErrCode) (bs : List Bool), exec .hufRdhdr s = .next (takeError c t) ∧ (c = .invalidFormat ∨ c = .capacityExceeded) ∧
          Consumed s u bs ∧ t = { u with code := t.code, dstack := t.dstack } ∧
          t.code.valid = false ∧ t.code.root = 0x1FF#9))

/-- 45_huffman_code.md R126 (with R121, R122): HUF_ENC writes the path from the root to the symbol's leaf, LEFT = 0 and RIGHT = 1;
every check in its order. -/
def Obligations.EncodeWritesCodeword : Prop :=
  encode .hufEnc = 0x0000004A#32 ∧
  ∀ s : State,
    (s.ctrl.outEn = false ∨ s.code.valid = false → exec .hufEnc s = .next (takeError .nullArgument s)) ∧
    (s.ctrl.outEn = true → s.code.valid = true → 255 < s.a0.toNat ∨ leafAt s.code s.a0.toNat = 0x1FF#9 →
      exec .hufEnc s = .next (takeError .invalidArgument s)) ∧
    (s.ctrl.outEn = true → OutputOk s → s.a0.toNat ≤ 255 → leafAt s.code s.a0.toNat ≠ 0x1FF#9 →
      ∀ T : HTree, HoldsTree s.code T →
      ∃ p, follow s.code s.code.root p = some (leafAt s.code s.a0.toNat) ∧
        T.symbolAt p = some (BitVec.ofNat 8 s.a0.toNat) ∧
        (p.length ≤ room s → ∃ t : State, exec .hufEnc s = .next (complete t) ∧ Appended s t p) ∧
        (room s < p.length →
          ∃ t : State, exec .hufEnc s = .next (takeError .outOverflow t) ∧ Appended s t (p.take (room s))))

/-- 45_huffman_code.md R127 (with R123): HUF_DEC walks down from the root, one bit a level; the bits running out before a leaf is
PREMATURE_EOS, with the bits read consumed. -/
def Obligations.DecodeReadsCodeword : Prop :=
  encode .hufDec = 0x0000004B#32 ∧
  ∀ s : State,
    (s.ctrl.inEn = false ∨ s.code.valid = false → exec .hufDec s = .next (takeError .nullArgument s)) ∧
    (s.ctrl.inEn = true → InputOk s → ∀ T : HTree, HoldsTree s.code T →
      (∀ sym rest, T.decode (inputBits s) = some (sym, rest) →
        ∃ (t : State) (bs : List Bool) (v : Word), exec .hufDec s = .next (complete { t with res0 := v }) ∧ v.toNat = sym.toNat ∧
          inputBits s = bs ++ rest ∧ Consumed s t bs) ∧
      (T.decode (inputBits s) = none →
        ∃ t : State, exec .hufDec s = .next (takeError .prematureEos t) ∧ Consumed s t (inputBits s)))

/-! ### Compress and expand -/

/-- 46_huffman_stream.md R129 with R128: HUF_COMPRESS appends header, count, codewords and padding, and leaves the input at its
end, the counts of the input in the table, and the code and the queue that HUF_BUILD leaves on that table; where the stream
does not fit, what does stays written and OUT_OVERFLOW is raised; the empty input changes nothing. -/
def Obligations.CompressWritesStream : Prop :=
  encode .hufCompress = 0x0000004C#32 ∧
  ∀ s : State,
    (s.ctrl.inEn = false ∨ s.ctrl.outEn = false → exec .hufCompress s = .next (takeError .nullArgument s)) ∧
    (s.ctrl.inEn = true → s.ctrl.outEn = true → s.inp.len = 0#32 → exec .hufCompress s = .next (complete s)) ∧
    (s.ctrl.inEn = true → s.ctrl.outEn = true → s.inp.len ≠ 0#32 → InputOk s → OutputOk s →
      ∃ (t : State) (T : HTree) (count : List Nat) (codewords stream : List Bool),
        stream = T.header ++ bytesBits count ++ codewords ∧
        T.symbols.Nodup ∧ (∀ sym : Byte, sym ∈ T.symbols ↔ sym.toNat ∈ inputBytes s 0 s.inp.len.toNat) ∧
        IsMinimalVarint count ∧ varintValue count = s.inp.len.toNat ∧
        T.encodeMany (byteSymbols (inputBytes s 0 s.inp.len.toNat)) = some codewords ∧
        HoldsTree t.code T ∧ t.freq.valid = true ∧
        (∀ sym, sym < 256 → (freqAt t.freq sym).toNat = (inputBytes s 0 s.inp.len.toNat).count sym) ∧
        (∃ b : State, exec .hufBuild { s with freq := t.freq } = .next (complete b) ∧ t.code = b.code ∧ t.pq = b.pq) ∧
        t.pq.size = 0#10 ∧ t.pq.external = false ∧
        t = { s with inp := t.inp, out := t.out, mem := t.mem, pq := t.pq, freq := t.freq, code := t.code } ∧
        t.inp.len = s.inp.len ∧ InputOk t ∧
        (outputLength s + stream.length ≤ 8 * s.cfg.outCap →
          exec .hufCompress s = .next (complete t) ∧ t.inp.pos = s.inp.len ∧ t.inp.nbits = 0#4 ∧ t.out.nbits = 0#3 ∧
          Appended s { s with out := t.out, mem := t.mem } (stream ++ padding (outputLength s + stream.length))) ∧
        (8 * s.cfg.outCap < outputLength s + stream.length →
          exec .hufCompress s = .next (takeError .outOverflow t) ∧
          Appended s { s with out := t.out, mem := t.mem } (stream.take (room s))))

/-- 46_huffman_stream.md R130: HUF_EXPAND reads from byte 0. Input that begins with no header of a tree the arena can hold is
INVALID_FORMAT (the bits ran out) or CAPACITY_EXCEEDED (the arena or the stack is full), with no code held; after a header, a
count that is cut short is PREMATURE_EOS and one above 2^31 − 1 is INVALID_FORMAT; none of these writes anything. After a count
it writes the decoded symbols and the padding, and reads nothing after the last codeword; input that ends inside a codeword is
PREMATURE_EOS after the symbols before it; output that does not fit is OUT_OVERFLOW, also where a later codeword is cut short;
the empty input changes nothing. -/
def Obligations.ExpandReadsStream : Prop :=
  encode .hufExpand = 0x0000004D#32 ∧
  ∀ s : State,
    (s.ctrl.inEn = false ∨ s.ctrl.outEn = false → exec .hufExpand s = .next (takeError .nullArgument s)) ∧
    (s.ctrl.inEn = true → s.ctrl.outEn = true → s.inp.len = 0#32 → exec .hufExpand s = .next (complete s)) ∧
    (s.ctrl.inEn = true → s.ctrl.outEn = true → s.inp.len ≠ 0#32 → InputOk s → OutputOk s →
      ((∀ (T : HTree) (rest : List Bool), bytesBits (inputBytes s 0 s.inp.len.toNat) = T.header ++ rest →
          256 < T.symbols.length) →
        ∃ (t : State) (c : ErrCode), exec .hufExpand s = .next (takeError c t) ∧
          ((c = .invalidFormat ∧ (inputBits t).length < 8) ∨
            (c = .capacityExceeded ∧ (t.code.count.toNat = 511 ∨ t.dstack.dsp.toNat = 511))) ∧
          t = { s with inp := t.inp, code := t.code, dstack := t.dstack } ∧ t.inp.len = s.inp.len ∧ InputOk t ∧
          t.code.valid = false ∧ t.code.root = 0x1FF#9) ∧
      ∀ (T : HTree) (body : List Bool), bytesBits (inputBytes s 0 s.inp.len.toNat) = T.header ++ body →
      T.symbols.length ≤ 256 →
      (∀ (front : List Nat) (rest : List Bool), body = bytesBits front ++ rest →
        (∀ b ∈ front, 128 ≤ b ∧ b < 256) → front.length ≤ 4 → rest.length < 8 →
        ∃ t, exec .hufExpand s = .next (takeError .prematureEos t) ∧
          t = { s with inp := t.inp, code := t.code, dstack := t.dstack } ∧ HoldsTree t.code T ∧
          t.inp.len = s.inp.len ∧ InputOk t ∧ inputBits t = rest) ∧
      (∀ (front : List Nat) (last : Nat) (rest : List Bool), body = bytesBits (front ++ [last]) ++ rest →
        (∀ b ∈ front, 128 ≤ b ∧ b < 256) → front.length = 4 → last < 256 → (7 < last % 128 ∨ 128 ≤ last) →
        ∃ t, exec .hufExpand s = .next (takeError .invalidFormat t) ∧
          t = { s with inp := t.inp, code := t.code, dstack := t.dstack } ∧ HoldsTree t.code T ∧
          t.inp.len = s.inp.len ∧ InputOk t ∧ inputBits t = rest) ∧
      ∀ (count : List Nat) (rest : List Bool), body = bytesBits count ++ rest → IsVarint count →
      ∃ t, t = { s with inp := t.inp, out := t.out, mem := t.mem, code := t.code, dstack := t.dstack } ∧
        HoldsTree t.code T ∧ t.inp.len = s.inp.len ∧ InputOk t ∧
        (∀ syms tail, T.decodeMany (varintValue count) rest = some (syms, tail) →
          (outputLength s + 8 * syms.length ≤ 8 * s.cfg.outCap →
            exec .hufExpand s = .next (complete t) ∧ inputBits t = tail ∧ t.out.nbits = 0#3 ∧
            Appended s { s with out := t.out, mem := t.mem }
              (bytesBits (symbolBytes syms) ++ padding (outputLength s))) ∧
          (8 * s.cfg.outCap < outputLength s + 8 * syms.length →
            exec .hufExpand s = .next (takeError .outOverflow t) ∧
            Appended s { s with out := t.out, mem := t.mem } ((bytesBits (symbolBytes syms)).take (room s)))) ∧
        (∀ n syms tail, n < varintValue count → T.decodeMany n rest = some (syms, tail) → T.decode tail = none →
          8 * syms.length ≤ room s →
          exec .hufExpand s = .next (takeError .prematureEos t) ∧ inputBits t = [] ∧
          Appended s { s with out := t.out, mem := t.mem } (bytesBits (symbolBytes syms))) ∧
        (∀ n syms tail, n ≤ varintValue count → T.decodeMany n rest = some (syms, tail) → room s < 8 * syms.length →
          exec .hufExpand s = .next (takeError .outOverflow t) ∧
          (8 * syms.length ≤ room s + 8 → inputBits t = tail) ∧
          Appended s { s with out := t.out, mem := t.mem } ((bytesBits (symbolBytes syms)).take (room s))))

/-- 46_huffman_stream.md R131, the round trip: what HUF_COMPRESS makes of an input, written into an empty output without an
error, HUF_EXPAND turns back into exactly that input; and both write nothing for the empty input. -/
def Obligations.ExpandInvertsCompress : Prop :=
  ∀ s t u : State, InputOk s → OutputOk s → s.ctrl.inEn = true → s.ctrl.outEn = true →
    s.out.len = 0#32 → s.out.nbits = 0#3 → exec .hufCompress s = .next t →
    s.status.err = false → t.status.err = false →
    InputOk u → OutputOk u → u.ctrl.inEn = true → u.ctrl.outEn = true → u.out.len = 0#32 → u.out.nbits = 0#3 →
    u.inp.len = t.out.len → inputBytes u 0 u.inp.len.toNat = outputBytes t t.out.len.toNat →
    s.inp.len.toNat ≤ u.cfg.outCap →
    (∃ v, exec .hufExpand u = .next (complete v) ∧ v.out.nbits = 0#3 ∧ v.out.len = s.inp.len ∧
      outputBytes v v.out.len.toNat = inputBytes s 0 s.inp.len.toNat) ∧
    (s.inp.len = 0#32 → t = complete s ∧ exec .hufExpand u = .next (complete u))

/-! ### LZW codes -/

/-- 47_lzw_codec.md R133, R135: LZW_WINIT and LZW_RINIT. -/
def Obligations.LzwConstruction : Prop :=
  encode .lzwWinit = 0x00000050#32 ∧ encode .lzwRinit = 0x00000052#32 ∧
  ∀ s : State,
    (s.a0.toInt < 256 → exec .lzwWinit s = .next (takeError .invalidArgument s) ∧
      exec .lzwRinit s = .next (takeError .invalidArgument s)) ∧
    (256 ≤ s.a0.toInt →
      exec .lzwWinit s = .next (complete { s with lzw := { s.lzw with wsize := s.a0, wValid := true } }) ∧
      exec .lzwRinit s = .next (complete { s with lzw := { s.lzw with rsize := s.a0, rValid := true } }))

/-- 47_lzw_codec.md R134 with R132: LZW_WRITE, every check in its order, the code in ceil(log2(size)) bits, and the size one
greater unless the output overflowed. -/
def Obligations.LzwCodeWrite : Prop :=
  encode .lzwWrite = 0x00000051#32 ∧
  ∀ s : State,
    (s.ctrl.outEn = false ∨ s.lzw.wValid = false → exec .lzwWrite s = .next (takeError .nullArgument s)) ∧
    (s.ctrl.outEn = true → s.lzw.wValid = true → ∀ w, IsWidth s.lzw.wsize.toNat w →
      (31 < w ∨ s.lzw.wsize.toNat ≤ s.a0.toNat → exec .lzwWrite s = .next (takeError .invalidArgument s)) ∧
      (w ≤ 31 → s.a0.toNat < s.lzw.wsize.toNat → OutputOk s →
        (w ≤ room s →
          ∃ t : State, exec .lzwWrite s = .next (complete { t with lzw := { s.lzw with wsize := s.lzw.wsize + 1#32 } }) ∧
            Appended s t (bitsMSB w s.a0.toNat)) ∧
        (room s < w →
          ∃ t : State, exec .lzwWrite s = .next (takeError .outOverflow t) ∧
            Appended s t ((bitsMSB w s.a0.toNat).take (room s)))))

/-- 47_lzw_codec.md R136 with R132: LZW_READ, every check in its order; at the end of the stream the sentinel, with nothing
consumed and the size unchanged. -/
def Obligations.LzwCodeRead : Prop :=
  encode .lzwRead = 0x00000053#32 ∧
  ∀ s : State,
    (s.ctrl.inEn = false ∨ s.lzw.rValid = false → exec .lzwRead s = .next (takeError .nullArgument s)) ∧
    (s.ctrl.inEn = true → s.lzw.rValid = true → ∀ w, IsWidth s.lzw.rsize.toNat w →
      (31 < w → exec .lzwRead s = .next (takeError .invalidArgument s)) ∧
      (w ≤ 31 → InputOk s →
        ((inputBits s).length < w →
          exec .lzwRead s = .next (complete { s with
            res0 := 0xFFFFFFFF#32, status := { s.status with eos := true } })) ∧
        (w ≤ (inputBits s).length →
          ∃ (t : State) (v : Nat), exec .lzwRead s = .next (complete { t with
              res0 := BitVec.ofNat 32 v, lzw := { s.lzw with rsize := s.lzw.rsize + 1#32 } }) ∧
            v < 2 ^ w ∧ Consumed s t (bitsMSB w v))))

/-! ### Invariants -/

/-- The invariants below hold after reset (their values are those of 10_state.md R42). -/
def Obligations.ResetMeetsInvariants : Prop :=
  StreamsLegal State.reset ∧ QueueLegal State.reset ∧ CodeOk State.reset.code ∧ StatusOk State.reset

/-- 10_state.md R26, R28, R33, R40: the stream positions stay in their buffers, at most 7 bits stand buffered, OUT_BUF has no bit
above the pending ones, the counters stay below 2^31, and memory keeps its canonical form (log 6). -/
def Obligations.StreamsStayLegal : Prop :=
  ∀ s t : State, StreamsLegal s → step s = .next t → StreamsLegal t

/-- 10_state.md R30, R31: the size stays within the capacity, and the heap order holds after every step, as far as the active
ordering is a strict weak order. -/
def Obligations.HeapOrderKept : Prop :=
  ∀ s t : State, QueueLegal s → step s = .next t → QueueLegal t

/-- 10_state.md R36: whenever CODE_VALID = 1 after a step, the arena holds a full binary tree at ROOT with its parent links, and
LEAF_MAP names leaves of it. -/
def Obligations.CodeStaysATree : Prop :=
  ∀ s t : State, CodeOk s.code → step s = .next t → CodeOk t.code

/-- 10_state.md R22, R23, 60_exceptions.md R138, R139: between steps BUSY = 0, ERRCODE and ERRINFO are 0 while ERR = 0 and ERRCODE is
a code of the table while ERR = 1, and EOS and EMPTY stand with their sentinels. -/
def Obligations.StatusStaysLegal : Prop :=
  ∀ s t : State, StatusOk s → step s = .next t → StatusOk t

/-- 70_reset_and_hazards.md R163, 20_memory.md R49: from a state that meets the invariants every command ends in a next state, and
the one thing that is no step is a bus error of the host. -/
def Obligations.EveryCommandCompletes : Prop :=
  ∀ s : State, StreamsLegal s → QueueLegal s → CodeOk s.code →
    (∀ i : Instr, ∃ t : State, exec i s = .next t) ∧ ((∃ t, step s = .next t) ∨ step s = .fault .busError)

/-- 10_state.md R42, "every unspecified entry is unobservable": HEAP above PQ_SIZE, NODE at and above NODE_COUNT, LEAF_MAP while no
code is held and DSTACK influence no outcome of a command and no host read. -/
def Obligations.UnspecifiedContentsUnseen : Prop :=
  ∀ s t : State, SameSeen s t → QueueOk s.pq →
    (∀ a n, hostRead t a n = hostRead s a n) ∧
    ∀ i : Instr,
      (∀ s', exec i s = .next s' → ∃ t', exec i t = .next t' ∧ SameSeen s' t') ∧
      ∀ f, exec i s = .fault f → exec i t = .fault f

/-- 70_reset_and_hazards.md R155: bytes of IN_MEM at or beyond IN_LEN are never read by a command, and those before IN_POS are read
by no command that reads from the current position: they influence no outcome. -/
def Obligations.UnreadInputUnseen : Prop :=
  ∀ (i : Instr) (s t s' : State) (hidden : Nat → Prop), InputOk s →
    (∀ a, hidden a → inBase ≤ a ∧ a < outBase ∧
      (inBase + s.inp.len.toNat ≤ a ∨
        (i ∈ [Instr.rdBit, .rdBits, .rdByte, .rdBytes, .rdInt, .hufRdhdr, .hufDec, .lzwRead] ∧
          a < inBase + s.inp.pos.toNat))) →
    SameBut hidden s t → exec i s = .next s' →
    ∃ t', exec i t = .next t' ∧ SameBut hidden s' t'

/-! ### The merge, entry by entry -/

/-- 44_huffman_tree.md R111: the leaves are offered in ascending symbol order to a new natural queue of capacity 1 (`leaves j` is
the queue after j of them); the m-th merge (`merges m` is the queue before it) polls two entries, makes the first the LEFT and
the second the RIGHT child of the next node, sets both PARENTs and offers the sum; the last entry polled is the root. Ties fall
as Offer and PollMin (R99, R101) let them. -/
def Obligations.BuildMergesInOrder : Prop :=
  ∀ s : State, s.freq.valid = true → (∃ sym, sym < 256 ∧ freqAt s.freq sym ≠ 0#32) → totalFreq s.freq ≤ 2 ^ 31 - 1 →
    ∃ (t : State) (leaves merges : Nat → Queue) (k : Nat), k = (tableSymbols s.freq).length ∧
      exec .hufBuild s = .next (complete t) ∧ t = { s with pq := t.pq, code := t.code } ∧
      leaves 0 = { s.pq with size := 0#10, cap := 1#10, external := false } ∧
      (∀ j sym, (tableSymbols s.freq)[j]? = some sym →
        offered (leaves j) { key := freqAt s.freq sym, tag := BitVec.ofNat 32 j } = some (leaves (j + 1)) ∧
        (leafAt t.code sym).toNat = j ∧
        ∃ nd, nodeOf t.code j = some nd ∧ nd.leaf = true ∧ nd.sym.toNat = sym ∧ nd.freq = freqAt s.freq sym ∧
          nd.left = 0x1FF#9 ∧ nd.right = 0x1FF#9) ∧
      (∀ sym, sym < 256 → freqAt s.freq sym = 0#32 → leafAt t.code sym = 0x1FF#9) ∧
      merges 0 = leaves k ∧
      (∀ m, m + 1 < k → ∃ (x y : Entry) (nd nx ny : Node),
        x = heapAt (merges m) 1 ∧ y = heapAt (polled (merges m)) 1 ∧
        offered (polled (polled (merges m))) { key := x.key + y.key, tag := BitVec.ofNat 32 (k + m) } =
          some (merges (m + 1)) ∧
        nodeOf t.code (k + m) = some nd ∧ nd.leaf = false ∧ nd.sym = 0#8 ∧ nd.freq = x.key + y.key ∧
        nd.left.toNat = x.tag.toNat ∧ nd.right.toNat = y.tag.toNat ∧
        nodeOf t.code x.tag.toNat = some nx ∧ nx.parent.toNat = k + m ∧
        nodeOf t.code y.tag.toNat = some ny ∧ ny.parent.toNat = k + m) ∧
      t.pq = polled (merges (k - 1)) ∧ t.pq.size = 0#10 ∧
      t.code.count.toNat + 1 = 2 * k ∧ t.code.valid = true ∧
      t.code.root.toNat = (heapAt (merges (k - 1)) 1).tag.toNat ∧
      ∃ nd, nodeOf t.code t.code.root.toNat = some nd ∧ nd.parent = 0x1FF#9

end
end

