-- ==== Sys2Proof/Laws/Op.lean ====
section
/-! SUPPORT. How a primitive runs: one equation per way of building one, and what a command answers. -/

namespace Sys2Proof.Laws

open Sys2Proof Sys2Proof.Machine

variable {α β : Type}

@[simp] theorem op_pure (a : α) (s : State) : (pure a : Op α) s = .ok a s := rfl

@[simp] theorem op_bind (x : Op α) (f : α → Op β) (s : State) :
    (x >>= f) s = match x s with | .ok a t => f a t | .error e t => .error e t := by
  change EStateM.bind x f s = _
  unfold EStateM.bind
  cases x s <;> rfl

@[simp] theorem op_map (f : α → β) (x : Op α) (s : State) :
    (f <$> x) s = match x s with | .ok a t => .ok (f a) t | .error e t => .error e t := by
  change EStateM.map f x s = _
  unfold EStateM.map
  cases x s <;> rfl

@[simp] theorem op_get (s : State) : (get : Op State) s = .ok s s := rfl

@[simp] theorem op_set (t s : State) : (set t : Op PUnit) s = .ok ⟨⟩ t := rfl

@[simp] theorem op_modify (f : State → State) (s : State) : (modify f : Op PUnit) s = .ok ⟨⟩ (f s) := rfl

@[simp] theorem op_raise (c : ErrCode) (s : State) : (raise c : Op α) s = .error (.raise c) s := rfl

@[simp] theorem op_halt (f : Fault) (s : State) : (halt f : Op α) s = .error (.fault f) s := rfl

@[simp] theorem op_ite (p : Prop) [Decidable p] (x y : Op α) (s : State) :
    (if p then x else y) s = if p then x s else y s := by split <;> rfl

theorem require_run (p : Prop) [Decidable p] (c : ErrCode) (s : State) :
    require p c s = if p then .ok () s else .error (.raise c) s := by
  unfold require; split <;> rfl

@[simp] theorem require_pos {p : Prop} [Decidable p] (h : p) (c : ErrCode) (s : State) :
    require p c s = .ok () s := by simp [require_run, h]

@[simp] theorem require_neg {p : Prop} [Decidable p] (h : ¬ p) (c : ErrCode) (s : State) :
    require p c s = .error (.raise c) s := by simp [require_run, h]

@[simp] theorem operand0_run (s : State) : operand0 s = .ok s.a0.toNat s := rfl

@[simp] theorem operand1_run (s : State) : operand1 s = .ok s.a1.toNat s := rfl

@[simp] theorem signedOperand0_run (s : State) : signedOperand0 s = .ok s.a0.toInt s := rfl

@[simp] theorem setRes0_run (v : Word) (s : State) : setRes0 v s = .ok ⟨⟩ { s with res0 := v } := rfl

@[simp] theorem setRes1_run (v : Word) (s : State) : setRes1 v s = .ok ⟨⟩ { s with res1 := v } := rfl

@[simp] theorem setRes2_run (v : Word) (s : State) : setRes2 v s = .ok ⟨⟩ { s with res2 := v } := rfl

@[simp] theorem setResEntry_run (e : Entry) (s : State) :
    setResEntry e s = .ok ⟨⟩ { s with res0 := e.key, res1 := e.tag } := rfl

@[simp] theorem endOfStream_run (s : State) :
    endOfStream s = .ok ⟨⟩ { s with res0 := Config.eosValue, status := flagsEos s.status } := rfl

@[simp] theorem emptyQueue_run (s : State) :
    emptyQueue s = .ok ⟨⟩ { s with res0 := 0#32, res1 := 0#32, status := flagsEmpty s.status } := rfl

theorem needReader_run (s : State) :
    needReader s = if s.ctrl.inEn = true then .ok () s else .error (.raise .nullArgument) s := by
  simp [needReader, require_run]

theorem needWriter_run (s : State) :
    needWriter s = if s.ctrl.outEn = true then .ok () s else .error (.raise .nullArgument) s := by
  simp [needWriter, require_run]

theorem needCode_run (s : State) :
    needCode s = if s.code.valid = true then .ok () s else .error (.raise .nullArgument) s := by
  simp [needCode, require_run]

theorem inByte_ok {a : Nat} {s : State} (h : a < s.cfg.inCap) : inByte a s = .ok (s.mem.read (inBase + a)) s := by
  simp [inByte, h]

theorem inByte_fault {a : Nat} {s : State} (h : ¬ a < s.cfg.inCap) : inByte a s = .error (.fault .noSuchByte) s := by
  simp [inByte, h]

theorem scratchByte_ok {a : Nat} {s : State} (h : a < s.cfg.scrCap) :
    scratchByte a s = .ok (s.mem.read (scrBase + a)) s := by
  simp [scratchByte, h]

theorem setScratchByte_ok {a : Nat} {s : State} (v : Byte) (h : a < s.cfg.scrCap) :
    setScratchByte a v s = .ok ⟨⟩ { s with mem := s.mem.write (scrBase + a) v } := by
  simp [setScratchByte, h]

theorem setOutByte_ok {a : Nat} {s : State} (v : Byte) (h : a < s.cfg.outCap) :
    setOutByte a v s = .ok ⟨⟩ { s with mem := s.mem.write (outBase + a) v } := by
  simp [setOutByte, h]

/-- A command whose body ends well completes. -/
theorem command_ok {body : Op Unit} {s t : State} (h : body s = .ok () t) : command body s = .next (complete t) := by
  simp [command, h]

/-- A command whose body raises takes the error in the state it was raised in. -/
theorem command_raise {body : Op Unit} {s t : State} {c : ErrCode} (h : body s = .error (.raise c) t) :
    command body s = .next (takeError c t) := by
  simp [command, h]

/-- Everything a command can answer. -/
theorem command_cases (body : Op Unit) (s : State) :
    (∃ t, body s = .ok () t ∧ command body s = .next (complete t)) ∨
    (∃ c t, body s = .error (.raise c) t ∧ command body s = .next (takeError c t)) ∨
    (∃ f t, body s = .error (.fault f) t ∧ command body s = .fault f) := by
  cases h : body s with
  | ok a t => exact .inl ⟨t, rfl, command_ok h⟩
  | error e t =>
    cases e with
    | raise c => exact .inr (.inl ⟨c, t, rfl, command_raise h⟩)
    | fault f => exact .inr (.inr ⟨f, t, rfl, by simp [command, h]⟩)

/-- A command that answers a next state completed or took an error. -/
theorem command_next {body : Op Unit} {s t : State} (h : command body s = .next t) :
    (∃ u, body s = .ok () u ∧ t = complete u) ∨ (∃ c u, body s = .error (.raise c) u ∧ t = takeError c u) := by
  rcases command_cases body s with ⟨u, hb, hc⟩ | ⟨c, u, hb, hc⟩ | ⟨f, u, hb, hc⟩
  · exact .inl ⟨u, hb, by simpa [hc] using h.symm⟩
  · exact .inr ⟨c, u, hb, by simpa [hc] using h.symm⟩
  · simp [hc] at h

end Sys2Proof.Laws
end

