-- ==== Sys2Proof/Laws/Footprint.lean ====
section
/-! SUPPORT. Footprints: which parts of the state a primitive can change, however it ends. One rule per way of building a
primitive, one lemma per primitive. -/

namespace Sys2Proof.Laws

open Sys2Proof Sys2Proof.Machine

/-- The parts of the state a command can change. The parameters, the latched operands, the host's pending accesses and
the data of its last read are none of them. -/
inductive Part where
  | args | res0 | res1 | res2 | lastCmd | cmdCnt | status | errInfo | ctrl
  | inp | out | pq | freq | code | dstack | lzw | mem
deriving DecidableEq, Repr

/-- A part has the same value in two states. -/
def samePart (p : Part) (s t : State) : Prop :=
  match p with
  | .args    => t.arg0 = s.arg0 ∧ t.arg1 = s.arg1
  | .res0    => t.res0 = s.res0
  | .res1    => t.res1 = s.res1
  | .res2    => t.res2 = s.res2
  | .lastCmd => t.lastCmd = s.lastCmd
  | .cmdCnt  => t.cmdCnt = s.cmdCnt
  | .status  => t.status = s.status
  | .errInfo => t.errInfo = s.errInfo
  | .ctrl    => t.ctrl = s.ctrl
  | .inp     => t.inp = s.inp
  | .out     => t.out = s.out
  | .pq      => t.pq = s.pq
  | .freq    => t.freq = s.freq
  | .code    => t.code = s.code
  | .dstack  => t.dstack = s.dstack
  | .lzw     => t.lzw = s.lzw
  | .mem     => t.mem = s.mem

/-- What no command changes. -/
def sameFixed (s t : State) : Prop :=
  t.cfg = s.cfg ∧ t.a0 = s.a0 ∧ t.a1 = s.a1 ∧ t.host = s.host ∧ t.readData = s.readData ∧ t.mem.draw = s.mem.draw

/-- From `s` to `t` only the parts of `τ` have changed. -/
def Within (τ : List Part) (s t : State) : Prop := sameFixed s t ∧ ∀ p, p ∉ τ → samePart p s t

theorem samePart.refl (p : Part) (s : State) : samePart p s s := by cases p <;> simp [samePart]

theorem samePart.trans {p : Part} {s t u : State} (h : samePart p s t) (k : samePart p t u) : samePart p s u := by
  cases p <;> simp_all [samePart]

theorem Within.refl (τ : List Part) (s : State) : Within τ s s := ⟨by simp [sameFixed], fun p _ => samePart.refl p s⟩

theorem Within.trans {τ : List Part} {s t u : State} (h : Within τ s t) (k : Within τ t u) : Within τ s u :=
  ⟨by simp_all [Within, sameFixed], fun p hp => (h.2 p hp).trans (k.2 p hp)⟩

theorem Within.mono {τ σ : List Part} {s t : State} (h : Within τ s t) (hs : τ ⊆ σ) : Within σ s t :=
  ⟨h.1, fun p hp => h.2 p fun k => hp (hs k)⟩

/-- The state a primitive ends in, well or not. -/
def resultState {α : Type} (r : EStateM.Result Stop State α) : State :=
  match r with
  | .ok _ t => t
  | .error _ t => t

@[simp] theorem resultState_ok {α : Type} (a : α) (t : State) :
    resultState (.ok a t : EStateM.Result Stop State α) = t := rfl

@[simp] theorem resultState_error {α : Type} (e : Stop) (t : State) :
    resultState (.error e t : EStateM.Result Stop State α) = t := rfl

/-- However `x` ends, it has changed only the parts of `τ`. -/
def Footprint {α : Type} (τ : List Part) (x : Op α) : Prop := ∀ s, Within τ s (resultState (x s))

namespace Footprint

variable {α β : Type} {τ σ : List Part}

theorem mono {x : Op α} (h : Footprint τ x) (hs : τ ⊆ σ) : Footprint σ x := fun s => (h s).mono hs

theorem ofPure (a : α) : Footprint τ (pure a : Op α) := fun s => Within.refl τ s

theorem ofRaise (c : ErrCode) : Footprint τ (raise c : Op α) := fun s => Within.refl τ s

theorem ofHalt (f : Fault) : Footprint τ (halt f : Op α) := fun s => Within.refl τ s

theorem ofGet : Footprint τ (get : Op State) := fun s => Within.refl τ s

theorem ofRequire (p : Prop) [Decidable p] (c : ErrCode) : Footprint τ (require p c) := fun s => by
  rw [require_run]; split <;> exact Within.refl τ s

theorem ofBind {x : Op α} {f : α → Op β} (hx : Footprint τ x) (hf : ∀ a, Footprint τ (f a)) :
    Footprint τ (x >>= f) := fun s => by
  have h := hx s
  rw [op_bind]
  cases hs : x s with
  | ok a t => rw [hs] at h; exact h.trans (hf a t)
  | error e t => rw [hs] at h; exact h

/-- After `get`, only the run from that very state counts. -/
theorem ofGetBind {f : State → Op α} (h : ∀ s, Within τ s (resultState (f s s))) :
    Footprint τ ((get : Op State) >>= f) := fun s => h s

theorem ofIte (p : Prop) [Decidable p] {x y : Op α} (hx : Footprint τ x) (hy : Footprint τ y) :
    Footprint τ (if p then x else y) := by split <;> assumption

theorem ofModify {f : State → State} (h : ∀ s, Within τ s (f s)) : Footprint τ (modify f : Op PUnit) := h

end Footprint

/-- Closes `Within τ s t` where `t` is `s` with the fields of `τ` updated. -/
theorem within_of {τ : List Part} {s t : State} (hf : sameFixed s t) (h : ∀ p, p ∈ τ ∨ samePart p s t) :
    Within τ s t := ⟨hf, fun p hp => (h p).resolve_left hp⟩

open Footprint

variable {τ : List Part}

theorem within_inp (s : State) (u : InUnit) : Within [.inp] s { s with inp := u } :=
  within_of (by simp [sameFixed]) fun p => by cases p <;> simp [samePart]

theorem within_out (s : State) (u : OutUnit) : Within [.out] s { s with out := u } :=
  within_of (by simp [sameFixed]) fun p => by cases p <;> simp [samePart]

theorem within_pq (s : State) (q : Queue) : Within [.pq] s { s with pq := q } :=
  within_of (by simp [sameFixed]) fun p => by cases p <;> simp [samePart]

theorem within_freq (s : State) (f : FreqTable) : Within [.freq] s { s with freq := f } :=
  within_of (by simp [sameFixed]) fun p => by cases p <;> simp [samePart]

theorem within_code (s : State) (c : Code) : Within [.code] s { s with code := c } :=
  within_of (by simp [sameFixed]) fun p => by cases p <;> simp [samePart]

theorem within_dstack (s : State) (d : DStack) : Within [.dstack] s { s with dstack := d } :=
  within_of (by simp [sameFixed]) fun p => by cases p <;> simp [samePart]

theorem within_lzw (s : State) (l : Lzw) : Within [.lzw] s { s with lzw := l } :=
  within_of (by simp [sameFixed]) fun p => by cases p <;> simp [samePart]

theorem within_write (s : State) (a : Nat) (v : Byte) : Within [.mem] s { s with mem := s.mem.write a v } :=
  within_of (by simp [sameFixed, Memory.write]) fun p => by cases p <;> simp [samePart]

theorem within_res0 (s : State) (v : Word) : Within [.res0] s { s with res0 := v } :=
  within_of (by simp [sameFixed]) fun p => by cases p <;> simp [samePart]

/-! ### Primitives of the streams -/

theorem inByte_footprint (a : Nat) : Footprint τ (inByte a) :=
  ofGetBind fun s => by rw [op_ite]; split <;> exact Within.refl τ s

theorem scratchByte_footprint (a : Nat) : Footprint τ (scratchByte a) :=
  ofGetBind fun s => by rw [op_ite]; split <;> exact Within.refl τ s

theorem setScratchByte_footprint (a : Nat) (v : Byte) : Footprint [.mem] (setScratchByte a v) :=
  ofGetBind fun s => by
    rw [op_ite]; split
    · exact within_write s _ v
    · exact Within.refl _ s

theorem setOutByte_footprint (a : Nat) (v : Byte) : Footprint [.mem] (setOutByte a v) :=
  ofGetBind fun s => by
    rw [op_ite]; split
    · exact within_write s _ v
    · exact Within.refl _ s

theorem bitsLeft_footprint : Footprint τ bitsLeft := fun s => Within.refl τ s

theorem refill_footprint : Footprint [.inp] refill := ofGetBind fun s => by
  rw [op_ite]; split
  · by_cases h : s.inp.pos.toNat < s.cfg.inCap
    · rw [op_bind, inByte_ok h]; exact within_inp s _
    · rw [op_bind, inByte_fault h]; exact Within.refl _ s
  · exact Within.refl _ s

theorem drainBit_footprint : Footprint [.inp] drainBit := ofGetBind fun s => within_inp s _

theorem getBit_footprint : Footprint [.inp] getBit := ofBind refill_footprint fun _ => drainBit_footprint

theorem getBitsFrom_footprint (n : Nat) : ∀ v, Footprint [.inp] (getBitsFrom n v) := by
  induction n with
  | zero => exact fun v => ofPure v
  | succ n ih => exact fun v => ofBind getBit_footprint fun b => ih _

theorem getBits_footprint (n : Nat) : Footprint [.inp] (getBits n) := getBitsFrom_footprint n 0

theorem inReset_footprint : Footprint [.inp] inReset := ofModify fun s => within_inp s _

theorem varintByte_footprint : Footprint [.inp] varintByte :=
  ofBind bitsLeft_footprint fun _ => ofBind (ofRequire _ _) fun _ => getBits_footprint 8

theorem readVarintFrom_footprint (k : Nat) : ∀ sh v, Footprint [.inp] (readVarintFrom k sh v) := by
  induction k with
  | zero => exact fun sh v => ofBind varintByte_footprint fun b => ofBind (ofRequire _ _) fun _ => ofPure _
  | succ k ih => exact fun sh v => ofBind varintByte_footprint fun b => ofIte _ (ofPure _) (ih _ _)

theorem readVarint_footprint : Footprint [.inp] readVarint := readVarintFrom_footprint 4 0 0

theorem copyInput_footprint (k : Nat) : ∀ src dst, Footprint [.mem] (copyInput k src dst) := by
  induction k with
  | zero => exact fun _ _ => ofPure _
  | succ k ih =>
    exact fun src dst => ofBind (inByte_footprint src) fun b => ofBind (setScratchByte_footprint dst b) fun _ => ih _ _

theorem storeByte_footprint (v : Byte) : Footprint [.out, .mem] (storeByte v) :=
  ofBind ofGet fun _ => ofBind ((setOutByte_footprint _ v).mono (by simp)) fun _ =>
    ofModify fun s => (within_out s _).mono (by simp)

theorem putBit_footprint (b : Bool) : Footprint [.out, .mem] (putBit b) := ofGetBind fun s => by
  by_cases h : ¬ (s.out.nbits = 7#3 ∧ s.out.len.toNat = s.cfg.outCap)
  · rw [op_bind, require_pos h]
    simp only [op_ite]
    split
    · exact storeByte_footprint _ s
    · exact (within_out s _).mono (by simp)
  · rw [op_bind, require_neg h]; exact Within.refl _ s

theorem putBits_footprint (n : Nat) : ∀ v, Footprint [.out, .mem] (putBits n v) := by
  induction n with
  | zero => exact fun _ => ofPure _
  | succ n ih => exact fun v => ofBind (putBit_footprint _) fun _ => ih v

theorem putAll_footprint (bs : List Bool) : Footprint [.out, .mem] (putAll bs) := by
  induction bs with
  | nil => exact ofPure _
  | cons b rest ih => exact ofBind (putBit_footprint b) fun _ => ih

theorem flush_footprint : Footprint [.out, .mem] flush :=
  ofBind ofGet fun _ => ofIte _ (ofPure _) (ofBind (ofRequire _ _) fun _ => storeByte_footprint _)

theorem writeVarintFrom_footprint (k : Nat) : ∀ v, Footprint [.out, .mem] (writeVarintFrom k v) := by
  induction k with
  | zero => exact fun _ => putBits_footprint 8 _
  | succ k ih =>
    exact fun v => ofIte _ (putBits_footprint 8 _) (ofBind (putBits_footprint 8 _) fun _ => ih _)

theorem writeVarint_footprint (v : Nat) : Footprint [.out, .mem] (writeVarint v) := writeVarintFrom_footprint 4 v

theorem copyOutput_footprint (k : Nat) : ∀ src dst, Footprint [.mem] (copyOutput k src dst) := by
  induction k with
  | zero => exact fun _ _ => ofPure _
  | succ k ih =>
    exact fun src dst => ofBind (scratchByte_footprint src) fun b => ofBind (setOutByte_footprint dst b) fun _ => ih _ _

/-! ### Primitives of the queue, the table and the arena -/

theorem offer_footprint (e : Entry) : Footprint [.pq] (offer e) := ofGetBind fun s => by
  cases offered s.pq e with
  | none => exact Within.refl _ s
  | some q => exact within_pq s q

theorem pollMin_footprint : Footprint [.pq] pollMin := ofGetBind fun s => within_pq s _

theorem nodeAt_footprint (n : Nat) : Footprint τ (nodeAt n) := ofGetBind fun s => by
  cases nodeOf s.code n <;> exact Within.refl τ s

theorem setParent_footprint (n p : NodeIdx) : Footprint [.code] (setParent n p) :=
  ofBind (nodeAt_footprint _) fun _ => ofModify fun s => within_code s _

theorem alloc_footprint (leaf : Bool) (sym : Byte) (freq : Word) (l r : NodeIdx) :
    Footprint [.code] (alloc leaf sym freq l r) := ofGetBind fun s => by
  by_cases h : s.code.count.toNat < Config.nodeCap
  · rw [op_bind, require_pos h]; exact within_code s _
  · rw [op_bind, require_neg h]; exact Within.refl _ s

theorem mapLeaf_footprint (sym : Nat) (n : NodeIdx) : Footprint [.code] (mapLeaf sym n) :=
  ofModify fun s => within_code s _

theorem countFrom_footprint (n : Nat) : ∀ k, Footprint [.freq] (countFrom n k) := by
  induction n with
  | zero => exact fun _ => ofPure _
  | succ n ih =>
    exact fun k => ofBind (inByte_footprint k) fun b => ofBind (ofModify fun s => within_freq s _) fun _ => ih _

theorem scan_footprint : Footprint [.inp, .freq] scan :=
  ofBind (ofModify fun s => (within_freq s _).mono (by simp)) fun _ =>
  ofBind ofGet fun _ => ofBind ((countFrom_footprint _ 0).mono (by simp)) fun _ =>
  ofBind (inReset_footprint.mono (by simp)) fun _ => ofModify fun s => (within_freq s _).mono (by simp)

theorem offerLeaf_footprint (sym : Nat) : Footprint [.pq, .code] (offerLeaf sym) :=
  ofBind ofGet fun _ => ofIte _ (ofPure _)
    (ofBind ((alloc_footprint _ _ _ _ _).mono (by simp)) fun _ =>
      ofBind ((mapLeaf_footprint _ _).mono (by simp)) fun _ => (offer_footprint _).mono (by simp))

theorem offerLeaves_footprint (l : List Nat) : Footprint [.pq, .code] (offerLeaves l) := by
  induction l with
  | nil => exact ofPure _
  | cons sym rest ih => exact ofBind (offerLeaf_footprint sym) fun _ => ih

theorem mergeTwo_footprint : Footprint [.pq, .code] mergeTwo :=
  ofBind (pollMin_footprint.mono (by simp)) fun _ => ofBind (pollMin_footprint.mono (by simp)) fun _ =>
  ofBind ((alloc_footprint _ _ _ _ _).mono (by simp)) fun _ =>
  ofBind ((setParent_footprint _ _).mono (by simp)) fun _ =>
  ofBind ((setParent_footprint _ _).mono (by simp)) fun _ => (offer_footprint _).mono (by simp)

theorem mergeAll_footprint (fuel : Nat) : Footprint [.pq, .code] (mergeAll fuel) := by
  induction fuel with
  | zero => exact ofPure _
  | succ fuel ih => exact ofBind ofGet fun _ => ofIte _ (ofBind mergeTwo_footprint fun _ => ih) (ofPure _)

theorem within_code_pq (s : State) (c : Code) (q : Queue) : Within [.pq, .code] s { s with code := c, pq := q } :=
  within_of (by simp [sameFixed]) fun p => by cases p <;> simp [samePart]

theorem build_footprint : Footprint [.pq, .code] build :=
  ofBind (ofModify fun s => within_code_pq s _ _) fun _ =>
  ofBind (offerLeaves_footprint _) fun _ => ofBind ofGet fun _ =>
  ofBind (mergeAll_footprint _) fun _ => ofBind (pollMin_footprint.mono (by simp)) fun _ =>
  ofModify fun s => (within_code s _).mono (by simp)

/-! ### Primitives of the header and the codewords -/

theorem ser_footprint (fuel : Nat) : ∀ n, Footprint [.out, .mem] (ser fuel n) := by
  induction fuel with
  | zero => exact fun _ => ofHalt _
  | succ fuel ih =>
    exact fun n => ofBind (nodeAt_footprint _) fun nd => ofIte _
      (ofBind (putBit_footprint _) fun _ => putBits_footprint 8 _)
      (ofBind (putBit_footprint _) fun _ => ofBind (ih _) fun _ => ih _)

theorem serRoot_footprint : Footprint [.out, .mem] serRoot := ofBind ofGet fun _ => ser_footprint _ _

theorem push_footprint (e : StackEntry) : Footprint [.dstack] (push e) := ofModify fun s => within_dstack s _

theorem collapse_footprint (fuel : Nat) : Footprint [.code, .dstack] (collapse fuel) := by
  induction fuel with
  | zero => exact ofPure _
  | succ fuel ih =>
    refine ofBind ofGet fun s => ?_
    cases collapsible s.dstack with
    | none => exact ofPure _
    | some lr =>
      exact ofBind (ofModify fun s => (within_dstack s _).mono (by simp)) fun _ =>
        ofBind ((alloc_footprint _ _ _ _ _).mono (by simp)) fun _ =>
        ofBind ((setParent_footprint _ _).mono (by simp)) fun _ =>
        ofBind ((setParent_footprint _ _).mono (by simp)) fun _ =>
        ofBind ((push_footprint _).mono (by simp)) fun _ => ih

theorem parentMarker_footprint : Footprint [.dstack] parentMarker :=
  ofBind ofGet fun _ => ofBind (ofRequire _ _) fun _ => push_footprint _

theorem leafMarker_footprint : Footprint [.inp, .code, .dstack] leafMarker :=
  ofBind bitsLeft_footprint fun _ => ofBind (ofRequire _ _) fun _ =>
  ofBind ((getBits_footprint 8).mono (by simp)) fun _ => ofBind ofGet fun _ => ofBind (ofRequire _ _) fun _ =>
  ofBind ((alloc_footprint _ _ _ _ _).mono (by simp)) fun _ => ofBind ((mapLeaf_footprint _ _).mono (by simp)) fun _ =>
  ofBind ((push_footprint _).mono (by simp)) fun _ => ofBind ofGet fun _ => (collapse_footprint _).mono (by simp)

theorem deserFrom_footprint (fuel : Nat) : Footprint [.inp, .code, .dstack] (deserFrom fuel) := by
  induction fuel with
  | zero => exact ofRaise _
  | succ fuel ih =>
    refine ofBind bitsLeft_footprint fun _ => ofBind (ofRequire _ _) fun _ =>
      ofBind (getBit_footprint.mono (by simp)) fun b => ofIte _
        (ofBind (parentMarker_footprint.mono (by simp)) fun _ => ih)
        (ofBind leafMarker_footprint fun _ => ofBind ofGet fun s => ?_)
    cases soleNode s.dstack with
    | none => exact ih
    | some t => exact ofModify fun s => (within_code s _).mono (by simp)

theorem within_code_dstack (s : State) (c : Code) (d : DStack) :
    Within [.code, .dstack] s { s with code := c, dstack := d } :=
  within_of (by simp [sameFixed]) fun p => by cases p <;> simp [samePart]

theorem deser_footprint : Footprint [.inp, .code, .dstack] deser :=
  ofBind (ofModify fun s => (within_code_dstack s _ _).mono (by simp)) fun _ =>
  ofBind bitsLeft_footprint fun _ => deserFrom_footprint _

theorem pathUp_footprint (fuel : Nat) : ∀ n, Footprint τ (pathUp fuel n) := by
  induction fuel with
  | zero => exact fun _ => ofHalt _
  | succ fuel ih =>
    exact fun n => ofBind ofGet fun _ => ofIte _ (ofPure _)
      (ofBind (nodeAt_footprint _) fun _ => ofBind (nodeAt_footprint _) fun _ => ofBind (ih _) fun _ => ofPure _)

theorem path_footprint (sym : Nat) : Footprint τ (path sym) :=
  ofBind ofGet fun _ => ofBind (pathUp_footprint _ _) fun _ => ofPure _

theorem encodeSym_footprint (sym : Nat) : Footprint [.out, .mem] (encodeSym sym) :=
  ofBind ofGet fun _ => ofBind (nodeAt_footprint _) fun _ => ofIte _ (ofPure _)
    (ofBind (path_footprint sym) fun _ => putAll_footprint _)

theorem decodeFrom_footprint (fuel : Nat) : ∀ n, Footprint [.inp] (decodeFrom fuel n) := by
  induction fuel with
  | zero => exact fun n => ofBind (nodeAt_footprint _) fun _ => ofIte _ (ofPure _) (ofRaise _)
  | succ fuel ih =>
    exact fun n => ofBind (nodeAt_footprint _) fun _ => ofIte _ (ofPure _)
      (ofBind bitsLeft_footprint fun _ => ofBind (ofRequire _ _) fun _ => ofBind getBit_footprint fun _ =>
        ofIte _ (ih _) (ih _))

theorem decodeSym_footprint : Footprint [.inp] decodeSym :=
  ofBind bitsLeft_footprint fun _ => ofBind ofGet fun _ => decodeFrom_footprint _ _

theorem compressBytes_footprint (n : Nat) : Footprint [.inp, .out, .mem] (compressBytes n) := by
  induction n with
  | zero => exact ofPure _
  | succ n ih =>
    exact ofBind ((getBits_footprint 8).mono (by simp)) fun _ =>
      ofBind ((encodeSym_footprint _).mono (by simp)) fun _ => ih

theorem expandSymbols_footprint (n : Nat) : Footprint [.inp, .out, .mem] (expandSymbols n) := by
  induction n with
  | zero => exact ofPure _
  | succ n ih =>
    exact ofBind (decodeSym_footprint.mono (by simp)) fun _ =>
      ofBind ((putBits_footprint 8 _).mono (by simp)) fun _ => ih

theorem compressStream_footprint : Footprint [.inp, .out, .mem, .freq, .code, .pq] compressStream :=
  ofBind ofGet fun _ => ofBind (scan_footprint.mono (by simp)) fun _ => ofBind (build_footprint.mono (by simp)) fun _ =>
  ofBind (serRoot_footprint.mono (by simp)) fun _ => ofBind ((writeVarint_footprint _).mono (by simp)) fun _ =>
  ofBind (inReset_footprint.mono (by simp)) fun _ => ofBind ((compressBytes_footprint _).mono (by simp)) fun _ =>
  flush_footprint.mono (by simp)

theorem expandStream_footprint : Footprint [.inp, .out, .mem, .code, .dstack] expandStream :=
  ofBind (inReset_footprint.mono (by simp)) fun _ => ofBind (deser_footprint.mono (by simp)) fun _ =>
  ofBind (readVarint_footprint.mono (by simp)) fun _ => ofBind ((expandSymbols_footprint _).mono (by simp)) fun _ =>
  flush_footprint.mono (by simp)

end Sys2Proof.Laws
end

