-- ==== Sys2Proof/Laws/Memory.lean ====
section
/-! SUPPORT. The byte memories: a read after a write, and the canonical form every write keeps. -/

namespace Sys2Proof.Laws

open Sys2Proof Sys2Proof.Machine

theorem lookup_insert_same (l : List Host.Cell) (a : Nat) (v : Byte) : lookupCell (insertCell l a v) a = some v := by
  induction l with
  | nil => simp [insertCell, lookupCell]
  | cons c rest ih =>
    obtain ⟨b, w⟩ := c
    simp only [insertCell]
    split
    · simp [lookupCell]
    · split
      · simp [lookupCell]
      · rename_i h1 h2
        simp [lookupCell, ih, Ne.symm h2]

theorem lookup_insert_ne (l : List Host.Cell) {a b : Nat} (v : Byte) (h : b ≠ a) :
    lookupCell (insertCell l a v) b = lookupCell l b := by
  induction l with
  | nil => simp [insertCell, lookupCell, h.symm]
  | cons c rest ih =>
    obtain ⟨d, w⟩ := c
    simp only [insertCell]
    split
    · simp [lookupCell, h.symm]
    · split
      · rename_i h2
        subst h2
        simp [lookupCell, h.symm]
      · simp [lookupCell, ih]

/-- Inserting adds no address but the one written. -/
theorem mem_insertCell {l : List Host.Cell} {a : Nat} {v : Byte} {c : Host.Cell} (h : c ∈ insertCell l a v) :
    c = (a, v) ∨ c ∈ l := by
  induction l with
  | nil => simpa [insertCell] using h
  | cons d rest ih =>
    obtain ⟨b, w⟩ := d
    simp only [insertCell] at h
    split at h
    · simpa using h
    · split at h
      · rcases List.mem_cons.mp h with h | h
        · exact .inl h
        · exact .inr (List.mem_cons_of_mem _ h)
      · rcases List.mem_cons.mp h with h | h
        · exact .inr (by simp [h])
        · rcases ih h with h | h
          · exact .inl h
          · exact .inr (List.mem_cons_of_mem _ h)

theorem insertCell_rising {l : List Host.Cell} (a : Nat) (v : Byte) (h : l.Pairwise (fun c d => c.1 < d.1)) :
    (insertCell l a v).Pairwise (fun c d => c.1 < d.1) := by
  induction l with
  | nil => simp [insertCell]
  | cons d rest ih =>
    obtain ⟨b, w⟩ := d
    have hb := (List.pairwise_cons.mp h).1
    have hr := (List.pairwise_cons.mp h).2
    simp only [insertCell]
    split
    · rename_i hab
      refine List.pairwise_cons.mpr ⟨fun c hc => ?_, h⟩
      rcases List.mem_cons.mp hc with hc | hc
      · simpa [hc] using hab
      · exact lt_trans hab (hb c hc)
    · split
      · rename_i hab
        subst hab
        exact List.pairwise_cons.mpr ⟨hb, hr⟩
      · rename_i h1 h2
        refine List.pairwise_cons.mpr ⟨fun c hc => ?_, ih hr⟩
        rcases mem_insertCell hc with hc | hc
        · rw [hc]; show b < a; omega
        · exact hb c hc

@[simp] theorem read_write_same (m : Memory) (a : Nat) (v : Byte) : (m.write a v).read a = v := by
  simp [Memory.read, Memory.write, lookup_insert_same]

@[simp] theorem read_write_ne (m : Memory) {a b : Nat} (v : Byte) (h : b ≠ a) : (m.write a v).read b = m.read b := by
  simp [Memory.read, Memory.write, unlistedByte, lookup_insert_ne _ _ h]

theorem read_write (m : Memory) (a b : Nat) (v : Byte) : (m.write a v).read b = if b = a then v else m.read b := by
  split
  · subst_vars; simp
  · simp [*]

@[simp] theorem write_draw (m : Memory) (a : Nat) (v : Byte) : (m.write a v).draw = m.draw := rfl

/-- A write keeps the canonical form. -/
theorem write_wf {m : Memory} (a : Nat) (v : Byte) (h : m.wf) : (m.write a v).wf := insertCell_rising a v h

/-- A host write of any width keeps the canonical form. -/
theorem writeBytes_wf (n : Nat) {m : Memory} (a : Nat) (v : Word) (h : m.wf) : (writeBytes n m a v).wf := by
  induction n generalizing m a v with
  | zero => exact h
  | succ n ih => exact ih _ _ (write_wf _ _ h)

/-- A host write changes only its own bytes. -/
theorem read_writeBytes_outside (n : Nat) (m : Memory) (a b : Nat) (v : Word) (h : b < a ∨ a + n ≤ b) :
    (writeBytes n m a v).read b = m.read b := by
  induction n generalizing m a v with
  | zero => rfl
  | succ n ih =>
    simp only [writeBytes]
    rw [ih _ _ _ (by omega), read_write_ne _ _ (by omega)]

/-- A host write puts byte k of the value, from the least significant, at offset k (20_memory.md R48). -/
theorem read_writeBytes_inside (n : Nat) (m : Memory) (a k : Nat) (v : Word) (h : k < n) :
    (writeBytes n m a v).read (a + k) = (v >>> (8 * k)).setWidth 8 := by
  induction n generalizing m a v k with
  | zero => omega
  | succ n ih =>
    simp only [writeBytes]
    cases k with
    | zero => rw [read_writeBytes_outside _ _ _ _ _ (by omega)]; simp
    | succ k =>
      rw [show a + (k + 1) = (a + 1) + k by omega, ih _ _ _ _ (by omega),
        show 8 * (k + 1) = 8 + 8 * k by omega, BitVec.shiftRight_add]

end Sys2Proof.Laws
end

