-- ==== Sys2Proof/Laws/PerInstr.lean ====
section
/-! SUPPORT. Statements about every command as syntax, one lemma per constructor. -/

namespace Sys2Proof.Laws.Format

open Sys2Proof

/-- A command's word is a legal format-C word (30_encoding.md R62, R66), and its fields are the command's. -/
def Statement (i : Instr) : Prop := fieldsOf (encode i) = formatOf i ∧ (formatOf i).wellFormed = true

theorem nop : Statement .nop := ⟨rfl, rfl⟩
theorem clrErr : Statement .clrErr := ⟨rfl, rfl⟩
theorem sreset : Statement .sreset := ⟨rfl, rfl⟩
theorem rdBit : Statement .rdBit := ⟨rfl, rfl⟩
theorem rdBits : Statement .rdBits := ⟨rfl, rfl⟩
theorem rdByte : Statement .rdByte := ⟨rfl, rfl⟩
theorem rdBytes : Statement .rdBytes := ⟨rfl, rfl⟩
theorem rdInt : Statement .rdInt := ⟨rfl, rfl⟩
theorem inLength : Statement .inLength := ⟨rfl, rfl⟩
theorem inReset : Statement .inReset := ⟨rfl, rfl⟩
theorem wrBit : Statement .wrBit := ⟨rfl, rfl⟩
theorem wrBits : Statement .wrBits := ⟨rfl, rfl⟩
theorem wrByte : Statement .wrByte := ⟨rfl, rfl⟩
theorem wrBytes : Statement .wrBytes := ⟨rfl, rfl⟩
theorem wrInt : Statement .wrInt := ⟨rfl, rfl⟩
theorem wrFlush : Statement .wrFlush := ⟨rfl, rfl⟩
theorem pqInit : Statement .pqInit := ⟨rfl, rfl⟩
theorem pqOffer (present : Bool) : Statement (.pqOffer present) := by cases present <;> exact ⟨rfl, rfl⟩
theorem pqPoll : Statement .pqPoll := ⟨rfl, rfl⟩
theorem pqPeek : Statement .pqPeek := ⟨rfl, rfl⟩
theorem pqSize : Statement .pqSize := ⟨rfl, rfl⟩
theorem pqAt : Statement .pqAt := ⟨rfl, rfl⟩
theorem freqClear : Statement .freqClear := ⟨rfl, rfl⟩
theorem freqSet : Statement .freqSet := ⟨rfl, rfl⟩
theorem freqScan : Statement .freqScan := ⟨rfl, rfl⟩
theorem hufBuild : Statement .hufBuild := ⟨rfl, rfl⟩
theorem hufNode : Statement .hufNode := ⟨rfl, rfl⟩
theorem hufLeaf : Statement .hufLeaf := ⟨rfl, rfl⟩
theorem hufWrhdr : Statement .hufWrhdr := ⟨rfl, rfl⟩
theorem hufRdhdr : Statement .hufRdhdr := ⟨rfl, rfl⟩
theorem hufEnc : Statement .hufEnc := ⟨rfl, rfl⟩
theorem hufDec : Statement .hufDec := ⟨rfl, rfl⟩
theorem hufCompress : Statement .hufCompress := ⟨rfl, rfl⟩
theorem hufExpand : Statement .hufExpand := ⟨rfl, rfl⟩
theorem lzwWinit : Statement .lzwWinit := ⟨rfl, rfl⟩
theorem lzwWrite : Statement .lzwWrite := ⟨rfl, rfl⟩
theorem lzwRinit : Statement .lzwRinit := ⟨rfl, rfl⟩
theorem lzwRead : Statement .lzwRead := ⟨rfl, rfl⟩

end Sys2Proof.Laws.Format
end

