-- ==== Sys2Proof/Laws/RegFile.lean ====
section
/-! SUPPORT. Register files: a read after a write. -/

namespace Sys2Proof.Laws

open Sys2Proof Sys2Proof.Machine

variable {α : Type} {n : Nat}

theorem fileGet_fileSet (v : Vector α n) (i j : Nat) (x d : α) :
    fileGet (fileSet v i x) j d = if i = j ∧ j < n then x else fileGet v j d := by
  unfold fileGet fileSet
  by_cases hi : i < n <;> by_cases hj : j < n <;> simp [hi, hj, Vector.getElem_set]
  intro h
  omega

@[simp] theorem fileGet_fileSet_same (v : Vector α n) {i : Nat} (x d : α) (h : i < n) :
    fileGet (fileSet v i x) i d = x := by simp [fileGet_fileSet, h]

@[simp] theorem fileGet_fileSet_ne (v : Vector α n) {i j : Nat} (x d : α) (h : i ≠ j) :
    fileGet (fileSet v i x) j d = fileGet v j d := by simp [fileGet_fileSet, h]

@[simp] theorem fileGet_replicate (i : Nat) (x d : α) :
    fileGet (Vector.replicate n x) i d = if i < n then x else d := by
  unfold fileGet
  split <;> simp_all

/-- An index the file has is read as its entry. -/
theorem fileGet_eq (v : Vector α n) {i : Nat} (d : α) (h : i < n) : fileGet v i d = v[i] := by simp [fileGet, h]

/-- Two reads with different values for the missing indices agree on the others. -/
theorem fileGet_default (v : Vector α n) {i : Nat} (d e : α) (h : i < n) : fileGet v i d = fileGet v i e := by
  simp [fileGet, h]

end Sys2Proof.Laws
end

