-- ==== Sys2Proof/Laws/Queue.lean ====
section
/-! SUPPORT. The queue: what one write, one swap, a sift, Offer and PollMin leave of it. -/

namespace Sys2Proof.Laws

open Sys2Proof Sys2Proof.Machine

/-! ### One entry -/

@[simp] theorem setHeap_size (q : Queue) (p : Nat) (e : Entry) : (setHeap q p e).size = q.size := rfl

@[simp] theorem setHeap_cap (q : Queue) (p : Nat) (e : Entry) : (setHeap q p e).cap = q.cap := rfl

@[simp] theorem setHeap_external (q : Queue) (p : Nat) (e : Entry) : (setHeap q p e).external = q.external := rfl

/-- A read of a position after a write of another, or of the same one. -/
theorem heapAt_setHeap (q : Queue) {p r : Nat} (e : Entry) (hp : 1 ≤ p) (hr : 1 ≤ r) (hm : r ≤ Config.heapPhys) :
    heapAt (setHeap q p e) r = if p = r then e else heapAt q r := by
  unfold heapAt setHeap
  rw [fileGet_fileSet]
  by_cases h : p = r
  · subst h; simp; omega
  · have : ¬ (p - 1 = r - 1 ∧ r - 1 < Config.heapPhys) := by omega
    rw [if_neg this, if_neg h]

/-- The heap's contents do not depend on the other registers. -/
theorem heapAt_congr {q r : Queue} (h : q.heap = r.heap) (p : Nat) : heapAt q p = heapAt r p := by simp [heapAt, h]

@[simp] theorem swapHeap_size (q : Queue) (i j : Nat) : (swapHeap q i j).size = q.size := rfl

@[simp] theorem swapHeap_cap (q : Queue) (i j : Nat) : (swapHeap q i j).cap = q.cap := rfl

@[simp] theorem swapHeap_external (q : Queue) (i j : Nat) : (swapHeap q i j).external = q.external := rfl

/-- A read after a swap. -/
theorem heapAt_swapHeap (q : Queue) {i j p : Nat} (hi : 1 ≤ i) (hj : 1 ≤ j) (hp : 1 ≤ p) (hm : p ≤ Config.heapPhys) :
    heapAt (swapHeap q i j) p = if p = i then heapAt q j else if p = j then heapAt q i else heapAt q p := by
  unfold swapHeap
  rw [heapAt_setHeap _ _ hj hp hm, heapAt_setHeap _ _ hi hp hm]
  by_cases h : j = p
  · subst h
    by_cases k : j = i
    · subst k; simp
    · simp [k]
  · by_cases k : i = p
    · subst k; simp [h]
    · simp [h, k, Ne.symm h, Ne.symm k]

/-! ### The sifts move entries among the positions they visit, and nothing else -/

/-- What a sift keeps: size, capacity, ordering. -/
structure SameShape (q r : Queue) : Prop where
  size     : r.size = q.size
  cap      : r.cap = q.cap
  external : r.external = q.external

theorem SameShape.refl (q : Queue) : SameShape q q := ⟨rfl, rfl, rfl⟩

theorem SameShape.trans {q r t : Queue} (h : SameShape q r) (k : SameShape r t) : SameShape q t :=
  ⟨k.size.trans h.size, k.cap.trans h.cap, k.external.trans h.external⟩

theorem siftUpFrom_shape (fuel : Nat) : ∀ (q : Queue) (i : Nat), SameShape q (siftUpFrom fuel q i) := by
  induction fuel with
  | zero => exact fun q _ => SameShape.refl q
  | succ fuel ih =>
    intro q i
    unfold siftUpFrom
    split
    · exact SameShape.trans (r := swapHeap q i (i / 2)) ⟨rfl, rfl, rfl⟩ (ih _ _)
    · exact SameShape.refl q

theorem siftDownFrom_shape (fuel : Nat) : ∀ (q : Queue) (i : Nat), SameShape q (siftDownFrom fuel q i) := by
  induction fuel with
  | zero => exact fun q _ => SameShape.refl q
  | succ fuel ih =>
    intro q i
    unfold siftDownFrom
    dsimp only
    split
    · exact SameShape.refl q
    · split
      · exact SameShape.trans (r := swapHeap q i (smallerChild q (2 * i))) ⟨rfl, rfl, rfl⟩ (ih _ _)
      · exact SameShape.refl q

@[simp] theorem siftUp_size (q : Queue) (i : Nat) : (siftUp q i).size = q.size := (siftUpFrom_shape i q i).size

@[simp] theorem siftUp_cap (q : Queue) (i : Nat) : (siftUp q i).cap = q.cap := (siftUpFrom_shape i q i).cap

@[simp] theorem siftUp_external (q : Queue) (i : Nat) : (siftUp q i).external = q.external :=
  (siftUpFrom_shape i q i).external

@[simp] theorem siftDown_size (q : Queue) (i : Nat) : (siftDown q i).size = q.size := (siftDownFrom_shape _ q i).size

@[simp] theorem siftDown_cap (q : Queue) (i : Nat) : (siftDown q i).cap = q.cap := (siftDownFrom_shape _ q i).cap

@[simp] theorem siftDown_external (q : Queue) (i : Nat) : (siftDown q i).external = q.external :=
  (siftDownFrom_shape _ q i).external

/-- A sift up leaves every position above its start alone (43_pqueue.md R98). -/
theorem siftUpFrom_above (fuel : Nat) : ∀ (q : Queue) {i p : Nat}, 1 ≤ i → i < p → p ≤ Config.heapPhys →
    heapAt (siftUpFrom fuel q i) p = heapAt q p := by
  induction fuel with
  | zero => intros; rfl
  | succ fuel ih =>
    intro q i p hi hp hm
    unfold siftUpFrom
    split
    · rw [ih _ (by omega) (by omega) hm, heapAt_swapHeap _ (by omega) (by omega) (by omega) hm,
        if_neg (by omega), if_neg (by omega)]
    · rfl

/-- The child SiftDown compares against is a child, and a live one (R100). -/
theorem smallerChild_cases (q : Queue) (l : Nat) : smallerChild q l = l ∨ (smallerChild q l = l + 1 ∧ l + 1 ≤ q.size.toNat) := by
  unfold smallerChild
  split
  · exact .inr ⟨rfl, by omega⟩
  · exact .inl rfl

/-- A sift down leaves every position below its start alone (R100). -/
theorem siftDownFrom_below (fuel : Nat) : ∀ (q : Queue) {i p : Nat}, 1 ≤ i → 1 ≤ p → p < i → p ≤ Config.heapPhys →
    heapAt (siftDownFrom fuel q i) p = heapAt q p := by
  induction fuel with
  | zero => intros; rfl
  | succ fuel ih =>
    intro q i p hi hp hlt hm
    unfold siftDownFrom
    dsimp only
    split
    · rfl
    · have hc := smallerChild_cases q (2 * i)
      split
      · rw [ih _ (by omega) hp (by omega) hm, heapAt_swapHeap _ hi (by omega) hp hm, if_neg (by omega), if_neg (by omega)]
      · rfl

/-- A sift down leaves every position above PQ_SIZE alone (R100). -/
theorem siftDownFrom_above (fuel : Nat) : ∀ (q : Queue) {i p : Nat}, 1 ≤ i → i < p → q.size.toNat < p → p ≤ Config.heapPhys →
    heapAt (siftDownFrom fuel q i) p = heapAt q p := by
  induction fuel with
  | zero => intros; rfl
  | succ fuel ih =>
    intro q i p hi hip hp hm
    unfold siftDownFrom
    dsimp only
    split
    · rfl
    · have hc := smallerChild_cases q (2 * i)
      split
      · rw [ih _ (by omega) (by omega) (by simpa using hp) hm, heapAt_swapHeap _ hi (by omega) (by omega) hm,
          if_neg (by omega), if_neg (by omega)]
      · rfl

/-! ### Offer and PollMin -/

@[simp] theorem insertLast_size (q : Queue) (e : Entry) : (insertLast q e).size = q.size + 1#10 := by simp [insertLast]

@[simp] theorem insertLast_cap (q : Queue) (e : Entry) : (insertLast q e).cap = q.cap := by simp [insertLast]

@[simp] theorem insertLast_external (q : Queue) (e : Entry) : (insertLast q e).external = q.external := by
  simp [insertLast]

@[simp] theorem polled_size (q : Queue) : (polled q).size = q.size - 1#10 := by simp [polled]

@[simp] theorem polled_cap (q : Queue) : (polled q).cap = q.cap := by simp [polled]

@[simp] theorem polled_external (q : Queue) : (polled q).external = q.external := by simp [polled]

/-- Everything Offer can do (43_pqueue.md R99): it goes in where there is room, grows a full queue that can grow, and is
refused by one that cannot. -/
theorem offered_cases (q : Queue) (e : Entry) :
    (q.size ≠ q.cap ∧ offered q e = some (insertLast q e)) ∨
    (q.size = q.cap ∧ 2 * q.cap.toNat + 1 ≤ Config.heapPhys ∧
      offered q e = some (insertLast { q with cap := BitVec.ofNat 10 (2 * q.cap.toNat + 1) } e)) ∨
    (q.size = q.cap ∧ Config.heapPhys < 2 * q.cap.toNat + 1 ∧ offered q e = none) := by
  unfold offered
  by_cases h : q.size = q.cap
  · by_cases k : 2 * q.cap.toNat + 1 > Config.heapPhys
    · exact .inr (.inr ⟨h, k, by rw [if_pos h, if_pos k]⟩)
    · exact .inr (.inl ⟨h, by omega, by rw [if_pos h, if_neg k]⟩)
  · exact .inl ⟨h, by rw [if_neg h]⟩

/-- What a queue that took an entry has in common with the one before. -/
theorem offered_some {q r : Queue} {e : Entry} (h : offered q e = some r) :
    r.size = q.size + 1#10 ∧ r.external = q.external ∧
      ((q.size ≠ q.cap ∧ r.cap = q.cap) ∨ (q.size = q.cap ∧ r.cap.toNat = 2 * q.cap.toNat + 1)) := by
  rcases offered_cases q e with ⟨hn, ho⟩ | ⟨he, hc, ho⟩ | ⟨-, -, ho⟩
  · rw [ho] at h; cases h; exact ⟨by simp, by simp, .inl ⟨hn, by simp⟩⟩
  · rw [ho] at h; cases h
    refine ⟨by simp, by simp, .inr ⟨he, ?_⟩⟩
    simp only [insertLast_cap, BitVec.toNat_ofNat]
    exact Nat.mod_eq_of_lt (Nat.lt_of_le_of_lt hc (by decide))
  · rw [ho] at h; cases h

theorem offer_run (e : Entry) (s : State) :
    offer e s = match offered s.pq e with
      | some q => .ok ⟨⟩ { s with pq := q }
      | none => .error (.raise .capacityExceeded) s := by
  rw [offer, op_bind, op_get]
  dsimp only
  cases offered s.pq e <;> rfl

@[simp] theorem pollMin_run (s : State) : pollMin s = .ok (heapAt s.pq 1) { s with pq := polled s.pq } := by
  simp [pollMin]

end Sys2Proof.Laws
end

