-- ==== Sys2Proof/Laws/State.lean ====
section
/-! SUPPORT. One lemma per field per update of the state: what each whole-state operation leaves in each field. -/

namespace Sys2Proof.Laws

open Sys2Proof Sys2Proof.Machine

/-! ### complete -/

@[simp] theorem complete_cfg (s : State) : (complete s).cfg = s.cfg := rfl
@[simp] theorem complete_arg0 (s : State) : (complete s).arg0 = s.arg0 := rfl
@[simp] theorem complete_arg1 (s : State) : (complete s).arg1 = s.arg1 := rfl
@[simp] theorem complete_res0 (s : State) : (complete s).res0 = s.res0 := rfl
@[simp] theorem complete_res1 (s : State) : (complete s).res1 = s.res1 := rfl
@[simp] theorem complete_res2 (s : State) : (complete s).res2 = s.res2 := rfl
@[simp] theorem complete_a0 (s : State) : (complete s).a0 = s.a0 := rfl
@[simp] theorem complete_a1 (s : State) : (complete s).a1 = s.a1 := rfl
@[simp] theorem complete_lastCmd (s : State) : (complete s).lastCmd = s.lastCmd := rfl
@[simp] theorem complete_cmdCnt (s : State) : (complete s).cmdCnt = s.cmdCnt := rfl
@[simp] theorem complete_status (s : State) : (complete s).status = flagsCompleted s.status := rfl
@[simp] theorem complete_errInfo (s : State) : (complete s).errInfo = s.errInfo := rfl
@[simp] theorem complete_ctrl (s : State) : (complete s).ctrl = s.ctrl := rfl
@[simp] theorem complete_inp (s : State) : (complete s).inp = s.inp := rfl
@[simp] theorem complete_out (s : State) : (complete s).out = s.out := rfl
@[simp] theorem complete_pq (s : State) : (complete s).pq = s.pq := rfl
@[simp] theorem complete_freq (s : State) : (complete s).freq = s.freq := rfl
@[simp] theorem complete_code (s : State) : (complete s).code = s.code := rfl
@[simp] theorem complete_dstack (s : State) : (complete s).dstack = s.dstack := rfl
@[simp] theorem complete_lzw (s : State) : (complete s).lzw = s.lzw := rfl
@[simp] theorem complete_mem (s : State) : (complete s).mem = s.mem := rfl
@[simp] theorem complete_host (s : State) : (complete s).host = s.host := rfl
@[simp] theorem complete_readData (s : State) : (complete s).readData = s.readData := rfl

/-! ### takeError -/

@[simp] theorem takeError_cfg (c : ErrCode) (s : State) : (takeError c s).cfg = s.cfg := rfl
@[simp] theorem takeError_arg0 (c : ErrCode) (s : State) : (takeError c s).arg0 = s.arg0 := rfl
@[simp] theorem takeError_arg1 (c : ErrCode) (s : State) : (takeError c s).arg1 = s.arg1 := rfl
@[simp] theorem takeError_res0 (c : ErrCode) (s : State) : (takeError c s).res0 = s.res0 := rfl
@[simp] theorem takeError_res1 (c : ErrCode) (s : State) : (takeError c s).res1 = s.res1 := rfl
@[simp] theorem takeError_res2 (c : ErrCode) (s : State) : (takeError c s).res2 = s.res2 := rfl
@[simp] theorem takeError_a0 (c : ErrCode) (s : State) : (takeError c s).a0 = s.a0 := rfl
@[simp] theorem takeError_a1 (c : ErrCode) (s : State) : (takeError c s).a1 = s.a1 := rfl
@[simp] theorem takeError_lastCmd (c : ErrCode) (s : State) : (takeError c s).lastCmd = s.lastCmd := rfl
@[simp] theorem takeError_cmdCnt (c : ErrCode) (s : State) : (takeError c s).cmdCnt = s.cmdCnt := rfl
@[simp] theorem takeError_status (c : ErrCode) (s : State) : (takeError c s).status = flagsRaised c s.status := rfl
@[simp] theorem takeError_errInfo (c : ErrCode) (s : State) : (takeError c s).errInfo = s.lastCmd := rfl
@[simp] theorem takeError_ctrl (c : ErrCode) (s : State) : (takeError c s).ctrl = s.ctrl := rfl
@[simp] theorem takeError_inp (c : ErrCode) (s : State) : (takeError c s).inp = s.inp := rfl
@[simp] theorem takeError_out (c : ErrCode) (s : State) : (takeError c s).out = s.out := rfl
@[simp] theorem takeError_pq (c : ErrCode) (s : State) : (takeError c s).pq = s.pq := rfl
@[simp] theorem takeError_freq (c : ErrCode) (s : State) : (takeError c s).freq = s.freq := rfl
@[simp] theorem takeError_code (c : ErrCode) (s : State) : (takeError c s).code = s.code := rfl
@[simp] theorem takeError_dstack (c : ErrCode) (s : State) : (takeError c s).dstack = s.dstack := rfl
@[simp] theorem takeError_lzw (c : ErrCode) (s : State) : (takeError c s).lzw = s.lzw := rfl
@[simp] theorem takeError_mem (c : ErrCode) (s : State) : (takeError c s).mem = s.mem := rfl
@[simp] theorem takeError_host (c : ErrCode) (s : State) : (takeError c s).host = s.host := rfl
@[simp] theorem takeError_readData (c : ErrCode) (s : State) : (takeError c s).readData = s.readData := rfl

/-! ### returnFromError -/

@[simp] theorem returnFromError_cfg (s : State) : (returnFromError s).cfg = s.cfg := rfl
@[simp] theorem returnFromError_arg0 (s : State) : (returnFromError s).arg0 = s.arg0 := rfl
@[simp] theorem returnFromError_arg1 (s : State) : (returnFromError s).arg1 = s.arg1 := rfl
@[simp] theorem returnFromError_res0 (s : State) : (returnFromError s).res0 = s.res0 := rfl
@[simp] theorem returnFromError_res1 (s : State) : (returnFromError s).res1 = s.res1 := rfl
@[simp] theorem returnFromError_res2 (s : State) : (returnFromError s).res2 = s.res2 := rfl
@[simp] theorem returnFromError_a0 (s : State) : (returnFromError s).a0 = s.a0 := rfl
@[simp] theorem returnFromError_a1 (s : State) : (returnFromError s).a1 = s.a1 := rfl
@[simp] theorem returnFromError_lastCmd (s : State) : (returnFromError s).lastCmd = s.lastCmd := rfl
@[simp] theorem returnFromError_cmdCnt (s : State) : (returnFromError s).cmdCnt = s.cmdCnt := rfl
@[simp] theorem returnFromError_status (s : State) : (returnFromError s).status = flagsCleared s.status := rfl
@[simp] theorem returnFromError_errInfo (s : State) : (returnFromError s).errInfo = 0#32 := rfl
@[simp] theorem returnFromError_ctrl (s : State) : (returnFromError s).ctrl = s.ctrl := rfl
@[simp] theorem returnFromError_inp (s : State) : (returnFromError s).inp = s.inp := rfl
@[simp] theorem returnFromError_out (s : State) : (returnFromError s).out = s.out := rfl
@[simp] theorem returnFromError_pq (s : State) : (returnFromError s).pq = s.pq := rfl
@[simp] theorem returnFromError_freq (s : State) : (returnFromError s).freq = s.freq := rfl
@[simp] theorem returnFromError_code (s : State) : (returnFromError s).code = s.code := rfl
@[simp] theorem returnFromError_dstack (s : State) : (returnFromError s).dstack = s.dstack := rfl
@[simp] theorem returnFromError_lzw (s : State) : (returnFromError s).lzw = s.lzw := rfl
@[simp] theorem returnFromError_mem (s : State) : (returnFromError s).mem = s.mem := rfl
@[simp] theorem returnFromError_host (s : State) : (returnFromError s).host = s.host := rfl
@[simp] theorem returnFromError_readData (s : State) : (returnFromError s).readData = s.readData := rfl

/-! ### issue -/

@[simp] theorem issue_cfg (w : Word) (s : State) : (issue w s).cfg = s.cfg := rfl
@[simp] theorem issue_arg0 (w : Word) (s : State) : (issue w s).arg0 = s.arg0 := rfl
@[simp] theorem issue_arg1 (w : Word) (s : State) : (issue w s).arg1 = s.arg1 := rfl
@[simp] theorem issue_res0 (w : Word) (s : State) : (issue w s).res0 = s.res0 := rfl
@[simp] theorem issue_res1 (w : Word) (s : State) : (issue w s).res1 = s.res1 := rfl
@[simp] theorem issue_res2 (w : Word) (s : State) : (issue w s).res2 = s.res2 := rfl
@[simp] theorem issue_a0 (w : Word) (s : State) : (issue w s).a0 = s.arg0 := rfl
@[simp] theorem issue_a1 (w : Word) (s : State) : (issue w s).a1 = s.arg1 := rfl
@[simp] theorem issue_lastCmd (w : Word) (s : State) : (issue w s).lastCmd = w := rfl
@[simp] theorem issue_cmdCnt (w : Word) (s : State) : (issue w s).cmdCnt = s.cmdCnt + 1#32 := rfl
@[simp] theorem issue_status (w : Word) (s : State) : (issue w s).status = flagsAtIssue s.status := rfl
@[simp] theorem issue_errInfo (w : Word) (s : State) : (issue w s).errInfo = s.errInfo := rfl
@[simp] theorem issue_ctrl (w : Word) (s : State) : (issue w s).ctrl = s.ctrl := rfl
@[simp] theorem issue_inp (w : Word) (s : State) : (issue w s).inp = s.inp := rfl
@[simp] theorem issue_out (w : Word) (s : State) : (issue w s).out = s.out := rfl
@[simp] theorem issue_pq (w : Word) (s : State) : (issue w s).pq = s.pq := rfl
@[simp] theorem issue_freq (w : Word) (s : State) : (issue w s).freq = s.freq := rfl
@[simp] theorem issue_code (w : Word) (s : State) : (issue w s).code = s.code := rfl
@[simp] theorem issue_dstack (w : Word) (s : State) : (issue w s).dstack = s.dstack := rfl
@[simp] theorem issue_lzw (w : Word) (s : State) : (issue w s).lzw = s.lzw := rfl
@[simp] theorem issue_mem (w : Word) (s : State) : (issue w s).mem = s.mem := rfl
@[simp] theorem issue_host (w : Word) (s : State) : (issue w s).host = s.host := rfl
@[simp] theorem issue_readData (w : Word) (s : State) : (issue w s).readData = s.readData := rfl

/-! ### ignore -/

@[simp] theorem ignore_cfg (w : Word) (s : State) : (ignore w s).cfg = s.cfg := rfl
@[simp] theorem ignore_arg0 (w : Word) (s : State) : (ignore w s).arg0 = s.arg0 := rfl
@[simp] theorem ignore_arg1 (w : Word) (s : State) : (ignore w s).arg1 = s.arg1 := rfl
@[simp] theorem ignore_res0 (w : Word) (s : State) : (ignore w s).res0 = s.res0 := rfl
@[simp] theorem ignore_res1 (w : Word) (s : State) : (ignore w s).res1 = s.res1 := rfl
@[simp] theorem ignore_res2 (w : Word) (s : State) : (ignore w s).res2 = s.res2 := rfl
@[simp] theorem ignore_a0 (w : Word) (s : State) : (ignore w s).a0 = s.a0 := rfl
@[simp] theorem ignore_a1 (w : Word) (s : State) : (ignore w s).a1 = s.a1 := rfl
@[simp] theorem ignore_lastCmd (w : Word) (s : State) : (ignore w s).lastCmd = w := rfl
@[simp] theorem ignore_cmdCnt (w : Word) (s : State) : (ignore w s).cmdCnt = s.cmdCnt := rfl
@[simp] theorem ignore_status (w : Word) (s : State) : (ignore w s).status = flagsIgnored { s.status with done := false } := rfl
@[simp] theorem ignore_errInfo (w : Word) (s : State) : (ignore w s).errInfo = s.errInfo := rfl
@[simp] theorem ignore_ctrl (w : Word) (s : State) : (ignore w s).ctrl = s.ctrl := rfl
@[simp] theorem ignore_inp (w : Word) (s : State) : (ignore w s).inp = s.inp := rfl
@[simp] theorem ignore_out (w : Word) (s : State) : (ignore w s).out = s.out := rfl
@[simp] theorem ignore_pq (w : Word) (s : State) : (ignore w s).pq = s.pq := rfl
@[simp] theorem ignore_freq (w : Word) (s : State) : (ignore w s).freq = s.freq := rfl
@[simp] theorem ignore_code (w : Word) (s : State) : (ignore w s).code = s.code := rfl
@[simp] theorem ignore_dstack (w : Word) (s : State) : (ignore w s).dstack = s.dstack := rfl
@[simp] theorem ignore_lzw (w : Word) (s : State) : (ignore w s).lzw = s.lzw := rfl
@[simp] theorem ignore_mem (w : Word) (s : State) : (ignore w s).mem = s.mem := rfl
@[simp] theorem ignore_host (w : Word) (s : State) : (ignore w s).host = s.host := rfl
@[simp] theorem ignore_readData (w : Word) (s : State) : (ignore w s).readData = s.readData := rfl

/-! ### latchCommand -/

@[simp] theorem latchCommand_cfg (w : Word) (s : State) : (latchCommand w s).cfg = s.cfg := rfl
@[simp] theorem latchCommand_arg0 (w : Word) (s : State) : (latchCommand w s).arg0 = s.arg0 := rfl
@[simp] theorem latchCommand_arg1 (w : Word) (s : State) : (latchCommand w s).arg1 = s.arg1 := rfl
@[simp] theorem latchCommand_res0 (w : Word) (s : State) : (latchCommand w s).res0 = s.res0 := rfl
@[simp] theorem latchCommand_res1 (w : Word) (s : State) : (latchCommand w s).res1 = s.res1 := rfl
@[simp] theorem latchCommand_res2 (w : Word) (s : State) : (latchCommand w s).res2 = s.res2 := rfl
@[simp] theorem latchCommand_a0 (w : Word) (s : State) : (latchCommand w s).a0 = s.a0 := rfl
@[simp] theorem latchCommand_a1 (w : Word) (s : State) : (latchCommand w s).a1 = s.a1 := rfl
@[simp] theorem latchCommand_lastCmd (w : Word) (s : State) : (latchCommand w s).lastCmd = w := rfl
@[simp] theorem latchCommand_cmdCnt (w : Word) (s : State) : (latchCommand w s).cmdCnt = s.cmdCnt := rfl
@[simp] theorem latchCommand_status (w : Word) (s : State) : (latchCommand w s).status = { s.status with done := false } := rfl
@[simp] theorem latchCommand_errInfo (w : Word) (s : State) : (latchCommand w s).errInfo = s.errInfo := rfl
@[simp] theorem latchCommand_ctrl (w : Word) (s : State) : (latchCommand w s).ctrl = s.ctrl := rfl
@[simp] theorem latchCommand_inp (w : Word) (s : State) : (latchCommand w s).inp = s.inp := rfl
@[simp] theorem latchCommand_out (w : Word) (s : State) : (latchCommand w s).out = s.out := rfl
@[simp] theorem latchCommand_pq (w : Word) (s : State) : (latchCommand w s).pq = s.pq := rfl
@[simp] theorem latchCommand_freq (w : Word) (s : State) : (latchCommand w s).freq = s.freq := rfl
@[simp] theorem latchCommand_code (w : Word) (s : State) : (latchCommand w s).code = s.code := rfl
@[simp] theorem latchCommand_dstack (w : Word) (s : State) : (latchCommand w s).dstack = s.dstack := rfl
@[simp] theorem latchCommand_lzw (w : Word) (s : State) : (latchCommand w s).lzw = s.lzw := rfl
@[simp] theorem latchCommand_mem (w : Word) (s : State) : (latchCommand w s).mem = s.mem := rfl
@[simp] theorem latchCommand_host (w : Word) (s : State) : (latchCommand w s).host = s.host := rfl
@[simp] theorem latchCommand_readData (w : Word) (s : State) : (latchCommand w s).readData = s.readData := rfl

/-! ### softReset -/

@[simp] theorem softReset_cfg (s : State) : (softReset s).cfg = s.cfg := rfl
@[simp] theorem softReset_arg0 (s : State) : (softReset s).arg0 = 0#32 := rfl
@[simp] theorem softReset_arg1 (s : State) : (softReset s).arg1 = 0#32 := rfl
@[simp] theorem softReset_res0 (s : State) : (softReset s).res0 = 0#32 := rfl
@[simp] theorem softReset_res1 (s : State) : (softReset s).res1 = 0#32 := rfl
@[simp] theorem softReset_res2 (s : State) : (softReset s).res2 = 0#32 := rfl
@[simp] theorem softReset_a0 (s : State) : (softReset s).a0 = s.a0 := rfl
@[simp] theorem softReset_a1 (s : State) : (softReset s).a1 = s.a1 := rfl
@[simp] theorem softReset_lastCmd (s : State) : (softReset s).lastCmd = 0#32 := rfl
@[simp] theorem softReset_cmdCnt (s : State) : (softReset s).cmdCnt = 0#32 := rfl
@[simp] theorem softReset_status (s : State) : (softReset s).status = Status.reset := rfl
@[simp] theorem softReset_errInfo (s : State) : (softReset s).errInfo = 0#32 := rfl
@[simp] theorem softReset_ctrl (s : State) : (softReset s).ctrl = Ctrl.reset := rfl
@[simp] theorem softReset_inp (s : State) : (softReset s).inp = InUnit.reset := rfl
@[simp] theorem softReset_out (s : State) : (softReset s).out = OutUnit.reset := rfl
@[simp] theorem softReset_pq (s : State) : (softReset s).pq = { s.pq with size := 0#10, cap := Config.pqResetCap, external := false } := rfl
@[simp] theorem softReset_freq (s : State) : (softReset s).freq = FreqTable.reset := rfl
@[simp] theorem softReset_code (s : State) : (softReset s).code = { s.code with count := 0#10, root := Config.noNode, valid := false } := rfl
@[simp] theorem softReset_dstack (s : State) : (softReset s).dstack = { s.dstack with dsp := 0#9 } := rfl
@[simp] theorem softReset_lzw (s : State) : (softReset s).lzw = Lzw.reset := rfl
@[simp] theorem softReset_mem (s : State) : (softReset s).mem = s.mem := rfl
@[simp] theorem softReset_host (s : State) : (softReset s).host = s.host := rfl
@[simp] theorem softReset_readData (s : State) : (softReset s).readData = s.readData := rfl

/-! ### writeInLen -/

@[simp] theorem writeInLen_cfg (v : Word) (s : State) : (writeInLen v s).cfg = s.cfg := rfl
@[simp] theorem writeInLen_arg0 (v : Word) (s : State) : (writeInLen v s).arg0 = s.arg0 := rfl
@[simp] theorem writeInLen_arg1 (v : Word) (s : State) : (writeInLen v s).arg1 = s.arg1 := rfl
@[simp] theorem writeInLen_res0 (v : Word) (s : State) : (writeInLen v s).res0 = s.res0 := rfl
@[simp] theorem writeInLen_res1 (v : Word) (s : State) : (writeInLen v s).res1 = s.res1 := rfl
@[simp] theorem writeInLen_res2 (v : Word) (s : State) : (writeInLen v s).res2 = s.res2 := rfl
@[simp] theorem writeInLen_a0 (v : Word) (s : State) : (writeInLen v s).a0 = s.a0 := rfl
@[simp] theorem writeInLen_a1 (v : Word) (s : State) : (writeInLen v s).a1 = s.a1 := rfl
@[simp] theorem writeInLen_lastCmd (v : Word) (s : State) : (writeInLen v s).lastCmd = s.lastCmd := rfl
@[simp] theorem writeInLen_cmdCnt (v : Word) (s : State) : (writeInLen v s).cmdCnt = s.cmdCnt := rfl
@[simp] theorem writeInLen_status (v : Word) (s : State) : (writeInLen v s).status = s.status := rfl
@[simp] theorem writeInLen_errInfo (v : Word) (s : State) : (writeInLen v s).errInfo = s.errInfo := rfl
@[simp] theorem writeInLen_ctrl (v : Word) (s : State) : (writeInLen v s).ctrl = s.ctrl := rfl
@[simp] theorem writeInLen_inp (v : Word) (s : State) : (writeInLen v s).inp = { len := BitVec.ofNat 32 (min v.toNat s.cfg.inCap), pos := 0#32, buf := 0#8, nbits := 0#4 } := rfl
@[simp] theorem writeInLen_out (v : Word) (s : State) : (writeInLen v s).out = s.out := rfl
@[simp] theorem writeInLen_pq (v : Word) (s : State) : (writeInLen v s).pq = s.pq := rfl
@[simp] theorem writeInLen_freq (v : Word) (s : State) : (writeInLen v s).freq = s.freq := rfl
@[simp] theorem writeInLen_code (v : Word) (s : State) : (writeInLen v s).code = s.code := rfl
@[simp] theorem writeInLen_dstack (v : Word) (s : State) : (writeInLen v s).dstack = s.dstack := rfl
@[simp] theorem writeInLen_lzw (v : Word) (s : State) : (writeInLen v s).lzw = s.lzw := rfl
@[simp] theorem writeInLen_mem (v : Word) (s : State) : (writeInLen v s).mem = s.mem := rfl
@[simp] theorem writeInLen_host (v : Word) (s : State) : (writeInLen v s).host = s.host := rfl
@[simp] theorem writeInLen_readData (v : Word) (s : State) : (writeInLen v s).readData = s.readData := rfl

/-! ### writeOutLen -/

@[simp] theorem writeOutLen_cfg (s : State) : (writeOutLen s).cfg = s.cfg := rfl
@[simp] theorem writeOutLen_arg0 (s : State) : (writeOutLen s).arg0 = s.arg0 := rfl
@[simp] theorem writeOutLen_arg1 (s : State) : (writeOutLen s).arg1 = s.arg1 := rfl
@[simp] theorem writeOutLen_res0 (s : State) : (writeOutLen s).res0 = s.res0 := rfl
@[simp] theorem writeOutLen_res1 (s : State) : (writeOutLen s).res1 = s.res1 := rfl
@[simp] theorem writeOutLen_res2 (s : State) : (writeOutLen s).res2 = s.res2 := rfl
@[simp] theorem writeOutLen_a0 (s : State) : (writeOutLen s).a0 = s.a0 := rfl
@[simp] theorem writeOutLen_a1 (s : State) : (writeOutLen s).a1 = s.a1 := rfl
@[simp] theorem writeOutLen_lastCmd (s : State) : (writeOutLen s).lastCmd = s.lastCmd := rfl
@[simp] theorem writeOutLen_cmdCnt (s : State) : (writeOutLen s).cmdCnt = s.cmdCnt := rfl
@[simp] theorem writeOutLen_status (s : State) : (writeOutLen s).status = s.status := rfl
@[simp] theorem writeOutLen_errInfo (s : State) : (writeOutLen s).errInfo = s.errInfo := rfl
@[simp] theorem writeOutLen_ctrl (s : State) : (writeOutLen s).ctrl = s.ctrl := rfl
@[simp] theorem writeOutLen_inp (s : State) : (writeOutLen s).inp = s.inp := rfl
@[simp] theorem writeOutLen_out (s : State) : (writeOutLen s).out = { len := 0#32, buf := 0#8, nbits := 0#3 } := rfl
@[simp] theorem writeOutLen_pq (s : State) : (writeOutLen s).pq = s.pq := rfl
@[simp] theorem writeOutLen_freq (s : State) : (writeOutLen s).freq = s.freq := rfl
@[simp] theorem writeOutLen_code (s : State) : (writeOutLen s).code = s.code := rfl
@[simp] theorem writeOutLen_dstack (s : State) : (writeOutLen s).dstack = s.dstack := rfl
@[simp] theorem writeOutLen_lzw (s : State) : (writeOutLen s).lzw = s.lzw := rfl
@[simp] theorem writeOutLen_mem (s : State) : (writeOutLen s).mem = s.mem := rfl
@[simp] theorem writeOutLen_host (s : State) : (writeOutLen s).host = s.host := rfl
@[simp] theorem writeOutLen_readData (s : State) : (writeOutLen s).readData = s.readData := rfl

/-! ### withNextCommand -/

@[simp] theorem withNextCommand_cfg (w : Word) (s : State) : (withNextCommand w s).cfg = s.cfg := rfl
@[simp] theorem withNextCommand_arg0 (w : Word) (s : State) : (withNextCommand w s).arg0 = s.arg0 := rfl
@[simp] theorem withNextCommand_arg1 (w : Word) (s : State) : (withNextCommand w s).arg1 = s.arg1 := rfl
@[simp] theorem withNextCommand_res0 (w : Word) (s : State) : (withNextCommand w s).res0 = s.res0 := rfl
@[simp] theorem withNextCommand_res1 (w : Word) (s : State) : (withNextCommand w s).res1 = s.res1 := rfl
@[simp] theorem withNextCommand_res2 (w : Word) (s : State) : (withNextCommand w s).res2 = s.res2 := rfl
@[simp] theorem withNextCommand_a0 (w : Word) (s : State) : (withNextCommand w s).a0 = s.a0 := rfl
@[simp] theorem withNextCommand_a1 (w : Word) (s : State) : (withNextCommand w s).a1 = s.a1 := rfl
@[simp] theorem withNextCommand_lastCmd (w : Word) (s : State) : (withNextCommand w s).lastCmd = s.lastCmd := rfl
@[simp] theorem withNextCommand_cmdCnt (w : Word) (s : State) : (withNextCommand w s).cmdCnt = s.cmdCnt := rfl
@[simp] theorem withNextCommand_status (w : Word) (s : State) : (withNextCommand w s).status = { s.status with busy := false } := rfl
@[simp] theorem withNextCommand_errInfo (w : Word) (s : State) : (withNextCommand w s).errInfo = s.errInfo := rfl
@[simp] theorem withNextCommand_ctrl (w : Word) (s : State) : (withNextCommand w s).ctrl = s.ctrl := rfl
@[simp] theorem withNextCommand_inp (w : Word) (s : State) : (withNextCommand w s).inp = s.inp := rfl
@[simp] theorem withNextCommand_out (w : Word) (s : State) : (withNextCommand w s).out = s.out := rfl
@[simp] theorem withNextCommand_pq (w : Word) (s : State) : (withNextCommand w s).pq = s.pq := rfl
@[simp] theorem withNextCommand_freq (w : Word) (s : State) : (withNextCommand w s).freq = s.freq := rfl
@[simp] theorem withNextCommand_code (w : Word) (s : State) : (withNextCommand w s).code = s.code := rfl
@[simp] theorem withNextCommand_dstack (w : Word) (s : State) : (withNextCommand w s).dstack = s.dstack := rfl
@[simp] theorem withNextCommand_lzw (w : Word) (s : State) : (withNextCommand w s).lzw = s.lzw := rfl
@[simp] theorem withNextCommand_mem (w : Word) (s : State) : (withNextCommand w s).mem = s.mem := rfl
@[simp] theorem withNextCommand_host (w : Word) (s : State) : (withNextCommand w s).host = .write 0x000#28 .four w :: s.host := rfl
@[simp] theorem withNextCommand_readData (w : Word) (s : State) : (withNextCommand w s).readData = s.readData := rfl

/-! ### The status flags -/

@[simp] theorem flagsAtIssue_busy (f : Status) : (flagsAtIssue f).busy = true := rfl
@[simp] theorem flagsAtIssue_done (f : Status) : (flagsAtIssue f).done = false := rfl
@[simp] theorem flagsAtIssue_err (f : Status) : (flagsAtIssue f).err = f.err := rfl
@[simp] theorem flagsAtIssue_eos (f : Status) : (flagsAtIssue f).eos = false := rfl
@[simp] theorem flagsAtIssue_empty (f : Status) : (flagsAtIssue f).empty = false := rfl
@[simp] theorem flagsAtIssue_ign (f : Status) : (flagsAtIssue f).ign = false := rfl
@[simp] theorem flagsAtIssue_errCode (f : Status) : (flagsAtIssue f).errCode = f.errCode := rfl

@[simp] theorem flagsCompleted_busy (f : Status) : (flagsCompleted f).busy = false := rfl
@[simp] theorem flagsCompleted_done (f : Status) : (flagsCompleted f).done = true := rfl
@[simp] theorem flagsCompleted_err (f : Status) : (flagsCompleted f).err = f.err := rfl
@[simp] theorem flagsCompleted_eos (f : Status) : (flagsCompleted f).eos = f.eos := rfl
@[simp] theorem flagsCompleted_empty (f : Status) : (flagsCompleted f).empty = f.empty := rfl
@[simp] theorem flagsCompleted_ign (f : Status) : (flagsCompleted f).ign = f.ign := rfl
@[simp] theorem flagsCompleted_errCode (f : Status) : (flagsCompleted f).errCode = f.errCode := rfl

@[simp] theorem flagsRaised_busy (c : ErrCode) (f : Status) : (flagsRaised c f).busy = false := rfl
@[simp] theorem flagsRaised_done (c : ErrCode) (f : Status) : (flagsRaised c f).done = true := rfl
@[simp] theorem flagsRaised_err (c : ErrCode) (f : Status) : (flagsRaised c f).err = true := rfl
@[simp] theorem flagsRaised_eos (c : ErrCode) (f : Status) : (flagsRaised c f).eos = f.eos := rfl
@[simp] theorem flagsRaised_empty (c : ErrCode) (f : Status) : (flagsRaised c f).empty = f.empty := rfl
@[simp] theorem flagsRaised_ign (c : ErrCode) (f : Status) : (flagsRaised c f).ign = f.ign := rfl
@[simp] theorem flagsRaised_errCode (c : ErrCode) (f : Status) : (flagsRaised c f).errCode = errCodeByte c := rfl

@[simp] theorem flagsIgnored_busy (f : Status) : (flagsIgnored f).busy = f.busy := rfl
@[simp] theorem flagsIgnored_done (f : Status) : (flagsIgnored f).done = true := rfl
@[simp] theorem flagsIgnored_err (f : Status) : (flagsIgnored f).err = f.err := rfl
@[simp] theorem flagsIgnored_eos (f : Status) : (flagsIgnored f).eos = f.eos := rfl
@[simp] theorem flagsIgnored_empty (f : Status) : (flagsIgnored f).empty = f.empty := rfl
@[simp] theorem flagsIgnored_ign (f : Status) : (flagsIgnored f).ign = true := rfl
@[simp] theorem flagsIgnored_errCode (f : Status) : (flagsIgnored f).errCode = f.errCode := rfl

@[simp] theorem flagsCleared_busy (f : Status) : (flagsCleared f).busy = f.busy := rfl
@[simp] theorem flagsCleared_done (f : Status) : (flagsCleared f).done = f.done := rfl
@[simp] theorem flagsCleared_err (f : Status) : (flagsCleared f).err = false := rfl
@[simp] theorem flagsCleared_eos (f : Status) : (flagsCleared f).eos = f.eos := rfl
@[simp] theorem flagsCleared_empty (f : Status) : (flagsCleared f).empty = f.empty := rfl
@[simp] theorem flagsCleared_ign (f : Status) : (flagsCleared f).ign = f.ign := rfl
@[simp] theorem flagsCleared_errCode (f : Status) : (flagsCleared f).errCode = 0#8 := rfl

@[simp] theorem flagsEos_busy (f : Status) : (flagsEos f).busy = f.busy := rfl
@[simp] theorem flagsEos_done (f : Status) : (flagsEos f).done = f.done := rfl
@[simp] theorem flagsEos_err (f : Status) : (flagsEos f).err = f.err := rfl
@[simp] theorem flagsEos_eos (f : Status) : (flagsEos f).eos = true := rfl
@[simp] theorem flagsEos_empty (f : Status) : (flagsEos f).empty = f.empty := rfl
@[simp] theorem flagsEos_ign (f : Status) : (flagsEos f).ign = f.ign := rfl
@[simp] theorem flagsEos_errCode (f : Status) : (flagsEos f).errCode = f.errCode := rfl

@[simp] theorem flagsEmpty_busy (f : Status) : (flagsEmpty f).busy = f.busy := rfl
@[simp] theorem flagsEmpty_done (f : Status) : (flagsEmpty f).done = f.done := rfl
@[simp] theorem flagsEmpty_err (f : Status) : (flagsEmpty f).err = f.err := rfl
@[simp] theorem flagsEmpty_eos (f : Status) : (flagsEmpty f).eos = f.eos := rfl
@[simp] theorem flagsEmpty_empty (f : Status) : (flagsEmpty f).empty = true := rfl
@[simp] theorem flagsEmpty_ign (f : Status) : (flagsEmpty f).ign = f.ign := rfl
@[simp] theorem flagsEmpty_errCode (f : Status) : (flagsEmpty f).errCode = f.errCode := rfl

end Sys2Proof.Laws
end

