-- ==== Sys2Proof/Laws/Streams.lean ====
section
/-! SUPPORT. The streams as bits: what PutBit, PutBits and Flush append, what GetBit and GetBits consume. -/

namespace Sys2Proof.Laws

open Sys2Proof Sys2Proof.Machine Sys2Proof.Safety

/-! ### Bits of a number -/

@[simp] theorem bitsMSB_length (n v : Nat) : (bitsMSB n v).length = n := by
  induction n with
  | zero => rfl
  | succ n ih => simp [bitsMSB, ih]

@[simp] theorem bytesBits_nil : bytesBits [] = [] := rfl

@[simp] theorem bytesBits_cons (b : Nat) (bs : List Nat) : bytesBits (b :: bs) = bitsMSB 8 b ++ bytesBits bs := by
  simp [bytesBits]

@[simp] theorem bytesBits_append (as bs : List Nat) : bytesBits (as ++ bs) = bytesBits as ++ bytesBits bs := by
  simp [bytesBits]

@[simp] theorem bytesBits_length (bs : List Nat) : (bytesBits bs).length = 8 * bs.length := by
  induction bs with
  | nil => rfl
  | cons b bs ih => simp [ih]; omega

theorem bitsMSB_congr {n v w : Nat} (h : ∀ i, i < n → v.testBit i = w.testBit i) : bitsMSB n v = bitsMSB n w := by
  induction n with
  | zero => rfl
  | succ n ih => simp [bitsMSB, h n (by omega), ih fun i hi => h i (by omega)]

theorem bitsMSB_mod (n v : Nat) : bitsMSB n (v % 2 ^ n) = bitsMSB n v :=
  bitsMSB_congr fun i hi => by simp [Nat.testBit_mod_two_pow, hi]

/-- Appending a bit below. -/
theorem bitsMSB_snoc (n v : Nat) (b : Bool) : bitsMSB (n + 1) (2 * v + b.toNat) = bitsMSB n v ++ [b] := by
  induction n generalizing v with
  | zero => cases b <;> simp [bitsMSB]
  | succ n ih =>
    rw [bitsMSB, ih]
    have : (2 * v + b.toNat).testBit (n + 1) = v.testBit n := by
      rw [Nat.testBit_succ]
      congr 1
      cases b
      · simp
      · simp; omega
    simp [bitsMSB, this]

/-- The highest of `n + 1` bits and the others. -/
theorem bitsMSB_head (n v : Nat) : bitsMSB (n + 1) v = v.testBit n :: bitsMSB n v := rfl

theorem bitsMSB_add (m n v : Nat) : bitsMSB (m + n) v = bitsMSB m (v >>> n) ++ bitsMSB n v := by
  induction m with
  | zero => simp [bitsMSB]
  | succ m ih => rw [show m + 1 + n = (m + n) + 1 by omega, bitsMSB_head, ih, bitsMSB_head]; simp [Nat.testBit_shiftRight, Nat.add_comm]

theorem bitsMSB_shiftLeft (n k v : Nat) : bitsMSB (n + k) (v <<< k) = bitsMSB n v ++ List.replicate k false := by
  induction k with
  | zero => simp
  | succ k ih =>
    have h : v <<< (k + 1) = 2 * (v <<< k) + (false : Bool).toNat := by
      simp [Nat.shiftLeft_succ]
    rw [show n + (k + 1) = (n + k) + 1 by omega, h, bitsMSB_snoc, ih, List.replicate_succ', List.append_assoc]

/-! ### The output stream -/

@[simp] theorem outputBits_length (s : State) : (outputBits s).length = 8 * s.out.len.toNat + s.out.nbits.toNat := by
  simp [outputBits, outputBytes]

theorem outputBytes_congr {s t : State} {n : Nat} (h : ∀ k, k < n → t.mem.read (outBase + k) = s.mem.read (outBase + k)) :
    outputBytes t n = outputBytes s n :=
  List.map_congr_left fun k hk => by rw [h k (List.mem_range.mp hk)]

theorem outputBytes_succ (s : State) (n : Nat) :
    outputBytes s (n + 1) = outputBytes s n ++ [(s.mem.read (outBase + n)).toNat] := by
  simp [outputBytes, List.range_succ]

end Sys2Proof.Laws

namespace Sys2Proof.Safety

open Sys2Proof Sys2Proof.Machine Sys2Proof.Laws

theorem Appended.refl {s : State} (h : OutputOk s) : Appended s s [] :=
  ⟨rfl, h, by simp, fun _ _ => rfl⟩

theorem Appended.total {s t : State} {bs : List Bool} (h : Appended s t bs) :
    8 * t.out.len.toNat + t.out.nbits.toNat = 8 * s.out.len.toNat + s.out.nbits.toNat + bs.length := by
  have := congrArg List.length h.bits
  simpa using this

theorem Appended.len_le {s t : State} {bs : List Bool} (h : Appended s t bs) : s.out.len.toNat ≤ t.out.len.toNat := by
  have := h.total
  have := s.out.nbits.isLt
  have := t.out.nbits.isLt
  omega

theorem Appended.trans {s t u : State} {as bs : List Bool} (h : Appended s t as) (k : Appended t u bs) :
    Appended s u (as ++ bs) where
  shape := by have h1 := h.shape; have h2 := k.shape; rw [h2]; rw [h1]
  ok := k.ok
  bits := by rw [k.bits, h.bits, List.append_assoc]
  outside a ha := by
    have h1 := h.len_le
    have h2 := k.len_le
    rw [k.outside a (by omega), h.outside a (by omega)]

@[simp] theorem Appended.cfg {s t : State} {bs : List Bool} (h : Appended s t bs) : t.cfg = s.cfg := by
  rw [h.shape]

@[simp] theorem Appended.code {s t : State} {bs : List Bool} (h : Appended s t bs) : t.code = s.code := by
  rw [h.shape]

@[simp] theorem Appended.inp {s t : State} {bs : List Bool} (h : Appended s t bs) : t.inp = s.inp := by
  rw [h.shape]

theorem Appended.room_eq {s t : State} {bs : List Bool} (h : Appended s t bs) : room t = room s - bs.length := by
  have := h.total
  have hc := h.cfg
  simp only [Safety.room, hc]
  omega

end Sys2Proof.Safety

namespace Sys2Proof.Laws

open Sys2Proof Sys2Proof.Machine Sys2Proof.Safety

/-- Storing a completed byte `v` whose bits are the pending ones and `bs`. -/
theorem storeByte_appended {s : State} {v : Byte} {bs : List Bool} (h : OutputOk s) (hl : s.out.len.toNat < s.cfg.outCap)
    (hv : bitsMSB 8 v.toNat = bitsMSB s.out.nbits.toNat s.out.buf.toNat ++ bs) :
    ∃ t, storeByte v s = .ok ⟨⟩ t ∧ Appended s t bs ∧ t.out = { len := s.out.len + 1#32, buf := 0#8, nbits := 0#3 } := by
  have hlt : s.out.len.toNat + 1 < 2 ^ 32 := by have := h.1.2.1.2; omega
  have hlen : (s.out.len + 1#32).toNat = s.out.len.toNat + 1 := by
    rw [BitVec.toNat_add, Nat.mod_eq_of_lt (by simpa using hlt)]; rfl
  refine ⟨{ s with mem := s.mem.write (outBase + s.out.len.toNat) v, out := { len := s.out.len + 1#32, buf := 0#8, nbits := 0#3 } }, ?_, ?_, rfl⟩
  · simp [storeByte, setOutByte_ok v hl]
  · refine ⟨rfl, ⟨h.1, by simp only [hlen]; omega, by simp⟩, ?_, fun a ha => ?_⟩
    · simp only [outputBits, hlen, outputBytes_succ]
      rw [outputBytes_congr (s := s) (fun k hk => read_write_ne _ _ (by omega))]
      rw [read_write_same, bytesBits_append, bytesBits_cons, hv]
      simp [bitsMSB]
    · simp only [hlen] at ha
      exact read_write_ne _ _ (by omega)

theorem appendBit_toNat (buf : Byte) (b : Bool) (h : buf.toNat < 2 ^ 7) :
    (appendBit buf b).toNat = 2 * buf.toNat + b.toNat := by
  have : ∀ x : BitVec 8, x.toNat < 2 ^ 7 → ∀ c : Bool, (appendBit x c).toNat = 2 * x.toNat + c.toNat := by decide
  exact this buf h b

/-- PutBit appends its bit wherever there is room (42_bitstream_out.md R87). -/
theorem putBit_appended {s : State} (b : Bool) (h : OutputOk s) (hr : 0 < room s) :
    ∃ t, putBit b s = .ok ⟨⟩ t ∧ Appended s t [b] := by
  have hn := s.out.nbits.isLt
  have hbuf : s.out.buf.toNat < 2 ^ 7 :=
    lt_of_lt_of_le h.2.2 (Nat.pow_le_pow_right (by omega) (by omega))
  have hab := appendBit_toNat s.out.buf b hbuf
  have hreq : ¬ (s.out.nbits = 7#3 ∧ s.out.len.toNat = s.cfg.outCap) := by
    rintro ⟨h7, hl⟩
    simp [room, h7, hl] at hr
  by_cases h7 : s.out.nbits = 7#3
  · have hl : s.out.len.toNat < s.cfg.outCap := by
      have := h.2.1
      have : s.out.len.toNat ≠ s.cfg.outCap := fun e => hreq ⟨h7, e⟩
      omega
    obtain ⟨t, ht, ha, -⟩ := storeByte_appended (v := appendBit s.out.buf b) (bs := [b]) h hl (by
      rw [hab, h7]; exact bitsMSB_snoc 7 _ b)
    refine ⟨t, ?_, ha⟩
    rw [putBit, op_bind, op_get]
    simp only [op_bind, require_pos hreq, if_pos h7, ht]
  · have hn7 : s.out.nbits.toNat < 7 := by
      have : s.out.nbits.toNat ≠ 7 := fun e => h7 (BitVec.eq_of_toNat_eq (by simpa using e))
      omega
    have hadd : (s.out.nbits + 1#3).toNat = s.out.nbits.toNat + 1 := by
      rw [BitVec.toNat_add, Nat.mod_eq_of_lt] <;> simp; omega
    refine ⟨{ s with out := { s.out with buf := appendBit s.out.buf b, nbits := s.out.nbits + 1#3 } }, ?_, ?_⟩
    · rw [putBit, op_bind, op_get]
      simp only [op_bind, require_pos hreq, if_neg h7, op_set]
    · refine ⟨rfl, ⟨h.1, h.2.1, ?_⟩, ?_, fun _ _ => rfl⟩
      · have := h.2.2
        simp only [hab, hadd, Nat.pow_succ]
        cases b <;> simp <;> omega
      · simp [outputBits, hab, hadd, bitsMSB_snoc, outputBytes]

/-- PutBits appends the `n` low bits of its value, most significant first (R88). -/
theorem putBits_appended (n v : Nat) {s : State} (h : OutputOk s) (hr : n ≤ room s) :
    ∃ t, putBits n v s = .ok ⟨⟩ t ∧ Appended s t (bitsMSB n v) := by
  induction n generalizing s with
  | zero => exact ⟨s, rfl, Appended.refl h⟩
  | succ n ih =>
    obtain ⟨t, ht, ha⟩ := putBit_appended (v.testBit n) h (by omega)
    obtain ⟨u, hu, hb⟩ := ih ha.ok (by rw [ha.room_eq]; simp; omega)
    exact ⟨u, by simp [putBits, ht, hu], ha.trans hb⟩

/-- A sequence of bits is appended as it stands (45_huffman_code.md R122). -/
theorem putAll_appended (bs : List Bool) {s : State} (h : OutputOk s) (hr : bs.length ≤ room s) :
    ∃ t, putAll bs s = .ok ⟨⟩ t ∧ Appended s t bs := by
  induction bs generalizing s with
  | nil => exact ⟨s, rfl, Appended.refl h⟩
  | cons b bs ih =>
    obtain ⟨t, ht, ha⟩ := putBit_appended b h (by simp at hr; omega)
    obtain ⟨u, hu, hb⟩ := ih ha.ok (by rw [ha.room_eq]; simp at hr ⊢; omega)
    exact ⟨u, by simp [putAll, ht, hu], ha.trans hb⟩

/-- PutBits writes the bits of its value as a sequence (R88). -/
theorem putBits_eq_putAll (n v : Nat) : putBits n v = putAll (bitsMSB n v) := by
  induction n with
  | zero => rfl
  | succ n ih => simp [putBits, bitsMSB, putAll, ih]

/-- PutBit raises where there is no room, with no effect (R87). -/
theorem putBit_full {s : State} (b : Bool) (h : OutputOk s) (hr : room s = 0) :
    putBit b s = .error (.raise .outOverflow) s := by
  have hn := s.out.nbits.isLt
  have hl := h.2.1
  have h7 : s.out.nbits = 7#3 := BitVec.eq_of_toNat_eq (by simp [room] at hr ⊢; omega)
  have he : s.out.len.toNat = s.cfg.outCap := by simp [room] at hr; omega
  rw [putBit, op_bind, op_get]
  simp [h7, he]

/-- A sequence of bits that does not fit is written as far as it fits, and the next bit raises (R88,
60_exceptions.md R141). -/
theorem putAll_overflow (bs : List Bool) {s : State} (h : OutputOk s) (hr : room s < bs.length) :
    ∃ t, putAll bs s = .error (.raise .outOverflow) t ∧ Appended s t (bs.take (room s)) := by
  induction bs generalizing s with
  | nil => simp at hr
  | cons b bs ih =>
    by_cases h0 : room s = 0
    · exact ⟨s, by simp [putAll, putBit_full b h h0], by simpa [h0] using Appended.refl h⟩
    · obtain ⟨t, ht, ha⟩ := putBit_appended b h (by omega)
      obtain ⟨u, hu, hb⟩ := ih ha.ok (by rw [ha.room_eq]; simp at hr ⊢; omega)
      refine ⟨u, by simp [putAll, ht, hu], ?_⟩
      have hk : room s = (room s - 1) + 1 := by omega
      rw [hk, List.take_succ_cons]
      have := ha.trans hb
      simpa [ha.room_eq] using this

/-- A field that does not fit is written as far as it fits (R88). -/
theorem putBits_overflow (n v : Nat) {s : State} (h : OutputOk s) (hr : room s < n) :
    ∃ t, putBits n v s = .error (.raise .outOverflow) t ∧ Appended s t ((bitsMSB n v).take (room s)) := by
  rw [putBits_eq_putAll]
  exact putAll_overflow _ h (by simpa using hr)

/-- Flush pads the partial byte with zero bits (R89). -/
theorem flush_appended {s : State} (h : OutputOk s) (hr : s.out.nbits ≠ 0#3 → s.out.len.toNat < s.cfg.outCap) :
    ∃ t, flush s = .ok ⟨⟩ t ∧ Appended s t (List.replicate ((8 - s.out.nbits.toNat) % 8) false) ∧ t.out.nbits = 0#3 := by
  by_cases h0 : s.out.nbits = 0#3
  · exact ⟨s, by simp [flush, h0], by simpa [h0] using Appended.refl h, h0⟩
  · have hl := hr h0
    have hn := s.out.nbits.isLt
    have hn0 : s.out.nbits.toNat ≠ 0 := fun e => h0 (BitVec.eq_of_toNat_eq (by simpa using e))
    have hb : (s.out.buf <<< (8 - s.out.nbits.toNat)).toNat = s.out.buf.toNat <<< (8 - s.out.nbits.toNat) := by
      rw [BitVec.toNat_shiftLeft, Nat.mod_eq_of_lt]
      rw [Nat.shiftLeft_eq]
      calc s.out.buf.toNat * 2 ^ (8 - s.out.nbits.toNat)
          < 2 ^ s.out.nbits.toNat * 2 ^ (8 - s.out.nbits.toNat) := Nat.mul_lt_mul_of_pos_right h.2.2 (by positivity)
        _ = 2 ^ 8 := by rw [← Nat.pow_add]; congr 1; omega
    obtain ⟨t, ht, ha, hz⟩ := storeByte_appended (v := s.out.buf <<< (8 - s.out.nbits.toNat))
      (bs := List.replicate ((8 - s.out.nbits.toNat) % 8) false) h hl (by
        rw [hb, Nat.mod_eq_of_lt (by omega : 8 - s.out.nbits.toNat < 8)]
        rw [← bitsMSB_shiftLeft s.out.nbits.toNat (8 - s.out.nbits.toNat)]
        congr 1; omega)
    exact ⟨t, by simp [flush, h0, Nat.ne_of_lt hl, ht], ha, by rw [hz]⟩

/-! ### The input stream -/

@[simp] theorem inputBits_length (s : State) : (inputBits s).length = inBitsLeft s.inp := by
  simp [inputBits, inputBytes, inBitsLeft]

theorem inputBytes_cons (s : State) (k n : Nat) :
    inputBytes s k (n + 1) = (s.mem.read (inBase + k)).toNat :: inputBytes s (k + 1) n := by
  simp [inputBytes, List.range_succ_eq_map, Function.comp_def, Nat.add_assoc, Nat.add_comm 1]

end Sys2Proof.Laws

namespace Sys2Proof.Safety

open Sys2Proof Sys2Proof.Machine Sys2Proof.Laws

theorem Consumed.refl {s : State} (h : InputOk s) : Consumed s s [] :=
  ⟨rfl, h, rfl, by simp, by simp⟩

@[simp] theorem Consumed.cfg {s t : State} {bs : List Bool} (h : Consumed s t bs) : t.cfg = s.cfg := by
  rw [h.shape]

@[simp] theorem Consumed.mem {s t : State} {bs : List Bool} (h : Consumed s t bs) : t.mem = s.mem := by
  rw [h.shape]

@[simp] theorem Consumed.code {s t : State} {bs : List Bool} (h : Consumed s t bs) : t.code = s.code := by
  rw [h.shape]

theorem Consumed.left {s t : State} {bs : List Bool} (h : Consumed s t bs) :
    inBitsLeft s.inp = bs.length + inBitsLeft t.inp := by
  have := congrArg List.length h.bits
  simpa using this

theorem Consumed.pos_le {s t : State} {bs : List Bool} (h : Consumed s t bs) (hs : InputOk s) :
    s.inp.pos.toNat ≤ t.inp.pos.toNat := by
  have h1 := h.left
  have h2 := h.ok
  have h3 := h.len
  simp only [inBitsLeft, h3] at h1
  have := hs.2.2.2
  have := h2.2.2.1
  have := h2.2.2.2
  rw [h3] at *
  omega

theorem Consumed.trans {s t u : State} {as bs : List Bool} (hs : InputOk s) (h : Consumed s t as)
    (k : Consumed t u bs) : Consumed s u (as ++ bs) where
  shape := by have h1 := h.shape; have h2 := k.shape; rw [h2]; rw [h1]
  ok := k.ok
  len := k.len.trans h.len
  bits := by rw [h.bits, k.bits, List.append_assoc]
  buf := by
    have h1 := h.pos_le hs
    have h2 := k.pos_le h.ok
    have e1 := h.buf
    have e2 := k.buf
    rw [h.mem] at e2
    by_cases hu : u.inp.pos = t.inp.pos
    · rw [if_pos hu] at e2
      rw [e2, hu]
      exact e1
    · rw [if_neg hu] at e2
      have : u.inp.pos ≠ s.inp.pos := by
        intro e
        apply hu
        apply BitVec.eq_of_toNat_eq
        have := congrArg BitVec.toNat e
        omega
      rw [e2, if_neg this]

end Sys2Proof.Safety

namespace Sys2Proof.Laws

open Sys2Proof Sys2Proof.Machine Sys2Proof.Safety

/-- GetBit consumes the next bit of the stream, if there is one (41_bitstream_in.md R76). -/
theorem getBit_consumed {s : State} (h : InputOk s) (hl : 0 < inBitsLeft s.inp) :
    ∃ b t, getBit s = .ok b t ∧ Consumed s t [b] := by
  obtain ⟨hcfg, hcap, hpos, hnb⟩ := h
  by_cases h0 : s.inp.nbits = 0#4
  · have hp : s.inp.pos.toNat < s.inp.len.toNat := by
      simp [inBitsLeft, h0] at hl; omega
    have hpw : s.inp.pos.toNat + 1 < 2 ^ 32 := by have := s.inp.len.isLt; omega
    have hadd : (s.inp.pos + 1#32).toNat = s.inp.pos.toNat + 1 := by
      rw [BitVec.toNat_add, Nat.mod_eq_of_lt (by simpa using hpw)]; rfl
    have hne : s.inp.pos + 1#32 ≠ s.inp.pos := fun e => by have := congrArg BitVec.toNat e; omega
    refine ⟨_, _, by simp [getBit, refill, drainBit, h0, inByte_ok (Nat.lt_of_lt_of_le hp hcap)]; exact ⟨rfl, rfl⟩, ?_⟩
    refine ⟨rfl, ⟨hcfg, hcap, by simp only [hadd]; omega, by simp⟩, rfl, ?_, ?_⟩
    · simp only [inputBits, h0, hadd]
      rw [show s.inp.len.toNat - s.inp.pos.toNat = (s.inp.len.toNat - (s.inp.pos.toNat + 1)) + 1 by omega,
        inputBytes_cons, bytesBits_cons]
      simp [bitsMSB, inputBytes, BitVec.testBit_toNat]
    · simp [hne, hadd]
  · have hn0 : s.inp.nbits.toNat ≠ 0 := fun e => h0 (BitVec.eq_of_toNat_eq (by simpa using e))
    have hsub : (s.inp.nbits - 1#4).toNat = s.inp.nbits.toNat - 1 := by
      have := s.inp.nbits.isLt
      rw [BitVec.toNat_sub]; simp; omega
    refine ⟨s.inp.buf.getLsbD (s.inp.nbits - 1#4).toNat, { s with inp := { s.inp with nbits := s.inp.nbits - 1#4 } },
      by simp [getBit, refill, drainBit, h0], ?_⟩
    refine ⟨rfl, ⟨hcfg, hcap, hpos, by simp only [hsub]; omega⟩, rfl, ?_, by simp⟩
    simp only [inputBits, hsub]
    rw [show s.inp.nbits.toNat = (s.inp.nbits.toNat - 1) + 1 by omega, bitsMSB_head]
    simp [inputBytes, BitVec.testBit_toNat]

/-- The loop of GetBits (R77). -/
theorem getBitsFrom_consumed (n v : Nat) {s : State} (h : InputOk s) (hl : n ≤ inBitsLeft s.inp) :
    ∃ w t, getBitsFrom n v s = .ok w t ∧ w / 2 ^ n = v ∧ Consumed s t (bitsMSB n w) := by
  induction n generalizing s v with
  | zero => exact ⟨v, s, rfl, by simp, Consumed.refl h⟩
  | succ n ih =>
    obtain ⟨b, t, ht, hb⟩ := getBit_consumed h (by omega)
    obtain ⟨w, u, hu, hw, hc⟩ := ih (2 * v + b.toNat) hb.ok (by have := hb.left; simp at this; omega)
    refine ⟨w, u, by simp [getBitsFrom, ht, hu], ?_, ?_⟩
    · rw [Nat.pow_succ, ← Nat.div_div_eq_div_mul, hw]
      cases b <;> simp
      omega
    · have : w.testBit n = b := by
        rw [show w.testBit n = (w / 2 ^ n).testBit 0 by
          rw [Nat.testBit_div_two_pow]; simp, hw]
        cases b <;> simp
      rw [bitsMSB_head, this]
      exact hb.trans h hc

/-- GetBits(n) consumes the next `n` bits and answers the number they spell, most significant first (R77). -/
theorem getBits_consumed (n : Nat) {s : State} (h : InputOk s) (hl : n ≤ inBitsLeft s.inp) :
    ∃ w t, getBits n s = .ok w t ∧ w < 2 ^ n ∧ Consumed s t (bitsMSB n w) := by
  obtain ⟨w, t, ht, hw, hc⟩ := getBitsFrom_consumed n 0 h hl
  exact ⟨w, t, ht, (Nat.div_eq_zero_iff_lt (by positivity)).mp hw, hc⟩

end Sys2Proof.Laws
end

