-- ==== Sys2Proof/Laws/Tree.lean ====
section
/-! SUPPORT. The node arena, the leaf map and the deserialization stack: what one read and one write do. -/

namespace Sys2Proof.Laws

open Sys2Proof Sys2Proof.Machine

/-! ### Nodes -/

/-- A node that is read is allocated (10_state.md R34). -/
theorem nodeOf_lt {c : Code} {n : Nat} {nd : Node} (h : nodeOf c n = some nd) : n < Config.nodeCap ∧ n < c.count.toNat := by
  unfold nodeOf at h
  split at h
  · assumption
  · cases h

/-- Every allocated node of a legal arena is read. -/
theorem nodeOf_some {c : Code} {n : Nat} (hc : c.count.toNat ≤ Config.nodeCap) (h : n < c.count.toNat) :
    ∃ nd, nodeOf c n = some nd :=
  ⟨c.nodes[n]'(Nat.lt_of_lt_of_le h hc), by simp [nodeOf, h, Nat.lt_of_lt_of_le h hc]⟩

/-- Only the nodes and NODE_COUNT say what a node is. -/
theorem nodeOf_congr {c d : Code} (h : c.nodes = d.nodes) (hc : c.count = d.count) (n : Nat) : nodeOf c n = nodeOf d n := by
  simp [nodeOf, h, hc]

/-- A read of a node after a write of one. -/
theorem nodeOf_set (c : Code) (m n : Nat) (nd : Node) :
    nodeOf { c with nodes := fileSet c.nodes m nd } n =
      if m = n ∧ n < Config.nodeCap ∧ n < c.count.toNat then some nd else nodeOf c n := by
  unfold nodeOf fileSet
  by_cases hm : m < Config.nodeCap <;> by_cases hn : n < Config.nodeCap ∧ n < c.count.toNat
  · by_cases h : m = n
    · subst h; simp [hn]
    · simp [hm, hn, h]
  · simp [hn]
  · have : m ≠ n := by omega
    simp [hm, hn, this]
  · simp [hn]

theorem nodeAt_run (n : Nat) (s : State) :
    nodeAt n s = match nodeOf s.code n with
      | some nd => .ok nd s
      | none => .error (.fault .unallocatedNode) s := by
  rw [nodeAt, op_bind, op_get]
  dsimp only
  cases nodeOf s.code n <;> rfl

/-- A write of PARENT to an allocated node changes that field of that node (44_huffman_tree.md R111). -/
theorem setParent_ok {n p : NodeIdx} {s : State} {nd : Node} (h : nodeOf s.code n.toNat = some nd) :
    setParent n p s =
      .ok ⟨⟩ { s with code := { s.code with nodes := fileSet s.code.nodes n.toNat { nd with parent := p } } } := by
  simp [setParent, nodeAt_run, h]

/-- The node Alloc writes (R109). -/
abbrev freshNode (leaf : Bool) (sym : Byte) (freq : Word) (l r : NodeIdx) : Node :=
  { leaf, sym, freq, left := l, right := r, parent := Config.noNode }

/-- The code after Alloc (R109). -/
abbrev allocated (c : Code) (nd : Node) : Code :=
  { c with nodes := fileSet c.nodes c.count.toNat nd, count := c.count + 1#10 }

/-- Everything Alloc can do (R109). -/
theorem alloc_run (leaf : Bool) (sym : Byte) (freq : Word) (l r : NodeIdx) (s : State) :
    alloc leaf sym freq l r s =
      if s.code.count.toNat < Config.nodeCap then
        .ok (s.code.count.setWidth 9) { s with code := allocated s.code (freshNode leaf sym freq l r) }
      else .error (.raise .capacityExceeded) s := by
  rw [alloc, op_bind, op_get]
  by_cases h : s.code.count.toNat < Config.nodeCap
  · simp [h]
  · simp [h]

/-- The arena after Alloc: the new node, and every older one as before (R109). -/
theorem nodeOf_allocated (c : Code) (nd : Node) (n : Nat) (h : c.count.toNat < Config.nodeCap) :
    nodeOf (allocated c nd) n = if n = c.count.toNat then some nd else nodeOf c n := by
  have hc : (c.count + 1#10).toNat = c.count.toNat + 1 := by
    have : Config.nodeCap = 511 := rfl
    rw [BitVec.toNat_add, Nat.mod_eq_of_lt]
    · simp
    · simp; omega
  unfold allocated nodeOf fileSet
  by_cases hn : n = c.count.toNat
  · subst hn; simp [hc, h]
  · by_cases hl : n < c.count.toNat
    · have : n < Config.nodeCap := by omega
      simp [hc, h, hl, this, hn, Ne.symm hn]
      omega
    · have : ¬ n < c.count.toNat + 1 := by omega
      simp [hc, hl, this, hn]

/-- The index Alloc answers is a node's, not NONE. -/
theorem allocIndex_toNat {c : Code} (h : c.count.toNat < Config.nodeCap) :
    (c.count.setWidth 9 : NodeIdx).toNat = c.count.toNat ∧ (c.count.setWidth 9 : NodeIdx) ≠ Config.noNode := by
  have h511 : Config.nodeCap = 511 := rfl
  have ht : (c.count.setWidth 9 : NodeIdx).toNat = c.count.toNat := by
    rw [BitVec.toNat_setWidth, Nat.mod_eq_of_lt]; omega
  refine ⟨ht, fun e => ?_⟩
  have := congrArg BitVec.toNat e
  rw [ht] at this
  have : c.count.toNat = 511 := this
  omega

/-! ### The leaf map -/

@[simp] theorem mapLeaf_run (sym : Nat) (n : NodeIdx) (s : State) :
    mapLeaf sym n s = .ok ⟨⟩ { s with code := setLeaf s.code sym n } := rfl

/-- A read of LEAF_MAP after a write of one symbol's entry. -/
theorem leafAt_setLeaf (c : Code) (a b : Nat) (n : NodeIdx) (hb : b < 256) :
    leafAt (setLeaf c a n) b = if a = b then n else leafAt c b := by
  simp [leafAt, setLeaf, fileGet_fileSet, hb]

@[simp] theorem nodeOf_setLeaf (c : Code) (a : Nat) (n : NodeIdx) (m : Nat) : nodeOf (setLeaf c a n) m = nodeOf c m := rfl

/-- With no code every symbol is unmapped (R111, 45_huffman_code.md R120). -/
@[simp] theorem leafAt_noCode (c : Code) (a : Nat) : leafAt (noCode c) a = Config.noNode := by
  simp [leafAt, noCode]

/-- With no code the arena is empty. -/
@[simp] theorem nodeOf_noCode (c : Code) (n : Nat) : nodeOf (noCode c) n = none := by
  simp [nodeOf, noCode]

/-! ### The frequency table -/

/-- A read of FREQ after a write of one symbol's counter (10_state.md R33). -/
theorem freqAt_setFreq (f : FreqTable) (a b : Nat) (n : Word) (hb : b < 256) :
    freqAt (setFreq f a n) b = if a = b then n else freqAt f b := by
  simp [freqAt, setFreq, fileGet_fileSet, hb]

@[simp] theorem freqAt_emptyFreq (a : Nat) : freqAt emptyFreq a = 0#32 := by
  simp [freqAt, emptyFreq]

/-! ### The deserialization stack -/

@[simp] theorem push_run (e : StackEntry) (s : State) : push e s = .ok ⟨⟩ { s with dstack := pushed s.dstack e } := rfl

/-- A read of the stack after a push (45_huffman_code.md R120). -/
theorem stackAt_pushed (d : DStack) (e : StackEntry) (i : Nat) (h : d.dsp.toNat < Config.dstackCap) :
    stackAt (pushed d e) i = if i = d.dsp.toNat then e else stackAt d i := by
  unfold stackAt pushed
  rw [fileGet_fileSet]
  by_cases k : i = d.dsp.toNat
  · simp [k, h]
  · simp [k, Ne.symm k]

/-- The depth after a push. -/
theorem pushed_dsp (d : DStack) (e : StackEntry) (h : d.dsp.toNat < Config.dstackCap) :
    (pushed d e).dsp.toNat = d.dsp.toNat + 1 := by
  have : Config.dstackCap = 511 := rfl
  simp only [pushed]
  rw [BitVec.toNat_add, Nat.mod_eq_of_lt]
  · rfl
  · simp; omega

end Sys2Proof.Laws
end

