-- ==== Sys2Proof/Tests/Slice0.lean ====
section
/-! SUPPORT. The model's own tests: ill-formed words refused, words written out from the encoding tables decoded, the worked
examples of the command rules run, and a witness for the hypotheses of every statement. -/

namespace Sys2Proof.Tests

-- One theorem at a time: the kernel evaluations below are long enough that checking them side by side runs out of threads.
set_option Elab.async false

open Sys2Proof Sys2Proof.Machine Sys2Proof.Safety

/-! ### Well-formedness (30_encoding.md R66): one ill-formed word per check -/

theorem test_reserved_bits_refused :
    let f : FormatC := { rsv := 1#23, p := false, opc := 0x01#8 }
    f.reservedClear = false ∧ f.wellFormed = false := by decide

theorem test_unknown_opcode_refused :
    let f : FormatC := { rsv := 0#23, p := false, opc := 0x04#8 }
    f.opcodeKnown = false ∧ f.wellFormed = false := by decide

theorem test_stray_operand_bit_refused :
    let f : FormatC := { rsv := 0#23, p := true, opc := 0x30#8 }
    f.operandBitLegal = false ∧ f.wellFormed = false := by decide

/-! ### Decoding: every constructor's word, bit by bit from R62 and R65 -/

theorem test_decode_control :
    decode 0b00000000000000000000000000000001#32 = .ok .nop ∧ decode 0b00000000000000000000000000000010#32 = .ok .clrErr ∧
    decode 0b00000000000000000000000000000011#32 = .ok .sreset := by decide

theorem test_decode_reader :
    decode 0b00000000000000000000000000010000#32 = .ok .rdBit ∧ decode 0b00000000000000000000000000010001#32 = .ok .rdBits ∧
    decode 0b00000000000000000000000000010010#32 = .ok .rdByte ∧ decode 0b00000000000000000000000000010011#32 = .ok .rdBytes ∧
    decode 0b00000000000000000000000000010100#32 = .ok .rdInt ∧ decode 0b00000000000000000000000000010101#32 = .ok .inLength ∧
    decode 0b00000000000000000000000000010110#32 = .ok .inReset := by decide

theorem test_decode_writer :
    decode 0b00000000000000000000000000100000#32 = .ok .wrBit ∧ decode 0b00000000000000000000000000100001#32 = .ok .wrBits ∧
    decode 0b00000000000000000000000000100010#32 = .ok .wrByte ∧ decode 0b00000000000000000000000000100011#32 = .ok .wrBytes ∧
    decode 0b00000000000000000000000000100100#32 = .ok .wrInt ∧ decode 0b00000000000000000000000000100101#32 = .ok .wrFlush := by
  decide

theorem test_decode_queue :
    decode 0b00000000000000000000000000110000#32 = .ok .pqInit ∧
    decode 0b00000000000000000000000100110001#32 = .ok (.pqOffer true) ∧
    decode 0b00000000000000000000000000110001#32 = .ok (.pqOffer false) ∧
    decode 0b00000000000000000000000000110010#32 = .ok .pqPoll ∧ decode 0b00000000000000000000000000110011#32 = .ok .pqPeek ∧
    decode 0b00000000000000000000000000110100#32 = .ok .pqSize ∧ decode 0b00000000000000000000000000110101#32 = .ok .pqAt := by
  decide

theorem test_decode_tree :
    decode 0b00000000000000000000000001000000#32 = .ok .freqClear ∧ decode 0b00000000000000000000000001000001#32 = .ok .freqSet ∧
    decode 0b00000000000000000000000001000010#32 = .ok .freqScan ∧ decode 0b00000000000000000000000001000011#32 = .ok .hufBuild ∧
    decode 0b00000000000000000000000001000100#32 = .ok .hufNode ∧ decode 0b00000000000000000000000001000101#32 = .ok .hufLeaf := by
  decide

theorem test_decode_code :
    decode 0b00000000000000000000000001001000#32 = .ok .hufWrhdr ∧ decode 0b00000000000000000000000001001001#32 = .ok .hufRdhdr ∧
    decode 0b00000000000000000000000001001010#32 = .ok .hufEnc ∧ decode 0b00000000000000000000000001001011#32 = .ok .hufDec ∧
    decode 0b00000000000000000000000001001100#32 = .ok .hufCompress ∧
    decode 0b00000000000000000000000001001101#32 = .ok .hufExpand := by decide

theorem test_decode_lzw :
    decode 0b00000000000000000000000001010000#32 = .ok .lzwWinit ∧ decode 0b00000000000000000000000001010001#32 = .ok .lzwWrite ∧
    decode 0b00000000000000000000000001010010#32 = .ok .lzwRinit ∧ decode 0b00000000000000000000000001010011#32 = .ok .lzwRead := by
  decide

theorem test_decode_refuses :
    decode 0x00000000#32 = .error .unknownOpcode ∧ decode 0x00000046#32 = .error .unknownOpcode ∧
    decode 0x00000201#32 = .error .reservedBits ∧ decode 0x00000101#32 = .error .strayOperandBit ∧
    decodeTableWord 32 0x131 = some (.pqOffer true) ∧ decodeTableWord 32 0xFF = none := by decide

/-! ### Helpers -/

/-- `bytes` at consecutive host offsets from `a` on. -/
def cellsAt (a : Nat) : List Byte → List Host.Cell
  | [] => []
  | b :: bs => (a, b) :: cellsAt (a + 1) bs

/-- A machine with both streams attached and a fresh input stream of `bytes`. -/
def withInput (bytes : List Byte) : State :=
  { State.reset with
    ctrl := { inEn := true, outEn := true, irqEn := false }
    inp := { len := BitVec.ofNat 32 bytes.length, pos := 0#32, buf := 0#8, nbits := 0#4 }
    mem := { cells := cellsAt inBase bytes, draw := 0 } }

/-- The same machine with the operands latched. -/
def withOperands (s : State) (x y : Word) : State := { s with a0 := x, a1 := y }

/-- Whether a command or a step ends in a next state with the property `p`. -/
def ends (o : Host.Outcome State Fault Refusal) (p : State → Bool) : Bool :=
  match o with
  | .next t => p t
  | .fault _ => false
  | .refused _ => false

/-- The state after commands, each with its operands, one after the other. -/
def runAll (s : State) : List (Instr × Word × Word) → State
  | [] => s
  | (i, x, y) :: rest =>
    match exec i (withOperands s x y) with
    | .next t => runAll t rest
    | .fault _ => s
    | .refused _ => s

/-! ### One step from reset -/

/-- 40_control.md R72's example, through step: CMDCNT = 1, STATUS = 2. -/
theorem test_nop_from_reset :
    ends (step (State.reset.withFetchWord 32 0x01)) (fun t => t.cmdCnt == 1#32 && readReg t .status == 2#32) = true := by decide +kernel

/-- 70_reset_and_hazards.md R154: a stream command right after reset raises NULL_ARGUMENT. -/
theorem test_rd_bit_from_reset :
    ends (step (State.reset.withFetchWord 32 0x10)) (fun t => readReg t .status == 0x206#32 && t.errInfo == 0x10#32) = true := by
  decide +kernel

/-- 30_encoding.md R66: an illegal word counts and raises ILLEGAL_COMMAND. -/
theorem test_illegal_word_from_reset :
    ends (step (State.reset.withFetchWord 32 0x04)) (fun t => readReg t .status == 0x106#32 && t.cmdCnt == 1#32) = true := by
  decide +kernel

/-- 60_exceptions.md R143: NOP while ERR = 1 is ignored: IGN and DONE, CMDCNT kept. -/
theorem test_ignored_while_error :
    ends (step (State.withFetchWord { State.reset with status := { Status.reset with err := true, errCode := 3#8 } } 32 0x01))
      (fun t => readReg t .status == 0x326#32 && t.cmdCnt == 0#32 && t.lastCmd == 1#32) = true := by decide +kernel

/-- 20_memory.md R46, R49: a host write to the FREQ window is a bus error. -/
theorem test_freq_window_write :
    step { State.reset with host := [.write 0x1000#28 .four 1#32] } = .fault .busError := by rfl

/-- 20_memory.md R48: the byte at the lowest offset is the least significant. -/
theorem test_little_endian_read :
    hostRead (withInput [0x11#8, 0x22#8, 0x33#8, 0x44#8]) 0x1000000#28 .four = some 0x44332211#32 := by decide +kernel

/-! ### Control -/

/-- 40_control.md R73's example: CLR_ERR after INVALID_ARGUMENT leaves STATUS = 2 and ERRINFO = 0. -/
theorem test_clr_err :
    ends (exec .clrErr { State.reset with
        status := { Status.reset with err := true, errCode := 3#8, busy := true }, errInfo := 0x11#32 })
      (fun t => readReg t .status == 2#32 && t.errInfo == 0#32) = true := by decide +kernel

/-- 40_control.md R74's example. -/
theorem test_sreset :
    ends (exec .sreset { withInput [1#8] with cmdCnt := 7#32 })
      (fun t => t.cmdCnt == 0#32 && t.inp.len == 0#32 && readReg t .ctrl == 0#32 && readReg t .status == 2#32 &&
        t.mem.cells == [(inBase, 1#8)]) = true := by decide +kernel

/-! ### Reader: the examples of 41_bitstream_in.md -/

/-- R80's example. -/
theorem test_rd_bit :
    ends (exec .rdBit (withInput [0xB5#8, 0x3C#8]))
      (fun t => t.res0 == 1#32 && t.inp == { len := 2#32, pos := 1#32, buf := 0xB5#8, nbits := 7#4 }) = true := by decide +kernel

/-- R81's example: RD_BITS 8 across a byte boundary, after four bits. -/
theorem test_rd_bits :
    ends (exec .rdBits (runAll (withInput [0xB5#8, 0x3C#8]) [(.rdBits, 4#32, 0#32)] |> (withOperands · 8#32 0#32)))
      (fun t => t.res0 == 0x53#32 && t.inp.pos == 2#32 && t.inp.nbits == 4#4) = true := by decide +kernel

/-- R81: n = 32 is refused. -/
theorem test_rd_bits_too_wide :
    ends (exec .rdBits (withOperands (withInput [0xB5#8]) 32#32 0#32))
      (fun t => t.status.errCode == 3#8 && t.inp.pos == 0#32) = true := by decide +kernel

/-- R82: with fewer than 8 bits left RD_BYTE answers the sentinel and consumes nothing. -/
theorem test_rd_byte_at_end :
    ends (exec .rdByte (runAll (withInput [0xB5#8]) [(.rdBit, 0#32, 0#32)]))
      (fun t => t.res0 == 0xFFFFFFFF#32 && t.status.eos && t.inp.nbits == 7#4) = true := by decide +kernel

/-- R83's example: the second call is short. -/
theorem test_rd_bytes :
    ends (exec .rdBytes (withOperands (runAll (withInput [0x41#8, 0x42#8, 0x43#8, 0x44#8, 0x45#8]) [(.rdBytes, 0#32, 3#32)])
        10#32 8#32))
      (fun t => t.res0 == 2#32 && t.inp.pos == 5#32 && t.mem.read (scrBase + 2) == 0x43#8 &&
        t.mem.read (scrBase + 11) == 0x45#8) = true := by decide +kernel

/-- R84's example. -/
theorem test_rd_int :
    ends (exec .rdInt (withInput [0xAC#8, 0x02#8])) (fun t => t.res0 == 300#32 && t.inp.pos == 2#32) = true := by decide +kernel

/-- R79: a fifth byte above 7 is INVALID_FORMAT, with the five bytes consumed. -/
theorem test_rd_int_too_large :
    ends (exec .rdInt (withInput [0xFF#8, 0xFF#8, 0xFF#8, 0xFF#8, 0x08#8]))
      (fun t => t.status.errCode == 4#8 && t.inp.pos == 5#32 && t.res0 == 0#32) = true := by decide +kernel

/-- R85 and R86's examples. -/
theorem test_in_length :
    ends (exec .inLength (withInput [1#8, 2#8])) (fun t => t.res0 == 2#32) = true := by decide +kernel

theorem test_in_reset :
    ends (exec .inReset (runAll (withInput [0xB5#8, 0x3C#8]) [(.rdBits, 12#32, 0#32)]))
      (fun t => t.inp == { len := 2#32, pos := 0#32, buf := 0#8, nbits := 0#4 }) = true := by decide +kernel

/-! ### Writer: the examples of 42_bitstream_out.md -/

/-- R91's example. -/
theorem test_wr_bit :
    ends (exec .wrBit (withOperands (withInput []) 1#32 0#32))
      (fun t => t.out == { len := 0#32, buf := 1#8, nbits := 1#3 }) = true := by decide +kernel

/-- R92's example. -/
theorem test_wr_bits :
    ends (exec .wrBits (withOperands (runAll (withInput []) [(.wrBit, 1#32, 0#32)]) 3#32 5#32))
      (fun t => t.out == { len := 0#32, buf := 0x0D#8, nbits := 4#3 }) = true := by decide +kernel

/-- R93's example. -/
theorem test_wr_byte :
    ends (exec .wrByte (withOperands (runAll (withInput []) [(.wrBits, 4#32, 0xD#32)]) 0xA5#32 0#32))
      (fun t => t.out == { len := 1#32, buf := 5#8, nbits := 4#3 } && t.mem.read outBase == 0xDA#8) = true := by decide +kernel

/-- R94's example. -/
theorem test_wr_bytes :
    ends (exec .wrBytes (withOperands { withInput [] with mem := { cells := cellsAt scrBase [0x41#8, 0x42#8], draw := 0 } }
        0#32 2#32))
      (fun t => t.out.len == 2#32 && t.mem.read (outBase + 1) == 0x42#8) = true := by decide +kernel

/-- R95's corner case: 2^31 − 1 writes FF FF FF FF 07. -/
theorem test_wr_int :
    ends (exec .wrInt (withOperands (withInput []) 0x7FFFFFFF#32 0#32))
      (fun t => t.mem.cells == cellsAt outBase [0xFF#8, 0xFF#8, 0xFF#8, 0xFF#8, 0x07#8]) = true := by decide +kernel

/-- R96's example: three pending bits 111 become 0xE0. -/
theorem test_wr_flush :
    ends (exec .wrFlush (runAll (withInput []) [(.wrBits, 3#32, 7#32)]))
      (fun t => t.out == { len := 1#32, buf := 0#8, nbits := 0#3 } && t.mem.read outBase == 0xE0#8) = true := by decide +kernel

/-- R91: the bit that would complete a byte when OUT_MEM is full is OUT_OVERFLOW, without effect. -/
theorem test_wr_bit_overflow :
    ends (exec .wrBit { withInput [] with
        cfg := { Config.Params.default with outCap := 1 }, out := { len := 1#32, buf := 0#8, nbits := 7#3 } })
      (fun t => t.status.errCode == 7#8 && t.out.nbits == 7#3) = true := by decide +kernel

/-! ### Queue: the examples of 43_pqueue.md -/

/-- R102: a capacity above 1023 is CAPACITY_EXCEEDED; zero is INVALID_ARGUMENT. -/
theorem test_pq_init :
    ends (exec .pqInit (withOperands State.reset 1024#32 0#32)) (fun t => t.status.errCode == 6#8) = true ∧
    ends (exec .pqInit (withOperands State.reset 0#32 0#32)) (fun t => t.status.errCode == 3#8) = true := by decide +kernel

/-- R103's example. -/
theorem test_pq_offer :
    ends (exec (.pqOffer true) (withOperands (runAll State.reset [(.pqOffer true, 5#32, 0#32)]) 1#32 0#32))
      (fun t => t.pq.cap == 3#10 && t.pq.size == 2#10 && heapAt t.pq 1 == { key := 1#32, tag := 0#32 } &&
        heapAt t.pq 2 == { key := 5#32, tag := 0#32 }) = true := by decide +kernel

/-- R104's corner case: from (1,0), (1,1), (1,2), (1,3) the second poll returns tag 3. -/
theorem test_pq_poll_ties :
    ends (exec .pqPoll (runAll State.reset [(.pqOffer true, 1#32, 0#32), (.pqOffer true, 1#32, 1#32),
        (.pqOffer true, 1#32, 2#32), (.pqOffer true, 1#32, 3#32), (.pqPoll, 0#32, 0#32)]))
      (fun t => t.res0 == 1#32 && t.res1 == 3#32) = true := by decide +kernel

/-- R105 and R106, R107's examples. -/
theorem test_pq_peek :
    ends (exec .pqPeek (runAll State.reset [(.pqOffer true, 5#32, 0#32), (.pqOffer true, 1#32, 0#32)]))
      (fun t => t.res0 == 1#32 && t.pq.size == 2#10) = true := by decide +kernel

theorem test_pq_size :
    ends (exec .pqSize (runAll State.reset [(.pqOffer true, 5#32, 0#32), (.pqOffer true, 1#32, 0#32)]))
      (fun t => t.res0 == 2#32) = true := by decide +kernel

theorem test_pq_at :
    ends (exec .pqAt (withOperands (runAll State.reset [(.pqOffer true, 5#32, 0#32), (.pqOffer true, 1#32, 0#32)]) 2#32 0#32))
      (fun t => t.res0 == 5#32) = true := by decide +kernel

/-! ### Tree and code: the source's small scenario "ab" of 46_huffman_stream.md R129 -/

/-- R113: the old counts are gone and the table is supplied. -/
theorem test_freq_clear :
    ends (exec .freqClear { State.reset with freq := setFreq State.reset.freq 65 3#32 })
      (fun t => freqAt t.freq 65 == 0#32 && t.freq.valid) = true := by decide +kernel

/-- R114's example. -/
theorem test_freq_set :
    ends (exec .freqSet (withOperands State.reset 0x41#32 5#32)) (fun t => freqAt t.freq 0x41 == 5#32 && t.freq.valid) = true := by
  decide +kernel

/-- R115, on "aba". -/
theorem test_freq_scan :
    ends (exec .freqScan (withInput [0x61#8, 0x62#8, 0x61#8]))
      (fun t => freqAt t.freq 0x61 == 2#32 && freqAt t.freq 0x62 == 1#32 && t.inp.pos == 0#32) = true := by decide +kernel

/-- The machine of R129's example after its scan: 'a' once, 'b' once. -/
def scannedAb : State := { withInput [0x61#8, 0x62#8] with
  freq := setFreq (setFreq emptyFreq 0x61 1#32) 0x62 1#32 }

/-- R116's two-leaf case: root 2 = (L 0, R 1) with FREQ 2, the queue empty. -/
theorem test_huf_build :
    ends (exec .hufBuild scannedAb)
      (fun t => t.code.count == 3#10 && t.code.root == 2#9 && t.code.valid && t.pq.size == 0#10 && t.pq.cap == 3#10) = true := by
  decide +kernel

/-- The code of R129's example, written out: leaf 'a' = 0, leaf 'b' = 1 and root 2 = (L 0, R 1) FREQ 2. -/
def codeAb : Code where
  nodes := fileSet (fileSet (fileSet Code.reset.nodes 0
    { leaf := true, sym := 0x61#8, freq := 1#32, left := 0x1FF#9, right := 0x1FF#9, parent := 2#9 }) 1
    { leaf := true, sym := 0x62#8, freq := 1#32, left := 0x1FF#9, right := 0x1FF#9, parent := 2#9 }) 2
    { leaf := false, sym := 0#8, freq := 2#32, left := 0#9, right := 1#9, parent := 0x1FF#9 }
  count := 3#10
  root := 2#9
  leafMap := fileSet (fileSet (Vector.replicate 256 0x1FF#9) 0x61 0#9) 0x62 1#9
  valid := true

/-- The same machine holding that code. -/
def builtAb : State := { scannedAb with code := codeAb }

/-- R117's layout: an internal node with PARENT NONE, RIGHT 1, LEFT 0. -/
theorem test_huf_node :
    ends (exec .hufNode (withOperands builtAb 2#32 0#32))
      (fun t => t.res0 == 2#32 && t.res1 == 0x07FC0200#32 && t.res2 == 0#32) = true := by decide +kernel

/-- R118: a symbol of the code, and one that is not. -/
theorem test_huf_leaf :
    ends (exec .hufLeaf (withOperands builtAb 0x62#32 0#32)) (fun t => t.res0 == 1#32) = true ∧
    ends (exec .hufLeaf (withOperands builtAb 0x7A#32 0#32)) (fun t => t.res0 == 0x1FF#32) = true := by decide +kernel

/-- R124 with R129's header: 1 0 0x61 0 0x62, 19 bits. -/
theorem test_huf_wrhdr :
    ends (exec .hufWrhdr builtAb)
      (fun t => t.mem.read outBase == 0x98#8 && t.mem.read (outBase + 1) == 0x4C#8 &&
        t.out == { len := 2#32, buf := 2#8, nbits := 3#3 }) = true := by decide +kernel

/-- R125 on the same header. -/
theorem test_huf_rdhdr :
    ends (exec .hufRdhdr (withInput [0x98#8, 0x4C#8, 0x40#8, 0x48#8]))
      (fun t => t.code.count == 3#10 && t.code.root == 2#9 && t.code.valid && t.inp.pos == 3#32 && t.inp.nbits == 5#4) = true := by
  decide +kernel

/-- R125: IN_MEM = 80 raises INVALID_FORMAT after the PARENT bit. -/
theorem test_huf_rdhdr_truncated :
    ends (exec .hufRdhdr (withInput [0x80#8])) (fun t => t.status.errCode == 4#8 && !t.code.valid && t.inp.nbits == 6#4) = true := by
  decide +kernel

/-- R126: 'b' is RIGHT of the root, the bit 1; 'z' is not in the code. -/
theorem test_huf_enc :
    ends (exec .hufEnc (withOperands builtAb 0x62#32 0#32)) (fun t => t.out == { len := 0#32, buf := 1#8, nbits := 1#3 }) = true ∧
    ends (exec .hufEnc (withOperands builtAb 0x7A#32 0#32)) (fun t => t.status.errCode == 3#8) = true := by decide +kernel

/-- R127: from the first byte 0x61 the first bit is 0, LEFT of the root, 'a'. -/
theorem test_huf_dec :
    ends (exec .hufDec builtAb) (fun t => t.res0 == 0x61#32 && t.inp.nbits == 7#4) = true := by decide +kernel

/-- R129's example. -/
theorem test_huf_compress :
    ends (exec .hufCompress (withInput [0x61#8, 0x62#8]))
      (fun t => t.out.len == 4#32 && t.inp.pos == 2#32 && outputBytes t 4 == [0x98, 0x4C, 0x40, 0x48]) = true := by decide +kernel

/-- R130's example. -/
theorem test_huf_expand :
    ends (exec .hufExpand (withInput [0x98#8, 0x4C#8, 0x40#8, 0x48#8]))
      (fun t => t.out.len == 2#32 && outputBytes t 2 == [0x61, 0x62] && t.inp.nbits == 3#4 && t.code.count == 3#10) = true := by
  decide +kernel

/-! ### LZW codes: the examples of 47_lzw_codec.md -/

/-- R133's example. -/
theorem test_lzw_winit :
    ends (exec .lzwWinit (withOperands State.reset 255#32 0#32)) (fun t => t.status.errCode == 3#8) = true ∧
    ends (exec .lzwWinit (withOperands State.reset 256#32 0#32)) (fun t => t.lzw.wsize == 256#32 && t.lzw.wValid) = true := by
  decide +kernel

/-- R134's example: the second code is 9 bits wide. -/
theorem test_lzw_write :
    ends (exec .lzwWrite (withOperands (runAll (withInput []) [(.lzwWinit, 256#32, 0#32), (.lzwWrite, 97#32, 0#32)]) 256#32 0#32))
      (fun t => t.out == { len := 2#32, buf := 0#8, nbits := 1#3 } && outputBytes t 2 == [0x61, 0x80] &&
        t.lzw.wsize == 258#32) = true := by decide +kernel

/-- R135's example. -/
theorem test_lzw_rinit :
    ends (exec .lzwRinit (withOperands State.reset 0xFFFFFFFF#32 0#32)) (fun t => t.status.errCode == 3#8) = true := by
  decide +kernel

/-- R136's example: the second code read is 0x100, 9 bits wide. -/
theorem test_lzw_read :
    ends (exec .lzwRead (runAll (withInput [0x61#8, 0x80#8, 0x40#8]) [(.lzwRinit, 256#32, 0#32), (.lzwRead, 0#32, 0#32)]))
      (fun t => t.res0 == 0x100#32 && t.lzw.rsize == 258#32 && t.inp.nbits == 7#4) = true := by decide +kernel

/-! ### Witnesses: states that meet the hypotheses of the statements of Certificates/Slice0/Obligations.lean, clause by
clause, at the ends of the ranges -/

theorem ends_exists {o : Host.Outcome State Fault Refusal} {p : State → Bool} (h : ends o p = true) :
    ∃ t, o = .next t ∧ p t = true := by
  cases o with
  | next t => exact ⟨t, rfl, h⟩
  | fault f => cases h
  | refused r => cases h

/-- A block with one event of the outside world to come. -/
def awaiting (s : State) (e : HostEvent) : State := { s with host := [e] }

/-- A block whose host is about to write the word `w` to CMD. -/
def commanded (s : State) (w : Word) : State := awaiting s (.write 0x000#28 .four w)

/-- A block with an error pending. -/
def failedState : State := { State.reset with
  status := { Status.reset with err := true, errCode := 3#8 }, errInfo := 0x11#32 }

theorem witness_IllegalWordRaises :
    (NextCommand (commanded State.reset 0#32) 0#32 [] ∧ (∃ e, decode 0#32 = .error e) ∧
      (commanded State.reset 0#32).status.err = false) ∧
    (NextCommand (commanded failedState 0x102#32) 0x102#32 [] ∧ (∃ e, decode 0x102#32 = .error e) ∧
      (0x102#32).toNat % 2 ^ 8 = 0x02) :=
  ⟨⟨⟨rfl, rfl⟩, ⟨_, rfl⟩, rfl⟩, ⟨rfl, rfl⟩, ⟨_, rfl⟩, rfl⟩

theorem witness_StepRunsDecodedCommand :
    (NextCommand (commanded State.reset (encode .hufExpand)) (encode .hufExpand) [] ∧ State.reset.status.err = false) ∧
    NextCommand (commanded failedState (encode .clrErr)) (encode .clrErr) [] ∧
    NextCommand (commanded failedState (encode .sreset)) (encode .sreset) [] ∧
    ({ State.reset with status := { Status.reset with busy := true }, lastCmd := 0x131#32 } : State).status.busy = true ∧
    decode 0x131#32 = .ok (.pqOffer true) :=
  ⟨⟨⟨rfl, rfl⟩, rfl⟩, ⟨rfl, rfl⟩, ⟨rfl, rfl⟩, rfl, rfl⟩

theorem witness_CommandIgnoredWhileError :
    NextCommand (commanded failedState 0x01#32) 0x01#32 [] ∧ failedState.status.err = true ∧
      (0x01#32).toNat % 2 ^ 8 ≠ 0x02 ∧ (0x01#32).toNat % 2 ^ 8 ≠ 0x03 := ⟨⟨rfl, rfl⟩, rfl, by decide, by decide⟩

theorem witness_ReturnFromError :
    NextCommand (commanded failedState 0x02#32) 0x02#32 [] ∧
    ∃ t, NextCommand (commanded failedState 0x203#32) 0x203#32 [] ∧ failedState.status.err = true ∧
      step (commanded failedState 0x203#32) = .next t ∧ t.status.err = true ∧
      t.status.errCode ≠ (commanded failedState 0x203#32).status.errCode := by
  obtain ⟨t, ht, hp⟩ := ends_exists (o := step (commanded failedState 0x203#32))
    (p := fun t => t.status.err && t.status.errCode == 1#8) (by decide +kernel)
  simp only [Bool.and_eq_true, beq_iff_eq] at hp
  exact ⟨⟨rfl, rfl⟩, t, ⟨rfl, rfl⟩, rfl, ht, hp.1, by rw [hp.2]; decide⟩

theorem witness_PowerOnAndIdle :
    NextEvent (awaiting failedState .powerOn) .powerOn [] ∧
    (State.reset.status.busy = false ∧ State.reset.host = []) := ⟨⟨rfl, rfl⟩, rfl, rfl⟩

theorem witness_BusErrorsExactly :
    State.reset.cfg.legal ∧
    (NextEvent (awaiting State.reset (.read 0x13FC#28 .four)) (.read 0x13FC#28 .four) [] ∧
      LegalRead State.reset.cfg 0x13FC 4) ∧
    (NextEvent (awaiting State.reset (.read 0x1400#28 .four)) (.read 0x1400#28 .four) [] ∧
      ¬ LegalRead State.reset.cfg 0x1400 4) ∧
    (NextEvent (awaiting State.reset (.read 0x100FFFF#28 .two)) (.read 0x100FFFF#28 .two) [] ∧
      ¬ LegalRead State.reset.cfg 0x100FFFF 2) ∧
    (NextEvent (awaiting State.reset (.write 0x100FFFF#28 .one 1#32)) (.write 0x100FFFF#28 .one 1#32) [] ∧
      LegalWrite State.reset.cfg 0x100FFFF 1) ∧
    (NextEvent (awaiting State.reset (.write 0x2000000#28 .one 1#32)) (.write 0x2000000#28 .one 1#32) [] ∧
      ¬ LegalWrite State.reset.cfg 0x2000000 1) := by
  refine ⟨by decide, ⟨⟨rfl, rfl⟩, by decide⟩, ⟨⟨rfl, rfl⟩, by decide⟩, ⟨⟨rfl, rfl⟩, by decide⟩, ⟨⟨rfl, rfl⟩, by decide⟩,
    ⟨rfl, rfl⟩, by decide⟩

theorem witness_RegisterMap :
    (0x030#28).toNat ∈ readOnlyOffsets ∧
    NextEvent (awaiting State.reset (.write 0x030#28 .four 5#32)) (.write 0x030#28 .four 5#32) [] :=
  ⟨by decide, rfl, rfl⟩

theorem witness_WindowsAreLittleEndian :
    State.reset.cfg.legal ∧
    ((0x2000002#28).toNat % widthBytes .two = 0 ∧ Inside 0x2000000 State.reset.cfg.outCap 0x2000002 2) ∧
    ((0x13FC#28).toNat % widthBytes .four = 0 ∧ 0x1000 ≤ (0x13FC#28).toNat ∧ (0x13FC#28).toNat < 0x1400) ∧
    ((0x3000FFC#28).toNat % widthBytes .four = 0 ∧ Inside 0x3000000 State.reset.cfg.scrCap 0x3000FFC 4 ∧
      NextEvent (awaiting State.reset (.write 0x3000FFC#28 .four 7#32)) (.write 0x3000FFC#28 .four 7#32) []) :=
  ⟨by decide, by decide, by decide, by decide, by decide, rfl, rfl⟩

theorem witness_HostAccessSideEffects :
    (∃ t, NextEvent (awaiting State.reset (.read 0x030#28 .four)) (.read 0x030#28 .four) [] ∧
      step (awaiting State.reset (.read 0x030#28 .four)) = .next t) ∧
    NextEvent (awaiting State.reset (.write 0x004#28 .four 9#32)) (.write 0x004#28 .four 9#32) [] ∧
    ∃ t u, State.reset.mem.wf ∧
      NextEvent { State.reset with host := [.write 0x1000001#28 .one 9#32, .write 0x1000001#28 .one 9#32] }
        (.write 0x1000001#28 .one 9#32) [.write 0x1000001#28 .one 9#32] ∧
      step { State.reset with host := [.write 0x1000001#28 .one 9#32, .write 0x1000001#28 .one 9#32] } = .next t ∧
      step t = .next u :=
  ⟨⟨_, ⟨rfl, rfl⟩, rfl⟩, ⟨rfl, rfl⟩, _, _, by decide, ⟨rfl, rfl⟩, rfl, rfl⟩

theorem witness_StreamRegisterWrites :
    State.reset.cfg.legal ∧
    NextEvent (awaiting State.reset (.write 0x040#28 .four 65537#32)) (.write 0x040#28 .four 65537#32) [] ∧
    NextEvent (awaiting State.reset (.write 0x050#28 .four 1#32)) (.write 0x050#28 .four 1#32) [] ∧
    NextEvent (awaiting State.reset (.write 0x044#28 .four 1#32)) (.write 0x044#28 .four 1#32) [] :=
  ⟨by decide, ⟨rfl, rfl⟩, ⟨rfl, rfl⟩, rfl, rfl⟩

theorem witness_InterruptLine :
    (∃ t, NextCommand (commanded State.reset 0x01#32) 0x01#32 [] ∧ step (commanded State.reset 0x01#32) = .next t) ∧
    (∃ t, NextCommand (commanded State.reset 0x03#32) 0x03#32 [] ∧ step (commanded State.reset 0x03#32) = .next t) ∧
    (∃ t, NextEvent (awaiting State.reset (.write 0x020#28 .four 2#32)) (.write 0x020#28 .four 2#32) [] ∧
      (2#32).getLsbD 1 = true ∧ step (awaiting State.reset (.write 0x020#28 .four 2#32)) = .next t) ∧
    ∃ t, NextEvent (awaiting State.reset (.write 0x028#28 .four 4#32)) (.write 0x028#28 .four 4#32) [] ∧
      step (awaiting State.reset (.write 0x028#28 .four 4#32)) = .next t :=
  ⟨⟨_, ⟨rfl, rfl⟩, rfl⟩, ⟨_, ⟨rfl, rfl⟩, rfl⟩, ⟨_, ⟨rfl, rfl⟩, rfl, rfl⟩, _, ⟨rfl, rfl⟩, rfl⟩

/-- One command that ends well and one that raises: the premises of EveryCommandEndsDone, ResultsWrittenAsNamed,
ResourcesMovedByTheirCommands, RaiseRecordsError and ErrorCodesAsTabled. -/
theorem witness_EveryCommandEndsDone :
    (∃ t, exec .pqSize State.reset = .next t) ∧
    ∃ t, State.reset.status.err = false ∧ exec .rdBit State.reset = .next t ∧ t.status.err = true :=
  ⟨⟨_, rfl⟩, _, rfl, rfl, rfl⟩

theorem witness_RaiseRecordsError :
    ∃ t, State.reset.status.err = false ∧ exec .pqAt State.reset = .next t ∧ t.status.err = true := ⟨_, rfl, rfl, rfl⟩

theorem witness_ErrorCodesAsTabled :
    ∃ t, State.reset.status.err = false ∧ exec .hufBuild State.reset = .next t ∧ t.status.err = true := ⟨_, rfl, rfl, rfl⟩

theorem witness_ResultsWrittenAsNamed :
    ∃ t, exec .rdBit (withInput [0xB5#8]) = .next t ∧ t.res0 ≠ (withInput [0xB5#8]).res0 := by
  obtain ⟨t, ht, hp⟩ := ends_exists (o := exec .rdBit (withInput [0xB5#8])) (p := fun t => t.res0 == 1#32) (by decide +kernel)
  rw [beq_iff_eq] at hp
  exact ⟨t, ht, by rw [hp]; decide⟩

theorem witness_ResourcesMovedByTheirCommands :
    ∃ t, exec (.pqOffer true) State.reset = .next t ∧ t.pq ≠ State.reset.pq := by
  obtain ⟨t, ht, hp⟩ := ends_exists (o := exec (.pqOffer true) State.reset) (p := fun t => t.pq.size == 1#10) (by decide +kernel)
  rw [beq_iff_eq] at hp
  exact ⟨t, ht, fun e => by rw [e] at hp; exact absurd hp (by decide)⟩

theorem witness_SentinelsAreNotErrors :
    (∃ t, (withInput []).status.eos = false ∧ exec .rdBit (withInput []) = .next t ∧ t.status.eos = true) ∧
    ∃ t, State.reset.status.empty = false ∧ exec .pqPoll State.reset = .next t ∧ t.status.empty = true :=
  ⟨⟨_, rfl, rfl, rfl⟩, _, rfl, rfl, rfl⟩

theorem witness_ControlRegister :
    NextEvent (awaiting State.reset (.write 0x028#28 .four 0xFFFFFFFF#32)) (.write 0x028#28 .four 0xFFFFFFFF#32) [] ∧
    (∃ t, exec .nop State.reset = .next t) ∧ (∃ t, exec .sreset State.reset = .next t) ∧
    (.lzwRead ∈ inputCommands ∧ State.reset.ctrl.inEn = false) ∧
    (.hufExpand ∈ outputCommands ∧ State.reset.ctrl.outEn = false) :=
  ⟨⟨rfl, rfl⟩, ⟨_, rfl⟩, ⟨_, rfl⟩, ⟨by decide, rfl⟩, by decide, rfl⟩

theorem witness_CommandsStoreWhereTheySay :
    ∃ t, InputOk (withOperands (withInput []) 0x41#32 0#32) ∧ OutputOk (withOperands (withInput []) 0x41#32 0#32) ∧
      exec .wrByte (withOperands (withInput []) 0x41#32 0#32) = .next t ∧ t.mem.cells ≠ [] := by
  obtain ⟨t, ht, hp⟩ := ends_exists (o := exec .wrByte (withOperands (withInput []) 0x41#32 0#32))
    (p := fun t => t.mem.cells == [(outBase, 0x41#8)]) (by decide +kernel)
  rw [beq_iff_eq] at hp
  exact ⟨t, by decide, by decide, ht, by rw [hp]; simp⟩

/-! The reader -/

theorem witness_BitReads :
    State.reset.ctrl.inEn = false ∧
    ((withOperands (withInput []) 32#32 0#32).ctrl.inEn = true ∧ 31 < (withOperands (withInput []) 32#32 0#32).a0.toNat) ∧
    (let s := withOperands (withInput [0xB5#8, 1#8, 2#8]) 31#32 0#32
     s.ctrl.inEn = true ∧ InputOk s ∧ (inputBits s).length < s.a0.toNat ∧ s.a0.toNat ≤ 31) ∧
    (let s := withOperands (withInput [0xB5#8, 1#8, 2#8, 3#8]) 31#32 0#32
     s.ctrl.inEn = true ∧ InputOk s ∧ s.a0.toNat ≤ (inputBits s).length) ∧
    (let s := withInput [0xB5#8]
     s.ctrl.inEn = true ∧ InputOk s ∧ (inputBits s).length = 8) := by
  refine ⟨rfl, ⟨rfl, by decide⟩, ⟨rfl, by decide, by decide +kernel, by decide⟩, ⟨rfl, by decide, by decide +kernel⟩, rfl,
    by decide, by decide +kernel⟩

theorem witness_ByteRangeRead :
    State.reset.ctrl.inEn = false ∧
    (let s := withOperands (withInput [1#8]) 1#32 4096#32
     s.ctrl.inEn = true ∧ s.cfg.scrCap < s.a0.toNat + s.a1.toNat) ∧
    (let s := withOperands { withInput [1#8] with inp := { len := 1#32, pos := 1#32, buf := 1#8, nbits := 7#4 } } 0#32 4096#32
     s.ctrl.inEn = true ∧ s.a0.toNat + s.a1.toNat ≤ s.cfg.scrCap ∧ s.inp.nbits ≠ 0#4) ∧
    (let s := withOperands (withInput [1#8]) 4096#32 0#32
     s.ctrl.inEn = true ∧ s.a0.toNat + s.a1.toNat ≤ s.cfg.scrCap ∧ s.inp.nbits = 0#4 ∧ s.a1 = 0#32) ∧
    (let s := withOperands (withInput []) 4095#32 1#32
     s.ctrl.inEn = true ∧ s.a0.toNat + s.a1.toNat ≤ s.cfg.scrCap ∧ s.inp.nbits = 0#4 ∧ s.a1 ≠ 0#32 ∧ InputOk s ∧
       s.inp.pos = s.inp.len) ∧
    (let s := withOperands (withInput [1#8]) 4095#32 1#32
     s.ctrl.inEn = true ∧ s.a0.toNat + s.a1.toNat ≤ s.cfg.scrCap ∧ s.inp.nbits = 0#4 ∧ s.a1 ≠ 0#32 ∧ InputOk s ∧
       s.inp.pos ≠ s.inp.len) := by
  refine ⟨rfl, by decide, by decide, by decide, by decide, by decide⟩

theorem witness_VarintRead :
    (let s := withInput [0xAC#8, 0x02#8]
     s.ctrl.inEn = true ∧ InputOk s ∧ inputBits s = bytesBits [0xAC, 0x02] ++ [] ∧ IsVarint [0xAC, 0x02]) ∧
    (let s := withInput [0xAC#8]
     InputOk s ∧ inputBits s = bytesBits [0xAC] ++ [] ∧ (∀ b ∈ [0xAC], 128 ≤ b ∧ b < 256) ∧ [0xAC].length ≤ 4 ∧
       ([] : List Bool).length < 8) ∧
    (let s := withInput [0xFF#8, 0xFF#8, 0xFF#8, 0xFF#8, 0x08#8]
     InputOk s ∧ inputBits s = bytesBits ([0xFF, 0xFF, 0xFF, 0xFF] ++ [0x08]) ++ [] ∧
       (∀ b ∈ [0xFF, 0xFF, 0xFF, 0xFF], 128 ≤ b ∧ b < 256) ∧ 7 < 0x08 % 128) ∧
    IsVarint [0xFF, 0xFF, 0xFF, 0xFF, 0x07] := by decide +kernel

theorem witness_LengthAndReset : State.reset.ctrl.inEn = false ∧ (withInput [1#8]).ctrl.inEn = true := ⟨rfl, rfl⟩

/-! The writer -/

/-- A machine whose output has room for `7` bits only. -/
def nearlyFull : State := { withInput [] with
  cfg := { Config.Params.default with outCap := 1 }, out := { len := 1#32, buf := 0#8, nbits := 0#3 } }

theorem witness_BitWrites :
    State.reset.ctrl.outEn = false ∧
    ((withInput []).ctrl.outEn = true ∧ 1 < (withOperands (withInput []) 2#32 0#32).a0.toNat ∧
      2 ^ (withOperands (withInput []) 3#32 8#32).a0.toNat ≤ (withOperands (withInput []) 3#32 8#32).a1.toNat ∧
      255 < (withOperands (withInput []) 256#32 0#32).a0.toNat) ∧
    (let s := withOperands (withInput []) 31#32 0x7FFFFFFF#32
     OutputOk s ∧ s.a0.toNat ≤ 31 ∧ s.a1.toNat < 2 ^ s.a0.toNat ∧ s.a0.toNat ≤ room s) ∧
    (let s := withOperands nearlyFull 255#32 0#32
     OutputOk s ∧ s.ctrl.outEn = true ∧ s.a0.toNat ≤ 255 ∧ room s < 8) := by
  refine ⟨rfl, by decide, by decide, by decide⟩

theorem witness_ByteRangeWrite :
    State.reset.ctrl.outEn = false ∧
    (let s := withOperands (withInput []) 1#32 4096#32
     s.ctrl.outEn = true ∧ s.cfg.scrCap < s.a0.toNat + s.a1.toNat) ∧
    (let s := withOperands { withInput [] with out := { len := 0#32, buf := 0#8, nbits := 1#3 } } 0#32 4096#32
     s.ctrl.outEn = true ∧ s.a0.toNat + s.a1.toNat ≤ s.cfg.scrCap ∧ s.out.nbits ≠ 0#3) ∧
    (let s := withOperands nearlyFull 0#32 1#32
     s.ctrl.outEn = true ∧ s.a0.toNat + s.a1.toNat ≤ s.cfg.scrCap ∧ s.out.nbits = 0#3 ∧
       s.cfg.outCap < s.out.len.toNat + s.a1.toNat) ∧
    (let s := withOperands (withInput []) 0#32 4096#32
     s.ctrl.outEn = true ∧ s.a0.toNat + s.a1.toNat ≤ s.cfg.scrCap ∧ s.out.nbits = 0#3 ∧
       s.out.len.toNat + s.a1.toNat ≤ s.cfg.outCap ∧ s.cfg.legal) := by
  refine ⟨rfl, by decide, by decide, by decide, by decide⟩

theorem witness_VarintWrite :
    State.reset.ctrl.outEn = false ∧
    (let s := withOperands (withInput []) 0x80000000#32 0#32
     s.ctrl.outEn = true ∧ 2 ^ 31 ≤ s.a0.toNat) ∧
    (let s := withOperands (withInput []) 0x7FFFFFFF#32 0#32
     s.ctrl.outEn = true ∧ s.a0.toNat < 2 ^ 31 ∧ OutputOk s ∧ 8 * 5 ≤ room s) ∧
    (let s := withOperands nearlyFull 0#32 0#32
     s.ctrl.outEn = true ∧ s.a0.toNat < 2 ^ 31 ∧ OutputOk s ∧ room s < 8 * 1) := by
  refine ⟨rfl, by decide, by decide, by decide⟩

theorem witness_FlushPads :
    State.reset.ctrl.outEn = false ∧
    ((withInput []).ctrl.outEn = true ∧ (withInput []).out.nbits = 0#3) ∧
    (let s := { nearlyFull with out := { len := 1#32, buf := 1#8, nbits := 1#3 } }
     s.ctrl.outEn = true ∧ s.out.nbits ≠ 0#3 ∧ s.out.len.toNat = s.cfg.outCap) ∧
    (let s := { nearlyFull with out := { len := 0#32, buf := 0x7F#8, nbits := 7#3 } }
     s.ctrl.outEn = true ∧ s.out.nbits ≠ 0#3 ∧ s.out.len.toNat < s.cfg.outCap ∧ OutputOk s) := by
  refine ⟨rfl, ⟨rfl, rfl⟩, by decide, by decide⟩

/-! The queue -/

theorem witness_QueueConstruction :
    (let s := withOperands State.reset 1#32 1#32
     s.a1 = 1#32 ∧ s.cfg.extCmpPresent = false) ∧
    1 < (withOperands State.reset 1#32 2#32).a1.toNat ∧
    (let s := withOperands State.reset 0#32 0#32
     s.a1 = 0#32 ∧ s.a0.toInt ≤ 0) ∧
    (let s := withOperands State.reset 1024#32 0#32
     s.a1 = 0#32 ∧ 0 < s.a0.toInt ∧ 1023 < s.a0.toNat) ∧
    (let s := withOperands { State.reset with cfg := { Config.Params.default with extCmpPresent := true } } 1023#32 1#32
     s.a1 = 1#32 ∧ s.cfg.extCmpPresent = true ∧ 0 < s.a0.toInt ∧ s.a0.toNat ≤ 1023) := by
  refine ⟨by decide, by decide, by decide, by decide, by decide⟩

/-- A queue of `n` live entries and capacity `cap`. -/
def sizedQueue (n cap : BitVec 10) : State := { State.reset with pq := { Queue.reset with size := n, cap := cap } }

theorem witness_OfferPlacesEntry :
    ((sizedQueue 512#10 512#10).pq.size = (sizedQueue 512#10 512#10).pq.cap ∧
      1023 < 2 * (sizedQueue 512#10 512#10).pq.cap.toNat + 1) ∧
    (QueueOk (sizedQueue 511#10 511#10).pq ∧ 2 * (sizedQueue 511#10 511#10).pq.cap.toNat + 1 ≤ 1023) ∧
    (QueueOk (sizedQueue 1022#10 1023#10).pq ∧ (sizedQueue 1022#10 1023#10).pq.size ≠ (sizedQueue 1022#10 1023#10).pq.cap) := by
  decide

theorem witness_PollReplacesRoot :
    State.reset.pq.size = 0#10 ∧ (sizedQueue 1#10 1#10).pq.size ≠ 0#10 ∧ (sizedQueue 1023#10 1023#10).pq.size ≠ 0#10 := by
  decide

theorem witness_QueueReads :
    State.reset.pq.size = 0#10 ∧ (sizedQueue 1#10 1#10).pq.size ≠ 0#10 ∧
    (withOperands State.reset 0#32 0#32).a0.toNat < 1 ∧
    (sizedQueue 1#10 1#10).pq.size.toNat < (withOperands (sizedQueue 1#10 1#10) 2#32 0#32).a0.toNat ∧
    (1 ≤ (withOperands (sizedQueue 1#10 1#10) 1#32 0#32).a0.toNat ∧
      (withOperands (sizedQueue 1#10 1#10) 1#32 0#32).a0.toNat ≤ (sizedQueue 1#10 1#10).pq.size.toNat) := by decide

theorem strictWeak_natural : StrictWeak false := fun x y z => by
  simp only [entryLt, Bool.false_eq_true, if_false, BitVec.slt, decide_eq_true_eq, decide_eq_false_iff_not]
  omega

theorem witness_QueueHoldsAMultiset :
    (∃ t, QueueOk State.reset.pq ∧ exec (.pqOffer true) State.reset = .next t ∧ t.status.err = false) ∧
    ∃ t, QueueOk (sizedQueue 1#10 1#10).pq ∧ exec .pqPoll (sizedQueue 1#10 1#10) = .next t ∧
      (sizedQueue 1#10 1#10).pq.size ≠ 0#10 ∧ StrictWeak (sizedQueue 1#10 1#10).pq.external ∧
      HeapOrdered (sizedQueue 1#10 1#10).pq := by
  obtain ⟨t, ht, hp⟩ := ends_exists (o := exec (.pqOffer true) State.reset) (p := fun t => t.status.err == false)
    (by decide +kernel)
  obtain ⟨u, hu, -⟩ := ends_exists (o := exec .pqPoll (sizedQueue 1#10 1#10)) (p := fun _ => true) (by decide +kernel)
  refine ⟨⟨t, by decide, ht, by simpa using hp⟩, u, by decide, hu, by decide, strictWeak_natural, fun i hi hj => ?_⟩
  simp only [sizedQueue] at hj
  exact absurd hj (by decide +revert)

/-! The frequency table and the tree -/

theorem witness_FrequencyTableCommands :
    255 < (withOperands State.reset 256#32 0#32).a0.toNat ∧ 2 ^ 31 ≤ (withOperands State.reset 0#32 0x80000000#32).a1.toNat ∧
    (let s := withOperands State.reset 255#32 0x7FFFFFFF#32
     s.a0.toNat ≤ 255 ∧ s.a1.toNat < 2 ^ 31) := by decide

theorem witness_ScanCountsInput :
    State.reset.ctrl.inEn = false ∧ (withInput [0x61#8]).ctrl.inEn = true ∧ InputOk (withInput [0x61#8]) := by decide

/-- A supplied table whose counts add up to `2^31 + x − 1` for symbols 0 and 255. -/
def heavyTable (x : Word) : State := { State.reset with
  freq := setFreq (setFreq emptyFreq 0 0x7FFFFFFF#32) 255 x }

theorem witness_BuildMakesTree :
    State.reset.freq.valid = false ∧
    (let s := { State.reset with freq := emptyFreq }
     s.freq.valid = true ∧ ∀ sym, sym < 256 → freqAt s.freq sym = 0#32) ∧
    ((heavyTable 1#32).freq.valid = true ∧ 2 ^ 31 - 1 < totalFreq (heavyTable 1#32).freq) ∧
    ((heavyTable 0#32).freq.valid = true ∧ (∃ sym, sym < 256 ∧ freqAt (heavyTable 0#32).freq sym ≠ 0#32) ∧
      totalFreq (heavyTable 0#32).freq ≤ 2 ^ 31 - 1) :=
  ⟨rfl, ⟨rfl, fun sym h => (Laws.fileGet_replicate (n := 256) sym 0#32 0#32).trans (if_pos h)⟩, ⟨rfl, by decide +kernel⟩, rfl, ⟨0, by decide, by decide +kernel⟩, by decide +kernel⟩

/-- The tree of R129's example. -/
def treeAb : HTree := .node (.leaf 0x61#8) (.leaf 0x62#8)

/-- What makes a code hold treeAb, as conditions a closed term can be checked for. -/
def holdsTreeAb (c : Code) : Bool :=
  c.valid && c.root == 2#9 && c.count == 3#10 &&
    nodeOf c 0 == some { leaf := true, sym := 0x61#8, freq := 1#32, left := 0x1FF#9, right := 0x1FF#9, parent := 2#9 } &&
    nodeOf c 1 == some { leaf := true, sym := 0x62#8, freq := 1#32, left := 0x1FF#9, right := 0x1FF#9, parent := 2#9 } &&
    nodeOf c 2 == some { leaf := false, sym := 0#8, freq := 2#32, left := 0#9, right := 1#9, parent := 0x1FF#9 } &&
    (List.range 256).all fun sym =>
      leafAt c sym == (if sym = 0x61 then 0#9 else if sym = 0x62 then 1#9 else 0x1FF#9)

theorem holdsTree_of_holdsTreeAb {c : Code} (h : holdsTreeAb c = true) : HoldsTree c treeAb := by
  simp only [holdsTreeAb, Bool.and_eq_true, beq_iff_eq, List.all_eq_true, List.mem_range] at h
  obtain ⟨⟨⟨⟨⟨⟨hv, hr⟩, hc⟩, h0⟩, h1⟩, h2⟩, hl⟩ := h
  refine ⟨hv, ?_, by rw [hc]; rfl, by decide, fun sym => ?_⟩
  · rw [hr]
    exact ⟨_, h2, rfl, rfl, by decide, ⟨_, h0, rfl, rfl, rfl, rfl, rfl⟩, _, h1, rfl, rfl, rfl, rfl, rfl⟩
  · have hs := hl sym.toNat sym.isLt
    by_cases ha : sym = 0x61#8
    · subst ha
      have hs : leafAt c 97 = 0#9 := hs
      simp only [BitVec.toNat_ofNat, Nat.reducePow, Nat.reduceMod, hs]
      exact ⟨by decide, fun _ => ⟨[false], by simp [follow, hr, h2], rfl⟩⟩
    · by_cases hb : sym = 0x62#8
      · subst hb
        have hs : leafAt c 98 = 1#9 := hs
        simp only [BitVec.toNat_ofNat, Nat.reducePow, Nat.reduceMod, hs]
        exact ⟨by decide, fun _ => ⟨[true], by simp [follow, hr, h2], rfl⟩⟩
      · have h1 : sym.toNat ≠ 0x61 := fun e => ha (BitVec.eq_of_toNat_eq e)
        have h2 : sym.toNat ≠ 0x62 := fun e => hb (BitVec.eq_of_toNat_eq e)
        rw [if_neg h1, if_neg h2] at hs
        refine ⟨?_, fun h => absurd hs h⟩
        simp only [hs, treeAb, HTree.symbols, List.mem_append, List.mem_singleton, ha, hb, or_self, ne_eq,
          not_true_eq_false]

theorem builtAb_holds : HoldsTree builtAb.code treeAb := holdsTree_of_holdsTreeAb (by decide +kernel)

theorem witness_BuildIsOptimal :
    ∃ (t : State) (U : HTree), scannedAb.freq.valid = true ∧ (∃ sym, sym < 256 ∧ freqAt scannedAb.freq sym ≠ 0#32) ∧
      totalFreq scannedAb.freq ≤ 2 ^ 31 - 1 ∧ exec .hufBuild scannedAb = .next t ∧ HoldsTree t.code treeAb ∧
      U.symbols.Perm treeAb.symbols := by
  obtain ⟨t, ht, hp⟩ := ends_exists (o := exec .hufBuild scannedAb) (p := fun t => holdsTreeAb t.code) (by decide +kernel)
  exact ⟨t, .node (.leaf 0x62#8) (.leaf 0x61#8), rfl, ⟨0x61, by decide, by decide +kernel⟩, by decide +kernel, ht,
    holdsTree_of_holdsTreeAb hp, List.Perm.swap _ _ _⟩

theorem witness_NodeAndLeafReads :
    (withOperands builtAb 3#32 0#32).code.count.toNat ≤ (withOperands builtAb 3#32 0#32).a0.toNat ∧
    ((withOperands builtAb 2#32 0#32).a0.toNat < (withOperands builtAb 2#32 0#32).code.count.toNat ∧
      builtAb.code.count.toNat ≤ 511) ∧
    State.reset.code.valid = false ∧
    (builtAb.code.valid = true ∧ 255 < (withOperands builtAb 256#32 0#32).a0.toNat) ∧
    (withOperands builtAb 255#32 0#32).a0.toNat ≤ 255 := by decide +kernel

/-! Header, encode, decode -/

theorem witness_HeaderWritten :
    State.reset.ctrl.outEn = false ∧ (withInput []).code.valid = false ∧
    (builtAb.ctrl.outEn = true ∧ OutputOk builtAb ∧ HoldsTree builtAb.code treeAb ∧ treeAb.header.length ≤ room builtAb) ∧
    (let s := { nearlyFull with code := builtAb.code }
     s.ctrl.outEn = true ∧ OutputOk s ∧ HoldsTree s.code treeAb ∧ room s < treeAb.header.length) :=
  ⟨rfl, rfl, ⟨by decide +kernel, by decide +kernel, builtAb_holds, by decide +kernel⟩, rfl, by decide, builtAb_holds, by decide⟩

theorem header_ne_nil (T : HTree) : T.header ≠ [] := by cases T <;> simp [HTree.header]

theorem witness_HeaderRead :
    State.reset.ctrl.inEn = false ∧
    (let s := withInput [0x98#8, 0x4C#8, 0x40#8]
     s.ctrl.inEn = true ∧ InputOk s ∧ inputBits s = treeAb.header ++ [false, false, false, false, false] ∧
       treeAb.symbols.length ≤ 256) ∧
    (let s := withInput []
     s.ctrl.inEn = true ∧ InputOk s ∧
       ∀ (T : HTree) (rest : List Bool), inputBits s = T.header ++ rest → 256 < T.symbols.length) :=
  ⟨rfl, ⟨rfl, by decide, by decide +kernel, by decide⟩, rfl, by decide, fun T rest h =>
    absurd (List.append_eq_nil_iff.mp (h.symm.trans (by decide +kernel))).1 (header_ne_nil T)⟩

theorem witness_EncodeWritesCodeword :
    State.reset.ctrl.outEn = false ∧ (withInput []).code.valid = false ∧
    (builtAb.ctrl.outEn = true ∧ builtAb.code.valid = true ∧ 255 < (withOperands builtAb 256#32 0#32).a0.toNat) ∧
    leafAt builtAb.code (withOperands builtAb 0x60#32 0#32).a0.toNat = 0x1FF#9 ∧
    (OutputOk builtAb ∧ (withOperands builtAb 0x61#32 0#32).a0.toNat ≤ 255 ∧
      leafAt builtAb.code (withOperands builtAb 0x61#32 0#32).a0.toNat ≠ 0x1FF#9 ∧ HoldsTree builtAb.code treeAb) :=
  ⟨rfl, rfl, by decide +kernel, by decide +kernel, by decide +kernel, by decide, by decide +kernel, builtAb_holds⟩

theorem witness_DecodeReadsCodeword :
    State.reset.ctrl.inEn = false ∧ (withInput []).code.valid = false ∧
    (builtAb.ctrl.inEn = true ∧ InputOk builtAb ∧ HoldsTree builtAb.code treeAb ∧
      ∃ rest, treeAb.decode (inputBits builtAb) = some (0x61#8, rest)) ∧
    (let s := { withInput [] with code := builtAb.code }
     s.ctrl.inEn = true ∧ InputOk s ∧ HoldsTree s.code treeAb ∧ treeAb.decode (inputBits s) = none) := by
  refine ⟨rfl, rfl, ⟨by decide +kernel, by decide +kernel, builtAb_holds, (inputBits builtAb).tail, by decide +kernel⟩, rfl,
    by decide, builtAb_holds, by decide +kernel⟩

/-! Compress and expand -/

/-- A reader and a writer on the given bytes, with room for one byte of output and the pending bits of a second. -/
def cramped (bytes : List Byte) : State := { withInput bytes with
  cfg := { Config.Params.default with outCap := 1 } }

theorem witness_CompressWritesStream :
    State.reset.ctrl.inEn = false ∧
    ((withInput []).ctrl.inEn = true ∧ (withInput []).ctrl.outEn = true ∧ (withInput []).inp.len = 0#32) ∧
    (let s := withInput [0x61#8, 0x62#8]
     s.ctrl.inEn = true ∧ s.ctrl.outEn = true ∧ s.inp.len ≠ 0#32 ∧ InputOk s ∧ OutputOk s) := by decide

/-- The overflow clause of CompressWritesStream: the 29 bits of R129's example do not fit in one byte and the pending bits of
a second, and the command ends so. -/
theorem witness_CompressWritesStream_overflow :
    (let s := cramped [0x61#8, 0x62#8]
     s.ctrl.inEn = true ∧ s.ctrl.outEn = true ∧ s.inp.len ≠ 0#32 ∧ InputOk s ∧ OutputOk s ∧
       8 * s.cfg.outCap < outputLength s + (treeAb.header ++ bytesBits [2] ++ [false, true]).length) ∧
    treeAb.encodeMany (byteSymbols (inputBytes (cramped [0x61#8, 0x62#8]) 0 2)) = some [false, true] ∧
    ends (exec .hufCompress (cramped [0x61#8, 0x62#8])) (fun t => t.status.errCode == 7#8 && holdsTreeAb t.code &&
      outputBits t == (treeAb.header ++ bytesBits [2] ++ [false, true]).take 15) = true := by
  refine ⟨by decide, by decide +kernel, by decide +kernel⟩

theorem witness_ExpandReadsStream :
    (withInput []).inp.len = 0#32 ∧
    (let s := withInput [0x98#8, 0x4C#8, 0x40#8, 0x48#8]
     s.ctrl.inEn = true ∧ s.ctrl.outEn = true ∧ s.inp.len ≠ 0#32 ∧ InputOk s ∧ OutputOk s ∧
       bytesBits (inputBytes s 0 s.inp.len.toNat) =
         treeAb.header ++ (bytesBits [2] ++ [false, true, false, false, false]) ∧
       treeAb.symbols.length ≤ 256 ∧ IsVarint [2] ∧
       treeAb.decodeMany (varintValue [2]) [false, true, false, false, false] =
         some ([0x61#8, 0x62#8], [false, false, false]) ∧
       outputLength s + 8 * 2 ≤ 8 * s.cfg.outCap) ∧
    (let s := { nearlyFull with inp := (withInput [0x98#8, 0x4C#8, 0x40#8, 0x48#8]).inp }
     OutputOk s ∧ 8 * s.cfg.outCap < outputLength s + 8 * 2) ∧
    (let s := withInput [0x98#8, 0x4C#8, 0x41#8, 0x80#8]
     InputOk s ∧ OutputOk s ∧
       bytesBits (inputBytes s 0 s.inp.len.toNat) =
         treeAb.header ++ (bytesBits [12] ++ [false, false, false, false, false]) ∧
       5 < varintValue [12] ∧
       treeAb.decodeMany 5 [false, false, false, false, false] = some ([0x61#8, 0x61#8, 0x61#8, 0x61#8, 0x61#8], []) ∧
       treeAb.decode [] = none ∧ 8 * 5 ≤ room s) :=
  ⟨rfl, ⟨rfl, rfl, by decide, by decide, by decide, by decide +kernel, by decide, by decide, by decide +kernel, by decide⟩,
    ⟨by decide, by decide⟩, by decide, by decide, by decide +kernel, by decide, by decide +kernel, rfl, by decide⟩

/-- A header has at least the 9 bits of one leaf (45_huffman_code.md R119). -/
theorem header_long (T : HTree) : 9 ≤ T.header.length := by
  induction T with
  | leaf sym => simp [HTree.header, bitsMSB]
  | node l r hl hr => simp [HTree.header]; omega

/-- The error clauses of ExpandReadsStream: no header (R125's example 80), a count cut short after one continuation byte, a
count above 2^31 − 1, and output that is full before a codeword is cut short. -/
theorem witness_ExpandReadsStream_errors :
    (let s := withInput [0x80#8]
     s.ctrl.inEn = true ∧ s.ctrl.outEn = true ∧ s.inp.len ≠ 0#32 ∧ InputOk s ∧ OutputOk s ∧
       ∀ (T : HTree) (rest : List Bool), bytesBits (inputBytes s 0 s.inp.len.toNat) = T.header ++ rest →
         256 < T.symbols.length) ∧
    (let s := withInput [0x98#8, 0x4C#8, 0x50#8, 0x00#8]
     s.inp.len ≠ 0#32 ∧ InputOk s ∧ OutputOk s ∧
       bytesBits (inputBytes s 0 s.inp.len.toNat) = treeAb.header ++ (bytesBits [128] ++ List.replicate 5 false)) ∧
    (let s := withInput [0x98#8, 0x4C#8, 0x50#8, 0x10#8, 0x10#8, 0x10#8, 0x01#8, 0x00#8]
     s.inp.len ≠ 0#32 ∧ InputOk s ∧ OutputOk s ∧
       bytesBits (inputBytes s 0 s.inp.len.toNat) =
         treeAb.header ++ (bytesBits ([128, 128, 128, 128] ++ [8]) ++ List.replicate 5 false) ∧ 7 < 8 % 128) ∧
    (let s := cramped [0x98#8, 0x4C#8, 0x41#8, 0x80#8]
     s.ctrl.inEn = true ∧ s.ctrl.outEn = true ∧ s.inp.len ≠ 0#32 ∧ InputOk s ∧ OutputOk s ∧
       bytesBits (inputBytes s 0 s.inp.len.toNat) =
         treeAb.header ++ (bytesBits [12] ++ [false, false, false, false, false]) ∧
       2 ≤ varintValue [12] ∧
       treeAb.decodeMany 2 [false, false, false, false, false] = some ([0x61#8, 0x61#8], [false, false, false]) ∧
       room s < 8 * 2 ∧ 8 * 2 ≤ room s + 8) := by
  refine ⟨⟨rfl, rfl, by decide, by decide, by decide, fun T rest h => ?_⟩, by decide +kernel, by decide +kernel,
    by decide +kernel⟩
  have hb : bytesBits (inputBytes (withInput [0x80#8]) 0 (withInput [0x80#8]).inp.len.toNat) =
      [true, false, false, false, false, false, false, false] := by decide +kernel
  have hl := congrArg List.length (hb.symm.trans h)
  have := header_long T
  simp at hl
  omega

theorem witness_ExpandInvertsCompress :
    ∃ t, InputOk (withInput [0x61#8, 0x62#8]) ∧ OutputOk (withInput [0x61#8, 0x62#8]) ∧
      exec .hufCompress (withInput [0x61#8, 0x62#8]) = .next t ∧ t.status.err = false ∧
      (let u := withInput [0x98#8, 0x4C#8, 0x40#8, 0x48#8]
       InputOk u ∧ OutputOk u ∧ u.ctrl.inEn = true ∧ u.ctrl.outEn = true ∧ u.out.len = 0#32 ∧ u.out.nbits = 0#3 ∧
         u.inp.len = t.out.len ∧ inputBytes u 0 u.inp.len.toNat = outputBytes t t.out.len.toNat ∧ 2 ≤ u.cfg.outCap) := by
  obtain ⟨t, ht, hp⟩ := ends_exists (o := exec .hufCompress (withInput [0x61#8, 0x62#8]))
    (p := fun t => t.status.err == false && t.out.len == 4#32 && outputBytes t 4 == [0x98, 0x4C, 0x40, 0x48]) (by decide +kernel)
  simp only [Bool.and_eq_true, beq_iff_eq] at hp
  obtain ⟨⟨he, hl⟩, hb⟩ := hp
  refine ⟨t, by decide, by decide, ht, he, by decide, by decide, rfl, rfl, rfl, rfl, by rw [hl]; rfl, ?_, by decide⟩
  rw [hl]
  exact (by decide +kernel : inputBytes (withInput [0x98#8, 0x4C#8, 0x40#8, 0x48#8]) 0 4 = [0x98, 0x4C, 0x40, 0x48]).trans hb.symm

/-! LZW codes -/

theorem witness_LzwConstruction :
    (withOperands State.reset 0x80000000#32 0#32).a0.toInt < 256 ∧ (withOperands State.reset 255#32 0#32).a0.toInt < 256 ∧
    256 ≤ (withOperands State.reset 256#32 0#32).a0.toInt := by decide

/-- A machine whose code writer and reader stand at table size `size`. -/
def lzwAt (s : State) (size : Word) : State := { s with
  lzw := { wsize := size, rsize := size, wValid := true, rValid := true } }

theorem width_32 : IsWidth (2 ^ 31 + 1) 32 := ⟨by decide, by decide⟩

theorem width_31 : IsWidth (2 ^ 31) 31 := ⟨by decide, by decide⟩

theorem width_9 : IsWidth 257 9 := ⟨by decide, by decide⟩

theorem witness_LzwCodeWrite :
    State.reset.ctrl.outEn = false ∧ (withInput []).lzw.wValid = false ∧
    (let s := lzwAt (withInput []) 0x80000001#32
     s.ctrl.outEn = true ∧ s.lzw.wValid = true ∧ IsWidth s.lzw.wsize.toNat 32) ∧
    (let s := lzwAt (withOperands (withInput []) 257#32 0#32) 257#32
     IsWidth s.lzw.wsize.toNat 9 ∧ s.lzw.wsize.toNat ≤ s.a0.toNat) ∧
    (let s := lzwAt (withOperands (withInput []) 0x7FFFFFFF#32 0#32) 0x80000000#32
     IsWidth s.lzw.wsize.toNat 31 ∧ s.a0.toNat < s.lzw.wsize.toNat ∧ OutputOk s ∧ 31 ≤ room s) ∧
    (let s := lzwAt (withOperands nearlyFull 256#32 0#32) 257#32
     IsWidth s.lzw.wsize.toNat 9 ∧ s.a0.toNat < s.lzw.wsize.toNat ∧ OutputOk s ∧ room s < 9) :=
  ⟨rfl, rfl, ⟨rfl, rfl, width_32⟩, ⟨width_9, by decide⟩, ⟨width_31, by decide, by decide, by decide⟩, width_9, by decide,
    by decide, by decide⟩

theorem witness_LzwCodeRead :
    State.reset.ctrl.inEn = false ∧ (withInput []).lzw.rValid = false ∧
    (let s := lzwAt (withInput []) 0x80000001#32
     s.ctrl.inEn = true ∧ s.lzw.rValid = true ∧ IsWidth s.lzw.rsize.toNat 32) ∧
    (let s := lzwAt (withInput [1#8]) 257#32
     IsWidth s.lzw.rsize.toNat 9 ∧ InputOk s ∧ (inputBits s).length < 9) ∧
    (let s := lzwAt (withInput [1#8, 2#8]) 257#32
     IsWidth s.lzw.rsize.toNat 9 ∧ InputOk s ∧ 9 ≤ (inputBits s).length) :=
  ⟨rfl, rfl, ⟨rfl, rfl, width_32⟩, ⟨width_9, by decide, by decide +kernel⟩, width_9, by decide, by decide +kernel⟩

/-! Invariants -/

/-- A machine that has built a code and whose host writes a word to CMD next. -/
def running (w : Word) : State := commanded builtAb w

theorem running_streamsLegal (w : Word) : StreamsLegal (running w) := by
  refine ⟨(by decide +kernel : builtAb.mem.wf), (by decide +kernel : InputOk builtAb),
    (by decide +kernel : OutputOk builtAb), fun sym => ?_⟩
  by_cases h : sym < 256
  · exact (by decide +kernel : ∀ sym, sym < 256 → (freqAt builtAb.freq sym).toNat < 2 ^ 31) sym h
  · have : freqAt (running w).freq sym = 0#32 := by simp [freqAt, fileGet, h]
    rw [this]; decide

theorem running_queueLegal (w : Word) : QueueLegal (running w) := by
  refine ⟨(by decide +kernel : QueueOk builtAb.pq), fun _ i hi hj => ?_⟩
  have : (running w).pq.size.toNat = 0 := (by decide +kernel : builtAb.pq.size.toNat = 0)
  omega

theorem running_codeOk (w : Word) : CodeOk (running w).code := 
  ⟨(by decide +kernel : builtAb.code.count.toNat ≤ Config.nodeCap), fun _ => ⟨treeAb, builtAb_holds⟩⟩

theorem witness_StreamsStayLegal : ∃ t, StreamsLegal (running 0x02#32) ∧ step (running 0x02#32) = .next t := by
  obtain ⟨t, ht, -⟩ := ends_exists (o := step (running 0x02#32)) (p := fun _ => true) (by decide +kernel)
  exact ⟨t, running_streamsLegal _, ht⟩

theorem witness_HeapOrderKept : ∃ t, QueueLegal (running 0x131#32) ∧ step (running 0x131#32) = .next t := by
  obtain ⟨t, ht, -⟩ := ends_exists (o := step (running 0x131#32)) (p := fun _ => true) (by decide +kernel)
  exact ⟨t, running_queueLegal _, ht⟩

theorem witness_CodeStaysATree : ∃ t, CodeOk (running 0x43#32).code ∧ step (running 0x43#32) = .next t := by
  obtain ⟨t, ht, -⟩ := ends_exists (o := step (running 0x43#32)) (p := fun _ => true) (by decide +kernel)
  exact ⟨t, running_codeOk _, ht⟩

theorem witness_StatusStaysLegal : ∃ t, StatusOk (commanded failedState 0x01#32) ∧ step (commanded failedState 0x01#32) = .next t :=
  ⟨_, by decide, rfl⟩

theorem witness_EveryCommandCompletes :
    StreamsLegal (running 0x4C#32) ∧ QueueLegal (running 0x4C#32) ∧ CodeOk (running 0x4C#32).code :=
  ⟨running_streamsLegal _, running_queueLegal _, running_codeOk _⟩

theorem witness_UnspecifiedContentsUnseen :
    ∃ s t, SameSeen s t ∧ QueueOk s.pq ∧ s ≠ t := by
  refine ⟨State.reset, { State.reset with dstack := { DStack.reset with dsp := 3#9 } },
    ⟨rfl, rfl, fun _ _ _ => rfl, rfl, fun _ => rfl, fun _ => rfl⟩, by decide, fun e => ?_⟩
  have := congrArg (fun s => s.dstack.dsp) e
  exact absurd this (by decide)

theorem witness_UnreadInputUnseen :
    ∃ t s', InputOk (withInput [0xB5#8]) ∧
      (∀ a, a = inBase + 1 → inBase ≤ a ∧ a < outBase ∧ inBase + (withInput [0xB5#8]).inp.len.toNat ≤ a) ∧
      SameBut (fun a => a = inBase + 1) (withInput [0xB5#8]) t ∧ t.mem ≠ (withInput [0xB5#8]).mem ∧
      exec .rdBit (withInput [0xB5#8]) = .next s' := by
  obtain ⟨u, hu, -⟩ := ends_exists (o := exec .rdBit (withInput [0xB5#8])) (p := fun _ => true) (by decide +kernel)
  refine ⟨{ withInput [0xB5#8] with mem := (withInput [0xB5#8]).mem.write (inBase + 1) 7#8 }, u, by decide,
    fun a ha => by subst ha; decide, ⟨rfl, fun a ha => ?_⟩, by decide +kernel, hu⟩
  show ((withInput [0xB5#8]).mem.write (inBase + 1) 7#8).read a = (withInput [0xB5#8]).mem.read a
  rw [Laws.read_write_ne _ _ ha]

/-! The merge -/

theorem witness_BuildMergesInOrder :
    (heavyTable 0#32).freq.valid = true ∧ (∃ sym, sym < 256 ∧ freqAt (heavyTable 0#32).freq sym ≠ 0#32) ∧
    totalFreq (heavyTable 0#32).freq ≤ 2 ^ 31 - 1 ∧ 2 ≤ (tableSymbols scannedAb.freq).length ∧
    scannedAb.freq.valid = true ∧ totalFreq scannedAb.freq ≤ 2 ^ 31 - 1 :=
  ⟨rfl, ⟨0, by decide, by decide +kernel⟩, by decide +kernel, by decide +kernel, rfl, by decide +kernel⟩

end Sys2Proof.Tests
end

/-! PROOFS. What a command and a step can do: one body per command, one list of the parts it can change, one list of
everything a step can answer, and how a primitive's run is reasoned about. -/

namespace Sys2Proof.Proofs

open Sys2Proof Sys2Proof.Machine Sys2Proof.Safety Sys2Proof.Laws

/-! ### The body and the footprint of every command -/

/-- The body of each command of the opcode map (30_encoding.md R65). -/
def bodyOf (i : Instr) : Op Unit :=
  match i with
  | .nop => opNop
  | .clrErr => opClrErr
  | .sreset => opSreset
  | .rdBit => opRdBit
  | .rdBits => opRdBits
  | .rdByte => opRdByte
  | .rdBytes => opRdBytes
  | .rdInt => opRdInt
  | .inLength => opInLength
  | .inReset => opInReset
  | .wrBit => opWrBit
  | .wrBits => opWrBits
  | .wrByte => opWrByte
  | .wrBytes => opWrBytes
  | .wrInt => opWrInt
  | .wrFlush => opWrFlush
  | .pqInit => opPqInit
  | .pqOffer present => opPqOffer present
  | .pqPoll => opPqPoll
  | .pqPeek => opPqPeek
  | .pqSize => opPqSize
  | .pqAt => opPqAt
  | .freqClear => opFreqClear
  | .freqSet => opFreqSet
  | .freqScan => opFreqScan
  | .hufBuild => opHufBuild
  | .hufNode => opHufNode
  | .hufLeaf => opHufLeaf
  | .hufWrhdr => opHufWrhdr
  | .hufRdhdr => opHufRdhdr
  | .hufEnc => opHufEnc
  | .hufDec => opHufDec
  | .hufCompress => opHufCompress
  | .hufExpand => opHufExpand
  | .lzwWinit => opLzwWinit
  | .lzwWrite => opLzwWrite
  | .lzwRinit => opLzwRinit
  | .lzwRead => opLzwRead

/-- A command's meaning is its body, run to its end. -/
theorem exec_eq (i : Instr) (s : State) : exec i s = command (bodyOf i) s := by cases i <;> rfl

/-- The parts of the state the body of a command can change (10_state.md R20, 70_reset_and_hazards.md R158). -/
def bodyParts (i : Instr) : List Part :=
  match i with
  | .nop => []
  | .clrErr => [.status, .errInfo]
  | .sreset =>
    [.args, .res0, .res1, .res2, .lastCmd, .cmdCnt, .status, .errInfo, .ctrl, .inp, .out, .pq, .freq, .code, .dstack, .lzw]
  | .rdBit | .rdBits | .rdByte => [.inp, .res0, .status]
  | .rdBytes => [.inp, .res0, .status, .mem]
  | .rdInt => [.inp, .res0]
  | .inLength => [.res0]
  | .inReset => [.inp]
  | .wrBit | .wrBits | .wrByte | .wrBytes | .wrInt | .wrFlush | .hufWrhdr | .hufEnc => [.out, .mem]
  | .pqInit | .pqOffer _ => [.pq]
  | .pqPoll => [.pq, .res0, .res1, .status]
  | .pqPeek => [.res0, .res1, .status]
  | .pqSize => [.res0]
  | .pqAt => [.res0, .res1]
  | .freqClear | .freqSet => [.freq]
  | .freqScan => [.inp, .freq]
  | .hufBuild => [.pq, .code]
  | .hufNode => [.res0, .res1, .res2]
  | .hufLeaf => [.res0]
  | .hufRdhdr => [.inp, .code, .dstack]
  | .hufDec => [.inp, .res0]
  | .hufCompress => [.inp, .out, .mem, .freq, .code, .pq]
  | .hufExpand => [.inp, .out, .mem, .code, .dstack]
  | .lzwWinit | .lzwRinit => [.lzw]
  | .lzwWrite => [.out, .mem, .lzw]
  | .lzwRead => [.inp, .res0, .status, .lzw]

section
open Footprint

variable {τ : List Part}

theorem operand0_footprint : Footprint τ operand0 := fun s => Within.refl τ s

theorem operand1_footprint : Footprint τ operand1 := fun s => Within.refl τ s

theorem signedOperand0_footprint : Footprint τ signedOperand0 := fun s => Within.refl τ s

theorem needReader_footprint : Footprint τ needReader := ofBind ofGet fun _ => ofRequire _ _

theorem needWriter_footprint : Footprint τ needWriter := ofBind ofGet fun _ => ofRequire _ _

theorem needCode_footprint : Footprint τ needCode := ofBind ofGet fun _ => ofRequire _ _

theorem setRes0_footprint (v : Word) : Footprint [.res0] (setRes0 v) := ofModify fun s => within_res0 s v

theorem setResEntry_footprint (e : Entry) : Footprint [.res0, .res1] (setResEntry e) := fun s =>
  within_of (by simp [sameFixed]) fun p => by cases p <;> simp [samePart]

theorem endOfStream_footprint : Footprint [.res0, .status] endOfStream := ofModify fun s =>
  within_of (by simp [sameFixed]) fun p => by cases p <;> simp [samePart]

theorem emptyQueue_footprint : Footprint [.res0, .res1, .status] emptyQueue := ofModify fun s =>
  within_of (by simp [sameFixed]) fun p => by cases p <;> simp [samePart]

theorem readOrEos_footprint {n : Nat} {after : Op Unit} (h : Footprint τ after) (hs : [.inp, .res0, .status] ⊆ τ) :
    Footprint τ (readOrEos n after) :=
  ofBind bitsLeft_footprint fun _ => ofIte _ (endOfStream_footprint.mono (by simp_all)) <|
    ofBind ((getBits_footprint n).mono (by simp_all)) fun v => ofBind ((setRes0_footprint _).mono (by simp_all)) fun _ => h

theorem moveInput_footprint (off k : Nat) : Footprint [.inp, .res0, .mem] (moveInput off k) :=
  ofBind ofGet fun s => ofBind ((copyInput_footprint k _ _).mono (by simp)) fun _ =>
    ofBind (inByte_footprint _) fun b => ofBind (ofModify fun t => (within_inp t _).mono (by simp)) fun _ =>
      (setRes0_footprint _).mono (by simp)

theorem opRdBytes_footprint : Footprint [.inp, .res0, .status, .mem] opRdBytes :=
  ofBind needReader_footprint fun _ => ofBind operand0_footprint fun _ => ofBind operand1_footprint fun _ =>
    ofBind ofGet fun _ => ofBind (ofRequire _ _) fun _ => ofBind (ofRequire _ _) fun _ =>
      ofIte _ ((setRes0_footprint _).mono (by simp)) <|
        ofIte _ (endOfStream_footprint.mono (by simp)) ((moveInput_footprint _ _).mono (by simp))

theorem opWrBits_footprint : Footprint [.out, .mem] opWrBits :=
  ofBind needWriter_footprint fun _ => ofBind operand0_footprint fun _ => ofBind operand1_footprint fun _ =>
    ofBind (ofRequire _ _) fun _ => ofBind (ofRequire _ _) fun _ => putBits_footprint _ _

theorem opWrBytes_footprint : Footprint [.out, .mem] opWrBytes :=
  ofBind needWriter_footprint fun _ => ofBind operand0_footprint fun _ => ofBind operand1_footprint fun _ =>
    ofBind ofGet fun _ => ofBind (ofRequire _ _) fun _ => ofBind (ofRequire _ _) fun _ => ofBind (ofRequire _ _) fun _ =>
      ofBind ((copyOutput_footprint _ _ _).mono (by simp)) fun _ => ofModify fun s => (within_out s _).mono (by simp)

/-- A check changes nothing. -/
theorem within_require_bind {α : Type} {p : Prop} [Decidable p] {c : ErrCode} {f : Unit → Op α} {s : State}
    (h : Within τ s (resultState (f () s))) : Within τ s (resultState ((require p c >>= f) s)) := by
  rw [op_bind, require_run]
  by_cases hp : p
  · rw [if_pos hp]; exact h
  · rw [if_neg hp]; exact Within.refl τ s

theorem opPqInit_footprint : Footprint [.pq] opPqInit :=
  ofBind operand0_footprint fun _ => ofBind signedOperand0_footprint fun _ => ofBind operand1_footprint fun _ =>
    ofGetBind fun s => within_require_bind <| within_require_bind <| within_require_bind <| within_require_bind <|
      within_pq s _

theorem opPqPoll_footprint : Footprint [.pq, .res0, .res1, .status] opPqPoll :=
  ofBind ofGet fun _ => ofIte _ (emptyQueue_footprint.mono (by simp)) <|
    ofBind (pollMin_footprint.mono (by simp)) fun _ => (setResEntry_footprint _).mono (by simp)

theorem opHufNode_footprint : Footprint [.res0, .res1, .res2] opHufNode :=
  ofBind operand0_footprint fun _ => ofBind ofGet fun _ => ofBind (ofRequire _ _) fun _ =>
    ofBind (nodeAt_footprint _) fun nd => fun s =>
      within_of (by simp [sameFixed]) fun p => by cases p <;> simp [samePart]

theorem opHufEnc_footprint : Footprint [.out, .mem] opHufEnc :=
  ofBind needWriter_footprint fun _ => ofBind needCode_footprint fun _ => ofBind operand0_footprint fun _ =>
    ofBind (ofRequire _ _) fun _ => ofBind ofGet fun _ => ofBind (ofRequire _ _) fun _ => encodeSym_footprint _

theorem opLzwWrite_footprint : Footprint [.out, .mem, .lzw] opLzwWrite :=
  ofBind needWriter_footprint fun _ => ofBind ofGet fun _ => ofBind (ofRequire _ _) fun _ =>
    ofBind (ofRequire _ _) fun _ => ofBind operand0_footprint fun _ => ofBind (ofRequire _ _) fun _ =>
      ofBind ((putBits_footprint _ _).mono (by simp)) fun _ => ofModify fun s => (within_lzw s _).mono (by simp)

theorem opLzwRead_footprint : Footprint [.inp, .res0, .status, .lzw] opLzwRead :=
  ofBind needReader_footprint fun _ => ofBind ofGet fun _ => ofBind (ofRequire _ _) fun _ =>
    ofBind (ofRequire _ _) fun _ =>
      readOrEos_footprint (ofModify fun s => (within_lzw s _).mono (by simp)) (by simp)

/-- The body of a command changes at most the parts listed for it, however it ends. -/
theorem bodyOf_footprint (i : Instr) : Footprint (bodyParts i) (bodyOf i) := by
  cases i with
  | nop => exact ofPure _
  | clrErr => exact ofModify fun s => within_of (by simp [sameFixed]) fun p => by cases p <;> simp [samePart, bodyParts]
  | sreset => exact ofModify fun s => within_of (by simp [sameFixed]) fun p => by cases p <;> simp [samePart, bodyParts]
  | rdBit => exact ofBind needReader_footprint fun _ => readOrEos_footprint (ofPure _) (by simp [bodyParts])
  | rdBits =>
    exact ofBind needReader_footprint fun _ => ofBind operand0_footprint fun _ => ofBind (ofRequire _ _) fun _ =>
      readOrEos_footprint (ofPure _) (by simp [bodyParts])
  | rdByte => exact ofBind needReader_footprint fun _ => readOrEos_footprint (ofPure _) (by simp [bodyParts])
  | rdBytes => exact opRdBytes_footprint
  | rdInt =>
    exact ofBind needReader_footprint fun _ => ofBind (readVarint_footprint.mono (by simp [bodyParts])) fun _ =>
      (setRes0_footprint _).mono (by simp [bodyParts])
  | inLength => exact ofBind needReader_footprint fun _ => ofBind ofGet fun _ => setRes0_footprint _
  | inReset => exact ofBind needReader_footprint fun _ => inReset_footprint
  | wrBit =>
    exact ofBind needWriter_footprint fun _ => ofBind operand0_footprint fun _ => ofBind (ofRequire _ _) fun _ =>
      putBit_footprint _
  | wrBits => exact opWrBits_footprint
  | wrByte =>
    exact ofBind needWriter_footprint fun _ => ofBind operand0_footprint fun _ => ofBind (ofRequire _ _) fun _ =>
      putBits_footprint _ _
  | wrBytes => exact opWrBytes_footprint
  | wrInt =>
    exact ofBind needWriter_footprint fun _ => ofBind operand0_footprint fun _ => ofBind (ofRequire _ _) fun _ =>
      writeVarint_footprint _
  | wrFlush => exact ofBind needWriter_footprint fun _ => flush_footprint
  | pqInit => exact opPqInit_footprint
  | pqOffer present => exact ofBind (ofRequire _ _) fun _ => ofBind ofGet fun _ => offer_footprint _
  | pqPoll => exact opPqPoll_footprint
  | pqPeek =>
    exact ofBind ofGet fun _ => ofIte _ emptyQueue_footprint ((setResEntry_footprint _).mono (by simp [bodyParts]))
  | pqSize => exact ofBind ofGet fun _ => setRes0_footprint _
  | pqAt =>
    exact ofBind operand0_footprint fun _ => ofBind ofGet fun _ => ofBind (ofRequire _ _) fun _ => setResEntry_footprint _
  | freqClear => exact ofModify fun s => within_freq s _
  | freqSet =>
    exact ofBind operand0_footprint fun _ => ofBind operand1_footprint fun _ => ofBind (ofRequire _ _) fun _ =>
      ofBind (ofRequire _ _) fun _ => ofModify fun s => within_freq s _
  | freqScan => exact ofBind needReader_footprint fun _ => scan_footprint
  | hufBuild =>
    exact ofBind ofGet fun _ => ofBind (ofRequire _ _) fun _ => ofBind (ofRequire _ _) fun _ =>
      ofBind (ofRequire _ _) fun _ => build_footprint
  | hufNode => exact opHufNode_footprint
  | hufLeaf =>
    exact ofBind needCode_footprint fun _ => ofBind operand0_footprint fun _ => ofBind (ofRequire _ _) fun _ =>
      ofBind ofGet fun _ => setRes0_footprint _
  | hufWrhdr => exact ofBind needWriter_footprint fun _ => ofBind needCode_footprint fun _ => serRoot_footprint
  | hufRdhdr => exact ofBind needReader_footprint fun _ => deser_footprint
  | hufEnc => exact opHufEnc_footprint
  | hufDec =>
    exact ofBind needReader_footprint fun _ => ofBind needCode_footprint fun _ =>
      ofBind (decodeSym_footprint.mono (by simp [bodyParts])) fun _ => (setRes0_footprint _).mono (by simp [bodyParts])
  | hufCompress =>
    exact ofBind needReader_footprint fun _ => ofBind needWriter_footprint fun _ => ofBind ofGet fun _ =>
      ofIte _ (ofPure _) compressStream_footprint
  | hufExpand =>
    exact ofBind needReader_footprint fun _ => ofBind needWriter_footprint fun _ => ofBind ofGet fun _ =>
      ofIte _ (ofPure _) expandStream_footprint
  | lzwWinit =>
    exact ofBind signedOperand0_footprint fun _ => ofBind (ofRequire _ _) fun _ => ofModify fun s => within_lzw s _
  | lzwWrite => exact opLzwWrite_footprint
  | lzwRinit =>
    exact ofBind signedOperand0_footprint fun _ => ofBind (ofRequire _ _) fun _ => ofModify fun s => within_lzw s _
  | lzwRead => exact opLzwRead_footprint

end

/-- A command that answers a next state has changed at most its parts, STATUS and ERRINFO. -/
theorem exec_within {i : Instr} {s t : State} (h : exec i s = .next t) :
    Within (.status :: .errInfo :: bodyParts i) s t := by
  rw [exec_eq] at h
  have hb := bodyOf_footprint i s
  rcases command_next h with ⟨u, hu, rfl⟩ | ⟨c, u, hu, rfl⟩ <;> rw [hu] at hb <;>
    refine (hb.mono (by simp)).trans (within_of (by simp [sameFixed]) fun p => ?_) <;> cases p <;> simp [samePart]

/-- A part that is not listed for a command is the same in the next state. -/
theorem exec_samePart {i : Instr} {s t : State} (h : exec i s = .next t) (p : Part)
    (hp : p ∉ Part.status :: .errInfo :: bodyParts i) : samePart p s t := (exec_within h).2 p hp

/-! ### What a run establishes -/

section
variable {α β : Type}

/-- What holds when a primitive has run: `Q` of its value and the state if it ended well, `E` of the state if it raised,
and nothing is said where the model stops. -/
def After (Q : α → State → Prop) (E : State → Prop) (r : EStateM.Result Stop State α) : Prop :=
  match r with
  | .ok a t => Q a t
  | .error (.raise _) t => E t
  | .error (.fault _) _ => True

variable {Q Q' : α → State → Prop} {E E' : State → Prop}

@[simp] theorem after_ok {a : α} {t : State} : After Q E (.ok a t) ↔ Q a t := Iff.rfl

@[simp] theorem after_raise {c : ErrCode} {t : State} : After Q E (.error (.raise c) t) ↔ E t := Iff.rfl

@[simp] theorem after_fault {f : Fault} {t : State} : After Q E (.error (.fault f) t) := trivial

theorem After.mono {r : EStateM.Result Stop State α} (h : After Q E r) (hq : ∀ a t, Q a t → Q' a t)
    (he : ∀ t, E t → E' t) : After Q' E' r := by
  match r, h with
  | .ok a t, h => exact hq a t h
  | .error (.raise _) t, h => exact he t h
  | .error (.fault _) _, _ => trivial

theorem After.imp {r : EStateM.Result Stop State α} (h : After Q E r) (hq : ∀ a t, Q a t → Q' a t) : After Q' E r :=
  h.mono hq fun _ => id

theorem After.and {r : EStateM.Result Stop State α} (h : After Q E r) (k : After Q' E' r) :
    After (fun a t => Q a t ∧ Q' a t) (fun t => E t ∧ E' t) r := by
  match r, h, k with
  | .ok _ _, h, k => exact ⟨h, k⟩
  | .error (.raise _) _, h, k => exact ⟨h, k⟩
  | .error (.fault _) _, _, _ => trivial

/-- A sequence: the second half runs from where the first ended. -/
theorem after_bind {x : Op α} {f : α → Op β} {R : β → State → Prop} {s : State} :
    After R E ((x >>= f) s) ↔ After (fun a t => After R E (f a t)) E (x s) := by
  rw [op_bind]
  cases x s with
  | ok a t => rfl
  | error e t => cases e <;> rfl

theorem after_get_bind {f : State → Op α} {s : State} : After Q E ((get >>= f) s) ↔ After Q E (f s s) := by
  rw [after_bind]; rfl

theorem after_require {p : Prop} [Decidable p] {c : ErrCode} {R : Unit → State → Prop} {s : State} :
    After R E (require p c s) ↔ (p → R () s) ∧ (¬ p → E s) := by
  by_cases hp : p <;> simp [hp]

theorem after_require_bind {p : Prop} [Decidable p] {c : ErrCode} {f : Unit → Op α} {s : State} :
    After Q E ((require p c >>= f) s) ↔ (p → After Q E (f () s)) ∧ (¬ p → E s) := by
  rw [after_bind, after_require]

/-- However a primitive ends, it has changed only the parts of its footprint. -/
theorem after_within {τ : List Part} {x : Op α} (h : Footprint τ x) (s : State) :
    After (fun _ t => Within τ s t) (Within τ s) (x s) := by
  have hs := h s
  match hr : x s with
  | .ok a t => rwa [hr] at hs
  | .error (.raise _) t => rwa [hr] at hs
  | .error (.fault _) _ => trivial

/-- What holds at the end of a body holds of the command's next state, if completion and the raise keep it. -/
theorem after_command {body : Op Unit} {I J : State → Prop} {s t : State} (hb : After (fun _ => I) E (body s))
    (hc : ∀ u, I u → J (complete u)) (he : ∀ c u, E u → J (takeError c u)) (h : command body s = .next t) : J t := by
  rcases command_next h with ⟨u, hu, rfl⟩ | ⟨c, u, hu, rfl⟩ <;> rw [hu] at hb
  · exact hc u hb
  · exact he c u hb

end

/-! ### Everything a step can do -/

/-- The states in which the engine runs the word in LASTCMD: the state itself while BUSY = 1 (log 2), else the state
at the issue of the word the host has written (30_encoding.md R68). -/
inductive Issued (s : State) : State → Prop where
  | held (hb : s.status.busy = true) : Issued s s
  | written (w : Word) (rest : List HostEvent) (ha : accepted w s = true) : Issued s (issue w { s with host := rest })

/-- Everything a step that answers a next state can have done (20_memory.md R54 to R56, 30_encoding.md R68). -/
inductive Stepped (s : State) : State → Prop where
  | idle : Stepped s s
  | read (rest : List HostEvent) (v : Word) : Stepped s { s with host := rest, readData := some v }
  | stored (rest : List HostEvent) (n a : Nat) (v : Word) :
    Stepped s { s with host := rest, mem := writeBytes n s.mem a v }
  | wroteArgs (rest : List HostEvent) (x y : Word) : Stepped s { s with host := rest, arg0 := x, arg1 := y }
  | wroteStatus (rest : List HostEvent) (v : Word) :
    Stepped s { s with host := rest, status := flagsHostWrite v s.status }
  | wroteCtrl (rest : List HostEvent) (v : Word) : Stepped s { s with host := rest, ctrl := ctrlOfWord v }
  | wroteInLen (rest : List HostEvent) (v : Word) : Stepped s (writeInLen v { s with host := rest })
  | wroteOutLen (rest : List HostEvent) : Stepped s (writeOutLen { s with host := rest })
  | poweredOn (rest : List HostEvent) :
    Stepped s { State.powerOn s.cfg (s.mem.draw + 1) with host := rest, readData := s.readData }
  | ignored (w : Word) (rest : List HostEvent) : Stepped s (ignore w { s with host := rest })
  | illegal (u : State) (hu : Issued s u) : Stepped s (takeError .illegalCommand u)
  | ran (i : Instr) (u t : State) (hu : Issued s u) (h : exec i u = .next t) : Stepped s t

theorem stepped_of_runIssued {s u t : State} (hu : Issued s u) (h : runIssued u = .next t) : Stepped s t := by
  unfold runIssued at h
  split at h
  · exact .ran _ u t hu h
  · cases h; exact .illegal u hu

theorem stepped_of_writeReg {s t : State} {r : Reg} {v : Word} {rest : List HostEvent}
    (h : writeReg r v { s with host := rest } = .next t) : Stepped s t := by
  cases r with
  | cmd =>
    change writeCmd v _ = _ at h
    unfold writeCmd at h
    split at h
    · rename_i ha; exact stepped_of_runIssued (.written v rest ha) h
    · cases h; exact .ignored v rest
  | arg0 => cases h; exact .wroteArgs rest v s.arg1
  | arg1 => cases h; exact .wroteArgs rest s.arg0 v
  | status => cases h; exact .wroteStatus rest v
  | ctrl => cases h; exact .wroteCtrl rest v
  | inLen => cases h; exact .wroteInLen rest v
  | outLen => cases h; exact .wroteOutLen rest
  | _ => cases h; exact .wroteArgs rest s.arg0 s.arg1

theorem stepped_of_hostWrite {s t : State} {a : BitVec 28} {n : Width} {v : Word} {rest : List HostEvent}
    (h : hostWrite { s with host := rest } a n v = .next t) : Stepped s t := by
  unfold hostWrite at h
  split at h
  case h_2 => exact stepped_of_writeReg h
  case h_4 => cases h; exact .stored rest _ _ v
  case h_6 => cases h; exact .stored rest _ _ v
  all_goals cases h

/-- Every next state of a step is one of these. -/
theorem stepped_of_step {s t : State} (h : step s = .next t) : Stepped s t := by
  unfold step advance at h
  split at h
  · rename_i hb; exact stepped_of_runIssued (.held hb) h
  · split at h
    · cases h; exact .idle
    · rename_i e rest _
      cases e with
      | read a n =>
        unfold perform at h
        dsimp only at h
        split at h
        · cases h; exact .read rest _
        · cases h
      | write a n v => exact stepped_of_hostWrite h
      | powerOn => cases h; exact .poweredOn rest

end Sys2Proof.Proofs

/-! PROOFS. The heap order (10_state.md R31): the sifts restore it, so Offer and PollMin keep it. -/

namespace Sys2Proof.Proofs

open Sys2Proof Sys2Proof.Machine Sys2Proof.Safety Sys2Proof.Laws

theorem size_le_heapPhys (q : Queue) : q.size.toNat ≤ Config.heapPhys := by
  have := q.size.isLt
  have : Config.heapPhys = 1023 := rfl
  omega

/-- The child at `i` whose parent is at `i / 2` is in order. -/
def LinkOrdered (q : Queue) (i p : Nat) : Prop := entryLt q.external (heapAt q i) (heapAt q p) = false

/-- The heap order but for the link of position `i` to its parent, whose own parent is in order with the children of
`i`: what SiftUp finds at its position (43_pqueue.md R98). -/
structure OrderedButAbove (q : Queue) (i : Nat) : Prop where
  links : ∀ j, 2 ≤ j → j ≤ q.size.toNat → j ≠ i → LinkOrdered q j (j / 2)
  skip  : ∀ j, 2 ≤ j → j ≤ q.size.toNat → j / 2 = i → 2 ≤ i → LinkOrdered q j (i / 2)

/-- The heap order but for the links of position `i` to its children: what SiftDown finds at its position (R100). -/
structure OrderedButBelow (q : Queue) (i : Nat) : Prop where
  links : ∀ j, 2 ≤ j → j ≤ q.size.toNat → j / 2 ≠ i → LinkOrdered q j (j / 2)
  skip  : ∀ j, 2 ≤ j → j ≤ q.size.toNat → j / 2 = i → 2 ≤ i → LinkOrdered q j (i / 2)

/-- In a strict weak order "not less" is transitive. -/
theorem not_less_trans {ext : Bool} (hw : StrictWeak ext) {x y z : Entry} (h : entryLt ext x y = false)
    (k : entryLt ext y z = false) : entryLt ext x z = false := by
  by_contra hxz
  rcases (hw x z y).2 (by simpa using hxz) with hl | hl <;> simp_all

/-- A swap with a lesser parent moves the fault of order one level up. -/
theorem OrderedButAbove.swap {q : Queue} {i : Nat} (hw : StrictWeak q.external) (h : OrderedButAbove q i) (hi : 1 < i)
    (hs : i ≤ q.size.toNat) (hlt : entryLt q.external (heapAt q i) (heapAt q (i / 2)) = true) :
    OrderedButAbove (swapHeap q i (i / 2)) (i / 2) := by
  have hm := size_le_heapPhys q
  have hrev := (hw _ _ (heapAt q i)).1 hlt
  have hread : ∀ p, 1 ≤ p → p ≤ q.size.toNat → heapAt (swapHeap q i (i / 2)) p =
      if p = i then heapAt q (i / 2) else if p = i / 2 then heapAt q i else heapAt q p :=
    fun p hp hps => heapAt_swapHeap q (by omega) (by omega) hp (by omega)
  constructor
  · intro j hj hjs hne
    rw [swapHeap_size] at hjs
    unfold LinkOrdered
    rw [hread j (by omega) hjs, hread (j / 2) (by omega) (by omega), swapHeap_external]
    by_cases hji : j = i
    · rw [if_pos hji, hji, if_neg (by omega), if_pos rfl]
      exact hrev
    · rw [if_neg hji, if_neg hne]
      by_cases hpi : j / 2 = i
      · rw [if_pos hpi]
        exact h.skip j hj hjs hpi hi
      · rw [if_neg hpi]
        have hl := h.links j hj hjs hji
        by_cases hpp : j / 2 = i / 2
        · rw [if_pos hpp]
          rw [hpp] at hl
          exact not_less_trans hw hl hrev
        · rw [if_neg hpp]
          exact hl
  · intro j hj hjs hjp hp2
    rw [swapHeap_size] at hjs
    unfold LinkOrdered
    rw [hread j (by omega) hjs, hread (i / 2 / 2) (by omega) (by omega), swapHeap_external,
      if_neg (by omega : i / 2 / 2 ≠ i), if_neg (by omega : i / 2 / 2 ≠ i / 2)]
    have hup := h.links (i / 2) hp2 (by omega) (by omega)
    by_cases hji : j = i
    · rw [if_pos hji]
      exact hup
    · rw [if_neg hji, if_neg (by omega)]
      have hl := h.links j hj hjs hji
      rw [hjp] at hl
      exact not_less_trans hw hl hup

/-- SiftUp restores the heap order (R98). -/
theorem siftUpFrom_ordered (fuel : Nat) : ∀ (q : Queue) (i : Nat), StrictWeak q.external → i ≤ fuel → i ≤ q.size.toNat →
    OrderedButAbove q i → HeapOrdered (siftUpFrom fuel q i) := by
  induction fuel with
  | zero => exact fun q i _ hf _ h j (hj : 2 ≤ j) (hjs : j ≤ q.size.toNat) => h.links j hj hjs (by omega)
  | succ fuel ih =>
    intro q i hw hf hs h
    unfold siftUpFrom
    split
    · rename_i hc
      exact ih _ _ (by simpa using hw) (by omega) (by rw [swapHeap_size]; omega) (h.swap hw hc.1 hs hc.2)
    · rename_i hc
      intro j hj hjs
      by_cases hji : j = i
      · rw [hji] at hj ⊢
        by_contra hlt
        exact hc ⟨hj, by simpa using hlt⟩
      · exact h.links j hj hjs hji

/-- The compared child is live and not above its sibling. -/
theorem smallerChild_least {q : Queue} {i : Nat} (hw : StrictWeak q.external) (hi : 2 * i ≤ q.size.toNat) :
    smallerChild q (2 * i) / 2 = i ∧ smallerChild q (2 * i) ≤ q.size.toNat ∧
      ∀ j, j ≤ q.size.toNat → j / 2 = i → j ≠ smallerChild q (2 * i) → LinkOrdered q j (smallerChild q (2 * i)) := by
  unfold smallerChild
  split
  · rename_i hc
    refine ⟨by omega, hc.1, fun j _ hji hne => ?_⟩
    obtain rfl : j = 2 * i := by omega
    exact (hw _ _ (heapAt q (2 * i))).1 hc.2
  · rename_i hc
    refine ⟨by omega, hi, fun j hj hji hne => ?_⟩
    obtain rfl : j = 2 * i + 1 := by omega
    by_contra hlt
    exact hc ⟨hj, by simpa [LinkOrdered] using hlt⟩

/-- A swap with the compared child moves the fault of order one level down. -/
theorem OrderedButBelow.swap {q : Queue} {i c : Nat} (hw : StrictWeak q.external) (h : OrderedButBelow q i) (hi : 1 ≤ i)
    (hci : c / 2 = i) (hcs : c ≤ q.size.toNat)
    (hsib : ∀ j, j ≤ q.size.toNat → j / 2 = i → j ≠ c → LinkOrdered q j c)
    (hlt : entryLt q.external (heapAt q c) (heapAt q i) = true) : OrderedButBelow (swapHeap q i c) c := by
  have hm := size_le_heapPhys q
  have hread : ∀ p, 1 ≤ p → p ≤ q.size.toNat → heapAt (swapHeap q i c) p =
      if p = i then heapAt q c else if p = c then heapAt q i else heapAt q p :=
    fun p hp hps => heapAt_swapHeap q hi (by omega) hp (by omega)
  constructor
  · intro j hj hjs hne
    rw [swapHeap_size] at hjs
    unfold LinkOrdered
    rw [hread j (by omega) hjs, hread (j / 2) (by omega) (by omega), swapHeap_external, if_neg hne]
    by_cases hji : j = i
    · rw [if_pos hji, hji, if_neg (by omega)]
      exact h.skip c (by omega) hcs hci (by omega)
    · rw [if_neg hji]
      by_cases hpi : j / 2 = i
      · rw [if_pos hpi]
        by_cases hjc : j = c
        · rw [if_pos hjc]
          exact (hw _ _ (heapAt q i)).1 hlt
        · rw [if_neg hjc]
          exact hsib j hjs hpi hjc
      · rw [if_neg hpi, if_neg (by rintro rfl; exact hpi hci)]
        exact h.links j hj hjs hpi
  · intro j hj hjs hjc hc2
    rw [swapHeap_size] at hjs
    unfold LinkOrdered
    rw [hread j (by omega) hjs, hread (c / 2) (by omega) (by omega), swapHeap_external, if_neg (by omega), if_neg (by omega),
      if_pos hci]
    have := h.links j hj hjs (by omega)
    rwa [hjc] at this

/-- SiftDown restores the heap order (R100). -/
theorem siftDownFrom_ordered (fuel : Nat) : ∀ (q : Queue) (i : Nat), StrictWeak q.external → 1 ≤ i →
    q.size.toNat < i + fuel → OrderedButBelow q i → HeapOrdered (siftDownFrom fuel q i) := by
  induction fuel with
  | zero => exact fun q i _ hi hf h j (hj : 2 ≤ j) (hjs : j ≤ q.size.toNat) => h.links j hj hjs (by omega)
  | succ fuel ih =>
    intro q i hw hi hf h
    unfold siftDownFrom
    dsimp only
    split
    · exact fun j hj hjs => h.links j hj hjs (by omega)
    · rename_i hs
      obtain ⟨hc2, hcs, hsib⟩ := smallerChild_least hw (by omega : 2 * i ≤ q.size.toNat)
      split
      · rename_i hlt
        exact ih _ _ (by simpa using hw) (by omega) (by rw [swapHeap_size]; omega) (h.swap hw hi hc2 hcs hsib hlt)
      · rename_i hlt
        intro j hj hjs
        by_cases hji : j / 2 = i
        · rw [hji]
          by_cases hjc : j = smallerChild q (2 * i)
          · rw [hjc]; simpa using hlt
          · exact not_less_trans hw (hsib j hjs hji hjc) (by simpa using hlt)
        · exact h.links j hj hjs hji

/-! ### Offer and PollMin keep the heap order -/

theorem size_succ {q : Queue} (h : q.size.toNat < Config.heapPhys) : (q.size + 1#10).toNat = q.size.toNat + 1 := by
  have : Config.heapPhys = 1023 := rfl
  rw [BitVec.toNat_add, Nat.mod_eq_of_lt] <;> simp; omega

theorem size_pred {q : Queue} (h : 1 ≤ q.size.toNat) : (q.size - 1#10).toNat = q.size.toNat - 1 := by
  have := q.size.isLt
  rw [BitVec.toNat_sub]; simp; omega

/-- An entry put at the end and sifted up leaves the heap in order (R99). -/
theorem insertLast_ordered {q : Queue} (e : Entry) (hw : StrictWeak q.external) (hs : q.size.toNat < Config.heapPhys)
    (h : HeapOrdered q) : HeapOrdered (insertLast q e) := by
  have hn := size_succ hs
  refine siftUpFrom_ordered _ _ _ (by simpa using hw) le_rfl (by simp only [setHeap_size]; omega)
    ⟨fun j hj hjs hne => ?_, fun j hj hjs hji => ?_⟩
  · simp only [setHeap_size, hn] at hjs
    unfold LinkOrdered
    rw [heapAt_setHeap _ _ (by omega) (by omega) (by omega), heapAt_setHeap _ _ (by omega) (by omega) (by omega),
      if_neg (by omega), if_neg (by omega)]
    exact h j hj (by omega)
  · simp only [setHeap_size, hn] at hjs
    omega

/-- PollMin leaves the heap in order (R101). -/
theorem polled_ordered {q : Queue} (hw : StrictWeak q.external) (hs : 1 ≤ q.size.toNat) (h : HeapOrdered q) :
    HeapOrdered (polled q) := by
  have hn := size_pred hs
  have hm := size_le_heapPhys q
  refine siftDownFrom_ordered _ _ _ (by simpa using hw) le_rfl (by omega) ⟨fun j hj hjs hne => ?_, by omega⟩
  simp only [hn] at hjs
  have hread : ∀ p, 2 ≤ p → p ≤ q.size.toNat →
      heapAt { setHeap q 1 (heapAt q q.size.toNat) with size := q.size - 1#10 } p = heapAt q p := fun p hp hps => by
    change heapAt (setHeap q 1 (heapAt q q.size.toNat)) p = _
    rw [heapAt_setHeap _ _ le_rfl (by omega) (by omega), if_neg (by omega)]
  unfold LinkOrdered
  rw [hread j hj (by omega), hread (j / 2) (by omega) (by omega)]
  exact h j hj (by omega)

/-- The range and the order of a queue (10_state.md R30, R31): what QueueLegal says of the state's. -/
def QueueInv (q : Queue) : Prop := QueueOk q ∧ (StrictWeak q.external → HeapOrdered q)

/-- An empty queue is in order. -/
theorem queueInv_of_empty {q : Queue} (hs : q.size = 0#10) (hc : 1 ≤ q.cap.toNat) : QueueInv q :=
  ⟨⟨hc, by simp [hs]⟩, fun _ i hi hin => by simp [hs] at hin; omega⟩

theorem polled_queueOk {q : Queue} (h : QueueOk q) (hs : 1 ≤ q.size.toNat) : QueueOk (polled q) := by
  obtain ⟨hc, hsc⟩ := h
  refine ⟨by simpa using hc, ?_⟩
  rw [polled_size, polled_cap, size_pred hs]
  omega

theorem polled_queueInv {q : Queue} (h : QueueInv q) (hs : 1 ≤ q.size.toNat) : QueueInv (polled q) :=
  ⟨polled_queueOk h.1 hs, fun hw => polled_ordered (by simpa using hw) hs (h.2 (by simpa using hw))⟩

/-- An entry that is taken goes to the end of the queue, whose capacity may have grown (R99). -/
theorem offered_eq_insertLast {q r : Queue} {e : Entry} (h : QueueOk q) (hr : offered q e = some r) :
    q.size.toNat < Config.heapPhys ∧ ∃ cap, r = insertLast { q with cap } e := by
  have hm : Config.heapPhys = 1023 := rfl
  have hcap := q.cap.isLt
  rcases offered_cases q e with ⟨hne, ho⟩ | ⟨he, hc, ho⟩ | ⟨-, -, ho⟩ <;> rw [ho] at hr <;> cases hr
  · have hlt : q.size.toNat < q.cap.toNat := lt_of_le_of_ne h.2 fun e => hne (BitVec.eq_of_toNat_eq e)
    exact ⟨by omega, q.cap, rfl⟩
  · have hsc : q.size.toNat = q.cap.toNat := congrArg BitVec.toNat he
    exact ⟨by omega, _, rfl⟩

theorem offered_size {q r : Queue} {e : Entry} (h : QueueOk q) (hr : offered q e = some r) :
    r.size.toNat = q.size.toNat + 1 := by
  rw [(offered_some hr).1, size_succ (offered_eq_insertLast h hr).1]

theorem offered_queueOk {q r : Queue} {e : Entry} (h : QueueOk q) (hr : offered q e = some r) : QueueOk r := by
  have hsize := offered_size h hr
  obtain ⟨hc, hsc⟩ := h
  rcases (offered_some hr).2.2 with ⟨hne, hcap⟩ | ⟨-, hcap⟩
  · have hlt : q.size.toNat < q.cap.toNat := lt_of_le_of_ne hsc fun e => hne (BitVec.eq_of_toNat_eq e)
    exact ⟨by rw [hcap]; exact hc, by rw [hcap]; omega⟩
  · exact ⟨by omega, by omega⟩

theorem offered_queueInv {q r : Queue} {e : Entry} (h : QueueInv q) (hr : offered q e = some r) : QueueInv r := by
  refine ⟨offered_queueOk h.1 hr, ?_⟩
  obtain ⟨hs, cap, rfl⟩ := offered_eq_insertLast h.1 hr
  rw [insertLast_external]
  exact fun hw => insertLast_ordered (q := { q with cap }) e hw hs (h.2 hw)

end Sys2Proof.Proofs

/-! PROOFS. The queue as a multiset of entries: the sifts permute it, Offer adds its entry, PollMin takes HEAP[1] out
(43_pqueue.md R98 to R101). -/

namespace Sys2Proof.Proofs

open Sys2Proof Sys2Proof.Machine Sys2Proof.Safety Sys2Proof.Laws

/-- The entries at positions 1 to `n`, in no order. -/
def firstEntries (q : Queue) (n : Nat) : Multiset Entry := (Multiset.range n).map fun k => heapAt q (k + 1)

/-- The live entries, in no order (10_state.md R30). -/
def live (q : Queue) : Multiset Entry := firstEntries q q.size.toNat

theorem live_eq_entries (q : Queue) : live q = (entries q : Multiset Entry) := rfl

theorem firstEntries_succ (q : Queue) (n : Nat) : firstEntries q (n + 1) = heapAt q (n + 1) ::ₘ firstEntries q n := by
  simp [firstEntries, Multiset.range_succ]

theorem firstEntries_congr {q r : Queue} {n : Nat} (h : ∀ p, 1 ≤ p → p ≤ n → heapAt q p = heapAt r p) :
    firstEntries q n = firstEntries r n :=
  Multiset.map_congr rfl fun k hk => h (k + 1) (by omega) (Multiset.mem_range.mp hk)

/-- Exchanging two positions below `n` permutes the positions below `n`. -/
theorem range_map_swap {n a b : Nat} (ha : a < n) (hb : b < n) :
    (Multiset.range n).map (Equiv.swap a b) = Multiset.range n := by
  refine (Multiset.Nodup.ext ((Multiset.nodup_range n).map (Equiv.swap a b).injective) (Multiset.nodup_range n)).mpr
    fun k => ?_
  simp only [Multiset.mem_map, Multiset.mem_range]
  have hlt : ∀ m, m < n → Equiv.swap a b m < n := fun m hm => by
    rw [Equiv.swap_apply_def]; split_ifs <;> assumption
  exact ⟨by rintro ⟨m, hm, rfl⟩; exact hlt m hm, fun hk => ⟨Equiv.swap a b k, hlt k hk, Equiv.swap_apply_self a b k⟩⟩

theorem firstEntries_swapHeap {q : Queue} {i j n : Nat} (hi : 1 ≤ i) (hin : i ≤ n) (hj : 1 ≤ j) (hjn : j ≤ n)
    (hn : n ≤ Config.heapPhys) : firstEntries (swapHeap q i j) n = firstEntries q n := by
  have hread : ∀ k, k < n → heapAt (swapHeap q i j) (k + 1) = heapAt q (Equiv.swap (i - 1) (j - 1) k + 1) := fun k hk => by
    rw [heapAt_swapHeap q hi hj (by omega) (by omega), Equiv.swap_apply_def]
    by_cases hki : k + 1 = i
    · rw [if_pos hki, if_pos (by omega), Nat.sub_add_cancel hj]
    · rw [if_neg hki, if_neg (by omega : ¬ k = i - 1)]
      by_cases hkj : k + 1 = j
      · rw [if_pos hkj, if_pos (by omega), Nat.sub_add_cancel hi]
      · rw [if_neg hkj, if_neg (by omega)]
  calc firstEntries (swapHeap q i j) n
      = (Multiset.range n).map fun k => heapAt q (Equiv.swap (i - 1) (j - 1) k + 1) :=
        Multiset.map_congr rfl fun k hk => hread k (Multiset.mem_range.mp hk)
    _ = ((Multiset.range n).map (Equiv.swap (i - 1) (j - 1))).map fun k => heapAt q (k + 1) := by
        rw [Multiset.map_map]; rfl
    _ = firstEntries q n := by rw [range_map_swap (by omega) (by omega)]; rfl

theorem live_swapHeap {q : Queue} {i j : Nat} (hi : 1 ≤ i) (his : i ≤ q.size.toNat) (hj : 1 ≤ j) (hjs : j ≤ q.size.toNat) :
    live (swapHeap q i j) = live q := firstEntries_swapHeap hi his hj hjs (size_le_heapPhys q)

theorem live_siftUpFrom (fuel : Nat) : ∀ (q : Queue) (i : Nat), i ≤ q.size.toNat → live (siftUpFrom fuel q i) = live q := by
  induction fuel with
  | zero => exact fun _ _ _ => rfl
  | succ fuel ih =>
    intro q i hs
    unfold siftUpFrom
    split
    · rw [ih _ _ (by rw [swapHeap_size]; omega), live_swapHeap (by omega) hs (by omega) (by omega)]
    · rfl

theorem live_siftDownFrom (fuel : Nat) : ∀ (q : Queue) (i : Nat), 1 ≤ i → live (siftDownFrom fuel q i) = live q := by
  induction fuel with
  | zero => exact fun _ _ _ => rfl
  | succ fuel ih =>
    intro q i hi
    unfold siftDownFrom
    dsimp only
    split
    · rfl
    · have hc := smallerChild_cases q (2 * i)
      split
      · rw [ih _ _ (by omega), live_swapHeap hi (by omega) (by omega) (by omega)]
      · rfl

/-- Offer's last lines add the entry (R99). -/
theorem live_insertLast {q : Queue} (e : Entry) (hs : q.size.toNat < Config.heapPhys) :
    live (insertLast q e) = e ::ₘ live q := by
  have hn := size_succ hs
  rw [insertLast, siftUp, live_siftUpFrom _ _ _ (by simp only [setHeap_size]; omega), live, setHeap_size]
  simp only [hn, firstEntries_succ]
  rw [heapAt_setHeap _ _ (by omega) (by omega) (by omega), if_pos rfl]
  refine congrArg _ (firstEntries_congr fun p hp hps => ?_)
  rw [heapAt_setHeap _ _ (by omega) hp (by omega), if_neg (by omega)]
  rfl

/-- PollMin takes HEAP[1] out (R101). -/
theorem live_polled {q : Queue} (hs : 1 ≤ q.size.toNat) : heapAt q 1 ::ₘ live (polled q) = live q := by
  have hm := size_le_heapPhys q
  have hlast : firstEntries (setHeap q 1 (heapAt q q.size.toNat)) (q.size.toNat - 1) =
      firstEntries (swapHeap q 1 q.size.toNat) (q.size.toNat - 1) := firstEntries_congr fun p hp hps => by
    rw [heapAt_setHeap _ _ le_rfl hp (by omega), heapAt_swapHeap _ le_rfl hs hp (by omega)]
    by_cases h1 : p = 1
    · rw [if_pos h1.symm, if_pos h1]
    · rw [if_neg (Ne.symm h1), if_neg h1, if_neg (by omega)]
  have hpolled : live (polled q) = firstEntries (swapHeap q 1 q.size.toNat) (q.size.toNat - 1) := by
    rw [polled, siftDown, live_siftDownFrom _ _ _ le_rfl, ← hlast, live]
    simp only [size_pred hs]
    rfl
  have htop : heapAt (swapHeap q 1 q.size.toNat) (q.size.toNat - 1 + 1) = heapAt q 1 := by
    rw [heapAt_swapHeap _ le_rfl hs (by omega) (by omega), Nat.sub_add_cancel hs, if_pos rfl]
    split_ifs with h1
    · rw [h1]
    · rfl
  rw [hpolled, ← htop, ← firstEntries_succ, Nat.sub_add_cancel hs, ← live_swapHeap (j := q.size.toNat) le_rfl hs hs le_rfl]
  rfl

/-- Offer adds the entry, when there is room (R99). -/
theorem offered_live {q r : Queue} {e : Entry} (h : QueueOk q) (hr : offered q e = some r) : live r = e ::ₘ live q := by
  obtain ⟨hs, cap, rfl⟩ := offered_eq_insertLast h hr
  exact live_insertLast (q := { q with cap }) e hs

end Sys2Proof.Proofs

/-! PROOFS. The arena as a forest (10_state.md R34 to R36): trees with distinct roots that no PARENT points away from,
and what Alloc, a new leaf and a join make of them. -/

namespace Sys2Proof.Safety

open Sys2Proof Sys2Proof.Machine Sys2Proof.Laws

/-! ### A tree under changes of the arena -/

theorem symbolAt_mem {T : HTree} {p : List Bool} {sym : Byte} (h : T.symbolAt p = some sym) : sym ∈ T.symbols := by
  induction T generalizing p with
  | leaf x =>
    cases p with
    | nil => simpa [HTree.symbolAt, HTree.symbols, eq_comm] using h
    | cons b p => simp [HTree.symbolAt] at h
  | node l r ihl ihr =>
    match p with
    | [] => simp [HTree.symbolAt] at h
    | false :: p => exact List.mem_append_left _ (ihl h)
    | true :: p => exact List.mem_append_right _ (ihr h)

/-- The root of a held tree is an allocated node with the PARENT the tree is held under. -/
theorem Holds.root {c : Code} {p n : NodeIdx} {T : HTree} (h : Holds c p n T) :
    ∃ nd, nodeOf c n.toNat = some nd ∧ nd.parent = p := by
  cases T with
  | leaf sym => obtain ⟨nd, hn, -, -, hp, -⟩ := h; exact ⟨nd, hn, hp⟩
  | node l r => obtain ⟨nd, hn, -, hp, -⟩ := h; exact ⟨nd, hn, hp⟩

/-- An allocated node's index is not NONE. -/
theorem ne_noNode_of_nodeOf {c : Code} {n : NodeIdx} {nd : Node} (h : nodeOf c n.toNat = some nd) : n ≠ Config.noNode := by
  rintro rfl
  have := (nodeOf_lt h).1
  exact absurd this (by decide)

/-- A tree stays held where its nodes stay as they are. -/
theorem Holds.mono {c d : Code} (hcd : ∀ k nd, nodeOf c k = some nd → nodeOf d k = some nd) {T : HTree} {p n : NodeIdx}
    (h : Holds c p n T) : Holds d p n T := by
  induction T generalizing p n with
  | leaf sym =>
    obtain ⟨nd, hn, hrest⟩ := h
    exact ⟨nd, hcd _ _ hn, hrest⟩
  | node l r ihl ihr =>
    obtain ⟨nd, hn, hleaf, hp, hne, hl, hr⟩ := h
    exact ⟨nd, hcd _ _ hn, hleaf, hp, hne, ihl hl, ihr hr⟩

/-- A path stays where the child links of the nodes stay as they are. -/
theorem follow_mono {c d : Code}
    (hcd : ∀ k nd, nodeOf c k = some nd →
      ∃ nd', nodeOf d k = some nd' ∧ nd'.leaf = nd.leaf ∧ nd'.left = nd.left ∧ nd'.right = nd.right)
    {p : List Bool} {n m : NodeIdx} (h : follow c n p = some m) : follow d n p = some m := by
  induction p generalizing n with
  | nil => exact h
  | cons b p ih =>
    unfold follow at h ⊢
    cases hn : nodeOf c n.toNat with
    | none => simp [hn] at h
    | some nd =>
      obtain ⟨nd', hn', hleaf, hleft, hright⟩ := hcd _ _ hn
      rw [hn']
      rw [hn] at h
      dsimp only at h ⊢
      rw [hleaf, hleft, hright]
      split at h
      · cases h
      · rename_i hl; rw [if_neg hl]; exact ih h

/-- `c` with the PARENT of node `n`, which holds `nd`, set to `p` (44_huffman_tree.md R111). -/
def reparented (c : Code) (n : NodeIdx) (nd : Node) (p : NodeIdx) : Code :=
  { c with nodes := fileSet c.nodes n.toNat { nd with parent := p } }

theorem nodeOf_reparented {c : Code} {n : NodeIdx} {nd : Node} (h : nodeOf c n.toNat = some nd) (p : NodeIdx) (k : Nat) :
    nodeOf (reparented c n nd p) k = if n.toNat = k then some { nd with parent := p } else nodeOf c k := by
  rw [reparented, nodeOf_set]
  have := nodeOf_lt h
  by_cases hk : n.toNat = k
  · rw [if_pos ⟨hk, by omega⟩, if_pos hk]
  · rw [if_neg (fun h => hk h.1), if_neg hk]

theorem nodeOf_reparented_ne {c : Code} {n m : NodeIdx} {nd : Node} (h : nodeOf c n.toNat = some nd) (p : NodeIdx)
    (hm : m ≠ n) : nodeOf (reparented c n nd p) m.toNat = nodeOf c m.toNat := by
  rw [nodeOf_reparented h, if_neg fun e => hm (BitVec.eq_of_toNat_eq e.symm)]

/-- A new PARENT of a root changes no other tree: no tree has that root inside it. -/
theorem Holds.reparent_other {c : Code} {r : NodeIdx} {rd : Node} (hr : nodeOf c r.toNat = some rd)
    (hrp : rd.parent = Config.noNode) (q : NodeIdx) {T : HTree} {p n : NodeIdx} (hne : n ≠ r) (h : Holds c p n T) :
    Holds (reparented c r rd q) p n T := by
  induction T generalizing p n with
  | leaf sym =>
    obtain ⟨nd, hn, hrest⟩ := h
    exact ⟨nd, by rwa [nodeOf_reparented_ne hr q hne], hrest⟩
  | node l rt ihl ihr =>
    obtain ⟨nd, hn, hleaf, hp, hlr, hl, hrt⟩ := h
    have hchild : ∀ {m : NodeIdx} {S : HTree}, Holds c n m S → m ≠ r := fun {m S} hm e => by
      obtain ⟨md, hmd, hmp⟩ := hm.root
      rw [e, hr] at hmd
      obtain rfl : rd = md := by simpa using hmd
      exact ne_noNode_of_nodeOf hn (hmp.symm.trans hrp)
    exact ⟨nd, by rwa [nodeOf_reparented_ne hr q hne], hleaf, hp, hlr, ihl (hchild hl) hl, ihr (hchild hrt) hrt⟩

/-- A root with a new PARENT holds its tree under that parent. -/
theorem Holds.reparent_root {c : Code} {r : NodeIdx} {rd : Node} (hr : nodeOf c r.toNat = some rd) (q : NodeIdx)
    {T : HTree} (h : Holds c Config.noNode r T) : Holds (reparented c r rd q) q r T := by
  have hroot : nodeOf (reparented c r rd q) r.toNat = some { rd with parent := q } := by
    rw [nodeOf_reparented hr, if_pos rfl]
  cases T with
  | leaf sym =>
    obtain ⟨nd, hn, hleaf, hsym, -, hlinks⟩ := h
    obtain rfl : rd = nd := by simpa [hr] using hn
    exact ⟨_, hroot, hleaf, hsym, rfl, hlinks⟩
  | node l rt =>
    obtain ⟨nd, hn, hleaf, hp, hlr, hl, hrt⟩ := h
    obtain rfl : rd = nd := by simpa [hr] using hn
    have hchild : ∀ {m : NodeIdx} {S : HTree}, Holds c r m S → m ≠ r := fun {m S} hm e => by
      obtain ⟨md, hmd, hmp⟩ := hm.root
      rw [e, hr] at hmd
      obtain rfl : rd = md := by simpa using hmd
      exact ne_noNode_of_nodeOf hr (hmp.symm.trans hp)
    exact ⟨_, hroot, hleaf, rfl, hlr, hl.reparent_other hr hp q (hchild hl), hrt.reparent_other hr hp q (hchild hrt)⟩

theorem reparented_links {c : Code} {r : NodeIdx} {rd : Node} (hr : nodeOf c r.toNat = some rd) (q : NodeIdx) (k : Nat)
    (nd : Node) (h : nodeOf c k = some nd) :
    ∃ nd', nodeOf (reparented c r rd q) k = some nd' ∧ nd'.leaf = nd.leaf ∧ nd'.left = nd.left ∧ nd'.right = nd.right := by
  rw [nodeOf_reparented hr]
  by_cases hk : r.toNat = k
  · obtain rfl : rd = nd := by simpa [← hk, hr] using h
    exact ⟨_, if_pos hk, rfl, rfl, rfl⟩
  · exact ⟨nd, by rwa [if_neg hk], rfl, rfl, rfl⟩

theorem nodeOf_allocated_old {c : Code} {nd : Node} (hc : c.count.toNat < Config.nodeCap) {k : Nat} {kd : Node}
    (h : nodeOf c k = some kd) : nodeOf (allocated c nd) k = some kd := by
  rw [nodeOf_allocated c nd k hc, if_neg (by have := (nodeOf_lt h).2; omega)]
  exact h

theorem allocated_count {c : Code} (nd : Node) (hc : c.count.toNat < Config.nodeCap) :
    (allocated c nd).count.toNat = c.count.toNat + 1 := by
  have : Config.nodeCap = 511 := rfl
  change (c.count + 1#10).toNat = _
  rw [BitVec.toNat_add, Nat.mod_eq_of_lt] <;> simp; omega

end Sys2Proof.Safety

namespace Sys2Proof.Proofs

open Sys2Proof Sys2Proof.Machine Sys2Proof.Safety Sys2Proof.Laws

/-! ### Forests -/

/-- The allocated nodes are exactly those of the trees `F`, each with its root (R36, with several roots): the roots are
distinct and have no PARENT, and LEAF_MAP names for exactly the symbols of the trees a leaf that carries the symbol. -/
structure Forest (c : Code) (F : Multiset (NodeIdx × HTree)) : Prop where
  bound  : c.count.toNat ≤ Config.nodeCap
  roots  : (F.map Prod.fst).Nodup
  holds  : ∀ x ∈ F, Holds c Config.noNode x.1 x.2
  total  : (F.map fun x => x.2.size).sum = c.count.toNat
  mapped : ∀ sym : Byte, leafAt c sym.toNat ≠ Config.noNode →
    ∃ x ∈ F, ∃ p, follow c x.1 p = some (leafAt c sym.toNat) ∧ x.2.symbolAt p = some sym
  named  : ∀ x ∈ F, ∀ sym ∈ x.2.symbols, leafAt c sym.toNat ≠ Config.noNode

theorem forest_noCode (c : Code) : Forest (noCode c) 0 where
  bound := by simp [noCode]
  roots := by simp
  holds := by simp
  total := by simp [noCode]
  mapped sym h := absurd (leafAt_noCode c sym.toNat) h
  named := by simp

/-- A root of a forest is an allocated node without PARENT. -/
theorem Forest.root {c : Code} {F : Multiset (NodeIdx × HTree)} (h : Forest c F) {x : NodeIdx × HTree} (hx : x ∈ F) :
    ∃ nd, nodeOf c x.1.toNat = some nd ∧ nd.parent = Config.noNode := (h.holds x hx).root

/-- A forest of one tree, with its root in ROOT, is the held code (R36). -/
theorem Forest.holdsTree {c : Code} {r : NodeIdx} {T : HTree} (h : Forest c {(r, T)}) :
    HoldsTree { c with root := r, valid := true } T := by
  have hsize : T.size = c.count.toNat := by simpa using h.total
  refine ⟨rfl, Holds.mono (c := c) (d := { c with root := r, valid := true }) (fun k nd hk => hk) (h.holds (r, T) (by simp)),
    hsize, hsize ▸ h.bound, fun sym => ⟨⟨fun hm => ?_, fun hs => ?_⟩, fun hm => ?_⟩⟩
  · obtain ⟨x, hx, p, -, hp⟩ := h.mapped sym hm
    obtain rfl : x = (r, T) := by simpa using hx
    exact symbolAt_mem hp
  · exact h.named (r, T) (by simp) sym hs
  · obtain ⟨x, hx, p, hf, hp⟩ := h.mapped sym hm
    obtain rfl : x = (r, T) := by simpa using hx
    exact ⟨p, follow_mono (c := c) (d := { c with root := r, valid := true }) (fun k nd hk => ⟨nd, hk, rfl, rfl, rfl⟩) hf,
      hp⟩

/-- A node that is not allocated yet is no root. -/
theorem Forest.fresh_not_root {c : Code} {F : Multiset (NodeIdx × HTree)} (h : Forest c F) {m : NodeIdx}
    (hm : m.toNat = c.count.toNat) : ∀ x ∈ F, x.1 ≠ m := fun x hx e => by
  obtain ⟨nd, hn, -⟩ := h.root hx
  have := (nodeOf_lt hn).2
  rw [e] at this
  omega

/-! ### A new leaf -/

/-- `c` with a new leaf for the symbol `sym`, in the arena and in LEAF_MAP (R109, R111, 45_huffman_code.md R120). -/
def withLeaf (c : Code) (sym : Nat) (f : Word) : Code :=
  setLeaf (allocated c (freshNode true (BitVec.ofNat 8 sym) f Config.noNode Config.noNode)) sym (c.count.setWidth 9)

section
variable {c : Code} {sym : Nat} (f : Word)

theorem withLeaf_count (hc : c.count.toNat < Config.nodeCap) : (withLeaf c sym f).count.toNat = c.count.toNat + 1 :=
  allocated_count (freshNode true (BitVec.ofNat 8 sym) f Config.noNode Config.noNode) hc

theorem nodeOf_withLeaf_old (hc : c.count.toNat < Config.nodeCap) {k : Nat} {nd : Node} (h : nodeOf c k = some nd) :
    nodeOf (withLeaf c sym f) k = some nd := nodeOf_allocated_old hc h

theorem holds_withLeaf (hc : c.count.toNat < Config.nodeCap) :
    Holds (withLeaf c sym f) Config.noNode (c.count.setWidth 9) (.leaf (BitVec.ofNat 8 sym)) := by
  refine ⟨freshNode true (BitVec.ofNat 8 sym) f Config.noNode Config.noNode, ?_, rfl, rfl, rfl, rfl, rfl⟩
  rw [withLeaf, nodeOf_setLeaf, nodeOf_allocated c _ _ hc, if_pos (allocIndex_toNat hc).1]

theorem leafAt_withLeaf (hsym : sym < 256) (x : Byte) :
    leafAt (withLeaf c sym f) x.toNat = if BitVec.ofNat 8 sym = x then c.count.setWidth 9 else leafAt c x.toNat := by
  have hiff : sym = x.toNat ↔ BitVec.ofNat 8 sym = x := by
    rw [← BitVec.toNat_inj, BitVec.toNat_ofNat, Nat.mod_eq_of_lt hsym]
  rw [withLeaf, leafAt_setLeaf _ _ _ _ x.isLt]
  simp only [hiff]
  rfl

end

/-- A new leaf is a new tree, and its symbol's leaf. -/
theorem Forest.newLeaf {c : Code} {F : Multiset (NodeIdx × HTree)} (h : Forest c F) (hc : c.count.toNat < Config.nodeCap)
    {sym : Nat} (hsym : sym < 256) (f : Word) :
    Forest (withLeaf c sym f) ((c.count.setWidth 9, .leaf (BitVec.ofNat 8 sym)) ::ₘ F) := by
  obtain ⟨hidx, hne⟩ := allocIndex_toNat hc
  have hcount := withLeaf_count (sym := sym) f hc
  constructor
  · omega
  · rw [Multiset.map_cons, Multiset.nodup_cons]
    refine ⟨fun hm => ?_, h.roots⟩
    obtain ⟨x, hx, hx1⟩ := Multiset.mem_map.mp hm
    exact h.fresh_not_root hidx x hx hx1
  · intro x hx
    rcases Multiset.mem_cons.mp hx with rfl | hx
    · exact holds_withLeaf f hc
    · exact (h.holds x hx).mono fun k nd hk => nodeOf_withLeaf_old f hc hk
  · simp only [Multiset.map_cons, Multiset.sum_cons, h.total, HTree.size]
    omega
  · intro x hx
    rw [leafAt_withLeaf f hsym] at hx ⊢
    by_cases he : BitVec.ofNat 8 sym = x
    · exact ⟨_, Multiset.mem_cons_self _ _, [], by rw [if_pos he]; rfl, by rw [← he]; rfl⟩
    · rw [if_neg he] at hx ⊢
      obtain ⟨y, hy, p, hf, hp⟩ := h.mapped x hx
      exact ⟨y, Multiset.mem_cons_of_mem hy, p,
        follow_mono (fun k nd hk => ⟨nd, nodeOf_withLeaf_old f hc hk, rfl, rfl, rfl⟩) hf, hp⟩
  · intro y hy x hx
    rw [leafAt_withLeaf f hsym]
    by_cases he : BitVec.ofNat 8 sym = x
    · rw [if_pos he]; exact hne
    · rw [if_neg he]
      rcases Multiset.mem_cons.mp hy with rfl | hy
      · exact absurd (by simpa [HTree.symbols, eq_comm] using hx) he
      · exact h.named y hy x hx

/-! ### A join -/

/-- `c` with a new node over the roots `l` and `r`, which hold `ld` and `rd`, and their PARENT links set to it (R111,
R120). -/
def joined (c : Code) (f : Word) (l r : NodeIdx) (ld rd : Node) : Code :=
  reparented (reparented (allocated c (freshNode false 0#8 f l r)) l ld (c.count.setWidth 9)) r rd (c.count.setWidth 9)

/-- What a join finds: room, and two different roots, one after the other given their PARENT. -/
structure Joinable (c : Code) (f : Word) (l r : NodeIdx) (ld rd : Node) : Prop where
  room  : c.count.toNat < Config.nodeCap
  left  : nodeOf (allocated c (freshNode false 0#8 f l r)) l.toNat = some ld
  right : nodeOf (reparented (allocated c (freshNode false 0#8 f l r)) l ld (c.count.setWidth 9)) r.toNat = some rd
  lroot : ld.parent = Config.noNode
  rroot : rd.parent = Config.noNode
  ne    : l ≠ r
  lnew  : l ≠ c.count.setWidth 9
  rnew  : r ≠ c.count.setWidth 9

section
variable {c : Code} {f : Word} {l r : NodeIdx} {ld rd : Node} (h : Joinable c f l r ld rd)
include h

theorem Joinable.count : (joined c f l r ld rd).count.toNat = c.count.toNat + 1 :=
  allocated_count (freshNode false 0#8 f l r) h.room

/-- The child links of the older nodes stay. -/
theorem Joinable.links (k : Nat) (nd : Node) (hk : nodeOf c k = some nd) :
    ∃ nd', nodeOf (joined c f l r ld rd) k = some nd' ∧ nd'.leaf = nd.leaf ∧ nd'.left = nd.left ∧ nd'.right = nd.right := by
  obtain ⟨nd₁, h₁, e₁, e₂, e₃⟩ := reparented_links h.left (c.count.setWidth 9) k nd (nodeOf_allocated_old h.room hk)
  obtain ⟨nd₂, h₂, e₄, e₅, e₆⟩ := reparented_links h.right (c.count.setWidth 9) k nd₁ h₁
  exact ⟨nd₂, h₂, e₄.trans e₁, e₅.trans e₂, e₆.trans e₃⟩

theorem Joinable.node :
    nodeOf (joined c f l r ld rd) (c.count.setWidth 9 : NodeIdx).toNat = some (freshNode false 0#8 f l r) := by
  rw [joined, nodeOf_reparented_ne h.right _ h.rnew.symm, nodeOf_reparented_ne h.left _ h.lnew.symm,
    nodeOf_allocated c _ _ h.room, if_pos (allocIndex_toNat h.room).1]

/-- The other trees stay. -/
theorem Joinable.holds_other {n : NodeIdx} {T : HTree} (hl : n ≠ l) (hr : n ≠ r) (hT : Holds c Config.noNode n T) :
    Holds (joined c f l r ld rd) Config.noNode n T :=
  ((hT.mono fun _ _ hk => nodeOf_allocated_old h.room hk).reparent_other h.left h.lroot _ hl).reparent_other
    h.right h.rroot _ hr

/-- The two trees stand under the new node. -/
theorem Joinable.holds_join {L R : HTree} (hL : Holds c Config.noNode l L) (hR : Holds c Config.noNode r R) :
    Holds (joined c f l r ld rd) Config.noNode (c.count.setWidth 9) (.node L R) := by
  have hL₁ := hL.mono fun _ _ hk => nodeOf_allocated_old (nd := freshNode false 0#8 f l r) h.room hk
  have hR₁ := hR.mono fun _ _ hk => nodeOf_allocated_old (nd := freshNode false 0#8 f l r) h.room hk
  exact ⟨_, h.node, rfl, rfl, h.ne, (hL₁.reparent_root h.left _).reparent_other h.right h.rroot _ h.ne,
    (hR₁.reparent_other h.left h.lroot _ h.ne.symm).reparent_root h.right _⟩

end

theorem Forest.joinable {c : Code} {F : Multiset (NodeIdx × HTree)} {l r : NodeIdx} {L R : HTree} {f : Word} {ld rd : Node}
    (h : Forest c ((l, L) ::ₘ (r, R) ::ₘ F)) (hc : c.count.toNat < Config.nodeCap)
    (hl : nodeOf (allocated c (freshNode false 0#8 f l r)) l.toNat = some ld)
    (hr : nodeOf (reparented (allocated c (freshNode false 0#8 f l r)) l ld (c.count.setWidth 9)) r.toNat = some rd) :
    Joinable c f l r ld rd := by
  have hne : l ≠ r := by
    have := h.roots
    simp only [Multiset.map_cons, Multiset.nodup_cons, Multiset.mem_cons, not_or] at this
    exact this.1.1
  have hL := (h.holds (l, L) (by simp)).mono fun _ _ hk => nodeOf_allocated_old (nd := freshNode false 0#8 f l r) hc hk
  have hR := (h.holds (r, R) (by simp)).mono fun _ _ hk => nodeOf_allocated_old (nd := freshNode false 0#8 f l r) hc hk
  have hlp : ld.parent = Config.noNode := by
    obtain ⟨nd, hn, hp⟩ := hL.root
    rw [hl] at hn; cases hn; exact hp
  have hrp : rd.parent = Config.noNode := by
    obtain ⟨nd, hn, hp⟩ := (hR.reparent_other hl hlp (c.count.setWidth 9) hne.symm).root
    rw [hr] at hn; cases hn; exact hp
  have hidx := (allocIndex_toNat hc).1
  exact ⟨hc, hl, hr, hlp, hrp, hne, h.fresh_not_root hidx (l, L) (by simp), h.fresh_not_root hidx (r, R) (by simp)⟩

/-- Two trees of a forest become one. -/
theorem Forest.join {c : Code} {F : Multiset (NodeIdx × HTree)} {l r : NodeIdx} {L R : HTree} {f : Word} {ld rd : Node}
    (h : Forest c ((l, L) ::ₘ (r, R) ::ₘ F)) (hj : Joinable c f l r ld rd) :
    Forest (joined c f l r ld rd) ((c.count.setWidth 9, .node L R) ::ₘ F) := by
  have hcount := hj.count
  have hroom := hj.room
  have hroots := h.roots
  simp only [Multiset.map_cons, Multiset.nodup_cons, Multiset.mem_cons, not_or] at hroots
  obtain ⟨⟨-, hlF⟩, hrF, hF⟩ := hroots
  constructor
  · omega
  · rw [Multiset.map_cons, Multiset.nodup_cons]
    refine ⟨fun hmem => ?_, hF⟩
    obtain ⟨x, hx, hx1⟩ := Multiset.mem_map.mp hmem
    exact h.fresh_not_root (allocIndex_toNat hroom).1 x (by simp [hx]) hx1
  · intro x hx
    rcases Multiset.mem_cons.mp hx with rfl | hx
    · exact hj.holds_join (h.holds (l, L) (by simp)) (h.holds (r, R) (by simp))
    · exact hj.holds_other (fun e => hlF (Multiset.mem_map.mpr ⟨x, hx, e⟩)) (fun e => hrF (Multiset.mem_map.mpr ⟨x, hx, e⟩))
        (h.holds x (by simp [hx]))
  · have := h.total
    simp only [Multiset.map_cons, Multiset.sum_cons, HTree.size] at this ⊢
    omega
  · intro sym hs
    obtain ⟨x, hx, p, hf, hp⟩ := h.mapped sym hs
    have hf' := follow_mono hj.links hf
    rcases Multiset.mem_cons.mp hx with rfl | hx
    · exact ⟨_, Multiset.mem_cons_self _ _, false :: p, by unfold follow; rw [hj.node]; exact hf', hp⟩
    · rcases Multiset.mem_cons.mp hx with rfl | hx
      · exact ⟨_, Multiset.mem_cons_self _ _, true :: p, by unfold follow; rw [hj.node]; exact hf', hp⟩
      · exact ⟨x, Multiset.mem_cons_of_mem hx, p, hf', hp⟩
  · intro x hx sym hs
    rcases Multiset.mem_cons.mp hx with rfl | hx
    · rcases List.mem_append.mp hs with hs | hs
      · exact h.named (l, L) (by simp) sym hs
      · exact h.named (r, R) (by simp) sym hs
    · exact h.named x (by simp [hx]) sym hs

end Sys2Proof.Proofs

/-! PROOFS. Build and Deser (44_huffman_tree.md R111, 45_huffman_code.md R120): whatever they start from, they leave the
queue in order and a tree or no code. -/

namespace Sys2Proof.Proofs

open Sys2Proof Sys2Proof.Machine Sys2Proof.Safety Sys2Proof.Laws

/-! ### How the primitives of the queue and the arena run -/

section
variable {α : Type} {E : State → Prop}

theorem after_of_forall {Q : α → State → Prop} (hq : ∀ a t, Q a t) (he : ∀ t, E t) (r : EStateM.Result Stop State α) :
    After Q E r := by
  match r with
  | .ok a t => exact hq a t
  | .error (.raise _) t => exact he t
  | .error (.fault _) _ => trivial

/-- A primitive keeps what its footprint leaves alone. -/
theorem after_footprint {I : State → Prop} {τ : List Part} {x : Op α} {s : State} (h : Footprint τ x)
    (hI : ∀ t, Within τ s t → I t) : After (fun _ => I) I (x s) := (after_within h s).mono (fun _ => hI) hI

theorem after_ite {Q : α → State → Prop} {p : Prop} [Decidable p] {x y : Op α} {s : State} :
    After Q E ((if p then x else y) s) ↔ (p → After Q E (x s)) ∧ (¬ p → After Q E (y s)) := by
  by_cases hp : p <;> simp [hp]

theorem after_pollMin {Q : Entry → State → Prop} {s : State} :
    After Q E (pollMin s) ↔ Q (heapAt s.pq 1) { s with pq := polled s.pq } := by
  rw [pollMin_run]; rfl

theorem after_alloc {Q : NodeIdx → State → Prop} {leaf : Bool} {sym : Byte} {f : Word} {l r : NodeIdx} {s : State} :
    After Q E (alloc leaf sym f l r s) ↔
      (s.code.count.toNat < Config.nodeCap →
        Q (s.code.count.setWidth 9) { s with code := allocated s.code (freshNode leaf sym f l r) }) ∧
      (¬ s.code.count.toNat < Config.nodeCap → E s) := by
  rw [alloc_run]
  by_cases h : s.code.count.toNat < Config.nodeCap <;> simp [h]

theorem after_nodeAt {Q : Node → State → Prop} {n : Nat} {s : State} :
    After Q E (nodeAt n s) ↔ ∀ nd, nodeOf s.code n = some nd → Q nd s := by
  rw [nodeAt_run]
  cases nodeOf s.code n <;> simp

theorem after_setParent {Q : Unit → State → Prop} {n p : NodeIdx} {s : State} :
    After Q E (setParent n p s) ↔
      ∀ nd, nodeOf s.code n.toNat = some nd → Q ⟨⟩ { s with code := reparented s.code n nd p } := by
  rw [setParent, after_bind, after_nodeAt]
  rfl

/-- Offer adds its entry to a queue that takes it, and keeps the queue in order (43_pqueue.md R99). -/
theorem after_offer {s : State} (e : Entry) (h : QueueInv s.pq) :
    After (fun _ t => t = { s with pq := t.pq } ∧ QueueInv t.pq ∧ t.pq.size.toNat = s.pq.size.toNat + 1 ∧
      live t.pq = e ::ₘ live s.pq) (fun t => t = s) (offer e s) := by
  rw [offer_run]
  cases hr : offered s.pq e with
  | none => rfl
  | some r =>
    exact ⟨rfl, offered_queueInv h hr, offered_size h.1 hr, offered_live h.1 hr⟩

end

/-- The queue in order, and a tree or no code: what HUF_BUILD keeps and leaves. -/
def LegalParts (s : State) : Prop := QueueInv s.pq ∧ CodeOk s.code

theorem codeOk_of_invalid {c : Code} (hv : c.valid = false) (hc : c.count.toNat ≤ Config.nodeCap) : CodeOk c :=
  ⟨hc, fun h => by rw [hv] at h; cases h⟩

theorem codeOk_of_forest {c : Code} {r : NodeIdx} {T : HTree} (h : Forest c {(r, T)}) :
    CodeOk { c with root := r, valid := true } :=
  ⟨h.bound, fun _ => ⟨T, h.holdsTree⟩⟩

/-- A root taken from a forest's roots is the root of one of its trees. -/
theorem exists_tree_of_roots_cons {F : Multiset (NodeIdx × HTree)} {r : NodeIdx} {R : Multiset NodeIdx}
    (h : F.map Prod.fst = r ::ₘ R) : ∃ T G, F = (r, T) ::ₘ G ∧ G.map Prod.fst = R := by
  obtain ⟨⟨r', T⟩, hx, rfl, hG⟩ := (Multiset.map_eq_cons Prod.fst F R r).mpr h
  exact ⟨T, F.erase (r', T), (Multiset.cons_erase hx).symm, hG⟩

/-! ### Build -/

/-- The node a queue entry names in Build (R111). -/
def rootOf (e : Entry) : NodeIdx := e.tag.setWidth 9

theorem rootOf_setWidth (k : Word) (n : NodeIdx) : rootOf { key := k, tag := n.setWidth 32 } = n := by
  apply BitVec.eq_of_toNat_eq
  have := n.isLt
  simp [rootOf]

/-- Between two steps of Build the arena is the forest `F`, and the queue holds its roots (R111). -/
structure Building (F : Multiset (NodeIdx × HTree)) (s : State) : Prop where
  queue   : QueueInv s.pq
  forest  : Forest s.code F
  tags    : (live s.pq).map rootOf = F.map Prod.fst
  invalid : s.code.valid = false

theorem Building.legal {F : Multiset (NodeIdx × HTree)} {s : State} (h : Building F s) : LegalParts s :=
  ⟨h.queue, codeOk_of_invalid h.invalid h.forest.bound⟩

/-- Build starts from an empty forest and an empty queue. -/
theorem building_start (s : State) :
    Building 0 { s with code := noCode s.code, pq := freshQueue s.pq Config.hufPqInitCap false } where
  queue := queueInv_of_empty rfl (by decide : 1 ≤ Config.hufPqInitCap.toNat)
  forest := forest_noCode s.code
  tags := rfl
  invalid := rfl

/-- One symbol of Build's first loop: a symbol with a count gets a leaf and an entry. -/
theorem offerLeaf_building {F : Multiset (NodeIdx × HTree)} {s : State} {sym : Nat} (hsym : sym < 256) (h : Building F s) :
    After (fun _ t => (∃ G, Building G t) ∧ t.freq = s.freq ∧ s.pq.size.toNat ≤ t.pq.size.toNat ∧
      (freqAt s.freq sym ≠ 0#32 → 1 ≤ t.pq.size.toNat)) LegalParts (offerLeaf sym s) := by
  unfold offerLeaf
  rw [after_get_bind, after_ite]
  refine ⟨fun h0 => ⟨⟨F, h⟩, rfl, le_rfl, fun hne => absurd h0 hne⟩, fun _ => ?_⟩
  · rw [after_bind, after_alloc]
    refine ⟨fun hc => ?_, fun _ => h.legal⟩
    rw [after_bind, mapLeaf_run, after_ok]
    have hleaf := h.forest.newLeaf hc hsym (freqAt s.freq sym)
    refine (after_offer _ (by exact h.queue)).mono (fun _ t => ?_) (fun t => ?_)
    · rintro ⟨ht, hq, hsize, hlive⟩
      rw [ht]
      refine ⟨⟨_, hq, hleaf, ?_, h.invalid⟩, rfl, by dsimp only at hsize ⊢; omega, fun _ => by dsimp only; omega⟩
      rw [hlive, Multiset.map_cons, Multiset.map_cons, rootOf_setWidth]
      exact congrArg _ h.tags
    · rintro rfl
      exact ⟨h.queue, codeOk_of_invalid h.invalid hleaf.bound⟩

/-- Build's first loop: the queue is not empty if a listed symbol has a count. -/
theorem offerLeaves_building (l : List Nat) : ∀ {F : Multiset (NodeIdx × HTree)} {s : State}, (∀ sym ∈ l, sym < 256) →
    Building F s → After (fun _ t => (∃ G, Building G t) ∧ s.pq.size.toNat ≤ t.pq.size.toNat ∧
      ((∃ sym ∈ l, freqAt s.freq sym ≠ 0#32) → 1 ≤ t.pq.size.toNat)) LegalParts (offerLeaves l s) := by
  induction l with
  | nil => exact fun {F s} _ h => ⟨⟨F, h⟩, le_rfl, by simp⟩
  | cons sym rest ih =>
    intro F s hl h
    rw [offerLeaves, after_bind]
    refine (offerLeaf_building (hl sym (by simp)) h).imp fun _ t => ?_
    rintro ⟨⟨G, hG⟩, hfreq, hmono, hone⟩
    refine (ih (fun x hx => hl x (by simp [hx])) hG).imp fun _ u => ?_
    rintro ⟨hu, hmono', hone'⟩
    refine ⟨hu, hmono.trans hmono', ?_⟩
    rintro ⟨x, hx, hne⟩
    rcases List.mem_cons.mp hx with rfl | hx
    · exact (hone hne).trans hmono'
    · exact hone' ⟨x, hx, by rwa [hfreq]⟩

/-- One merge: two trees become one (R111). -/
theorem mergeTwo_building {F : Multiset (NodeIdx × HTree)} {s : State} (h : Building F s) (hs : 2 ≤ s.pq.size.toNat) :
    After (fun _ t => (∃ G, Building G t) ∧ t.pq.size.toNat + 1 = s.pq.size.toNat) LegalParts (mergeTwo s) := by
  have hsize₁ : (polled s.pq).size.toNat = s.pq.size.toNat - 1 := by rw [polled_size, size_pred (by omega)]
  have hsize₂ : (polled (polled s.pq)).size.toNat = s.pq.size.toNat - 2 := by
    rw [polled_size, size_pred (by omega)]; omega
  have hq : QueueInv (polled (polled s.pq)) := polled_queueInv (polled_queueInv h.queue (by omega)) (by omega)
  have htags := h.tags
  rw [← live_polled (q := s.pq) (by omega), ← live_polled (q := polled s.pq) (by omega), Multiset.map_cons,
    Multiset.map_cons] at htags
  obtain ⟨L, F₁, rfl, hF₁⟩ := exists_tree_of_roots_cons htags.symm
  obtain ⟨R, F₂, rfl, hF₂⟩ := exists_tree_of_roots_cons hF₁
  unfold mergeTwo
  rw [after_bind, after_pollMin, after_bind, after_pollMin, after_bind, after_alloc]
  refine ⟨fun hc => ?_, fun _ => ⟨hq, codeOk_of_invalid h.invalid h.forest.bound⟩⟩
  simp only [after_bind, after_setParent]
  intro ld hld rd hrd
  have hjoin := h.forest.join (h.forest.joinable hc hld hrd)
  refine (after_offer _ hq).mono (fun _ t => ?_) (fun t => ?_)
  · rintro ⟨ht, hq', hsize, hlive⟩
    rw [ht]
    refine ⟨⟨_, hq', hjoin, ?_, h.invalid⟩, by dsimp only at hsize ⊢; omega⟩
    rw [hlive, Multiset.map_cons, Multiset.map_cons, rootOf_setWidth]
    exact congrArg _ hF₂.symm
  · rintro rfl
    exact ⟨hq, codeOk_of_invalid h.invalid hjoin.bound⟩

/-- Build's second loop leaves one tree (R111). -/
theorem mergeAll_building (fuel : Nat) : ∀ {F : Multiset (NodeIdx × HTree)} {s : State}, Building F s →
    1 ≤ s.pq.size.toNat → s.pq.size.toNat ≤ fuel →
    After (fun _ t => (∃ G, Building G t) ∧ t.pq.size.toNat = 1) LegalParts (mergeAll fuel s) := by
  induction fuel with
  | zero => exact fun _ _ _ => by omega
  | succ fuel ih =>
    intro F s h h1 hf
    unfold mergeAll
    rw [after_get_bind, after_ite]
    refine ⟨fun h2 => ?_, fun h2 => ⟨⟨F, h⟩, by omega⟩⟩
    rw [after_bind]
    refine (mergeTwo_building h (by omega)).imp fun _ t => ?_
    rintro ⟨⟨G, hG⟩, hsize⟩
    exact ih hG (by omega) (by omega)

/-- The last entry is the root of the one tree (R111). -/
theorem legal_of_building_one {F : Multiset (NodeIdx × HTree)} {s : State} (h : Building F s) (h1 : s.pq.size.toNat = 1) :
    LegalParts { s with
      pq := polled s.pq, code := { s.code with root := (heapAt s.pq 1).tag.setWidth 9, valid := true } } := by
  have htags := h.tags
  have hempty : live (polled s.pq) = 0 := by
    rw [live, polled_size, size_pred (by omega), h1]; rfl
  rw [← live_polled (q := s.pq) (by omega), hempty, Multiset.map_cons] at htags
  obtain ⟨T, G, rfl, hG⟩ := exists_tree_of_roots_cons htags.symm
  obtain rfl : G = 0 := Multiset.map_eq_zero.mp hG
  exact ⟨polled_queueInv h.queue (by omega), codeOk_of_forest h.forest⟩

/-- Build, on a table with a count, leaves an empty queue and a tree, or an error (R111). -/
theorem build_legal {s : State} (hf : ∃ sym, sym < 256 ∧ freqAt s.freq sym ≠ 0#32) :
    After (fun _ => LegalParts) LegalParts (build s) := by
  obtain ⟨sym, hsym, hne⟩ := hf
  unfold build
  rw [after_bind, op_modify, after_ok, after_bind]
  refine (offerLeaves_building _ (by simp) (building_start s)).imp fun _ t => ?_
  rintro ⟨⟨F, hF⟩, -, hone⟩
  rw [after_get_bind, after_bind]
  refine (mergeAll_building _ hF (hone ⟨sym, by simpa using hsym, hne⟩) le_rfl).imp fun _ u => ?_
  rintro ⟨⟨G, hG⟩, h1⟩
  rw [after_bind, after_pollMin]
  exact legal_of_building_one hG h1

/-! ### Deser -/

/-- The nodes among the lowest `n` entries of DSTACK (10_state.md R38). -/
def stackNodes (d : DStack) : Nat → Multiset NodeIdx
  | 0 => 0
  | n + 1 =>
    match stackAt d n with
    | .ph => stackNodes d n
    | .node m => m ::ₘ stackNodes d n

theorem stackNodes_congr {d e : DStack} {n : Nat} (h : ∀ k, k < n → stackAt d k = stackAt e k) :
    stackNodes d n = stackNodes e n := by
  induction n with
  | zero => rfl
  | succ n ih => rw [stackNodes, stackNodes, h n (by omega), ih fun k hk => h k (by omega)]

theorem stackNodes_succ_ph {d : DStack} {n : Nat} (h : stackAt d n = .ph) : stackNodes d (n + 1) = stackNodes d n := by
  rw [stackNodes, h]

theorem stackNodes_succ_node {d : DStack} {n : Nat} {m : NodeIdx} (h : stackAt d n = .node m) :
    stackNodes d (n + 1) = m ::ₘ stackNodes d n := by
  rw [stackNodes, h]

/-- The lower entries stay under a push. -/
theorem stackNodes_pushed_below (d : DStack) (e : StackEntry) (h : d.dsp.toNat < Config.dstackCap) :
    stackNodes (pushed d e) d.dsp.toNat = stackNodes d d.dsp.toNat :=
  stackNodes_congr fun k hk => by rw [stackAt_pushed d e k h, if_neg (by omega)]

theorem stackAt_pushed_top (d : DStack) (e : StackEntry) (h : d.dsp.toNat < Config.dstackCap) :
    stackAt (pushed d e) d.dsp.toNat = e := by rw [stackAt_pushed d e _ h, if_pos rfl]

theorem stackNodes_push_ph (d : DStack) (h : d.dsp.toNat < Config.dstackCap) :
    stackNodes (pushed d .ph) (pushed d .ph).dsp.toNat = stackNodes d d.dsp.toNat := by
  rw [pushed_dsp d _ h, stackNodes_succ_ph (stackAt_pushed_top d _ h), stackNodes_pushed_below d _ h]

theorem stackNodes_push_node (d : DStack) (m : NodeIdx) (h : d.dsp.toNat < Config.dstackCap) :
    stackNodes (pushed d (.node m)) (pushed d (.node m)).dsp.toNat = m ::ₘ stackNodes d d.dsp.toNat := by
  rw [pushed_dsp d _ h, stackNodes_succ_node (stackAt_pushed_top d _ h), stackNodes_pushed_below d _ h]

/-- The pattern that Deser collapses (R120). -/
theorem collapsible_some {d : DStack} {l r : NodeIdx} (h : collapsible d = some (l, r)) :
    3 ≤ d.dsp.toNat ∧ stackAt d (d.dsp.toNat - 3) = .ph ∧ stackAt d (d.dsp.toNat - 2) = .node l ∧
      stackAt d (d.dsp.toNat - 1) = .node r := by
  unfold collapsible at h
  dsimp only at h
  split at h
  · rename_i h3
    split at h
    · rename_i e₁ e₂ e₃
      obtain ⟨rfl, rfl⟩ : _ = l ∧ _ = r := by simpa using h
      exact ⟨h3, e₁, e₂, e₃⟩
    · cases h
  · cases h

theorem stackNodes_collapsible {d : DStack} {l r : NodeIdx} (h : collapsible d = some (l, r)) :
    stackNodes d d.dsp.toNat = l ::ₘ r ::ₘ stackNodes d (d.dsp.toNat - 3) := by
  obtain ⟨h3, hph, hl, hr⟩ := collapsible_some h
  obtain ⟨n, hn⟩ : ∃ n, d.dsp.toNat = n + 3 := ⟨d.dsp.toNat - 3, by omega⟩
  rw [hn] at hph hl hr ⊢
  rw [stackNodes_succ_node (n := n + 2) hr, stackNodes_succ_node (n := n + 1) hl, stackNodes_succ_ph (n := n) hph,
    Multiset.cons_swap]
  rfl

theorem stackNodes_soleNode {d : DStack} {t : NodeIdx} (h : soleNode d = some t) : stackNodes d d.dsp.toNat = {t} := by
  unfold soleNode at h
  split at h
  · rename_i h1
    split at h
    · rename_i m hm
      obtain rfl : m = t := by simpa using h
      rw [h1]
      exact stackNodes_succ_node hm
    · cases h
  · cases h

/-- Between two steps of Deser the arena is the forest `F`, and DSTACK holds its roots (R120). -/
structure Deserializing (F : Multiset (NodeIdx × HTree)) (s : State) : Prop where
  forest  : Forest s.code F
  roots   : stackNodes s.dstack s.dstack.dsp.toNat = F.map Prod.fst
  invalid : s.code.valid = false

/-- The code is a tree or absent. -/
def CodeLegal (s : State) : Prop := CodeOk s.code

theorem Deserializing.legal {F : Multiset (NodeIdx × HTree)} {s : State} (h : Deserializing F s) : CodeLegal s :=
  codeOk_of_invalid h.invalid h.forest.bound

/-- What the reader does to the input changes nothing of the state of Deser. -/
theorem Deserializing.within {F : Multiset (NodeIdx × HTree)} {s t : State} (h : Deserializing F s)
    (hw : Within [.inp] s t) : Deserializing F t := by
  have hc : t.code = s.code := hw.2 .code (by simp)
  have hd : t.dstack = s.dstack := hw.2 .dstack (by simp)
  exact ⟨hc ▸ h.forest, hd ▸ h.roots, hc ▸ h.invalid⟩

theorem dsp_lt_of_ne {d : DStack} (h : d.dsp ≠ 511#9) : d.dsp.toNat < Config.dstackCap := by
  have := d.dsp.isLt
  have : d.dsp.toNat ≠ 511 := fun e => h (BitVec.eq_of_toNat_eq e)
  change d.dsp.toNat < 511
  omega

/-- The inner loop joins the two topmost trees as long as a placeholder stands below them (R120). -/
theorem collapse_deserializing (fuel : Nat) : ∀ {F : Multiset (NodeIdx × HTree)} {s : State}, Deserializing F s →
    After (fun _ t => ∃ G, Deserializing G t) CodeLegal (collapse fuel s) := by
  induction fuel with
  | zero => exact fun {F s} h => ⟨F, h⟩
  | succ fuel ih =>
    intro F s h
    unfold collapse
    rw [after_get_bind]
    cases hcol : collapsible s.dstack with
    | none => exact ⟨F, h⟩
    | some lr =>
      obtain ⟨l, r⟩ := lr
      have hroots := h.roots
      rw [stackNodes_collapsible hcol] at hroots
      obtain ⟨L, F₁, rfl, hF₁⟩ := exists_tree_of_roots_cons hroots.symm
      obtain ⟨R, F₂, rfl, hF₂⟩ := exists_tree_of_roots_cons hF₁
      have h3 := (collapsible_some hcol).1
      have hdsp : (s.dstack.dsp - 3#9).toNat = s.dstack.dsp.toNat - 3 := by
        have := s.dstack.dsp.isLt
        rw [BitVec.toNat_sub]; simp; omega
      dsimp only
      rw [after_bind, op_modify, after_ok, after_bind, after_alloc]
      refine ⟨fun hc => ?_, fun _ => h.legal⟩
      simp only [after_bind, after_setParent, push_run, after_ok]
      intro ld hld rd hrd
      have hlow : ({ s.dstack with dsp := s.dstack.dsp - 3#9 } : DStack).dsp.toNat < Config.dstackCap := by
        have := s.dstack.dsp.isLt
        change (s.dstack.dsp - 3#9).toNat < 511
        omega
      refine ih (F := (_, .node L R) ::ₘ F₂) ⟨h.forest.join (h.forest.joinable hc hld hrd), ?_, h.invalid⟩
      rw [stackNodes_push_node _ _ hlow, Multiset.map_cons, hF₂]
      dsimp only
      rw [hdsp]
      exact congrArg _ (stackNodes_congr fun _ _ => rfl)

theorem parentMarker_deserializing {F : Multiset (NodeIdx × HTree)} {s : State} (h : Deserializing F s) :
    After (fun _ t => Deserializing F t) CodeLegal (parentMarker s) := by
  unfold parentMarker
  rw [after_get_bind, after_require_bind]
  refine ⟨fun hne => ⟨h.forest, ?_, h.invalid⟩, fun _ => h.legal⟩
  exact (stackNodes_push_ph _ (dsp_lt_of_ne hne)).trans h.roots

/-- GetBits answers a number of as many bits (41_bitstream_in.md R77). -/
theorem getBitsFrom_div (n : Nat) : ∀ (v : Nat) (s : State),
    After (fun w _ => w / 2 ^ n = v) (fun _ => True) (getBitsFrom n v s) := by
  induction n with
  | zero => exact fun v s => by simp [getBitsFrom]
  | succ n ih =>
    intro v s
    rw [getBitsFrom, after_bind]
    refine after_of_forall (fun (b : Bool) t => (ih (2 * v + b.toNat) t).imp fun w _ hw => ?_) (fun _ => trivial) _
    rw [Nat.pow_succ, ← Nat.div_div_eq_div_mul, hw]
    cases b <;> simp
    omega

theorem getBits_lt (n : Nat) (s : State) : After (fun w _ => w < 2 ^ n) (fun _ => True) (getBits n s) :=
  (getBitsFrom_div n 0 s).imp fun _ _ hw => (Nat.div_eq_zero_iff_lt (by positivity)).mp hw

theorem leafMarker_deserializing {F : Multiset (NodeIdx × HTree)} {s : State} (h : Deserializing F s) :
    After (fun _ t => ∃ G, Deserializing G t) CodeLegal (leafMarker s) := by
  unfold leafMarker
  rw [bitsLeft, after_bind, after_get_bind, op_pure, after_ok, after_require_bind]
  refine ⟨fun _ => ?_, fun _ => h.legal⟩
  rw [after_bind]
  refine ((getBits_lt 8 s).and (after_within (getBits_footprint 8) s)).mono (fun sym t => ?_)
    (fun t ht => (h.within ht.2).legal)
  rintro ⟨hsym, hw⟩
  have ht := h.within hw
  rw [after_get_bind, after_require_bind]
  refine ⟨fun hroom => ?_, fun _ => ht.legal⟩
  rw [after_bind, after_alloc]
  refine ⟨fun hc => ?_, fun _ => ht.legal⟩
  simp only [after_bind, mapLeaf_run, push_run, after_ok, op_get]
  have hleaf := ht.forest.newLeaf hc hsym 0#32
  refine collapse_deserializing _ ⟨hleaf, ?_, ht.invalid⟩
  dsimp only
  rw [stackNodes_push_node _ _ (dsp_lt_of_ne hroom.2), Multiset.map_cons, ht.roots]

/-- The loop of Deser ends with one tree, or in an error with no code (R120). -/
theorem deserFrom_legal (fuel : Nat) : ∀ {F : Multiset (NodeIdx × HTree)} {s : State}, Deserializing F s →
    After (fun _ => CodeLegal) CodeLegal (deserFrom fuel s) := by
  induction fuel with
  | zero => exact fun h => h.legal
  | succ fuel ih =>
    intro F s h
    rw [deserFrom, bitsLeft, after_bind, after_get_bind, op_pure, after_ok, after_require_bind]
    refine ⟨fun _ => ?_, fun _ => h.legal⟩
    rw [after_bind]
    refine (after_within getBit_footprint s).mono (fun b t hw => ?_) (fun t hw => (h.within hw).legal)
    have ht := h.within hw
    cases b with
    | true =>
      rw [if_pos rfl, after_bind]
      exact (parentMarker_deserializing ht).imp fun _ u hu => ih hu
    | false =>
      rw [if_neg (by simp), after_bind]
      refine (leafMarker_deserializing ht).imp fun _ u => ?_
      rintro ⟨G, hG⟩
      rw [after_get_bind]
      cases hsole : soleNode u.dstack with
      | none => exact ih hG
      | some r =>
        have hroots := hG.roots
        rw [stackNodes_soleNode hsole] at hroots
        obtain ⟨T, G', rfl, hG'⟩ := exists_tree_of_roots_cons (R := 0) hroots.symm
        obtain rfl : G' = 0 := Multiset.map_eq_zero.mp hG'
        exact codeOk_of_forest hG.forest

theorem deser_legal (s : State) : After (fun _ => CodeLegal) CodeLegal (deser s) := by
  unfold deser
  rw [after_bind, op_modify, after_ok, bitsLeft, after_bind, after_get_bind, op_pure, after_ok]
  exact deserFrom_legal _ (F := 0) ⟨forest_noCode s.code, rfl, rfl⟩

end Sys2Proof.Proofs

/-! PROOFS. The frequency table: what a scan counts (44_huffman_tree.md R110), and that a table with a sum has a count. -/

namespace Sys2Proof.Proofs

open Sys2Proof Sys2Proof.Machine Sys2Proof.Safety Sys2Proof.Laws

theorem freqAt_of_ge (f : FreqTable) {sym : Nat} (h : 256 ≤ sym) : freqAt f sym = 0#32 := by
  simp [freqAt, fileGet, Nat.not_lt.mpr h]

/-- A table whose sum is not 0 has a count (R116). -/
theorem exists_freqAt_ne_zero {f : FreqTable} (h : freqTotal f ≠ 0) : ∃ sym, sym < 256 ∧ freqAt f sym ≠ 0#32 := by
  by_contra hall
  push Not at hall
  refine h (List.sum_eq_zero fun n hn => ?_)
  obtain ⟨w, hw, rfl⟩ := List.mem_map.mp hn
  obtain ⟨i, hi, rfl⟩ := List.getElem_of_mem hw
  have h256 : i < 256 := by simpa using hi
  have := hall i h256
  rw [freqAt, fileGet_eq _ _ h256] at this
  simp [this]

/-- The counting loop of Scan raises nothing, adds at most its bytes to any counter and takes none away; it counts its
first byte (R110). -/
theorem countFrom_counts (n : Nat) : ∀ (k m : Nat) (s : State), m + n < 2 ^ 32 →
    (∀ sym, (freqAt s.freq sym).toNat ≤ m) →
    After (fun _ t => (∀ sym, (freqAt t.freq sym).toNat ≤ m + n) ∧
      (∀ sym, (freqAt s.freq sym).toNat ≤ (freqAt t.freq sym).toNat) ∧
      (n ≠ 0 → ∃ sym, sym < 256 ∧ freqAt t.freq sym ≠ 0#32)) (fun _ => False) (countFrom n k s) := by
  induction n with
  | zero => exact fun k m s _ h => ⟨h, fun _ => le_rfl, fun h0 => absurd rfl h0⟩
  | succ n ih =>
    intro k m s hm h
    rw [countFrom, after_bind]
    by_cases hk : k < s.cfg.inCap
    · rw [inByte_ok hk, after_ok]
      generalize s.mem.read (inBase + k) = b
      rw [after_bind, op_modify, after_ok]
      have hone : (freqAt s.freq b.toNat + 1#32).toNat = (freqAt s.freq b.toNat).toNat + 1 := by
        have := h b.toNat
        rw [BitVec.toNat_add, Nat.mod_eq_of_lt] <;> simp; omega
      have hset : ∀ sym, (freqAt (setFreq s.freq b.toNat (freqAt s.freq b.toNat + 1#32)) sym).toNat =
          (freqAt s.freq sym).toNat + if b.toNat = sym then 1 else 0 := fun sym => by
        rcases Nat.lt_or_ge sym 256 with hs | hs
        · rw [freqAt_setFreq _ _ _ _ hs]
          split
          · rename_i he; rw [← he, hone]
          · rfl
        · have := b.isLt
          rw [freqAt_of_ge _ hs, freqAt_of_ge _ hs, if_neg (by omega)]
          rfl
      refine (ih (k + 1) (m + 1) _ (by omega) fun sym => ?_).imp fun _ t => ?_
      · rw [hset]
        have := h sym
        split <;> omega
      · rintro ⟨hle, hge, -⟩
        refine ⟨fun sym => by have := hle sym; omega, fun sym => ?_, fun _ => ⟨b.toNat, b.isLt, fun e => ?_⟩⟩
        · have := hge sym
          rw [hset] at this
          omega
        · have := hge b.toNat
          rw [hset, if_pos rfl, e] at this
          simp at this
    · rw [inByte_fault hk]
      trivial

/-- A scan of a stream counts no symbol above IN_LEN times, and some symbol if the stream is not empty (R110, R115). -/
theorem scan_counts (s : State) :
    After (fun _ t => (∀ sym, (freqAt t.freq sym).toNat ≤ s.inp.len.toNat) ∧
      (s.inp.len ≠ 0#32 → ∃ sym, sym < 256 ∧ freqAt t.freq sym ≠ 0#32)) (fun _ => False) (scan s) := by
  unfold scan
  rw [after_bind, op_modify, after_ok, after_get_bind, after_bind]
  refine (countFrom_counts _ 0 0 _ (by simpa using s.inp.len.isLt) fun sym => ?_).imp fun _ t => ?_
  · have : freqAt { s.freq with counts := Vector.replicate 256 0#32 } sym = 0#32 := by simp [freqAt]
    simp [this]
  · rintro ⟨hle, -, hne⟩
    rw [after_bind, inReset, op_modify, after_ok, op_modify, after_ok]
    exact ⟨fun sym => (hle sym).trans_eq (Nat.zero_add _), fun h => hne fun e => h (BitVec.eq_of_toNat_eq e)⟩

/-! ### HUF_BUILD, HUF_COMPRESS, HUF_RDHDR and HUF_EXPAND -/

/-- HUF_BUILD keeps what holds before it and of every state with the queue in order and a tree or no code (R116). -/
theorem opHufBuild_keeps {I : State → Prop} {s : State} (hs : I s) (hI : ∀ t, LegalParts t → I t) :
    After (fun _ => I) I (opHufBuild s) := by
  unfold opHufBuild
  rw [after_get_bind, after_require_bind]
  refine ⟨fun _ => ?_, fun _ => hs⟩
  rw [after_require_bind]
  refine ⟨fun hne => ?_, fun _ => hs⟩
  rw [after_require_bind]
  exact ⟨fun _ => (build_legal (exists_freqAt_ne_zero hne)).mono (fun _ => hI) hI, fun _ => hs⟩

theorem after_needReader_bind {α : Type} {Q : α → State → Prop} {E : State → Prop} {f : Unit → Op α} {s : State} :
    After Q E ((needReader >>= f) s) ↔ (s.ctrl.inEn = true → After Q E (f () s)) ∧ (¬ s.ctrl.inEn = true → E s) := by
  rw [after_bind, needReader_run]
  by_cases h : s.ctrl.inEn = true <;> simp [h]

theorem after_needWriter_bind {α : Type} {Q : α → State → Prop} {E : State → Prop} {f : Unit → Op α} {s : State} :
    After Q E ((needWriter >>= f) s) ↔ (s.ctrl.outEn = true → After Q E (f () s)) ∧ (¬ s.ctrl.outEn = true → E s) := by
  rw [after_bind, needWriter_run]
  by_cases h : s.ctrl.outEn = true <;> simp [h]

/-- The writing half of HUF_COMPRESS changes the streams only (46_huffman_stream.md R129). -/
theorem compressTail_footprint (n : Nat) :
    Footprint [.inp, .out, .mem] (do serRoot; writeVarint n; inReset; compressBytes n; flush) :=
  .ofBind (serRoot_footprint.mono (by simp)) fun _ => .ofBind ((writeVarint_footprint n).mono (by simp)) fun _ =>
  .ofBind (inReset_footprint.mono (by simp)) fun _ => .ofBind (compressBytes_footprint n) fun _ =>
  flush_footprint.mono (by simp)

/-- HUF_COMPRESS keeps what HUF_BUILD keeps and neither the streams nor the table touch (R129). -/
theorem opHufCompress_keeps {I : State → Prop} {s : State} (hs : I s) (hI : ∀ t, LegalParts t → I t)
    (hw : ∀ t u, Within [.inp, .out, .mem, .freq] t u → I t → I u) : After (fun _ => I) I (opHufCompress s) := by
  unfold opHufCompress
  rw [after_needReader_bind]
  refine ⟨fun _ => ?_, fun _ => hs⟩
  rw [after_needWriter_bind]
  refine ⟨fun _ => ?_, fun _ => hs⟩
  rw [after_get_bind, after_ite]
  refine ⟨fun _ => hs, fun hlen => ?_⟩
  unfold compressStream
  rw [after_get_bind, after_bind]
  refine (scan_counts s).mono (fun _ t => ?_) (fun _ => False.elim)
  rintro ⟨-, hne⟩
  rw [after_bind]
  refine (build_legal (hne hlen)).mono (fun _ u hu => ?_) hI
  exact after_footprint (compressTail_footprint _) fun v hv => hw u v (hv.mono (by simp)) (hI u hu)

/-- The half of HUF_EXPAND after the header changes the streams only (46_huffman_stream.md R130). -/
theorem expandTail_footprint : Footprint [.inp, .out, .mem] (do let n ← readVarint; expandSymbols n; flush) :=
  .ofBind (readVarint_footprint.mono (by simp)) fun n => .ofBind (expandSymbols_footprint n) fun _ =>
  flush_footprint.mono (by simp)

theorem codeLegal_of_within {τ : List Part} {s t : State} (h : Within τ s t) (hc : .code ∉ τ) (hs : CodeLegal s) :
    CodeLegal t := by
  have : t.code = s.code := h.2 .code hc
  rwa [CodeLegal, this]

theorem opHufRdhdr_codeLegal {s : State} (hs : CodeLegal s) : After (fun _ => CodeLegal) CodeLegal (opHufRdhdr s) := by
  unfold opHufRdhdr
  rw [after_needReader_bind]
  exact ⟨fun _ => deser_legal s, fun _ => hs⟩

theorem opHufExpand_codeLegal {s : State} (hs : CodeLegal s) : After (fun _ => CodeLegal) CodeLegal (opHufExpand s) := by
  unfold opHufExpand
  rw [after_needReader_bind]
  refine ⟨fun _ => ?_, fun _ => hs⟩
  rw [after_needWriter_bind]
  refine ⟨fun _ => ?_, fun _ => hs⟩
  rw [after_get_bind, after_ite]
  refine ⟨fun _ => hs, fun _ => ?_⟩
  unfold expandStream
  rw [after_bind, inReset, op_modify, after_ok, after_bind]
  refine (deser_legal _).imp fun _ t ht => ?_
  exact after_footprint expandTail_footprint fun u hu => codeLegal_of_within hu (by simp) ht

/-! ### The queue commands -/

theorem opPqInit_queueInv {s : State} (hs : QueueInv s.pq) :
    After (fun _ t => QueueInv t.pq) (fun t => QueueInv t.pq) (opPqInit s) := by
  unfold opPqInit
  simp only [after_bind, operand0_run, operand1_run, signedOperand0_run, after_ok, op_get, after_require, op_set]
  refine ⟨fun _ => ⟨fun _ => ⟨fun hpos => ⟨fun hcap => ?_, fun _ => hs⟩, fun _ => hs⟩, fun _ => hs⟩, fun _ => hs⟩
  refine queueInv_of_empty rfl ?_
  change 1 ≤ (BitVec.ofNat 10 s.a0.toNat).toNat
  have hphys : Config.heapPhys = 1023 := rfl
  have hne : s.a0.toNat ≠ 0 := fun e => by
    rw [BitVec.eq_of_toNat_eq (y := 0#32) e] at hpos
    exact absurd hpos (by decide)
  rw [BitVec.toNat_ofNat, Nat.mod_eq_of_lt (by omega)]
  omega

theorem opPqOffer_queueInv {s : State} (present : Bool) (hs : QueueInv s.pq) :
    After (fun _ t => QueueInv t.pq) (fun t => QueueInv t.pq) (opPqOffer present s) := by
  unfold opPqOffer
  rw [after_require_bind]
  refine ⟨fun _ => ?_, fun _ => hs⟩
  rw [after_get_bind]
  exact (after_offer _ hs).mono (fun _ t ht => ht.2.1) (fun t ht => ht ▸ hs)

theorem opPqPoll_queueInv {s : State} (hs : QueueInv s.pq) :
    After (fun _ t => QueueInv t.pq) (fun t => QueueInv t.pq) (opPqPoll s) := by
  unfold opPqPoll
  rw [after_get_bind, after_ite]
  refine ⟨fun _ => hs, fun hne => ?_⟩
  rw [after_bind, after_pollMin, setResEntry_run, after_ok]
  exact polled_queueInv hs (Nat.one_le_iff_ne_zero.mpr fun e => hne (BitVec.eq_of_toNat_eq e))

/-! ### Every command, every step -/

/-- A property that only one part of the state decides is kept by every body that does not list the part. -/
theorem after_bodyOf_of_not_mem {I : State → Prop} {p : Part} (hI : ∀ t u, samePart p t u → I t → I u) {i : Instr}
    (hp : p ∉ bodyParts i) {s : State} (hs : I s) : After (fun _ => I) I (bodyOf i s) :=
  after_footprint (bodyOf_footprint i) fun t ht => hI s t (ht.2 p hp) hs

/-- No body takes the queue out of order. -/
theorem bodyOf_queueInv (i : Instr) {s : State} (hs : QueueInv s.pq) :
    After (fun _ t => QueueInv t.pq) (fun t => QueueInv t.pq) (bodyOf i s) := by
  have hsame : ∀ t u : State, samePart .pq t u → QueueInv t.pq → QueueInv u.pq := fun t u (h : u.pq = t.pq) ht => h ▸ ht
  by_cases hp : Part.pq ∈ bodyParts i
  · cases i with
    | sreset => exact queueInv_of_empty rfl (by decide : 1 ≤ Config.pqResetCap.toNat)
    | pqInit => exact opPqInit_queueInv hs
    | pqOffer present => exact opPqOffer_queueInv present hs
    | pqPoll => exact opPqPoll_queueInv hs
    | hufBuild => exact opHufBuild_keeps (I := fun t => QueueInv t.pq) hs fun t ht => ht.1
    | hufCompress =>
      exact opHufCompress_keeps (I := fun t => QueueInv t.pq) hs (fun t ht => ht.1) fun t u h =>
        hsame t u (h.2 .pq (by simp))
    | _ => exact absurd hp (by simp [bodyParts])
  · exact after_bodyOf_of_not_mem (I := fun t => QueueInv t.pq) hsame hp hs

/-- No body leaves a code that is no tree. -/
theorem bodyOf_codeLegal (i : Instr) {s : State} (hs : CodeLegal s) : After (fun _ => CodeLegal) CodeLegal (bodyOf i s) := by
  have hsame : ∀ t u : State, samePart .code t u → CodeLegal t → CodeLegal u := fun t u (h : u.code = t.code) ht =>
    show CodeOk u.code from h ▸ ht
  by_cases hp : Part.code ∈ bodyParts i
  · cases i with
    | sreset => exact codeOk_of_invalid rfl (by decide : (0#10).toNat ≤ Config.nodeCap)
    | hufBuild => exact opHufBuild_keeps hs fun t ht => ht.2
    | hufRdhdr => exact opHufRdhdr_codeLegal hs
    | hufCompress =>
      exact opHufCompress_keeps hs (fun t ht => ht.2) fun t u h => hsame t u (h.2 .code (by simp))
    | hufExpand => exact opHufExpand_codeLegal hs
    | _ => exact absurd hp (by simp [bodyParts])
  · exact after_bodyOf_of_not_mem hsame hp hs

/-- Settles O54: the sifts restore the order, so every body keeps it; no other step touches the queue but power-on. -/
theorem heapOrderKept : Obligations.HeapOrderKept := by
  unfold Obligations.HeapOrderKept
  intro s t hs h
  change QueueInv s.pq at hs
  change QueueInv t.pq
  cases stepped_of_step h with
  | poweredOn rest => exact queueInv_of_empty rfl (by decide : 1 ≤ Config.pqResetCap.toNat)
  | illegal u hu => cases hu <;> exact hs
  | ran i u t hu he =>
    have hus : QueueInv u.pq := by cases hu <;> exact hs
    rw [exec_eq] at he
    exact after_command (J := fun t => QueueInv t.pq) (bodyOf_queueInv i hus) (fun _ h => h) (fun _ _ h => h) he
  | _ => exact hs

/-- Settles O55: Build and Deser join the trees of a forest until one is left, and hold no code before; no other body
touches the arena but SRESET. -/
theorem codeStaysATree : Obligations.CodeStaysATree := by
  unfold Obligations.CodeStaysATree
  intro s t hs h
  cases stepped_of_step h with
  | poweredOn rest => exact codeOk_of_invalid rfl (by decide : (0#10).toNat ≤ Config.nodeCap)
  | illegal u hu => cases hu <;> exact hs
  | ran i u t hu he =>
    have hus : CodeLegal u := by cases hu <;> exact hs
    rw [exec_eq] at he
    exact after_command (J := CodeLegal) (bodyOf_codeLegal i hus) (fun _ h => h) (fun _ _ h => h) he
  | _ => exact hs

end Sys2Proof.Proofs

/-! PROOFS. Registers: the host's accesses to them, which commands write CTRL and the results (10_state.md R20, R24, R27,
R29), what STATUS says between steps (R22, R23), and the reset state. -/

namespace Sys2Proof.Proofs

open Sys2Proof Sys2Proof.Machine Sys2Proof.Safety Sys2Proof.Laws

/-! ### Host accesses to registers -/

/-- A block that is not busy performs the host's oldest access (20_memory.md R55). -/
theorem step_nextEvent {s : State} {e : HostEvent} {rest : List HostEvent} (h : NextEvent s e rest) :
    step s = perform e { s with host := rest } := by
  obtain ⟨hb, hh⟩ := h
  simp [step, advance, hb, hh]

/-- A 32-bit access to an aligned offset of the register block reaches the register there (R44, R45). -/
theorem locate_reg (cfg : Config.Params) {a : Nat} {r : Reg} (h4 : a % 4 = 0) (ha : a < 0x1000) (hr : regAt a = some r) :
    locate cfg a 4 = some (.reg r) := by
  simp [locate, h4, ha, hr]

theorem hostRead_reg (s : State) {a : BitVec 28} {r : Reg} (h4 : a.toNat % 4 = 0) (ha : a.toNat < 0x1000)
    (hr : regAt a.toNat = some r) : hostRead s a .four = some (readReg s r) := by
  simp [hostRead, widthBytes, locate_reg s.cfg h4 ha hr]

/-- The next step, when the host writes a register. -/
theorem step_writeReg {s : State} {a : BitVec 28} {r : Reg} {v : Word} {rest : List HostEvent}
    (h : NextEvent s (.write a .four v) rest) (h4 : a.toNat % 4 = 0) (ha : a.toNat < 0x1000)
    (hr : regAt a.toNat = some r) : step s = writeReg r v { s with host := rest } := by
  rw [step_nextEvent h]
  simp [perform, hostWrite, widthBytes, locate_reg s.cfg h4 ha hr]

/-- Settles O12: each of the eight offsets is a register's, and the writes and reads are those of R27 and R29. -/
theorem streamRegisterWrites : Obligations.StreamRegisterWrites := by
  unfold Obligations.StreamRegisterWrites
  intro s v rest hcfg
  have hlen : (BitVec.ofNat 32 (min v.toNat s.cfg.inCap)).toNat = min v.toNat s.cfg.inCap := by
    have := v.isLt
    rw [BitVec.toNat_ofNat, Nat.mod_eq_of_lt (by omega)]
  exact ⟨fun h => ⟨_, hlen, step_writeReg (r := .inLen) h rfl (by decide) rfl⟩,
    fun h => step_writeReg (r := .outLen) h rfl (by decide) rfl,
    hostRead_reg s (r := .inLen) rfl (by decide) rfl, hostRead_reg s (r := .inPos) rfl (by decide) rfl,
    hostRead_reg s (r := .inBits) rfl (by decide) rfl, hostRead_reg s (r := .outLen) rfl (by decide) rfl,
    hostRead_reg s (r := .outBits) rfl (by decide) rfl,
    fun h => step_writeReg (r := .inPos) h rfl (by decide) rfl,
    fun h => step_writeReg (r := .inBits) h rfl (by decide) rfl,
    fun h => step_writeReg (r := .outBits) h rfl (by decide) rfl⟩

/-! ### Who writes CTRL and the results -/

/-- A part a command has changed is STATUS, ERRINFO or listed for the command. -/
theorem mem_of_not_samePart {i : Instr} {s t : State} (h : exec i s = .next t) {p : Part} (hp : ¬ samePart p s t) :
    p ∈ Part.status :: .errInfo :: bodyParts i := by
  by_contra hn
  exact hp (exec_samePart h p hn)

/-- Settles O19: a result that has changed is a part of the command's footprint. -/
theorem resultsWrittenAsNamed : Obligations.ResultsWrittenAsNamed := by
  unfold Obligations.ResultsWrittenAsNamed
  intro i s t h
  refine ⟨fun hne => ?_, fun hne => ?_, fun hne => ?_⟩
  · have hp : Part.res0 ∈ Part.status :: .errInfo :: bodyParts i := mem_of_not_samePart h hne
    cases i <;> simp [bodyParts] at hp ⊢
  · have hp : Part.res1 ∈ Part.status :: .errInfo :: bodyParts i := mem_of_not_samePart h hne
    cases i <;> simp [bodyParts] at hp ⊢
  · have hp : Part.res2 ∈ Part.status :: .errInfo :: bodyParts i := mem_of_not_samePart h hne
    cases i <;> simp [bodyParts] at hp ⊢

/-- CTRL reads the low three bits written to it (R24). -/
theorem ctrlWord_ctrlOfWord (v : Word) : ctrlWord (ctrlOfWord v) = v &&& 7#32 := by
  have h7 : ∀ i, (7#32).getLsbD i = decide (i < 3) := fun i => by
    rcases Nat.lt_or_ge i 32 with hi | hi
    · exact (by decide : ∀ i, i < 32 → (7#32).getLsbD i = decide (i < 3)) i hi
    · rw [BitVec.getLsbD_of_ge _ _ hi]; simp; omega
  apply BitVec.eq_of_getLsbD_eq
  intro i hi
  rw [BitVec.getLsbD_and, h7]
  simp only [ctrlWord, ctrlOfWord, BitVec.getLsbD_append, BitVec.getLsbD_ofBool, BitVec.getLsbD_zero]
  rcases i with _ | _ | _ | i <;> simp

/-- With the reader absent a command that needs it raises NULL_ARGUMENT and does nothing else (R24). -/
theorem command_needReader_absent {s : State} (f : Unit → Op Unit) (h : s.ctrl.inEn = false) :
    command (needReader >>= f) s = .next (takeError .nullArgument s) :=
  command_raise (by rw [op_bind, needReader_run]; simp [h])

/-- With the writer absent a command that needs it raises NULL_ARGUMENT and does nothing else (R24). -/
theorem command_needWriter_absent {s : State} (f : Unit → Op Unit) (h : s.ctrl.outEn = false) :
    command (needWriter >>= f) s = .next (takeError .nullArgument s) :=
  command_raise (by rw [op_bind, needWriter_run]; simp [h])

/-- With either stream absent a command that needs both raises NULL_ARGUMENT and does nothing else (R24). -/
theorem command_needBoth_absent {s : State} (f : Unit → Op Unit) (h : s.ctrl.outEn = false) :
    command (needReader >>= fun _ => needWriter >>= f) s = .next (takeError .nullArgument s) := by
  refine command_raise ?_
  rw [op_bind, needReader_run]
  split_ifs <;> simp [needWriter_run, h]

theorem exec_reader_absent {i : Instr} {s : State} (hi : i ∈ inputCommands) (h : s.ctrl.inEn = false) :
    exec i s = .next (takeError .nullArgument s) := by
  cases i with
  | rdBit | rdBits | rdByte | rdBytes | rdInt | inLength | inReset | freqScan | hufRdhdr | hufDec | hufCompress | hufExpand
  | lzwRead => exact command_needReader_absent _ h
  | _ => simp [inputCommands] at hi

theorem exec_writer_absent {i : Instr} {s : State} (hi : i ∈ outputCommands) (h : s.ctrl.outEn = false) :
    exec i s = .next (takeError .nullArgument s) := by
  cases i with
  | wrBit | wrBits | wrByte | wrBytes | wrInt | wrFlush | hufWrhdr | hufEnc | lzwWrite =>
    exact command_needWriter_absent _ h
  | hufCompress | hufExpand => exact command_needBoth_absent _ h
  | _ => simp [outputCommands] at hi

/-- Settles O18: CTRL is in SRESET's footprint alone, and the check of the stream comes first in every command that needs
one. -/
theorem controlRegister : Obligations.ControlRegister := by
  unfold Obligations.ControlRegister
  refine ⟨fun s v rest h => ⟨_, step_writeReg (r := .ctrl) h rfl (by decide) rfl, ?_, rfl⟩, fun i s t h hi => ?_,
    fun s t h => ?_, rfl, fun i s => exec_reader_absent, fun i s => exec_writer_absent⟩
  · exact (hostRead_reg _ (r := .ctrl) rfl (by decide) rfl).trans (congrArg some (ctrlWord_ctrlOfWord v))
  · exact exec_samePart h .ctrl (by cases i <;> simp [bodyParts] at hi ⊢)
  · cases (show exec .sreset s = .next (complete (softReset s)) from rfl).symm.trans h
    exact (rfl : ctrlWord Ctrl.reset = 0#32)

/-! ### STATUS between steps -/

/-- What a body does to STATUS, but for CLR_ERR and SRESET: nothing, or one of the two sentinels (60_exceptions.md R139). -/
def Flagged (s t : State) : Prop :=
  t.status = s.status ∨
  (t.status = flagsEos s.status ∧ t.res0 = 0xFFFFFFFF#32) ∨
  (t.status = flagsEmpty s.status ∧ t.res0 = 0#32 ∧ t.res1 = 0#32)

theorem Flagged.refl (s : State) : Flagged s s := .inl rfl

theorem Flagged.of_within {τ : List Part} {s t : State} (h : Within τ s t) (hp : .status ∉ τ) : Flagged s t :=
  .inl (h.2 .status hp)

theorem readOrEos_flagged {τ : List Part} (n : Nat) {after : Op Unit} (h : Footprint τ after) (hp : .status ∉ τ)
    (s : State) : After (fun _ => Flagged s) (Flagged s) (readOrEos n after s) := by
  unfold readOrEos
  rw [bitsLeft, after_bind, after_get_bind, op_pure, after_ok, after_ite]
  refine ⟨fun _ => .inr (.inl ⟨rfl, rfl⟩), fun _ => ?_⟩
  have hread : Footprint (.inp :: .res0 :: τ) (do setRes0 (BitVec.ofNat 32 (← getBits n)); after) :=
    .ofBind ((getBits_footprint n).mono (by simp)) fun v => .ofBind ((setRes0_footprint _).mono (by simp)) fun _ =>
      h.mono (by simp)
  exact after_footprint hread fun t ht => .of_within ht (by simp [hp])

theorem opRdBytes_flagged (s : State) : After (fun _ => Flagged s) (Flagged s) (opRdBytes s) := by
  unfold opRdBytes
  rw [after_needReader_bind]
  refine ⟨fun _ => ?_, fun _ => .refl s⟩
  rw [after_bind, operand0_run, after_ok, after_bind, operand1_run, after_ok, after_get_bind, after_require_bind]
  refine ⟨fun _ => ?_, fun _ => .refl s⟩
  rw [after_require_bind]
  refine ⟨fun _ => ?_, fun _ => .refl s⟩
  refine after_ite.mpr ⟨fun _ => .inl rfl, fun _ => after_ite.mpr ⟨fun _ => .inr (.inl ⟨rfl, rfl⟩), fun _ => ?_⟩⟩
  exact after_footprint (moveInput_footprint _ _) fun t ht => .of_within ht (by simp)

theorem bodyOf_flagged {i : Instr} (hc : i ≠ .clrErr) (hr : i ≠ .sreset) (s : State) :
    After (fun _ => Flagged s) (Flagged s) (bodyOf i s) := by
  by_cases hp : Part.status ∈ bodyParts i
  · cases i with
    | rdBit =>
      refine after_needReader_bind.mpr ⟨fun _ => ?_, fun _ => .refl s⟩
      exact readOrEos_flagged (τ := []) 1 (.ofPure _) (by simp) s
    | rdBits =>
      refine after_needReader_bind.mpr ⟨fun _ => ?_, fun _ => .refl s⟩
      rw [after_bind, operand0_run, after_ok, after_require_bind]
      exact ⟨fun _ => readOrEos_flagged (τ := []) _ (.ofPure _) (by simp) s, fun _ => .refl s⟩
    | rdByte =>
      refine after_needReader_bind.mpr ⟨fun _ => ?_, fun _ => .refl s⟩
      exact readOrEos_flagged (τ := []) 8 (.ofPure _) (by simp) s
    | rdBytes => exact opRdBytes_flagged s
    | pqPoll =>
      refine after_get_bind.mpr (after_ite.mpr ⟨fun _ => .inr (.inr ⟨rfl, rfl, rfl⟩), fun _ => ?_⟩)
      rw [after_bind, after_pollMin]
      exact .inl rfl
    | pqPeek => exact after_get_bind.mpr (after_ite.mpr ⟨fun _ => .inr (.inr ⟨rfl, rfl, rfl⟩), fun _ => .inl rfl⟩)
    | lzwRead =>
      refine after_needReader_bind.mpr ⟨fun _ => ?_, fun _ => .refl s⟩
      rw [after_get_bind, after_require_bind]
      refine ⟨fun _ => ?_, fun _ => .refl s⟩
      dsimp only
      rw [after_require_bind]
      exact ⟨fun _ => readOrEos_flagged _ (.ofModify fun t => within_lzw t _) (by simp) s, fun _ => .refl s⟩
    | clrErr => exact absurd rfl hc
    | sreset => exact absurd rfl hr
    | _ => exact absurd hp (by simp [bodyParts])
  · exact after_footprint (bodyOf_footprint i) fun t ht => .of_within ht hp

/-- ERRCODE and ERRINFO agree with ERR (10_state.md R22, R23). -/
def ErrorOk (s : State) : Prop :=
  (s.status.err = false → s.status.errCode = 0#8 ∧ s.errInfo = 0#32) ∧
  (s.status.err = true → 1 ≤ s.status.errCode.toNat ∧ s.status.errCode.toNat ≤ 8)

/-- EOS and EMPTY stand with their sentinels (60_exceptions.md R139). -/
def SentinelsOk (s : State) : Prop :=
  (s.status.eos = true → s.res0 = 0xFFFFFFFF#32) ∧ (s.status.empty = true → s.res0 = 0#32 ∧ s.res1 = 0#32)

theorem statusOk_iff (s : State) : StatusOk s ↔ s.status.busy = false ∧ ErrorOk s ∧ SentinelsOk s :=
  ⟨fun ⟨hb, h0, h1, he, hq⟩ => ⟨hb, ⟨h0, h1⟩, ⟨he, hq⟩⟩, fun ⟨hb, ⟨h0, h1⟩, ⟨he, hq⟩⟩ => ⟨hb, h0, h1, he, hq⟩⟩

/-- From the flags of issue a sentinel's flag comes with the sentinel. -/
theorem Flagged.sentinelsOk {s t : State} (h : Flagged s t) (he : s.status.eos = false) (hq : s.status.empty = false) :
    SentinelsOk t := by
  rcases h with h | ⟨h, h0⟩ | ⟨h, h0, h1⟩
  · simp [SentinelsOk, h, he, hq]
  · simp [SentinelsOk, h, h0, hq]
  · simp [SentinelsOk, h, h0, h1, he]

theorem Flagged.errorOk {s t : State} (h : Flagged s t) (hi : t.errInfo = s.errInfo) (hs : ErrorOk s) : ErrorOk t := by
  have he : t.status.err = s.status.err ∧ t.status.errCode = s.status.errCode := by
    rcases h with h | ⟨h, -⟩ | ⟨h, -⟩ <;> simp [h]
  unfold ErrorOk
  rw [he.1, he.2, hi]
  exact hs

/-- What the body of a command makes of the flags of its issue. -/
theorem bodyOf_statusOk (i : Instr) {s : State} (hs : ErrorOk s) (he : s.status.eos = false) (hq : s.status.empty = false) :
    After (fun _ t => ErrorOk t ∧ SentinelsOk t) (fun t => ErrorOk t ∧ SentinelsOk t) (bodyOf i s) := by
  by_cases hc : i = .clrErr
  · subst hc
    change ErrorOk (returnFromError s) ∧ SentinelsOk (returnFromError s)
    simp [ErrorOk, SentinelsOk, he, hq]
  · by_cases hr : i = .sreset
    · subst hr
      change ErrorOk (softReset s) ∧ SentinelsOk (softReset s)
      simp [ErrorOk, SentinelsOk, Status.reset]
    · have hinfo : Part.errInfo ∉ bodyParts i := by cases i <;> simp [bodyParts] at hc hr ⊢
      have hend : ∀ t, Flagged s t ∧ Within (bodyParts i) s t → ErrorOk t ∧ SentinelsOk t := fun t ⟨hf, hw⟩ =>
        ⟨hf.errorOk (hw.2 .errInfo hinfo) hs, hf.sentinelsOk he hq⟩
      exact ((bodyOf_flagged hc hr s).and (after_within (bodyOf_footprint i) s)).mono (fun _ => hend) hend

theorem errCodeByte_range (c : ErrCode) : 1 ≤ (errCodeByte c).toNat ∧ (errCodeByte c).toNat ≤ 8 := by
  cases c <;> decide

theorem takeError_statusOk {c : ErrCode} {s : State} (hs : SentinelsOk s) : StatusOk (takeError c s) :=
  (statusOk_iff _).mpr ⟨rfl, ⟨fun h => absurd h (by simp), fun _ => errCodeByte_range c⟩, hs⟩

/-- The state a command is run in, from a state with legal flags. -/
theorem Issued.flags {s u : State} (hu : Issued s u) (hs : StatusOk s) :
    ErrorOk u ∧ u.status.eos = false ∧ u.status.empty = false := by
  obtain ⟨hb, he, -⟩ := (statusOk_iff s).mp hs
  cases hu with
  | held hb' => rw [hb] at hb'; cases hb'
  | written w rest => exact ⟨he, rfl, rfl⟩

/-- Settles O56: a body leaves the flags of issue or sets one sentinel's flag with its sentinel, and completion and the
raise do the rest. -/
theorem statusStaysLegal : Obligations.StatusStaysLegal := by
  unfold Obligations.StatusStaysLegal
  intro s t hs h
  cases stepped_of_step h with
  | illegal u hu =>
    obtain ⟨-, heos, hempty⟩ := hu.flags hs
    exact takeError_statusOk ((Flagged.refl u).sentinelsOk heos hempty)
  | ran i u t hu he =>
    obtain ⟨herr, heos, hempty⟩ := hu.flags hs
    rw [exec_eq] at he
    exact after_command (bodyOf_statusOk i herr heos hempty) (fun v hv => (statusOk_iff _).mpr ⟨rfl, hv.1, hv.2⟩)
      (fun c v hv => takeError_statusOk hv.2) he
  | wroteStatus rest v =>
    unfold StatusOk flagsHostWrite
    dsimp only
    split <;> exact hs
  | poweredOn rest => simp [StatusOk, State.powerOn, Status.reset]
  | _ => exact hs

/-! ### The reset state -/

/-- Settles O52: every unit is empty after reset. -/
theorem resetMeetsInvariants : Obligations.ResetMeetsInvariants := by
  unfold Obligations.ResetMeetsInvariants
  refine ⟨⟨List.Pairwise.nil, by decide, by decide, fun sym => ?_⟩,
    queueInv_of_empty rfl (by decide : 1 ≤ Config.pqResetCap.toNat),
    codeOk_of_invalid rfl (by decide : (0#10).toNat ≤ Config.nodeCap), by decide⟩
  have : freqAt State.reset.freq sym = 0#32 := by simp [freqAt, State.reset, State.powerOn, FreqTable.reset]
  simp [this]

end Sys2Proof.Proofs

/-! PROOFS. The streams, the counters and memory's form (10_state.md R26, R28, R33, log 6): every body keeps their ranges. -/

namespace Sys2Proof.Proofs

open Sys2Proof Sys2Proof.Machine Sys2Proof.Safety Sys2Proof.Laws

/-! ### Primitives that keep a property -/

/-- However `x` ends, it keeps `I`. -/
def Keeps {α : Type} (I : State → Prop) (x : Op α) : Prop := ∀ s, I s → After (fun _ => I) I (x s)

namespace Keeps

variable {α β : Type} {I : State → Prop}

theorem ofPure (a : α) : Keeps I (pure a : Op α) := fun _ h => h

theorem ofRaise (c : ErrCode) : Keeps I (raise c : Op α) := fun _ h => h

theorem ofHalt (f : Fault) : Keeps I (halt f : Op α) := fun _ _ => trivial

theorem ofRequire (p : Prop) [Decidable p] (c : ErrCode) : Keeps I (require p c) := fun _ h =>
  after_require.mpr ⟨fun _ => h, fun _ => h⟩

theorem ofBind {x : Op α} {f : α → Op β} (hx : Keeps I x) (hf : ∀ a, Keeps I (f a)) : Keeps I (x >>= f) := fun s hs =>
  after_bind.mpr ((hx s hs).imp fun a t ht => hf a t ht)

theorem ofGetBind {f : State → Op α} (h : ∀ s, I s → After (fun _ => I) I (f s s)) : Keeps I (get >>= f) := fun s hs =>
  after_get_bind.mpr (h s hs)

theorem ofGet : Keeps I (get : Op State) := fun _ h => h

theorem ofModify {f : State → State} (h : ∀ s, I s → I (f s)) : Keeps I (modify f : Op PUnit) := h

theorem ofIte (p : Prop) [Decidable p] {x y : Op α} (hx : Keeps I x) (hy : Keeps I y) : Keeps I (if p then x else y) := by
  split <;> assumption

theorem ofFootprint {τ : List Part} {x : Op α} (h : Footprint τ x) (hI : ∀ s t, Within τ s t → I s → I t) : Keeps I x :=
  fun s hs => after_footprint h fun t ht => hI s t ht hs

end Keeps

/-! ### What the ranges depend on -/

/-- The streams, the counters and memory's form are legal and IN_LEN is `L`: no body but SRESET's moves IN_LEN. -/
def LegalWith (L : Word) (s : State) : Prop := StreamsLegal s ∧ s.inp.len = L

variable {L : Word}

theorem inputOk_congr {s t : State} (hc : t.cfg = s.cfg) (hi : t.inp = s.inp) (h : InputOk s) : InputOk t := by
  unfold InputOk
  rw [hc, hi]
  exact h

theorem outputOk_congr {s t : State} (hc : t.cfg = s.cfg) (ho : t.out = s.out) (h : OutputOk s) : OutputOk t := by
  unfold OutputOk
  rw [hc, ho]
  exact h

/-- A change of other parts keeps the ranges. -/
theorem LegalWith.of_within {τ : List Part} {s t : State} (h : LegalWith L s) (hw : Within τ s t)
    (hi : .inp ∉ τ := by simp) (ho : .out ∉ τ := by simp) (hf : .freq ∉ τ := by simp) (hm : .mem ∉ τ := by simp) :
    LegalWith L t := by
  obtain ⟨⟨hwf, hin, hout, hfreq⟩, hL⟩ := h
  have hinp : t.inp = s.inp := hw.2 .inp hi
  have hfr : t.freq = s.freq := hw.2 .freq hf
  have hmem : t.mem = s.mem := hw.2 .mem hm
  exact ⟨⟨hmem ▸ hwf, inputOk_congr hw.1.1 hinp hin, outputOk_congr hw.1.1 (hw.2 .out ho) hout, hfr ▸ hfreq⟩, hinp ▸ hL⟩

/-- A change of the input unit keeps the ranges if it keeps the unit's own. -/
theorem LegalWith.of_input {s t : State} (h : LegalWith L s) (hw : Within [.inp] s t) (hi : InputOk t)
    (hl : t.inp.len = s.inp.len) : LegalWith L t := by
  obtain ⟨⟨hwf, -, hout, hfreq⟩, hL⟩ := h
  have hfr : t.freq = s.freq := hw.2 .freq (by simp)
  have hmem : t.mem = s.mem := hw.2 .mem (by simp)
  exact ⟨⟨hmem ▸ hwf, hi, outputOk_congr hw.1.1 (hw.2 .out (by simp)) hout, hfr ▸ hfreq⟩, hl.trans hL⟩

/-- A change of the output unit and of memory keeps the ranges if it keeps the unit's own and memory's form. -/
theorem LegalWith.of_output {s t : State} (h : LegalWith L s) (hw : Within [.out, .mem] s t) (hm : t.mem.wf)
    (ho : OutputOk t) : LegalWith L t := by
  obtain ⟨⟨-, hin, -, hfreq⟩, hL⟩ := h
  have hfr : t.freq = s.freq := hw.2 .freq (by simp)
  have hinp : t.inp = s.inp := hw.2 .inp (by simp)
  exact ⟨⟨hm, inputOk_congr hw.1.1 hinp hin, ho, hfr ▸ hfreq⟩, hinp ▸ hL⟩

theorem LegalWith.inputOk {s : State} (h : LegalWith L s) : InputOk s := h.1.2.1

theorem LegalWith.outputOk {s : State} (h : LegalWith L s) : OutputOk s := h.1.2.2.1

/-- A primitive that touches none of the four units keeps their ranges. -/
theorem keeps_of_footprint {α : Type} {τ : List Part} {x : Op α} (h : Footprint τ x)
    (hi : .inp ∉ τ := by simp) (ho : .out ∉ τ := by simp) (hf : .freq ∉ τ := by simp) (hm : .mem ∉ τ := by simp) :
    Keeps (LegalWith L) x := .ofFootprint h fun _ _ hw hs => hs.of_within hw hi ho hf hm

/-! ### Memory's form -/

/-- Memory is in its canonical form (log 6). -/
def MemoryWf (s : State) : Prop := s.mem.wf

theorem memoryWf_of_footprint {α : Type} {τ : List Part} {x : Op α} (h : Footprint τ x) (hm : .mem ∉ τ := by simp) :
    Keeps MemoryWf x := .ofFootprint h fun s t hw hs => by
  have hmem : t.mem = s.mem := hw.2 .mem hm
  rwa [MemoryWf, hmem]

theorem setOutByte_memoryWf (a : Nat) (v : Byte) : Keeps MemoryWf (setOutByte a v) := .ofGetBind fun _ hs =>
  after_ite.mpr ⟨fun _ => write_wf _ _ hs, fun _ => trivial⟩

theorem setScratchByte_memoryWf (a : Nat) (v : Byte) : Keeps MemoryWf (setScratchByte a v) := .ofGetBind fun _ hs =>
  after_ite.mpr ⟨fun _ => write_wf _ _ hs, fun _ => trivial⟩

theorem storeByte_memoryWf (v : Byte) : Keeps MemoryWf (storeByte v) :=
  .ofBind .ofGet fun _ => .ofBind (setOutByte_memoryWf _ v) fun _ => .ofModify fun _ h => h

theorem putBit_memoryWf (b : Bool) : Keeps MemoryWf (putBit b) := .ofGetBind fun s hs =>
  after_require_bind.mpr ⟨fun _ => after_ite.mpr ⟨fun _ => storeByte_memoryWf _ s hs, fun _ => hs⟩, fun _ => hs⟩

theorem flush_memoryWf : Keeps MemoryWf flush :=
  .ofBind .ofGet fun _ => .ofIte _ (.ofPure _) (.ofBind (.ofRequire _ _) fun _ => storeByte_memoryWf _)

theorem copyInput_memoryWf (k : Nat) : ∀ src dst, Keeps MemoryWf (copyInput k src dst) := by
  induction k with
  | zero => exact fun _ _ => .ofPure _
  | succ k ih =>
    exact fun src dst => .ofBind (memoryWf_of_footprint (τ := []) (inByte_footprint src)) fun b =>
      .ofBind (setScratchByte_memoryWf dst b) fun _ => ih _ _

theorem copyOutput_memoryWf (k : Nat) : ∀ src dst, Keeps MemoryWf (copyOutput k src dst) := by
  induction k with
  | zero => exact fun _ _ => .ofPure _
  | succ k ih =>
    exact fun src dst => .ofBind (memoryWf_of_footprint (τ := []) (scratchByte_footprint src)) fun b =>
      .ofBind (setOutByte_memoryWf dst b) fun _ => ih _ _

/-! ### The output stream -/

/-- A primitive of the writer keeps the ranges if it keeps memory's form and the output unit's range. -/
theorem keeps_of_output {α : Type} {x : Op α} (hf : Footprint [.out, .mem] x) (hm : Keeps MemoryWf x)
    (ho : ∀ s, OutputOk s → After (fun _ => OutputOk) OutputOk (x s)) : Keeps (LegalWith L) x := fun s hs => by
  have hend : ∀ t, Within [.out, .mem] s t ∧ MemoryWf t ∧ OutputOk t → LegalWith L t := fun t ⟨hw, hwf, hok⟩ =>
    hs.of_output hw hwf hok
  exact ((after_within hf s).and ((hm s hs.1.1).and (ho s hs.outputOk))).mono (fun _ => hend) hend

theorem putBit_keeps (b : Bool) : Keeps (LegalWith L) (putBit b) :=
  keeps_of_output (putBit_footprint b) (putBit_memoryWf b) fun s hs => by
    by_cases hr : 0 < room s
    · obtain ⟨t, ht, ha⟩ := putBit_appended b hs hr
      rw [ht]; exact ha.ok
    · rw [putBit_full b hs (by omega)]; exact hs

theorem putBits_keeps (n : Nat) : ∀ v, Keeps (LegalWith L) (putBits n v) := by
  induction n with
  | zero => exact fun _ => .ofPure _
  | succ n ih => exact fun v => .ofBind (putBit_keeps _) fun _ => ih v

theorem putAll_keeps (bs : List Bool) : Keeps (LegalWith L) (putAll bs) := by
  induction bs with
  | nil => exact .ofPure _
  | cons b bs ih => exact .ofBind (putBit_keeps b) fun _ => ih

theorem flush_keeps : Keeps (LegalWith L) flush :=
  keeps_of_output flush_footprint flush_memoryWf fun s hs => by
    by_cases h : s.out.nbits ≠ 0#3 → s.out.len.toNat < s.cfg.outCap
    · obtain ⟨t, ht, ha, -⟩ := flush_appended hs h
      rw [ht]; exact ha.ok
    · obtain ⟨h0, hl⟩ : s.out.nbits ≠ 0#3 ∧ ¬ s.out.len.toNat < s.cfg.outCap := by simpa using h
      have hfull : s.out.len.toNat = s.cfg.outCap := by have := hs.2.1; omega
      unfold flush
      refine after_get_bind.mpr (after_ite.mpr ⟨fun h => absurd h h0, fun _ => ?_⟩)
      exact after_require_bind.mpr ⟨fun h => absurd hfull h, fun _ => hs⟩

theorem writeVarintFrom_keeps (k : Nat) : ∀ v, Keeps (LegalWith L) (writeVarintFrom k v) := by
  induction k with
  | zero => exact fun v => putBits_keeps 8 _
  | succ k ih => exact fun v => .ofIte _ (putBits_keeps 8 _) (.ofBind (putBits_keeps 8 _) fun _ => ih _)

theorem ser_keeps (fuel : Nat) : ∀ n, Keeps (LegalWith L) (ser fuel n) := by
  induction fuel with
  | zero => exact fun _ => .ofHalt _
  | succ fuel ih =>
    exact fun n => .ofBind (keeps_of_footprint (τ := []) (nodeAt_footprint _)) fun nd => .ofIte _
      (.ofBind (putBit_keeps _) fun _ => putBits_keeps 8 _)
      (.ofBind (putBit_keeps _) fun _ => .ofBind (ih _) fun _ => ih _)

theorem serRoot_keeps : Keeps (LegalWith L) serRoot := .ofBind .ofGet fun _ => ser_keeps _ _

theorem encodeSym_keeps (sym : Nat) : Keeps (LegalWith L) (encodeSym sym) :=
  .ofBind .ofGet fun _ => .ofBind (keeps_of_footprint (τ := []) (nodeAt_footprint _)) fun _ => .ofIte _ (.ofPure _)
    (.ofBind (keeps_of_footprint (τ := []) (path_footprint sym)) fun _ => putAll_keeps _)

/-! ### The input stream -/

/-- GetBits keeps the ranges where enough bits are left (41_bitstream_in.md R77). -/
theorem getBits_legal {n : Nat} {s : State} (hs : LegalWith L s) (hn : n ≤ inBitsLeft s.inp) :
    After (fun _ t => LegalWith L t ∧ inBitsLeft s.inp = n + inBitsLeft t.inp) (LegalWith L) (getBits n s) := by
  obtain ⟨w, t, ht, -, hc⟩ := getBits_consumed n hs.inputOk hn
  have hw := after_within (getBits_footprint n) s
  rw [ht] at hw ⊢
  exact ⟨hs.of_input hw hc.ok hc.len, by simpa using hc.left⟩

theorem getBit_legal {s : State} (hs : LegalWith L s) (h1 : 1 ≤ inBitsLeft s.inp) :
    After (fun _ => LegalWith L) (LegalWith L) (getBit s) := by
  obtain ⟨b, t, ht, hc⟩ := getBit_consumed hs.inputOk h1
  have hw := after_within getBit_footprint s
  rw [ht] at hw ⊢
  exact hs.of_input hw hc.ok hc.len

theorem bitsLeft_bind {α : Type} (f : Nat → Op α) (s : State) : (bitsLeft >>= f) s = f (inBitsLeft s.inp) s := rfl

/-- A read behind a check that its bits are left. -/
theorem keeps_checked {α : Type} {k : Nat} {c : ErrCode} {f : Unit → Op α}
    (h : ∀ s, LegalWith L s → k ≤ inBitsLeft s.inp → After (fun _ => LegalWith L) (LegalWith L) (f () s)) :
    Keeps (LegalWith L) (bitsLeft >>= fun n => require (k ≤ n) c >>= f) := fun s hs => by
  rw [bitsLeft_bind, after_require_bind]
  exact ⟨h s hs, fun _ => hs⟩

theorem varintByte_keeps : Keeps (LegalWith L) varintByte :=
  keeps_checked fun _ hs h8 => (getBits_legal hs h8).imp fun _ _ ht => ht.1

theorem readVarintFrom_keeps (k : Nat) : ∀ sh v, Keeps (LegalWith L) (readVarintFrom k sh v) := by
  induction k with
  | zero => exact fun sh v => .ofBind varintByte_keeps fun b => .ofBind (.ofRequire _ _) fun _ => .ofPure _
  | succ k ih => exact fun sh v => .ofBind varintByte_keeps fun b => .ofIte _ (.ofPure _) (ih _ _)

theorem readVarint_keeps : Keeps (LegalWith L) readVarint := readVarintFrom_keeps 4 0 0

theorem setRes0_keeps (v : Word) : Keeps (LegalWith L) (setRes0 v) := keeps_of_footprint (setRes0_footprint v)

theorem endOfStream_keeps : Keeps (LegalWith L) endOfStream := keeps_of_footprint endOfStream_footprint

theorem readOrEos_keeps (n : Nat) {after : Op Unit} (h : Keeps (LegalWith L) after) :
    Keeps (LegalWith L) (readOrEos n after) := fun s hs => by
  unfold readOrEos
  rw [bitsLeft_bind, after_ite]
  refine ⟨fun _ => endOfStream_keeps s hs, fun hn => ?_⟩
  rw [after_bind]
  refine (getBits_legal hs (by omega)).imp fun v t ht => ?_
  exact Keeps.ofBind (setRes0_keeps _) (fun _ => h) t ht.1

theorem inReset_keeps : Keeps (LegalWith L) inReset := fun s hs => by
  obtain ⟨hcfg, hcap, -, -⟩ := hs.inputOk
  exact hs.of_input (within_inp s _) ⟨hcfg, hcap, by simp [rewound], by simp [rewound]⟩ rfl

/-- RD_BYTES moves IN_POS over at most the bytes that are left (41_bitstream_in.md R83). -/
theorem moveInput_legal {off k : Nat} {s : State} (hs : LegalWith L s) (hk : k ≤ s.inp.len.toNat - s.inp.pos.toNat) :
    After (fun _ => LegalWith L) (LegalWith L) (moveInput off k s) := by
  have hcopied : ∀ t, Within [.mem] s t → MemoryWf t → LegalWith L t := fun t hw hm =>
    hs.of_output (hw.mono (by simp)) hm (outputOk_congr hw.1.1 (hw.2 .out (by simp)) hs.outputOk)
  unfold moveInput
  rw [after_get_bind, after_bind]
  refine ((after_within (copyInput_footprint k _ _) s).and (copyInput_memoryWf k _ _ s hs.1.1)).mono (fun _ t => ?_)
    fun t ht => hcopied t ht.1 ht.2
  rintro ⟨hw, hm⟩
  have ht := hcopied t hw hm
  have hinp : t.inp = s.inp := hw.2 .inp (by simp)
  rw [after_bind]
  refine (after_within (τ := []) (inByte_footprint _) t).mono (fun b u hu => ?_) fun u hu => ht.of_within hu
  have hul := ht.of_within hu
  have hut : u.inp = t.inp := hu.2 .inp (by simp)
  have hui : u.inp = s.inp := hut.trans hinp
  rw [after_bind, op_modify, after_ok]
  refine setRes0_keeps _ _ (hul.of_input (within_inp u _) ?_ rfl)
  obtain ⟨hcfg, hcap, hpos, hn⟩ := hul.inputOk
  rw [hui] at hcap hpos hn
  refine ⟨hcfg, by dsimp only; rwa [hui], ?_, by dsimp only; rwa [hui]⟩
  have hlt := s.inp.len.isLt
  dsimp only
  rw [hui, BitVec.toNat_add, BitVec.toNat_ofNat, Nat.mod_eq_of_lt (by omega : k < 2 ^ 32), Nat.mod_eq_of_lt (by omega)]
  omega

/-! ### The frequency table -/

/-- Scan rewinds the input (44_huffman_tree.md R110). -/
theorem scan_inp (s : State) : After (fun _ t => t.inp = rewound s.inp) (fun _ => True) (scan s) := by
  unfold scan
  rw [after_bind, op_modify, after_ok, after_get_bind, after_bind]
  refine (after_within (countFrom_footprint _ 0) _).mono (fun _ t ht => ?_) fun _ _ => trivial
  rw [after_bind, inReset, op_modify, after_ok, op_modify, after_ok]
  have hi : t.inp = s.inp := ht.2 .inp (by simp)
  exact congrArg rewound hi

theorem scan_legal {s : State} (hs : LegalWith L s) :
    After (fun _ t => LegalWith L t ∧ (s.inp.len ≠ 0#32 → ∃ sym, sym < 256 ∧ freqAt t.freq sym ≠ 0#32)) (fun _ => False)
      (scan s) := by
  refine ((scan_counts s).and ((scan_inp s).and (after_within scan_footprint s))).mono (fun _ t => ?_) fun _ h => h.1
  rintro ⟨⟨hle, hne⟩, hinp, hw⟩
  obtain ⟨⟨hwf, ⟨hcfg, hcap, -, -⟩, hout, -⟩, hL⟩ := hs
  have hmem : t.mem = s.mem := hw.2 .mem (by simp)
  have hc : t.cfg = s.cfg := hw.1.1
  refine ⟨⟨⟨hmem ▸ hwf, ?_, outputOk_congr hc (hw.2 .out (by simp)) hout, fun sym => ?_⟩, by rw [hinp]; exact hL⟩, hne⟩
  · unfold InputOk
    rw [hc, hinp]
    exact ⟨hcfg, hcap, by simp [rewound], by simp [rewound]⟩
  · have := hle sym
    have := hcfg.1.2
    omega

/-- A table whose counters are below 2^31 is legal. -/
theorem LegalWith.of_freq {s : State} {f : FreqTable} (hs : LegalWith L s) (hf : FreqOk f) :
    LegalWith L { s with freq := f } := by
  obtain ⟨⟨hwf, hin, hout, -⟩, hL⟩ := hs
  exact ⟨⟨hwf, hin, hout, hf⟩, hL⟩

/-! ### Headers and codewords -/

theorem leafMarker_keeps : Keeps (LegalWith L) leafMarker := keeps_checked fun s hs h8 => by
  rw [after_bind]
  refine (getBits_legal hs h8).imp fun sym t ht => ?_
  have hrest : ∀ n, Keeps (LegalWith L) (do
      mapLeaf sym n
      push (.node n)
      collapse (← get).dstack.dsp.toNat) := fun n =>
    .ofBind (keeps_of_footprint (mapLeaf_footprint _ _)) fun _ => .ofBind (keeps_of_footprint (push_footprint _)) fun _ =>
      .ofBind .ofGet fun _ => keeps_of_footprint (collapse_footprint _)
  exact Keeps.ofBind .ofGet (fun _ => .ofBind (.ofRequire _ _) fun _ =>
    .ofBind (keeps_of_footprint (alloc_footprint _ _ _ _ _)) hrest) t ht.1

theorem deserFrom_keeps (fuel : Nat) : Keeps (LegalWith L) (deserFrom fuel) := by
  induction fuel with
  | zero => exact .ofRaise _
  | succ fuel ih =>
    refine keeps_checked fun s hs h1 => ?_
    rw [after_bind]
    refine (getBit_legal hs h1).imp fun b t ht => ?_
    refine Keeps.ofIte (b = true) (.ofBind (keeps_of_footprint parentMarker_footprint) fun _ => ih)
      (.ofBind leafMarker_keeps fun _ => .ofGetBind fun u hu => ?_) t ht
    cases soleNode u.dstack with
    | none => exact ih u hu
    | some r => exact hu

theorem deser_keeps : Keeps (LegalWith L) deser :=
  .ofBind (.ofModify fun _ h => h) fun _ => .ofBind (keeps_of_footprint (τ := []) bitsLeft_footprint) fun _ =>
    deserFrom_keeps _

theorem decodeFrom_keeps (fuel : Nat) : ∀ n, Keeps (LegalWith L) (decodeFrom fuel n) := by
  induction fuel with
  | zero =>
    exact fun n => .ofBind (keeps_of_footprint (τ := []) (nodeAt_footprint _)) fun _ => .ofIte _ (.ofPure _) (.ofRaise _)
  | succ fuel ih =>
    refine fun n => .ofBind (keeps_of_footprint (τ := []) (nodeAt_footprint _)) fun nd => .ofIte _ (.ofPure _)
      (keeps_checked fun s hs h1 => ?_)
    rw [after_bind]
    exact (getBit_legal hs h1).imp fun b t ht => Keeps.ofIte (b = true) (ih _) (ih _) t ht

theorem decodeSym_keeps : Keeps (LegalWith L) decodeSym :=
  .ofBind (keeps_of_footprint (τ := []) bitsLeft_footprint) fun _ => .ofBind .ofGet fun _ => decodeFrom_keeps _ _

theorem expandSymbols_keeps (n : Nat) : Keeps (LegalWith L) (expandSymbols n) := by
  induction n with
  | zero => exact .ofPure _
  | succ n ih => exact .ofBind decodeSym_keeps fun _ => .ofBind (putBits_keeps 8 _) fun _ => ih

/-- The coding loop reads no more bytes than are left (46_huffman_stream.md R129). -/
theorem compressBytes_legal (n : Nat) : ∀ {s : State}, LegalWith L s → 8 * n ≤ inBitsLeft s.inp →
    After (fun _ => LegalWith L) (LegalWith L) (compressBytes n s) := by
  induction n with
  | zero => exact fun hs _ => hs
  | succ n ih =>
    intro s hs hn
    rw [compressBytes, after_bind]
    refine (getBits_legal hs (by omega)).imp fun sym t => ?_
    rintro ⟨ht, hleft⟩
    rw [after_bind]
    refine ((encodeSym_keeps sym t ht).and (after_within (encodeSym_footprint sym) t)).mono (fun _ u => ?_) fun u hu => hu.1
    rintro ⟨hu, hw⟩
    have hinp : u.inp = t.inp := hw.2 .inp (by simp)
    exact ih hu (by rw [hinp]; omega)

theorem compressStream_keeps : Keeps (LegalWith L) compressStream := fun s hs => by
  unfold compressStream
  rw [after_get_bind, after_bind]
  refine (scan_legal hs).mono (fun _ t ht => ?_) fun _ => False.elim
  refine Keeps.ofBind (keeps_of_footprint build_footprint) (fun _ => .ofBind serRoot_keeps fun _ =>
    .ofBind (writeVarintFrom_keeps 4 _) fun _ u hu => ?_) t ht.1
  rw [after_bind, inReset, op_modify, after_ok, after_bind]
  refine (compressBytes_legal _ (inReset_keeps u hu) ?_).imp fun _ v hv => flush_keeps v hv
  simp [inBitsLeft, rewound, hu.2, hs.2]

/-! ### Every command -/

theorem needReader_keeps : Keeps (LegalWith L) needReader := .ofBind .ofGet fun _ => .ofRequire _ _

theorem needWriter_keeps : Keeps (LegalWith L) needWriter := .ofBind .ofGet fun _ => .ofRequire _ _

theorem needCode_keeps : Keeps (LegalWith L) needCode := .ofBind .ofGet fun _ => .ofRequire _ _

theorem operand0_keeps : Keeps (LegalWith L) operand0 := fun _ h => h

theorem operand1_keeps : Keeps (LegalWith L) operand1 := fun _ h => h

theorem opRdBytes_keeps : Keeps (LegalWith L) opRdBytes := by
  refine .ofBind needReader_keeps fun _ => .ofBind operand0_keeps fun off => .ofBind operand1_keeps fun n =>
    .ofGetBind fun s hs => ?_
  refine after_require_bind.mpr ⟨fun _ => after_require_bind.mpr ⟨fun _ => ?_, fun _ => hs⟩, fun _ => hs⟩
  refine after_ite.mpr ⟨fun _ => setRes0_keeps _ s hs, fun _ => after_ite.mpr ⟨fun _ => ?_, fun _ => ?_⟩⟩
  · exact endOfStream_keeps s hs
  · exact moveInput_legal hs (Nat.min_le_right _ _)

theorem opWrBytes_keeps : Keeps (LegalWith L) opWrBytes := by
  refine .ofBind needWriter_keeps fun _ => .ofBind operand0_keeps fun off => .ofBind operand1_keeps fun n =>
    .ofGetBind fun s hs => ?_
  refine after_require_bind.mpr ⟨fun _ => after_require_bind.mpr ⟨fun _ => after_require_bind.mpr ⟨fun hroom => ?_,
    fun _ => hs⟩, fun _ => hs⟩, fun _ => hs⟩
  have hcopied : ∀ t, Within [.mem] s t → OutputOk t := fun t hw =>
    outputOk_congr hw.1.1 (hw.2 .out (by simp)) hs.outputOk
  rw [after_bind]
  refine ((after_within (copyOutput_footprint n _ _) s).and (copyOutput_memoryWf n _ _ s hs.1.1)).mono (fun _ t => ?_)
    fun t ht => hs.of_output (ht.1.mono (by simp)) ht.2 (hcopied t ht.1)
  rintro ⟨hw, hm⟩
  refine hs.of_output ((hw.mono (by simp)).trans ((within_out t _).mono (by simp))) hm ?_
  obtain ⟨hcfg, -, hbuf⟩ := hcopied t hw
  refine ⟨hcfg, ?_, hbuf⟩
  have hc : t.cfg = s.cfg := hw.1.1
  have hcap := hcfg.2.1.2
  rw [hc] at hcap
  change (s.out.len + BitVec.ofNat 32 n).toNat ≤ t.cfg.outCap
  rw [hc, BitVec.toNat_add, BitVec.toNat_ofNat, Nat.mod_eq_of_lt (by omega : n < 2 ^ 32), Nat.mod_eq_of_lt (by omega)]
  exact hroom

theorem opFreqSet_keeps : Keeps (LegalWith L) opFreqSet := by
  refine .ofBind operand0_keeps fun sym => .ofBind operand1_keeps fun n => .ofBind (.ofRequire _ _) fun _ => fun s hs => ?_
  refine after_require_bind.mpr ⟨fun hn => hs.of_freq fun x => ?_, fun _ => hs⟩
  have hold := hs.1.2.2.2 x
  change (freqAt (setFreq s.freq sym (BitVec.ofNat 32 n)) x).toNat < 2 ^ 31
  rcases Nat.lt_or_ge x 256 with hx | hx
  · rw [freqAt_setFreq _ _ _ _ hx]
    split
    · rw [BitVec.toNat_ofNat]; exact lt_of_le_of_lt (Nat.mod_le _ _) hn
    · exact hold
  · rw [freqAt_of_ge _ hx]; decide

theorem opLzwRead_keeps : Keeps (LegalWith L) opLzwRead :=
  .ofBind needReader_keeps fun _ => .ofBind .ofGet fun _ => .ofBind (.ofRequire _ _) fun _ =>
    .ofBind (.ofRequire _ _) fun _ => readOrEos_keeps _ (.ofModify fun _ h => h)

theorem opLzwWrite_keeps : Keeps (LegalWith L) opLzwWrite :=
  .ofBind needWriter_keeps fun _ => .ofBind .ofGet fun _ => .ofBind (.ofRequire _ _) fun _ =>
    .ofBind (.ofRequire _ _) fun _ => .ofBind operand0_keeps fun _ => .ofBind (.ofRequire _ _) fun _ =>
      .ofBind (putBits_keeps _ _) fun _ => .ofModify fun _ h => h

/-- No body but SRESET's takes a stream, a counter or memory out of its range, or moves IN_LEN. -/
theorem bodyOf_keeps {i : Instr} (hr : i ≠ .sreset) : Keeps (LegalWith L) (bodyOf i) := by
  cases i with
  | sreset => exact absurd rfl hr
  | rdBit => exact .ofBind needReader_keeps fun _ => readOrEos_keeps 1 (.ofPure _)
  | rdBits =>
    exact .ofBind needReader_keeps fun _ => .ofBind operand0_keeps fun _ => .ofBind (.ofRequire _ _) fun _ =>
      readOrEos_keeps _ (.ofPure _)
  | rdByte => exact .ofBind needReader_keeps fun _ => readOrEos_keeps 8 (.ofPure _)
  | rdBytes => exact opRdBytes_keeps
  | rdInt => exact .ofBind needReader_keeps fun _ => .ofBind readVarint_keeps fun _ => setRes0_keeps _
  | inReset => exact .ofBind needReader_keeps fun _ => inReset_keeps
  | wrBit =>
    exact .ofBind needWriter_keeps fun _ => .ofBind operand0_keeps fun _ => .ofBind (.ofRequire _ _) fun _ => putBit_keeps _
  | wrBits =>
    exact .ofBind needWriter_keeps fun _ => .ofBind operand0_keeps fun _ => .ofBind operand1_keeps fun _ =>
      .ofBind (.ofRequire _ _) fun _ => .ofBind (.ofRequire _ _) fun _ => putBits_keeps _ _
  | wrByte =>
    exact .ofBind needWriter_keeps fun _ => .ofBind operand0_keeps fun _ => .ofBind (.ofRequire _ _) fun _ =>
      putBits_keeps _ _
  | wrBytes => exact opWrBytes_keeps
  | wrInt =>
    exact .ofBind needWriter_keeps fun _ => .ofBind operand0_keeps fun _ => .ofBind (.ofRequire _ _) fun _ =>
      writeVarintFrom_keeps 4 _
  | wrFlush => exact .ofBind needWriter_keeps fun _ => flush_keeps
  | freqClear => exact .ofModify fun s hs => hs.of_freq fun x => by rw [freqAt_emptyFreq]; decide
  | freqSet => exact opFreqSet_keeps
  | freqScan =>
    exact .ofBind needReader_keeps fun _ s hs => (scan_legal hs).mono (fun _ _ ht => ht.1) fun _ => False.elim
  | hufWrhdr => exact .ofBind needWriter_keeps fun _ => .ofBind needCode_keeps fun _ => serRoot_keeps
  | hufRdhdr => exact .ofBind needReader_keeps fun _ => deser_keeps
  | hufEnc =>
    exact .ofBind needWriter_keeps fun _ => .ofBind needCode_keeps fun _ => .ofBind operand0_keeps fun _ =>
      .ofBind (.ofRequire _ _) fun _ => .ofBind .ofGet fun _ => .ofBind (.ofRequire _ _) fun _ => encodeSym_keeps _
  | hufDec =>
    exact .ofBind needReader_keeps fun _ => .ofBind needCode_keeps fun _ => .ofBind decodeSym_keeps fun _ => setRes0_keeps _
  | hufCompress =>
    exact .ofBind needReader_keeps fun _ => .ofBind needWriter_keeps fun _ => .ofBind .ofGet fun _ =>
      .ofIte _ (.ofPure _) compressStream_keeps
  | hufExpand =>
    exact .ofBind needReader_keeps fun _ => .ofBind needWriter_keeps fun _ => .ofBind .ofGet fun _ => .ofIte _ (.ofPure _) <|
      .ofBind inReset_keeps fun _ => .ofBind deser_keeps fun _ => .ofBind readVarint_keeps fun _ =>
        .ofBind (expandSymbols_keeps _) fun _ => flush_keeps
  | lzwWrite => exact opLzwWrite_keeps
  | lzwRead => exact opLzwRead_keeps
  | _ =>
    exact keeps_of_footprint (bodyOf_footprint _) (by simp [bodyParts]) (by simp [bodyParts]) (by simp [bodyParts])
      (by simp [bodyParts])

/-- Every unit after reset is legal: SRESET's and power-on's values (10_state.md R42). -/
theorem streamsLegal_of_reset {s : State} (hcfg : s.cfg.legal) (hm : s.mem.wf) (hi : s.inp = InUnit.reset)
    (ho : s.out = OutUnit.reset) (hf : s.freq = FreqTable.reset) : StreamsLegal s := by
  refine ⟨hm, ⟨hcfg, ?_, ?_, ?_⟩, ⟨hcfg, ?_, ?_⟩, fun sym => ?_⟩
  · simp [hi, InUnit.reset]
  · simp [hi, InUnit.reset]
  · simp [hi, InUnit.reset]
  · simp [ho, OutUnit.reset]
  · simp [ho, OutUnit.reset]
  · have : freqAt FreqTable.reset sym = 0#32 := by simp [freqAt, FreqTable.reset]
    rw [hf, this]; decide

theorem exec_streamsLegal {i : Instr} {s t : State} (hs : StreamsLegal s) (h : exec i s = .next t) : StreamsLegal t := by
  rw [exec_eq] at h
  by_cases hr : i = .sreset
  · subst hr
    have hsoft : StreamsLegal (softReset s) := streamsLegal_of_reset hs.2.1.1 hs.1 rfl rfl rfl
    have hbody : After (fun _ => StreamsLegal) StreamsLegal (opSreset s) := hsoft
    exact after_command (J := StreamsLegal) hbody (fun _ h => h) (fun _ _ h => h) h
  · have hbody := bodyOf_keeps (L := s.inp.len) hr s ⟨hs, rfl⟩
    exact after_command (J := StreamsLegal) hbody (fun _ h => h.1) (fun _ _ h => h.1) h

/-- Settles O53: every body but SRESET's keeps the ranges, the host's writes keep them, and a reset restores them. -/
theorem streamsStayLegal : Obligations.StreamsStayLegal := by
  unfold Obligations.StreamsStayLegal
  intro s t hs h
  obtain ⟨hwf, hin, hout, hfreq⟩ := hs
  cases stepped_of_step h with
  | stored rest n a v => exact ⟨writeBytes_wf n a v hwf, hin, hout, hfreq⟩
  | wroteInLen rest v =>
    refine ⟨hwf, ⟨hin.1, ?_, by simp, by simp⟩, hout, hfreq⟩
    change (BitVec.ofNat 32 (min v.toNat s.cfg.inCap)).toNat ≤ s.cfg.inCap
    rw [BitVec.toNat_ofNat]
    exact (Nat.mod_le _ _).trans (Nat.min_le_right _ _)
  | wroteOutLen rest => exact ⟨hwf, hin, ⟨hout.1, by simp, by simp⟩, hfreq⟩
  | poweredOn rest => exact streamsLegal_of_reset hin.1 List.Pairwise.nil rfl rfl rfl
  | illegal u hu => cases hu <;> exact ⟨hwf, hin, hout, hfreq⟩
  | ran i u t hu he =>
    have hus : StreamsLegal u := by cases hu <;> exact ⟨hwf, hin, hout, hfreq⟩
    exact exec_streamsLegal hus he
  | _ => exact ⟨hwf, hin, hout, hfreq⟩

end Sys2Proof.Proofs

/-! PROOFS. Two runs side by side (10_state.md R42): states that differ in the queue, the code and DSTACK only, and the
primitives of the streams, which look at none of these. -/

namespace Sys2Proof.Proofs

open Sys2Proof Sys2Proof.Machine Sys2Proof.Safety Sys2Proof.Laws

/-! ### Paired runs -/

section
variable {α β : Type} {R R' : α → State → State → Prop} {E E' : State → State → Prop}

/-- Two runs end in the same way: with the same value in states related by `R`, by the same error in states related by
`E`, or at the same fault. -/
inductive Paired (R : α → State → State → Prop) (E : State → State → Prop) :
    EStateM.Result Stop State α → EStateM.Result Stop State α → Prop where
  | ok {a : α} {s t : State} (h : R a s t) : Paired R E (.ok a s) (.ok a t)
  | raised {c : ErrCode} {s t : State} (h : E s t) : Paired R E (.error (.raise c) s) (.error (.raise c) t)
  | stopped {f : Fault} {s t : State} : Paired R E (.error (.fault f) s) (.error (.fault f) t)

theorem Paired.mono {r r' : EStateM.Result Stop State α} (h : Paired R E r r') (hr : ∀ a s t, R a s t → R' a s t)
    (he : ∀ s t, E s t → E' s t) : Paired R' E' r r' := by
  cases h with
  | ok h => exact .ok (hr _ _ _ h)
  | raised h => exact .raised (he _ _ h)
  | stopped => exact .stopped

theorem Paired.bind {x x' : Op α} {f f' : α → Op β} {T : β → State → State → Prop} {s t : State}
    (hx : Paired R E (x s) (x' t)) (hf : ∀ a s t, R a s t → Paired T E (f a s) (f' a t)) :
    Paired T E ((x >>= f) s) ((x' >>= f') t) := by
  rw [op_bind, op_bind]
  generalize x s = r, x' t = r' at hx ⊢
  cases hx with
  | ok h => exact hf _ _ _ h
  | raised h => exact .raised h
  | stopped => exact .stopped

/-- What the first run establishes on its own may be used of the pair. -/
theorem Paired.and_after {P : α → State → Prop} {P' : State → Prop} {r r' : EStateM.Result Stop State α}
    (h : Paired R E r r') (k : After P P' r) : Paired (fun a s t => R a s t ∧ P a s) E r r' := by
  cases h with
  | ok h => exact .ok ⟨h, k⟩
  | raised h => exact .raised h
  | stopped => exact .stopped

theorem paired_ite {p : Prop} [Decidable p] {x y x' y' : Op α} {s t : State} (hx : p → Paired R E (x s) (x' t))
    (hy : ¬ p → Paired R E (y s) (y' t)) :
    Paired R E ((if p then x else y) s) ((if p then x' else y') t) := by
  by_cases hp : p
  · simpa [hp] using hx hp
  · simpa [hp] using hy hp

theorem paired_get_bind {f f' : State → Op α} {s t : State} (h : Paired R E (f s s) (f' t t)) :
    Paired R E ((get >>= f) s) ((get >>= f') t) := h

theorem paired_require_bind {p : Prop} [Decidable p] {c : ErrCode} {f f' : Unit → Op α} {s t : State} (he : E s t)
    (hf : p → Paired R E (f () s) (f' () t)) :
    Paired R E ((require p c >>= f) s) ((require p c >>= f') t) := by
  rw [op_bind, op_bind, require_run, require_run]
  by_cases hp : p
  · simpa [hp] using hf hp
  · simpa [hp] using .raised he

/-- What a pair of bodies establishes, the two commands answer (30_encoding.md R68, 60_exceptions.md R140). -/
theorem Paired.command {x x' : Op Unit} {s t : State} (h : Paired (fun _ => E) E (x s) (x' t))
    (hc : ∀ u v, E u v → E' (complete u) (complete v)) (he : ∀ c u v, E u v → E' (takeError c u) (takeError c v)) :
    (∀ s', command x s = .next s' → ∃ t', command x' t = .next t' ∧ E' s' t') ∧
      ∀ f, command x s = .fault f → command x' t = .fault f := by
  unfold Machine.command
  generalize x s = r, x' t = r' at h ⊢
  cases h with
  | ok h => exact ⟨fun s' hs => ⟨_, rfl, by cases hs; exact hc _ _ h⟩, fun f hf => by cases hf⟩
  | raised h => exact ⟨fun s' hs => ⟨_, rfl, by cases hs; exact he _ _ _ h⟩, fun f hf => by cases hf⟩
  | stopped => exact ⟨fun s' hs => (by cases hs), fun _ hf => hf⟩

end

/-! ### States that differ in the queue, the code and DSTACK only -/

/-- `s` with another queue, code and DSTACK. -/
abbrev hide (q : Queue) (c : Code) (d : DStack) (s : State) : State := { s with pq := q, code := c, dstack := d }

/-- Two states that differ at most in the queue, the code and DSTACK, and there as `Q`, `C` and `D` allow. -/
def Alike (Q : Queue → Queue → Prop) (C : Code → Code → Prop) (D : DStack → DStack → Prop) (s t : State) : Prop :=
  ∃ q c d, t = hide q c d s ∧ Q s.pq q ∧ C s.code c ∧ D s.dstack d

variable {Q Q' : Queue → Queue → Prop} {C C' : Code → Code → Prop} {D D' : DStack → DStack → Prop}

theorem Alike.mono {s t : State} (h : Alike Q C D s t) (hq : Q s.pq t.pq → Q' s.pq t.pq)
    (hc : C s.code t.code → C' s.code t.code) (hd : D s.dstack t.dstack → D' s.dstack t.dstack) : Alike Q' C' D' s t := by
  obtain ⟨q, c, d, rfl, h₁, h₂, h₃⟩ := h
  exact ⟨q, c, d, rfl, hq h₁, hc h₂, hd h₃⟩

/-- Started from alike states `x` ends in the same way, in alike states. -/
def Agree {α : Type} (Q : Queue → Queue → Prop) (C : Code → Code → Prop) (D : DStack → DStack → Prop) (x : Op α) : Prop :=
  ∀ s t, Alike Q C D s t → Paired (fun _ => Alike Q C D) (Alike Q C D) (x s) (x t)

namespace Agree

variable {α β : Type}

theorem ofPure (a : α) : Agree Q C D (pure a : Op α) := fun _ _ h => .ok h

theorem ofRaise (c : ErrCode) : Agree Q C D (raise c : Op α) := fun _ _ h => .raised h

theorem ofHalt (f : Fault) : Agree Q C D (halt f : Op α) := fun _ _ _ => .stopped

theorem ofRequire (p : Prop) [Decidable p] (c : ErrCode) : Agree Q C D (require p c) := fun s t h => by
  rw [require_run, require_run]
  split
  · exact .ok h
  · exact .raised h

theorem ofBind {x : Op α} {f : α → Op β} (hx : Agree Q C D x) (hf : ∀ a, Agree Q C D (f a)) : Agree Q C D (x >>= f) :=
  fun s t h => (hx s t h).bind fun a u v huv => hf a u v huv

theorem ofIte (p : Prop) [Decidable p] {x y : Op α} (hx : Agree Q C D x) (hy : Agree Q C D y) :
    Agree Q C D (if p then x else y) := by split <;> assumption

/-- A read of what the two states share. -/
theorem ofVisible {f : State → Op α} (hf : ∀ s q c d, f (hide q c d s) = f s) (h : ∀ s, Agree Q C D (f s)) :
    Agree Q C D (get >>= f) := fun s t hst => by
  obtain ⟨q, c, d, rfl, hrest⟩ := hst
  have := h s s _ ⟨q, c, d, rfl, hrest⟩
  rw [op_bind, op_bind, op_get, op_get]
  dsimp only
  rwa [hf s q c d]

theorem ofGetBind {f : State → Op α}
    (h : ∀ s q c d, Q s.pq q → C s.code c → D s.dstack d →
      Paired (fun _ => Alike Q C D) (Alike Q C D) (f s s) (f (hide q c d s) (hide q c d s))) :
    Agree Q C D (get >>= f) := fun s t hst => by
  obtain ⟨q, c, d, rfl, hq, hc, hd⟩ := hst
  exact h s q c d hq hc hd

theorem ofModify {f : State → State} (h : ∀ s q c d, Q s.pq q → C s.code c → D s.dstack d →
    Alike Q C D (f s) (f (hide q c d s))) : Agree Q C D (modify f : Op PUnit) := fun s t hst => by
  obtain ⟨q, c, d, rfl, hq, hc, hd⟩ := hst
  exact .ok (h s q c d hq hc hd)

/-- A change of what the two states share, made from what they share. -/
theorem ofVisibleModify {f : State → State} (hf : ∀ s q c d, f (hide q c d s) = hide q c d (f s))
    (hk : ∀ s, (f s).pq = s.pq ∧ (f s).code = s.code ∧ (f s).dstack = s.dstack) :
    Agree Q C D (modify f : Op PUnit) := ofModify fun s q c d hq hc hd => by
  obtain ⟨h₁, h₂, h₃⟩ := hk s
  exact ⟨q, c, d, hf s q c d, h₁ ▸ hq, h₂ ▸ hc, h₃ ▸ hd⟩

end Agree

/-! ### The streams look at nothing hidden -/

section
open Agree

theorem operand0_agree : Agree Q C D operand0 := ofVisible (fun _ _ _ _ => rfl) fun _ => ofPure _

theorem operand1_agree : Agree Q C D operand1 := ofVisible (fun _ _ _ _ => rfl) fun _ => ofPure _

theorem signedOperand0_agree : Agree Q C D signedOperand0 := ofVisible (fun _ _ _ _ => rfl) fun _ => ofPure _

theorem needReader_agree : Agree Q C D needReader := ofVisible (fun _ _ _ _ => rfl) fun _ => ofRequire _ _

theorem needWriter_agree : Agree Q C D needWriter := ofVisible (fun _ _ _ _ => rfl) fun _ => ofRequire _ _

theorem setRes0_agree (v : Word) : Agree Q C D (setRes0 v) :=
  ofVisibleModify (fun _ _ _ _ => rfl) fun _ => ⟨rfl, rfl, rfl⟩

theorem setRes1_agree (v : Word) : Agree Q C D (setRes1 v) :=
  ofVisibleModify (fun _ _ _ _ => rfl) fun _ => ⟨rfl, rfl, rfl⟩

theorem setRes2_agree (v : Word) : Agree Q C D (setRes2 v) :=
  ofVisibleModify (fun _ _ _ _ => rfl) fun _ => ⟨rfl, rfl, rfl⟩

theorem setResEntry_agree (e : Entry) : Agree Q C D (setResEntry e) :=
  ofBind (setRes0_agree _) fun _ => setRes1_agree _

theorem endOfStream_agree : Agree Q C D endOfStream :=
  ofVisibleModify (fun _ _ _ _ => rfl) fun _ => ⟨rfl, rfl, rfl⟩

theorem emptyQueue_agree : Agree Q C D emptyQueue :=
  ofVisibleModify (fun _ _ _ _ => rfl) fun _ => ⟨rfl, rfl, rfl⟩

theorem inByte_agree (a : Nat) : Agree Q C D (inByte a) :=
  ofVisible (fun _ _ _ _ => rfl) fun _ => ofIte _ (ofPure _) (ofHalt _)

theorem scratchByte_agree (a : Nat) : Agree Q C D (scratchByte a) :=
  ofVisible (fun _ _ _ _ => rfl) fun _ => ofIte _ (ofPure _) (ofHalt _)

theorem setScratchByte_agree (a : Nat) (v : Byte) : Agree Q C D (setScratchByte a v) :=
  ofGetBind fun _ q c d hq hc hd => paired_ite (fun _ => .ok ⟨q, c, d, rfl, hq, hc, hd⟩) fun _ => .stopped

theorem setOutByte_agree (a : Nat) (v : Byte) : Agree Q C D (setOutByte a v) :=
  ofGetBind fun _ q c d hq hc hd => paired_ite (fun _ => .ok ⟨q, c, d, rfl, hq, hc, hd⟩) fun _ => .stopped

theorem bitsLeft_agree : Agree Q C D bitsLeft := ofVisible (fun _ _ _ _ => rfl) fun _ => ofPure _

theorem refill_agree : Agree Q C D refill := ofGetBind fun s q c d hq hc hd =>
  paired_ite (fun _ => (inByte_agree _ s _ ⟨q, c, d, rfl, hq, hc, hd⟩).bind fun b u v huv => by
    obtain ⟨q', c', d', rfl, h'⟩ := huv
    exact .ok ⟨q, c, d, rfl, hq, hc, hd⟩) fun _ => .ok ⟨q, c, d, rfl, hq, hc, hd⟩

theorem drainBit_agree : Agree Q C D drainBit := ofGetBind fun _ q c d hq hc hd => .ok ⟨q, c, d, rfl, hq, hc, hd⟩

theorem getBit_agree : Agree Q C D getBit := ofBind refill_agree fun _ => drainBit_agree

theorem getBitsFrom_agree (n : Nat) : ∀ v, Agree Q C D (getBitsFrom n v) := by
  induction n with
  | zero => exact fun v => ofPure v
  | succ n ih => exact fun v => ofBind getBit_agree fun b => ih _

theorem getBits_agree (n : Nat) : Agree Q C D (getBits n) := getBitsFrom_agree n 0

theorem inReset_agree : Agree Q C D inReset := ofVisibleModify (fun _ _ _ _ => rfl) fun _ => ⟨rfl, rfl, rfl⟩

theorem varintByte_agree : Agree Q C D varintByte :=
  ofBind bitsLeft_agree fun _ => ofBind (ofRequire _ _) fun _ => getBits_agree 8

theorem readVarintFrom_agree (k : Nat) : ∀ sh v, Agree Q C D (readVarintFrom k sh v) := by
  induction k with
  | zero => exact fun sh v => ofBind varintByte_agree fun b => ofBind (ofRequire _ _) fun _ => ofPure _
  | succ k ih => exact fun sh v => ofBind varintByte_agree fun b => ofIte _ (ofPure _) (ih _ _)

theorem readVarint_agree : Agree Q C D readVarint := readVarintFrom_agree 4 0 0

theorem readOrEos_agree (n : Nat) {after : Op Unit} (h : Agree Q C D after) : Agree Q C D (readOrEos n after) :=
  ofBind bitsLeft_agree fun _ => ofIte _ endOfStream_agree <|
    ofBind (getBits_agree n) fun _ => ofBind (setRes0_agree _) fun _ => h

theorem copyInput_agree (k : Nat) : ∀ src dst, Agree Q C D (copyInput k src dst) := by
  induction k with
  | zero => exact fun _ _ => ofPure _
  | succ k ih =>
    exact fun src dst => ofBind (inByte_agree src) fun b => ofBind (setScratchByte_agree dst b) fun _ => ih _ _

theorem moveInput_agree (off k : Nat) : Agree Q C D (moveInput off k) :=
  ofVisible (fun _ _ _ _ => rfl) fun _ => ofBind (copyInput_agree k _ _) fun _ => ofBind (inByte_agree _) fun _ =>
    ofBind (ofVisibleModify (fun _ _ _ _ => rfl) fun _ => ⟨rfl, rfl, rfl⟩) fun _ => setRes0_agree _

theorem storeByte_agree (v : Byte) : Agree Q C D (storeByte v) :=
  ofVisible (fun _ _ _ _ => rfl) fun _ => ofBind (setOutByte_agree _ v) fun _ =>
    ofVisibleModify (fun _ _ _ _ => rfl) fun _ => ⟨rfl, rfl, rfl⟩

theorem putBit_agree (b : Bool) : Agree Q C D (putBit b) := ofGetBind fun s q c d hq hc hd =>
  paired_require_bind ⟨q, c, d, rfl, hq, hc, hd⟩ fun _ =>
    paired_ite (fun _ => storeByte_agree _ s _ ⟨q, c, d, rfl, hq, hc, hd⟩) fun _ => .ok ⟨q, c, d, rfl, hq, hc, hd⟩

theorem putBits_agree (n : Nat) : ∀ v, Agree Q C D (putBits n v) := by
  induction n with
  | zero => exact fun _ => ofPure _
  | succ n ih => exact fun v => ofBind (putBit_agree _) fun _ => ih v

theorem putAll_agree (bs : List Bool) : Agree Q C D (putAll bs) := by
  induction bs with
  | nil => exact ofPure _
  | cons b bs ih => exact ofBind (putBit_agree b) fun _ => ih

theorem flush_agree : Agree Q C D flush := ofVisible (fun _ _ _ _ => rfl) fun _ =>
  ofIte _ (ofPure _) (ofBind (ofRequire _ _) fun _ => storeByte_agree _)

theorem writeVarintFrom_agree (k : Nat) : ∀ v, Agree Q C D (writeVarintFrom k v) := by
  induction k with
  | zero => exact fun v => putBits_agree 8 _
  | succ k ih => exact fun v => ofIte _ (putBits_agree 8 _) (ofBind (putBits_agree 8 _) fun _ => ih _)

theorem copyOutput_agree (k : Nat) : ∀ src dst, Agree Q C D (copyOutput k src dst) := by
  induction k with
  | zero => exact fun _ _ => ofPure _
  | succ k ih =>
    exact fun src dst => ofBind (scratchByte_agree src) fun b => ofBind (setOutByte_agree dst b) fun _ => ih _ _

theorem countFrom_agree (n : Nat) : ∀ k, Agree Q C D (countFrom n k) := by
  induction n with
  | zero => exact fun _ => ofPure _
  | succ n ih =>
    exact fun k => ofBind (inByte_agree k) fun b =>
      ofBind (ofVisibleModify (fun _ _ _ _ => rfl) fun _ => ⟨rfl, rfl, rfl⟩) fun _ => ih _

theorem scan_agree : Agree Q C D scan :=
  ofBind (ofVisibleModify (fun _ _ _ _ => rfl) fun _ => ⟨rfl, rfl, rfl⟩) fun _ =>
  ofVisible (fun _ _ _ _ => rfl) fun _ => ofBind (countFrom_agree _ 0) fun _ => ofBind inReset_agree fun _ =>
  ofVisibleModify (fun _ _ _ _ => rfl) fun _ => ⟨rfl, rfl, rfl⟩

theorem opRdBytes_agree : Agree Q C D opRdBytes :=
  ofBind needReader_agree fun _ => ofBind operand0_agree fun _ => ofBind operand1_agree fun _ =>
    ofVisible (fun _ _ _ _ => rfl) fun _ => ofBind (ofRequire _ _) fun _ => ofBind (ofRequire _ _) fun _ =>
      ofIte _ (setRes0_agree _) <| ofIte _ endOfStream_agree (moveInput_agree _ _)

theorem opWrBytes_agree : Agree Q C D opWrBytes :=
  ofBind needWriter_agree fun _ => ofBind operand0_agree fun _ => ofBind operand1_agree fun _ =>
    ofVisible (fun _ _ _ _ => rfl) fun _ => ofBind (ofRequire _ _) fun _ => ofBind (ofRequire _ _) fun _ =>
      ofBind (ofRequire _ _) fun _ => ofBind (copyOutput_agree _ _ _) fun _ =>
        ofVisibleModify (fun _ _ _ _ => rfl) fun _ => ⟨rfl, rfl, rfl⟩

end

end Sys2Proof.Proofs

/-! PROOFS. Unspecified contents (10_state.md R30, R34, R35, R38, R42): the primitives of the queue, the arena and DSTACK
read live contents only, so states that agree on these stay so. -/

namespace Sys2Proof.Proofs

open Sys2Proof Sys2Proof.Machine Sys2Proof.Safety Sys2Proof.Laws

variable {Q : Queue → Queue → Prop} {C : Code → Code → Prop} {D : DStack → DStack → Prop}

/-! ### Queues that agree on their live entries -/

/-- The same queue but for HEAP above PQ_SIZE (R30). -/
structure SameQueue (q r : Queue) : Prop where
  shape : r = { q with heap := r.heap }
  heap  : ∀ p, 1 ≤ p → p ≤ q.size.toNat → heapAt r p = heapAt q p

theorem SameQueue.size {q r : Queue} (h : SameQueue q r) : r.size = q.size := by rw [h.shape]

theorem SameQueue.cap {q r : Queue} (h : SameQueue q r) : r.cap = q.cap := by rw [h.shape]

theorem SameQueue.external {q r : Queue} (h : SameQueue q r) : r.external = q.external := by rw [h.shape]

theorem sameQueue_of {q r : Queue} (hs : r.size = q.size) (hc : r.cap = q.cap) (he : r.external = q.external)
    (hh : ∀ p, 1 ≤ p → p ≤ q.size.toNat → heapAt r p = heapAt q p) : SameQueue q r :=
  ⟨by cases r; cases q; simp_all, hh⟩

theorem sameQueue_swapHeap {q r : Queue} {i j : Nat} (h : SameQueue q r) (hi : 1 ≤ i) (his : i ≤ q.size.toNat) (hj : 1 ≤ j)
    (hjs : j ≤ q.size.toNat) : SameQueue (swapHeap q i j) (swapHeap r i j) := by
  have hm := size_le_heapPhys q
  refine sameQueue_of h.size h.cap h.external fun p hp hps => ?_
  rw [swapHeap_size] at hps
  rw [heapAt_swapHeap r hi hj hp (by omega), heapAt_swapHeap q hi hj hp (by omega), h.heap i hi his, h.heap j hj hjs,
    h.heap p hp hps]

theorem sameQueue_siftUpFrom (fuel : Nat) : ∀ {q r : Queue} {i : Nat}, SameQueue q r → i ≤ q.size.toNat →
    SameQueue (siftUpFrom fuel q i) (siftUpFrom fuel r i) := by
  induction fuel with
  | zero => exact fun h _ => h
  | succ fuel ih =>
    intro q r i h hi
    have hcond : (i > 1 ∧ entryLt r.external (heapAt r i) (heapAt r (i / 2)) = true) ↔
        (i > 1 ∧ entryLt q.external (heapAt q i) (heapAt q (i / 2)) = true) :=
      and_congr_right fun h1 => by rw [h.external, h.heap i (by omega) hi, h.heap (i / 2) (by omega) (by omega)]
    unfold siftUpFrom
    by_cases hc : i > 1 ∧ entryLt q.external (heapAt q i) (heapAt q (i / 2)) = true
    · rw [if_pos hc, if_pos (hcond.mpr hc)]
      exact ih (sameQueue_swapHeap h (by omega) hi (by omega) (by omega)) (by rw [swapHeap_size]; omega)
    · rw [if_neg hc, if_neg fun k => hc (hcond.mp k)]
      exact h

theorem smallerChild_same {q r : Queue} (h : SameQueue q r) {l : Nat} (hl : 1 ≤ l) (hls : l ≤ q.size.toNat) :
    smallerChild r l = smallerChild q l := by
  unfold smallerChild
  rw [h.size, h.external, h.heap l hl hls]
  by_cases hs : l + 1 ≤ q.size.toNat
  · rw [h.heap (l + 1) (by omega) hs]
  · rw [if_neg fun k => hs k.1, if_neg fun k => hs k.1]

theorem sameQueue_siftDownFrom (fuel : Nat) : ∀ {q r : Queue} {i : Nat}, SameQueue q r → 1 ≤ i →
    SameQueue (siftDownFrom fuel q i) (siftDownFrom fuel r i) := by
  induction fuel with
  | zero => exact fun h _ => h
  | succ fuel ih =>
    intro q r i h hi
    unfold siftDownFrom
    dsimp only
    rw [h.size, h.external]
    split
    · exact h
    · rename_i hs
      have hchild := smallerChild_cases q (2 * i)
      rw [smallerChild_same h (by omega) (by omega), h.heap i hi (by omega),
        h.heap (smallerChild q (2 * i)) (by omega) (by omega)]
      split
      · exact ih (sameQueue_swapHeap h hi (by omega) (by omega) (by omega)) (by omega)
      · exact h

theorem sameQueue_insertLast {q r : Queue} (e : Entry) (h : SameQueue q r) (hs : q.size.toNat < Config.heapPhys) :
    SameQueue (insertLast q e) (insertLast r e) := by
  have hn := size_succ hs
  unfold insertLast
  rw [h.size]
  refine sameQueue_siftUpFrom _ (sameQueue_of rfl h.cap h.external fun p hp hps => ?_) (by simp only [setHeap_size]; omega)
  simp only [setHeap_size, hn] at hps
  rw [heapAt_setHeap _ _ (by omega) hp (by omega), heapAt_setHeap _ _ (by omega) hp (by omega)]
  split
  · rfl
  · exact h.heap p hp (by omega)

theorem sameQueue_polled {q r : Queue} (h : SameQueue q r) (hs : 1 ≤ q.size.toNat) : SameQueue (polled q) (polled r) := by
  have hm := size_le_heapPhys q
  unfold polled siftDown
  rw [h.size, h.heap _ hs le_rfl]
  refine sameQueue_siftDownFrom _ (sameQueue_of rfl h.cap h.external fun p hp hps => ?_) le_rfl
  simp only [size_pred hs] at hps
  change heapAt (setHeap r 1 _) p = heapAt (setHeap q 1 _) p
  rw [heapAt_setHeap _ _ le_rfl hp (by omega), heapAt_setHeap _ _ le_rfl hp (by omega)]
  split
  · rfl
  · exact h.heap p hp (by omega)

/-- Offer takes an entry into both queues or into neither (43_pqueue.md R99). -/
theorem offered_same {q r : Queue} (e : Entry) (h : SameQueue q r) (hq : QueueOk q) :
    (offered q e = none ∧ offered r e = none) ∨
      ∃ q' r', offered q e = some q' ∧ offered r e = some r' ∧ SameQueue q' r' := by
  have hm : Config.heapPhys = 1023 := rfl
  have hcap := q.cap.isLt
  have hr := offered_cases r e
  rw [h.size, h.cap] at hr
  rcases offered_cases q e with ⟨hne, ho⟩ | ⟨he, hc, ho⟩ | ⟨he, hc, ho⟩
  · rcases hr with ⟨-, ho'⟩ | ⟨he', -⟩ | ⟨he', -⟩
    · have hlt : q.size.toNat < q.cap.toNat := lt_of_le_of_ne hq.2 fun e => hne (BitVec.eq_of_toNat_eq e)
      exact .inr ⟨_, _, ho, ho', sameQueue_insertLast e h (by omega)⟩
    · exact absurd he' hne
    · exact absurd he' hne
  · have hsc : q.size.toNat = q.cap.toNat := congrArg BitVec.toNat he
    rcases hr with ⟨hne', -⟩ | ⟨-, -, ho'⟩ | ⟨-, hc', -⟩
    · exact absurd he hne'
    · exact .inr ⟨_, _, ho, ho', sameQueue_insertLast e
        (sameQueue_of rfl rfl h.external fun p hp hps => h.heap p hp hps) (by simp only; omega)⟩
    · omega
  · rcases hr with ⟨hne', -⟩ | ⟨-, hc', -⟩ | ⟨-, -, ho'⟩
    · exact absurd he hne'
    · omega
    · exact .inl ⟨ho, ho'⟩

/-- Two queues within their capacity that agree on their live entries. -/
def SameOkQueue (q r : Queue) : Prop := QueueOk q ∧ SameQueue q r

theorem offer_agree (e : Entry) : Agree SameOkQueue C D (offer e) := fun s t h => by
  obtain ⟨q, c, d, rfl, ⟨hok, hs⟩, hc, hd⟩ := h
  rw [offer_run, offer_run]
  rcases offered_same e hs hok with ⟨h₁, h₂⟩ | ⟨q', r', h₁, h₂, hs'⟩
  · rw [h₁, h₂]
    exact .raised ⟨q, c, d, rfl, ⟨hok, hs⟩, hc, hd⟩
  · rw [h₁, h₂]
    exact .ok ⟨r', c, d, rfl, ⟨offered_queueOk hok h₁, hs'⟩, hc, hd⟩

/-- PollMin from queues that agree and are not empty. -/
theorem pollMin_paired {s t : State} (h : Alike SameOkQueue C D s t) (h1 : 1 ≤ s.pq.size.toNat) :
    Paired (fun _ u v => Alike SameOkQueue C D u v ∧ u.pq.size.toNat = s.pq.size.toNat - 1)
      (Alike SameOkQueue C D) (pollMin s) (pollMin t) := by
  obtain ⟨q, c, d, rfl, ⟨hok, hs⟩, hc, hd⟩ := h
  rw [pollMin_run, pollMin_run, hs.heap 1 le_rfl h1]
  exact .ok ⟨⟨_, c, d, rfl, ⟨polled_queueOk hok h1, sameQueue_polled hs h1⟩, hc, hd⟩, by
    rw [polled_size, size_pred h1]⟩

/-! ### Codes that agree on their allocated nodes -/

/-- The same code but for NODE at and above NODE_COUNT (R34). -/
structure SameCode (c d : Code) : Prop where
  shape : d = { c with nodes := d.nodes }
  nodes : ∀ n, nodeOf d n = nodeOf c n

/-- The same code but for NODE at and above NODE_COUNT and for LEAF_MAP without a code (R34, R35). -/
structure SeenCode (c d : Code) : Prop where
  shape  : d = { c with nodes := d.nodes, leafMap := d.leafMap }
  nodes  : ∀ n, nodeOf d n = nodeOf c n
  leaves : c.valid = true → d.leafMap = c.leafMap

theorem SameCode.count {c d : Code} (h : SameCode c d) : d.count = c.count := by rw [h.shape]

theorem SameCode.seen {c d : Code} (h : SameCode c d) : SeenCode c d where
  shape := by rw [h.shape]
  nodes := h.nodes
  leaves _ := by rw [h.shape]

theorem SeenCode.same {c d : Code} (h : SeenCode c d) (hv : c.valid = true) : SameCode c d where
  shape := by
    have h₁ := h.shape
    rw [h.leaves hv] at h₁
    exact h₁
  nodes := h.nodes

theorem nodeAt_agree (hC : ∀ c d, C c d → ∀ n, nodeOf d n = nodeOf c n) (n : Nat) : Agree Q C D (nodeAt n) :=
  fun s t h => by
    obtain ⟨q, c, d, rfl, hq, hc, hd⟩ := h
    rw [nodeAt_run, nodeAt_run, hC _ _ hc n]
    cases nodeOf s.code n with
    | none => exact .stopped
    | some nd => exact .ok ⟨q, c, d, rfl, hq, hc, hd⟩

theorem sameCode_allocated {c d : Code} (nd : Node) (h : SameCode c d) (hc : c.count.toNat < Config.nodeCap) :
    SameCode (allocated c nd) (allocated d nd) where
  shape := by rw [h.shape]
  nodes n := by
    rw [nodeOf_allocated d nd n (h.count ▸ hc), nodeOf_allocated c nd n hc, h.count, h.nodes n]

theorem alloc_agree (leaf : Bool) (sym : Byte) (f : Word) (l r : NodeIdx) : Agree Q SameCode D (alloc leaf sym f l r) :=
  fun s t h => by
    obtain ⟨q, c, d, rfl, hq, hc, hd⟩ := h
    rw [alloc_run, alloc_run]
    dsimp only
    rw [hc.count]
    split
    · rename_i hroom
      exact .ok ⟨q, _, d, rfl, hq, sameCode_allocated _ hc hroom, hd⟩
    · exact .raised ⟨q, c, d, rfl, hq, hc, hd⟩

theorem sameCode_reparented {c d : Code} {n : NodeIdx} {nd : Node} (h : SameCode c d) (hn : nodeOf c n.toNat = some nd)
    (p : NodeIdx) : SameCode (reparented c n nd p) (reparented d n nd p) where
  shape := by unfold reparented; rw [h.shape]
  nodes k := by rw [nodeOf_reparented ((h.nodes _).trans hn), nodeOf_reparented hn, h.nodes k]

theorem setParent_agree (n p : NodeIdx) : Agree Q SameCode D (setParent n p) := fun s t h => by
  obtain ⟨q, c, d, rfl, hq, hc, hd⟩ := h
  cases hn : nodeOf s.code n.toNat with
  | none =>
    have hn' : nodeOf c n.toNat = none := (hc.nodes _).trans hn
    simp only [setParent, op_bind, nodeAt_run, hn, hn']
    exact .stopped
  | some nd =>
    rw [setParent_ok hn, setParent_ok (s := hide q c d s) ((hc.nodes _).trans hn)]
    exact .ok ⟨q, _, d, rfl, hq, sameCode_reparented hc hn p, hd⟩

theorem mapLeaf_agree (sym : Nat) (n : NodeIdx) : Agree Q SameCode D (mapLeaf sym n) :=
  .ofModify fun s q c d hq hc hd =>
    ⟨q, setLeaf c sym n, d, rfl, hq, ⟨by unfold setLeaf; rw [hc.shape], hc.nodes⟩, hd⟩

/-- An empty arena is the same whatever it held. -/
theorem sameCode_noCode (c d : Code) : SameCode (noCode c) (noCode d) where
  shape := rfl
  nodes n := by rw [nodeOf_noCode, nodeOf_noCode]

/-- Setting ROOT and CODE_VALID. -/
theorem sameCode_setRoot {c d : Code} (h : SameCode c d) (r : NodeIdx) :
    SameCode { c with root := r, valid := true } { d with root := r, valid := true } where
  shape := by rw [h.shape]
  nodes := h.nodes

/-! ### Build -/

theorem offerLeaf_agree (sym : Nat) : Agree SameOkQueue SameCode D (offerLeaf sym) :=
  .ofVisible (fun _ _ _ _ => rfl) fun _ => .ofIte _ (.ofPure _) <|
    .ofBind (alloc_agree _ _ _ _ _) fun n => .ofBind (mapLeaf_agree sym n) fun _ => offer_agree _

theorem offerLeaves_agree (l : List Nat) : Agree SameOkQueue SameCode D (offerLeaves l) := by
  induction l with
  | nil => exact .ofPure _
  | cons sym rest ih => exact .ofBind (offerLeaf_agree sym) fun _ => ih

theorem mergeTwo_paired {s t : State} (h : Alike SameOkQueue SameCode D s t) (h2 : 2 ≤ s.pq.size.toNat) :
    Paired (fun _ => Alike SameOkQueue SameCode D) (Alike SameOkQueue SameCode D) (mergeTwo s) (mergeTwo t) := by
  refine (pollMin_paired h (by omega)).bind fun x u v huv => ?_
  refine (pollMin_paired huv.1 (by omega)).bind fun y u' v' huv' => ?_
  exact Agree.ofBind (alloc_agree _ _ _ _ _) (fun n => .ofBind (setParent_agree _ n) fun _ =>
    .ofBind (setParent_agree _ n) fun _ => offer_agree _) u' v' huv'.1

theorem mergeAll_agree (fuel : Nat) : Agree SameOkQueue SameCode D (mergeAll fuel) := by
  induction fuel with
  | zero => exact .ofPure _
  | succ fuel ih =>
    refine .ofGetBind fun s q c d hq hc hd => ?_
    have hst : Alike SameOkQueue SameCode D s (hide q c d s) := ⟨q, c, d, rfl, hq, hc, hd⟩
    dsimp only
    rw [hq.2.size]
    exact paired_ite (fun h2 => (mergeTwo_paired hst h2).bind fun _ u v huv => ih u v huv) fun _ => .ok hst

/-- Build on a table with a count reads nothing it has not written (44_huffman_tree.md R111). -/
theorem build_paired {s t : State} (h : Alike Q C D s t) (hf : ∃ sym, sym < 256 ∧ freqAt s.freq sym ≠ 0#32) :
    Paired (fun _ => Alike SameOkQueue SameCode D) (Alike SameOkQueue SameCode D) (build s) (build t) := by
  obtain ⟨q, c, d, rfl, -, -, hd⟩ := h
  obtain ⟨sym, hsym, hne⟩ := hf
  have hstart : Alike SameOkQueue SameCode D
      { s with code := noCode s.code, pq := freshQueue s.pq Config.hufPqInitCap false }
      { hide q c d s with code := noCode c, pq := freshQueue q Config.hufPqInitCap false } :=
    ⟨_, _, d, rfl, ⟨(building_start s).queue.1, sameQueue_of rfl rfl rfl fun p hp hps => by
      have : p ≤ 0 := hps
      omega⟩, sameCode_noCode _ _, hd⟩
  unfold build
  refine Paired.bind (R := fun _ u v => u = _ ∧ v = _) (.ok ⟨rfl, rfl⟩) fun _ u v huv => ?_
  obtain ⟨rfl, rfl⟩ := huv
  refine ((offerLeaves_agree _ _ _ hstart).and_after (offerLeaves_building _ (by simp) (building_start s))).bind
    fun _ u v huv => ?_
  obtain ⟨huv, ⟨F, hF⟩, -, hone⟩ := huv
  have h1 : 1 ≤ u.pq.size.toNat := hone ⟨sym, by simpa using hsym, hne⟩
  have hsize : v.pq.size = u.pq.size := by
    obtain ⟨q', c', d', rfl, hq', -⟩ := huv
    exact hq'.2.size
  refine paired_get_bind ?_
  dsimp only
  rw [hsize]
  refine ((mergeAll_agree _ u v huv).and_after (mergeAll_building _ hF h1 le_rfl)).bind fun _ u v huv => ?_
  obtain ⟨huv, -, hone⟩ := huv
  refine (pollMin_paired huv (by omega)).bind fun top u v huv => ?_
  obtain ⟨⟨q', c', d', rfl, hq', hc', hd'⟩, -⟩ := huv
  exact .ok ⟨q', _, d', rfl, hq', sameCode_setRoot hc' _, hd'⟩

/-! ### Stacks that agree below DSP -/

/-- The same DSTACK below DSP (R38). -/
structure SameStack (d e : DStack) : Prop where
  dsp   : e.dsp = d.dsp
  slots : ∀ k, k < d.dsp.toNat → stackAt e k = stackAt d k

theorem stackAt_pushed_eq (d : DStack) (e : StackEntry) (k : Nat) :
    stackAt (pushed d e) k = if d.dsp.toNat = k ∧ k < Config.dstackCap then e else stackAt d k :=
  fileGet_fileSet _ _ _ _ _

theorem sameStack_pushed {d e : DStack} (h : SameStack d e) (x : StackEntry) : SameStack (pushed d x) (pushed e x) where
  dsp := by simp only [pushed, h.dsp]
  slots k hk := by
    rw [stackAt_pushed_eq, stackAt_pushed_eq, h.dsp]
    split
    · rfl
    · rename_i hne
      refine h.slots k ?_
      have hlt := d.dsp.isLt
      have hcap : Config.dstackCap = 511 := rfl
      have hk' : k < (d.dsp.toNat + 1) % 512 := by simpa [pushed, BitVec.toNat_add] using hk
      omega

/-- A collapse takes entries off the top (45_huffman_code.md R120). -/
theorem sameStack_pop {d e : DStack} (h : SameStack d e) (h3 : 3 ≤ d.dsp.toNat) :
    SameStack { d with dsp := d.dsp - 3#9 } { e with dsp := e.dsp - 3#9 } where
  dsp := by simp only [h.dsp]
  slots k hk := by
    have hlt := d.dsp.isLt
    have hsub : (d.dsp - 3#9).toNat = d.dsp.toNat - 3 := by rw [BitVec.toNat_sub]; simp; omega
    exact h.slots k (by simp only [hsub] at hk; omega)

theorem sameStack_empty (d e : DStack) : SameStack { d with dsp := 0#9 } { e with dsp := 0#9 } where
  dsp := rfl
  slots k hk := absurd (show k < 0 from hk) (Nat.not_lt_zero k)

theorem collapsible_same {d e : DStack} (h : SameStack d e) : collapsible e = collapsible d := by
  unfold collapsible
  dsimp only
  rw [h.dsp]
  split
  · rw [h.slots _ (by omega), h.slots _ (by omega), h.slots _ (by omega)]
  · rfl

theorem soleNode_same {d e : DStack} (h : SameStack d e) : soleNode e = soleNode d := by
  unfold soleNode
  rw [h.dsp]
  split
  · rename_i h1
    rw [h.slots 0 (by rw [h1]; decide)]
  · rfl

/-! ### Deser -/

theorem push_agree (e : StackEntry) : Agree Q C SameStack (push e) :=
  .ofModify fun _ q c _ hq hc hd => ⟨q, c, _, rfl, hq, hc, sameStack_pushed hd e⟩

theorem collapse_agree (fuel : Nat) : Agree Q SameCode SameStack (collapse fuel) := by
  induction fuel with
  | zero => exact .ofPure _
  | succ fuel ih =>
    refine .ofGetBind fun s q c d hq hc hd => ?_
    dsimp only
    rw [collapsible_same hd]
    cases hcol : collapsible s.dstack with
    | none => exact .ok ⟨q, c, d, rfl, hq, hc, hd⟩
    | some lr =>
      obtain ⟨l, r⟩ := lr
      refine Paired.bind (R := fun _ => Alike Q SameCode SameStack)
        (.ok ⟨q, c, _, rfl, hq, hc, sameStack_pop hd (collapsible_some hcol).1⟩) fun _ u v huv => ?_
      exact Agree.ofBind (alloc_agree _ _ _ _ _) (fun m => .ofBind (setParent_agree l m) fun _ =>
        .ofBind (setParent_agree r m) fun _ => .ofBind (push_agree _) fun _ => ih) u v huv

theorem parentMarker_agree : Agree Q C SameStack parentMarker := .ofGetBind fun s q c d hq hc hd => by
  have hst : Alike Q C SameStack s (hide q c d s) := ⟨q, c, d, rfl, hq, hc, hd⟩
  dsimp only
  rw [hd.dsp]
  exact paired_require_bind hst fun _ => push_agree _ s _ hst

theorem leafMarker_agree : Agree Q SameCode SameStack leafMarker := by
  refine .ofBind bitsLeft_agree fun _ => .ofBind (.ofRequire _ _) fun _ => .ofBind (getBits_agree 8) fun sym =>
    .ofGetBind fun s q c d hq hc hd => ?_
  have hst : Alike Q SameCode SameStack s (hide q c d s) := ⟨q, c, d, rfl, hq, hc, hd⟩
  dsimp only
  rw [hd.dsp, hc.count]
  refine paired_require_bind hst fun _ => ?_
  refine Agree.ofBind (alloc_agree _ _ _ _ _) (fun n => .ofBind (mapLeaf_agree _ n) fun _ =>
    .ofBind (push_agree _) fun _ => .ofGetBind fun u q' c' d' hq' hc' hd' => ?_) s _ hst
  dsimp only
  rw [hd'.dsp]
  exact collapse_agree _ u _ ⟨q', c', d', rfl, hq', hc', hd'⟩

theorem deserFrom_agree (fuel : Nat) : Agree Q SameCode SameStack (deserFrom fuel) := by
  induction fuel with
  | zero => exact .ofRaise _
  | succ fuel ih =>
    refine .ofBind bitsLeft_agree fun _ => .ofBind (.ofRequire _ _) fun _ => .ofBind getBit_agree fun b =>
      .ofIte _ (.ofBind parentMarker_agree fun _ => ih)
        (.ofBind leafMarker_agree fun _ => .ofGetBind fun s q c d hq hc hd => ?_)
    dsimp only
    rw [soleNode_same hd]
    cases soleNode s.dstack with
    | none => exact ih s _ ⟨q, c, d, rfl, hq, hc, hd⟩
    | some r => exact .ok ⟨q, _, d, rfl, hq, sameCode_setRoot hc r, hd⟩

/-- Deser reads nothing it has not written (R120). -/
theorem deser_paired {s t : State} (h : Alike Q C D s t) :
    Paired (fun _ => Alike Q SameCode SameStack) (Alike Q SameCode SameStack) (deser s) (deser t) := by
  obtain ⟨q, c, d, rfl, hq, -, -⟩ := h
  unfold deser
  refine Paired.bind (R := fun _ => Alike Q SameCode SameStack)
    (.ok ⟨q, _, _, rfl, hq, sameCode_noCode _ _, sameStack_empty _ _⟩) fun _ u v huv => ?_
  exact Agree.ofBind bitsLeft_agree (fun _ => deserFrom_agree _) u v huv

/-! ### Walks through the tree -/

section
variable (hC : ∀ c d, C c d → SeenCode c d)
include hC

theorem root_of_seen {c d : Code} (h : C c d) : d.root = c.root := by rw [(hC c d h).shape]

theorem ser_agree (fuel : Nat) : ∀ n, Agree Q C D (ser fuel n) := by
  induction fuel with
  | zero => exact fun _ => .ofHalt _
  | succ fuel ih =>
    exact fun n => .ofBind (nodeAt_agree (fun c d h => (hC c d h).nodes) _) fun nd => .ofIte _
      (.ofBind (putBit_agree _) fun _ => putBits_agree 8 _)
      (.ofBind (putBit_agree _) fun _ => .ofBind (ih _) fun _ => ih _)

theorem serRoot_agree : Agree Q C D serRoot := .ofGetBind fun s q c d hq hc hd => by
  dsimp only
  rw [root_of_seen hC hc]
  exact ser_agree hC _ _ s _ ⟨q, c, d, rfl, hq, hc, hd⟩

theorem decodeFrom_agree (fuel : Nat) : ∀ n, Agree Q C D (decodeFrom fuel n) := by
  induction fuel with
  | zero =>
    exact fun n => .ofBind (nodeAt_agree (fun c d h => (hC c d h).nodes) _) fun _ => .ofIte _ (.ofPure _) (.ofRaise _)
  | succ fuel ih =>
    exact fun n => .ofBind (nodeAt_agree (fun c d h => (hC c d h).nodes) _) fun nd => .ofIte _ (.ofPure _) <|
      .ofBind bitsLeft_agree fun _ => .ofBind (.ofRequire _ _) fun _ => .ofBind getBit_agree fun _ => .ofIte _ (ih _) (ih _)

theorem decodeSym_agree : Agree Q C D decodeSym :=
  .ofBind bitsLeft_agree fun k => .ofGetBind fun s q c d hq hc hd => by
    dsimp only
    rw [root_of_seen hC hc]
    exact decodeFrom_agree hC k _ s _ ⟨q, c, d, rfl, hq, hc, hd⟩

theorem pathUp_agree (fuel : Nat) : ∀ n, Agree Q C D (pathUp fuel n) := by
  induction fuel with
  | zero => exact fun _ => .ofHalt _
  | succ fuel ih =>
    refine fun n => .ofGetBind fun s q c d hq hc hd => ?_
    have hst : Alike Q C D s (hide q c d s) := ⟨q, c, d, rfl, hq, hc, hd⟩
    dsimp only
    rw [root_of_seen hC hc]
    refine paired_ite (fun _ => .ok hst) fun _ => ?_
    exact Agree.ofBind (nodeAt_agree (fun c d h => (hC c d h).nodes) _) (fun nd =>
      .ofBind (nodeAt_agree (fun c d h => (hC c d h).nodes) _) fun p => .ofBind (ih _) fun _ => .ofPure _) s _ hst

theorem expandSymbols_agree (n : Nat) : Agree Q C D (expandSymbols n) := by
  induction n with
  | zero => exact .ofPure _
  | succ n ih => exact .ofBind (decodeSym_agree hC) fun _ => .ofBind (putBits_agree 8 _) fun _ => ih

end

theorem SameCode.leafAt {c d : Code} (h : SameCode c d) (sym : Nat) : leafAt d sym = leafAt c sym := by rw [h.shape]; rfl

theorem seenCode_of_sameCode (c d : Code) : SameCode c d → SeenCode c d := SameCode.seen

theorem path_agree (sym : Nat) : Agree Q SameCode D (path sym) := .ofGetBind fun s q c d hq hc hd => by
  dsimp only
  rw [hc.leafAt]
  exact Agree.ofBind (pathUp_agree seenCode_of_sameCode _ _) (fun _ => .ofPure _) s _ ⟨q, c, d, rfl, hq, hc, hd⟩

theorem encodeSym_agree (sym : Nat) : Agree Q SameCode D (encodeSym sym) := .ofGetBind fun s q c d hq hc hd => by
  dsimp only
  rw [root_of_seen seenCode_of_sameCode hc]
  exact Agree.ofBind (nodeAt_agree (fun _ _ h => h.nodes) _) (fun nd => .ofIte _ (.ofPure _) <|
    .ofBind (path_agree sym) fun _ => putAll_agree _) s _ ⟨q, c, d, rfl, hq, hc, hd⟩

theorem compressBytes_agree (n : Nat) : Agree Q SameCode D (compressBytes n) := by
  induction n with
  | zero => exact .ofPure _
  | succ n ih => exact .ofBind (getBits_agree 8) fun _ => .ofBind (encodeSym_agree _) fun _ => ih

end Sys2Proof.Proofs

/-! PROOFS. Unspecified contents influence no command and no host read (10_state.md R42). -/

namespace Sys2Proof.Proofs

open Sys2Proof Sys2Proof.Machine Sys2Proof.Safety Sys2Proof.Laws

/-- DSTACK says nothing between commands (10_state.md R38). -/
def AnyStack (_ _ : DStack) : Prop := True

/-- Two states that differ at most in unspecified contents, as the primitives' lemmas take them. -/
abbrev Seen : State → State → Prop := Alike SameQueue SeenCode AnyStack

theorem sameSeen_iff {s t : State} : SameSeen s t ↔ Seen s t := by
  constructor
  · rintro ⟨hothers, hqueue, hheap, hcode, hnodes, hleaves⟩
    exact ⟨t.pq, t.code, t.dstack, hothers, ⟨hqueue, hheap⟩, ⟨hcode, hnodes, hleaves⟩, trivial⟩
  · rintro ⟨q, c, d, rfl, hq, hc, -⟩
    exact ⟨rfl, hq.shape, hq.heap, hc.shape, hc.nodes, hc.leaves⟩

section
variable {Q : Queue → Queue → Prop} {D : DStack → DStack → Prop} {s t : State}

theorem seen_of_sameCode (h : Alike SameQueue SameCode D s t) : Seen s t :=
  h.mono id SameCode.seen fun _ => trivial

theorem seen_of_okQueue {C : Code → Code → Prop} (hC : ∀ c d, C c d → SeenCode c d) (h : Alike SameOkQueue C D s t) :
    Seen s t :=
  h.mono (fun hq => hq.2) (hC _ _) fun _ => trivial

theorem seen_of_okQueue_sameCode (h : Alike SameOkQueue SameCode D s t) : Seen s t :=
  seen_of_okQueue seenCode_of_sameCode h

/-- A body that agrees on more than can be seen agrees on what can be seen. -/
theorem paired_seen_of_sameCode {x : Op Unit} (hx : Agree SameQueue SameCode D x)
    (h : Alike SameQueue SameCode D s t) : Paired (fun _ => Seen) Seen (x s) (x t) :=
  (hx s t h).mono (fun _ _ _ => seen_of_sameCode) fun _ _ => seen_of_sameCode

/-- With a code held LEAF_MAP is specified (R35). -/
theorem paired_needCode_bind {f : Unit → Op Unit} (h : Seen s t)
    (hf : Agree SameQueue SameCode AnyStack (f ())) :
    Paired (fun _ => Seen) Seen ((needCode >>= f) s) ((needCode >>= f) t) := by
  obtain ⟨q, c, d, rfl, hq, hc, hd⟩ := h
  have hvalid : c.valid = s.code.valid := by rw [hc.shape]
  rw [op_bind, op_bind, needCode_run, needCode_run]
  dsimp only
  rw [hvalid]
  by_cases hv : s.code.valid = true
  · rw [if_pos hv, if_pos hv]
    exact paired_seen_of_sameCode hf ⟨q, c, d, rfl, hq, hc.same hv, hd⟩
  · rw [if_neg hv, if_neg hv]
    exact .raised ⟨q, c, d, rfl, hq, hc, hd⟩

/-! ### The queue commands -/

theorem opPqInit_paired (h : Seen s t) : Paired (fun _ => Seen) Seen (opPqInit s) (opPqInit t) := by
  refine Agree.ofBind operand0_agree (fun _ => .ofBind signedOperand0_agree fun _ => .ofBind operand1_agree fun _ =>
    .ofGetBind fun u q c d hq hc hd => ?_) s t h
  have hu : Seen u (hide q c d u) := ⟨q, c, d, rfl, hq, hc, hd⟩
  refine paired_require_bind hu fun _ => paired_require_bind hu fun _ => paired_require_bind hu fun _ =>
    paired_require_bind hu fun _ => .ok ⟨_, c, d, rfl, sameQueue_of rfl rfl rfl fun p hp hps => ?_, hc, hd⟩
  exact hq.heap p hp (hps.trans (Nat.zero_le _))

theorem opPqOffer_paired (present : Bool) (h : Seen s t) (hok : QueueOk s.pq) :
    Paired (fun _ => Seen) Seen (opPqOffer present s) (opPqOffer present t) := by
  refine paired_require_bind h fun _ => paired_get_bind ?_
  obtain ⟨q, c, d, rfl, hq, hrest⟩ := h
  exact (offer_agree _ s _ ⟨q, c, d, rfl, ⟨hok, hq⟩, hrest⟩).mono (fun _ _ _ => seen_of_okQueue fun _ _ => id)
    fun _ _ => seen_of_okQueue fun _ _ => id

theorem opPqPoll_paired (h : Seen s t) (hok : QueueOk s.pq) :
    Paired (fun _ => Seen) Seen (opPqPoll s) (opPqPoll t) := by
  have hst := h
  obtain ⟨q, c, d, rfl, hq, hrest⟩ := h
  refine paired_get_bind ?_
  dsimp only
  rw [hq.size]
  refine paired_ite (fun _ => emptyQueue_agree _ _ hst) fun hne => ?_
  have h1 : 1 ≤ s.pq.size.toNat := Nat.one_le_iff_ne_zero.mpr fun e => hne (BitVec.eq_of_toNat_eq e)
  have hpoll := pollMin_paired (s := s) ⟨q, c, d, rfl, ⟨hok, hq⟩, hrest⟩ h1
  exact (hpoll.mono (fun _ _ _ h => seen_of_okQueue (fun _ _ => id) h.1) fun _ _ => seen_of_okQueue fun _ _ => id).bind
    fun e u v huv => setResEntry_agree e u v huv

theorem opPqPeek_agree : Agree SameQueue SeenCode AnyStack opPqPeek := .ofGetBind fun s q c d hq hc hd => by
  have hst : Seen s (hide q c d s) := ⟨q, c, d, rfl, hq, hc, hd⟩
  dsimp only
  rw [hq.size]
  refine paired_ite (fun _ => emptyQueue_agree _ _ hst) fun hne => ?_
  rw [hq.heap 1 le_rfl (Nat.one_le_iff_ne_zero.mpr fun e => hne (BitVec.eq_of_toNat_eq e))]
  exact setResEntry_agree _ _ _ hst

theorem opPqSize_agree : Agree SameQueue SeenCode AnyStack opPqSize := .ofGetBind fun s q c d hq hc hd => by
  dsimp only
  rw [hq.size]
  exact setRes0_agree _ s _ ⟨q, c, d, rfl, hq, hc, hd⟩

theorem opPqAt_agree : Agree SameQueue SeenCode AnyStack opPqAt :=
  .ofBind operand0_agree fun i => .ofGetBind fun s q c d hq hc hd => by
    have hst : Seen s (hide q c d s) := ⟨q, c, d, rfl, hq, hc, hd⟩
    dsimp only
    rw [hq.size]
    refine paired_require_bind hst fun hi => ?_
    rw [hq.heap i hi.1 hi.2]
    exact setResEntry_agree _ _ _ hst

/-! ### The commands of trees and codes -/

theorem opHufBuild_paired (h : Seen s t) : Paired (fun _ => Seen) Seen (opHufBuild s) (opHufBuild t) := by
  have hst := h
  obtain ⟨q, c, d, rfl, -⟩ := h
  refine paired_get_bind <| paired_require_bind hst fun _ => paired_require_bind hst fun hne =>
    paired_require_bind hst fun _ => ?_
  exact (build_paired hst (exists_freqAt_ne_zero hne)).mono
    (fun _ _ _ => seen_of_okQueue_sameCode) fun _ _ => seen_of_okQueue_sameCode

theorem opHufNode_agree : Agree SameQueue SeenCode AnyStack opHufNode :=
  .ofBind operand0_agree fun i => .ofGetBind fun s q c d hq hc hd => by
    have hst : Seen s (hide q c d s) := ⟨q, c, d, rfl, hq, hc, hd⟩
    have hcount : c.count = s.code.count := by rw [hc.shape]
    dsimp only
    rw [hcount]
    refine paired_require_bind hst fun _ => ?_
    exact Agree.ofBind (nodeAt_agree (fun _ _ h => h.nodes) i) (fun nd => .ofBind (setRes0_agree _) fun _ =>
      .ofBind (setRes1_agree _) fun _ => setRes2_agree _) s _ hst

theorem opHufLeaf_paired (h : Seen s t) : Paired (fun _ => Seen) Seen (opHufLeaf s) (opHufLeaf t) := by
  refine paired_needCode_bind h <| .ofBind operand0_agree fun sym => .ofBind (.ofRequire _ _) fun _ =>
    .ofGetBind fun u q c d hq hc hd => ?_
  dsimp only
  rw [hc.leafAt]
  exact setRes0_agree _ u _ ⟨q, c, d, rfl, hq, hc, hd⟩

theorem opHufWrhdr_paired (h : Seen s t) : Paired (fun _ => Seen) Seen (opHufWrhdr s) (opHufWrhdr t) :=
  (needWriter_agree s t h).bind fun _ _ _ huv => paired_needCode_bind huv (serRoot_agree seenCode_of_sameCode)

theorem opHufRdhdr_paired (h : Seen s t) : Paired (fun _ => Seen) Seen (opHufRdhdr s) (opHufRdhdr t) :=
  (needReader_agree s t h).bind fun _ _ _ huv =>
    (deser_paired huv).mono (fun _ _ _ => seen_of_sameCode) fun _ _ => seen_of_sameCode

theorem opHufEnc_paired (h : Seen s t) : Paired (fun _ => Seen) Seen (opHufEnc s) (opHufEnc t) := by
  refine (needWriter_agree s t h).bind fun _ _ _ huv => paired_needCode_bind huv <|
    .ofBind operand0_agree fun sym => .ofBind (.ofRequire _ _) fun _ => .ofGetBind fun u q c d hq hc hd => ?_
  have hst : Alike SameQueue SameCode AnyStack u (hide q c d u) := ⟨q, c, d, rfl, hq, hc, hd⟩
  dsimp only
  rw [hc.leafAt]
  exact paired_require_bind hst fun _ => encodeSym_agree sym u _ hst

theorem opHufDec_paired (h : Seen s t) : Paired (fun _ => Seen) Seen (opHufDec s) (opHufDec t) :=
  (needReader_agree s t h).bind fun _ _ _ huv => paired_needCode_bind huv <|
    .ofBind (decodeSym_agree seenCode_of_sameCode) fun _ => setRes0_agree _

theorem compressStream_paired (h : Seen s t) (hlen : s.inp.len ≠ 0#32) :
    Paired (fun _ => Seen) Seen (compressStream s) (compressStream t) := by
  obtain ⟨q, c, d, rfl, hrest⟩ := h
  refine paired_get_bind ?_
  refine ((scan_agree s _ ⟨q, c, d, rfl, hrest⟩).and_after (scan_counts s)).bind fun _ u v huv => ?_
  obtain ⟨huv, -, hne⟩ := huv
  refine ((build_paired huv (hne hlen)).mono (fun _ _ _ => id) fun _ _ => seen_of_okQueue_sameCode).bind fun _ u v huv => ?_
  exact (Agree.ofBind (serRoot_agree seenCode_of_sameCode) (fun _ => .ofBind (writeVarintFrom_agree 4 _) fun _ =>
    .ofBind inReset_agree fun _ => .ofBind (compressBytes_agree _) fun _ => flush_agree) u v huv).mono
      (fun _ _ _ => seen_of_okQueue_sameCode) fun _ _ => seen_of_okQueue_sameCode

theorem opHufCompress_paired (h : Seen s t) : Paired (fun _ => Seen) Seen (opHufCompress s) (opHufCompress t) := by
  refine (needReader_agree s t h).bind fun _ u v huv => (needWriter_agree u v huv).bind fun _ u v huv => paired_get_bind ?_
  have hst := huv
  obtain ⟨q, c, d, rfl, -⟩ := huv
  exact paired_ite (fun _ => .ok hst) fun hlen => compressStream_paired hst hlen

theorem expandStream_paired (h : Seen s t) : Paired (fun _ => Seen) Seen (expandStream s) (expandStream t) := by
  refine (inReset_agree s t h).bind fun _ u v huv => ?_
  refine ((deser_paired huv).mono (fun _ _ _ => id) fun _ _ => seen_of_sameCode).bind fun _ u v huv => ?_
  exact paired_seen_of_sameCode (.ofBind readVarint_agree fun _ =>
    .ofBind (expandSymbols_agree seenCode_of_sameCode _) fun _ => flush_agree) huv

theorem opHufExpand_paired (h : Seen s t) : Paired (fun _ => Seen) Seen (opHufExpand s) (opHufExpand t) := by
  refine (needReader_agree s t h).bind fun _ u v huv => (needWriter_agree u v huv).bind fun _ u v huv => paired_get_bind ?_
  have hst := huv
  obtain ⟨q, c, d, rfl, -⟩ := huv
  exact paired_ite (fun _ => .ok hst) fun _ => expandStream_paired hst

/-- A soft reset leaves no entry live, no node allocated and no code held (R42). -/
theorem softReset_seen (h : Seen s t) : Seen (softReset s) (softReset t) := by
  obtain ⟨q, c, d, rfl, hq, hc, -⟩ := h
  refine ⟨_, _, _, rfl, sameQueue_of rfl rfl rfl fun p hp hps => hq.heap p hp (hps.trans (Nat.zero_le _)),
    ⟨rfl, fun n => ?_, fun hv => by cases hv⟩, trivial⟩
  have hnone : ∀ e : Code, nodeOf { e with count := 0#10, root := Config.noNode, valid := false } n = none := fun e => by
    simp [nodeOf]
  exact (hnone c).trans (hnone s.code).symm

end

/-! ### Every command -/

section
open Agree

variable {Q : Queue → Queue → Prop} {C : Code → Code → Prop} {D : DStack → DStack → Prop}

theorem opClrErr_agree : Agree Q C D opClrErr := ofVisibleModify (fun _ _ _ _ => rfl) fun _ => ⟨rfl, rfl, rfl⟩

theorem opFreqClear_agree : Agree Q C D opFreqClear := ofVisibleModify (fun _ _ _ _ => rfl) fun _ => ⟨rfl, rfl, rfl⟩

theorem opFreqSet_agree : Agree Q C D opFreqSet :=
  ofBind operand0_agree fun _ => ofBind operand1_agree fun _ => ofBind (ofRequire _ _) fun _ =>
    ofBind (ofRequire _ _) fun _ => ofVisibleModify (fun _ _ _ _ => rfl) fun _ => ⟨rfl, rfl, rfl⟩

theorem opLzwWinit_agree : Agree Q C D opLzwWinit :=
  ofBind signedOperand0_agree fun _ => ofBind (ofRequire _ _) fun _ =>
    ofVisibleModify (fun _ _ _ _ => rfl) fun _ => ⟨rfl, rfl, rfl⟩

theorem opLzwRinit_agree : Agree Q C D opLzwRinit :=
  ofBind signedOperand0_agree fun _ => ofBind (ofRequire _ _) fun _ =>
    ofVisibleModify (fun _ _ _ _ => rfl) fun _ => ⟨rfl, rfl, rfl⟩

theorem opLzwWrite_agree : Agree Q C D opLzwWrite :=
  ofBind needWriter_agree fun _ => ofVisible (fun _ _ _ _ => rfl) fun _ => ofBind (ofRequire _ _) fun _ =>
    ofBind (ofRequire _ _) fun _ => ofBind operand0_agree fun _ => ofBind (ofRequire _ _) fun _ =>
      ofBind (putBits_agree _ _) fun _ => ofVisibleModify (fun _ _ _ _ => rfl) fun _ => ⟨rfl, rfl, rfl⟩

theorem opLzwRead_agree : Agree Q C D opLzwRead :=
  ofBind needReader_agree fun _ => ofVisible (fun _ _ _ _ => rfl) fun _ => ofBind (ofRequire _ _) fun _ =>
    ofBind (ofRequire _ _) fun _ => readOrEos_agree _ <| ofVisibleModify (fun _ _ _ _ => rfl) fun _ => ⟨rfl, rfl, rfl⟩

/-- Every body, run from two states that differ in unspecified contents. -/
theorem bodyOf_paired (i : Instr) {s t : State} (h : Seen s t) (hq : QueueOk s.pq) :
    Paired (fun _ => Seen) Seen (bodyOf i s) (bodyOf i t) := by
  cases i with
  | nop => exact ofPure _ s t h
  | clrErr => exact opClrErr_agree s t h
  | sreset => exact .ok (softReset_seen h)
  | rdBit => exact ofBind needReader_agree (fun _ => readOrEos_agree 1 (ofPure _)) s t h
  | rdBits =>
    exact ofBind needReader_agree (fun _ => ofBind operand0_agree fun _ => ofBind (ofRequire _ _) fun _ =>
      readOrEos_agree _ (ofPure _)) s t h
  | rdByte => exact ofBind needReader_agree (fun _ => readOrEos_agree 8 (ofPure _)) s t h
  | rdBytes => exact opRdBytes_agree s t h
  | rdInt => exact ofBind needReader_agree (fun _ => ofBind readVarint_agree fun _ => setRes0_agree _) s t h
  | inLength =>
    exact ofBind needReader_agree (fun _ => ofVisible (fun _ _ _ _ => rfl) fun _ => setRes0_agree _) s t h
  | inReset => exact ofBind needReader_agree (fun _ => inReset_agree) s t h
  | wrBit =>
    exact ofBind needWriter_agree (fun _ => ofBind operand0_agree fun _ => ofBind (ofRequire _ _) fun _ =>
      putBit_agree _) s t h
  | wrBits =>
    exact ofBind needWriter_agree (fun _ => ofBind operand0_agree fun _ => ofBind operand1_agree fun _ =>
      ofBind (ofRequire _ _) fun _ => ofBind (ofRequire _ _) fun _ => putBits_agree _ _) s t h
  | wrByte =>
    exact ofBind needWriter_agree (fun _ => ofBind operand0_agree fun _ => ofBind (ofRequire _ _) fun _ =>
      putBits_agree _ _) s t h
  | wrBytes => exact opWrBytes_agree s t h
  | wrInt =>
    exact ofBind needWriter_agree (fun _ => ofBind operand0_agree fun _ => ofBind (ofRequire _ _) fun _ =>
      writeVarintFrom_agree 4 _) s t h
  | wrFlush => exact ofBind needWriter_agree (fun _ => flush_agree) s t h
  | pqInit => exact opPqInit_paired h
  | pqOffer present => exact opPqOffer_paired present h hq
  | pqPoll => exact opPqPoll_paired h hq
  | pqPeek => exact opPqPeek_agree s t h
  | pqSize => exact opPqSize_agree s t h
  | pqAt => exact opPqAt_agree s t h
  | freqClear => exact opFreqClear_agree s t h
  | freqSet => exact opFreqSet_agree s t h
  | freqScan => exact ofBind needReader_agree (fun _ => scan_agree) s t h
  | hufBuild => exact opHufBuild_paired h
  | hufNode => exact opHufNode_agree s t h
  | hufLeaf => exact opHufLeaf_paired h
  | hufWrhdr => exact opHufWrhdr_paired h
  | hufRdhdr => exact opHufRdhdr_paired h
  | hufEnc => exact opHufEnc_paired h
  | hufDec => exact opHufDec_paired h
  | hufCompress => exact opHufCompress_paired h
  | hufExpand => exact opHufExpand_paired h
  | lzwWinit => exact opLzwWinit_agree s t h
  | lzwRinit => exact opLzwRinit_agree s t h
  | lzwWrite => exact opLzwWrite_agree s t h
  | lzwRead => exact opLzwRead_agree s t h

end

/-- No register shows unspecified contents (20_memory.md R45). -/
theorem readReg_seen {s t : State} (h : Seen s t) (r : Reg) : readReg t r = readReg s r := by
  obtain ⟨q, c, d, rfl, hq, hc, -⟩ := h
  cases r with
  | pqSize => simp only [readReg, hq.size]
  | pqCap => simp only [readReg, hq.cap]
  | pqCmp => simp only [readReg, hq.external]
  | hufStat => simp only [readReg]; rw [hc.shape]; rfl
  | nodeCount => simp only [readReg]; rw [hc.shape]
  | _ => rfl

theorem hostRead_seen {s t : State} (h : Seen s t) (a : BitVec 28) (n : Width) : hostRead t a n = hostRead s a n := by
  have hreg := readReg_seen h
  obtain ⟨q, c, d, rfl, -⟩ := h
  unfold hostRead
  dsimp only
  split <;> simp only [hreg]

/-- Settles O58: every primitive reads live contents only, and what a command makes live it has written. -/
theorem unspecifiedContentsUnseen : Obligations.UnspecifiedContentsUnseen := by
  unfold Obligations.UnspecifiedContentsUnseen
  intro s t h hq
  have hst := sameSeen_iff.mp h
  refine ⟨hostRead_seen hst, fun i => ?_⟩
  simp only [exec_eq, sameSeen_iff]
  refine (bodyOf_paired i hst hq).command (fun u v huv => ?_) fun c u v huv => ?_
  · obtain ⟨q, c, d, rfl, hrest⟩ := huv
    exact ⟨q, c, d, rfl, hrest⟩
  · obtain ⟨q, c, d, rfl, hrest⟩ := huv
    exact ⟨q, c, d, rfl, hrest⟩

end Sys2Proof.Proofs

/-! PROOFS. The host's window on the block (20_memory.md R44 to R49): what every offset reaches, what the registers read
as, and which accesses are bus errors. -/

namespace Sys2Proof.Proofs

open Sys2Proof Sys2Proof.Machine Sys2Proof.Safety Sys2Proof.Laws

/-! ### What a register reads as -/

/-- The number of two fields, the higher one first. -/
theorem toNat_append_eq {m n : Nat} (x : BitVec m) (y : BitVec n) : (x ++ y).toNat = x.toNat * 2 ^ n + y.toNat := by
  rw [BitVec.toNat_append, ← Nat.shiftLeft_add_eq_or_of_lt y.isLt, Nat.shiftLeft_eq]

theorem statusWord_toNat (f : Status) : (statusWord f).toNat = f.busy.toNat + 2 * f.done.toNat + 4 * f.err.toNat +
    8 * f.eos.toNat + 16 * f.empty.toNat + 32 * f.ign.toNat + 256 * f.errCode.toNat := by
  simp only [statusWord, toNat_append_eq, BitVec.toNat_ofBool, BitVec.toNat_ofNat]
  omega

theorem ctrlWord_toNat (c : Ctrl) : (ctrlWord c).toNat = c.inEn.toNat + 2 * c.outEn.toNat + 4 * c.irqEn.toNat := by
  simp only [ctrlWord, toNat_append_eq, BitVec.toNat_ofBool, BitVec.toNat_ofNat]
  omega

theorem inBitsWord_toNat (u : InUnit) : (inBitsWord u).toNat = u.buf.toNat + 256 * u.nbits.toNat := by
  simp only [inBitsWord, toNat_append_eq, BitVec.toNat_ofNat]
  omega

theorem outBitsWord_toNat (u : OutUnit) : (outBitsWord u).toNat = u.buf.toNat + 256 * u.nbits.toNat := by
  simp only [outBitsWord, toNat_append_eq, BitVec.toNat_ofNat]
  omega

theorem hufStatWord_toNat (c : Code) (f : FreqTable) :
    (hufStatWord c f).toNat = c.valid.toNat + 2 * f.valid.toNat + 65536 * c.root.toNat := by
  simp only [hufStatWord, toNat_append_eq, BitVec.toNat_ofBool, BitVec.toNat_ofNat]
  omega

theorem lzwStatWord_toNat (l : Lzw) : (lzwStatWord l).toNat = l.wValid.toNat + 2 * l.rValid.toNat := by
  simp only [lzwStatWord, toNat_append_eq, BitVec.toNat_ofBool, BitVec.toNat_ofNat]
  omega

theorem pqCmpWord_toNat (b : Bool) : ((BitVec.ofBool b).setWidth 32).toNat = b.toNat := by
  cases b <;> rfl

/-! ### The registers and their offsets -/

/-- The registers a host write can change something through (R45). -/
def hostWritable : List Reg := [.cmd, .arg0, .arg1, .status, .ctrl, .inLen, .outLen]

theorem writeReg_readOnly {r : Reg} (hr : r ∉ hostWritable) (v : Word) (s : State) : writeReg r v s = .next s := by
  cases r with
  | cmd | arg0 | arg1 | status | ctrl | inLen | outLen => simp [hostWritable] at hr
  | _ => rfl

/-- A write of any register but CMD is a next state. -/
theorem writeReg_next {r : Reg} (hr : r ≠ .cmd) (v : Word) (s : State) : ∃ t, writeReg r v s = .next t := by
  cases r with
  | cmd => exact absurd rfl hr
  | _ => exact ⟨_, rfl⟩

theorem regAt_isSome_iff (a : Nat) : (∃ r, regAt a = some r) ↔ a ∈ registerOffsets := by
  constructor
  · rintro ⟨r, hr⟩
    unfold regAt at hr
    split at hr
    case h_25 => cases hr
    all_goals decide
  · have h : ∀ a ∈ registerOffsets, (regAt a).isSome = true := by decide
    exact fun ha => Option.isSome_iff_exists.mp (h a ha)

theorem registerOffsets_block : ∀ a ∈ registerOffsets, a % 4 = 0 ∧ a < 0x1000 := by decide

theorem eq_zero_of_regAt_cmd {a : Nat} (h : regAt a = some .cmd) : a = 0 := by
  unfold regAt at h
  split at h
  case h_1 => rfl
  all_goals cases h

theorem regAt_readOnly : ∀ a ∈ readOnlyOffsets, a ∈ registerOffsets ∧ ∀ r ∈ regAt a, r ∉ hostWritable := by decide

/-- Settles O9: every offset of the table is a register's, whose word is the sum of its fields at their bits. -/
theorem registerMap : Obligations.RegisterMap := by
  unfold Obligations.RegisterMap
  intro s
  have hread : ∀ (a : BitVec 28) (r : Reg), a.toNat % 4 = 0 → a.toNat < 0x1000 → regAt a.toNat = some r →
      (hostRead s a .four).map BitVec.toNat = some (readReg s r).toNat := fun a r h4 ha hr => by
    rw [hostRead_reg s h4 ha hr, Option.map_some]
  refine ⟨hostRead_reg s (r := .cmd) rfl (by decide) rfl, hostRead_reg s (r := .arg0) rfl (by decide) rfl,
    hostRead_reg s (r := .arg1) rfl (by decide) rfl, hostRead_reg s (r := .res0) rfl (by decide) rfl,
    hostRead_reg s (r := .res1) rfl (by decide) rfl, hostRead_reg s (r := .res2) rfl (by decide) rfl,
    (hread _ .status rfl (by decide) rfl).trans (congrArg some (statusWord_toNat _)),
    hostRead_reg s (r := .errInfo) rfl (by decide) rfl,
    (hread _ .ctrl rfl (by decide) rfl).trans (congrArg some (ctrlWord_toNat _)),
    hostRead_reg s (r := .cmdCnt) rfl (by decide) rfl, hostRead_reg s (r := .id) rfl (by decide) rfl,
    hostRead_reg s (r := .inLen) rfl (by decide) rfl, hostRead_reg s (r := .inPos) rfl (by decide) rfl,
    (hread _ .inBits rfl (by decide) rfl).trans (congrArg some (inBitsWord_toNat _)),
    hostRead_reg s (r := .outLen) rfl (by decide) rfl,
    (hread _ .outBits rfl (by decide) rfl).trans (congrArg some (outBitsWord_toNat _)),
    (hread _ .pqSize rfl (by decide) rfl).trans (congrArg some (BitVec.toNat_setWidth_of_le (by decide))),
    (hread _ .pqCap rfl (by decide) rfl).trans (congrArg some (BitVec.toNat_setWidth_of_le (by decide))),
    (hread _ .pqCmp rfl (by decide) rfl).trans (congrArg some (pqCmpWord_toNat _)),
    (hread _ .hufStat rfl (by decide) rfl).trans (congrArg some (hufStatWord_toNat _ _)),
    (hread _ .nodeCount rfl (by decide) rfl).trans (congrArg some (BitVec.toNat_setWidth_of_le (by decide))),
    hostRead_reg s (r := .lzwWsize) rfl (by decide) rfl, hostRead_reg s (r := .lzwRsize) rfl (by decide) rfl,
    (hread _ .lzwStat rfl (by decide) rfl).trans (congrArg some (lzwStatWord_toNat _)), fun a v rest ha h => ?_⟩
  obtain ⟨hmem, hro⟩ := regAt_readOnly _ ha
  obtain ⟨h4, hlt⟩ := registerOffsets_block _ hmem
  obtain ⟨r, hr⟩ := (regAt_isSome_iff _).mpr hmem
  rw [step_writeReg h h4 hlt hr, writeReg_readOnly (hro r hr)]

/-! ### What an offset reaches -/

section
variable {cfg : Config.Params} {a n : Nat}

theorem locate_freq (h4 : a % 4 = 0) (ha : 0x1000 ≤ a) (hb : a < 0x1400) :
    locate cfg a 4 = some (.freq ((a - 0x1000) / 4)) := by
  simp [locate, h4, hb, Nat.not_lt.mpr ha]

theorem locate_input (ha : a % n = 0) (h : Inside inBase cfg.inCap a n) : locate cfg a n = some (.input a) := by
  unfold locate
  have : inBase = 0x1000000 := rfl
  rw [if_neg (not_not.mpr ha), if_neg (by omega), if_neg (by omega), if_pos h]

theorem locate_output (hc : cfg.legal) (hn : 0 < n) (ha : a % n = 0) (h : Inside outBase cfg.outCap a n) :
    locate cfg a n = some (.output a) := by
  unfold locate
  have : inBase = 0x1000000 := rfl
  have : outBase = 0x2000000 := rfl
  have := hc.1.2
  rw [if_neg (not_not.mpr ha), if_neg (by omega), if_neg (by omega), if_neg (by omega), if_pos h]

theorem locate_scratch (hc : cfg.legal) (hn : 0 < n) (ha : a % n = 0) (h : Inside scrBase cfg.scrCap a n) :
    locate cfg a n = some (.scratch a) := by
  unfold locate
  have : inBase = 0x1000000 := rfl
  have : outBase = 0x2000000 := rfl
  have : scrBase = 0x3000000 := rfl
  have := hc.1.2
  have := hc.2.1.2
  rw [if_neg (not_not.mpr ha), if_neg (by omega), if_neg (by omega), if_neg (by omega), if_neg (by omega), if_pos h]

end

/-- What an access of `n` bytes at `a` reaches, if it reaches anything (R44, R46, R47). -/
def Reaches (cfg : Config.Params) (a n : Nat) (t : Target) : Prop :=
  match t with
  | .reg r => n = 4 ∧ regAt a = some r
  | .freq sym => n = 4 ∧ a % 4 = 0 ∧ 0x1000 ≤ a ∧ a < 0x1400 ∧ sym = (a - 0x1000) / 4
  | .input b => a % n = 0 ∧ Inside inBase cfg.inCap a n ∧ b = a
  | .output b => a % n = 0 ∧ Inside outBase cfg.outCap a n ∧ b = a
  | .scratch b => a % n = 0 ∧ Inside scrBase cfg.scrCap a n ∧ b = a

theorem reaches_of_locate {cfg : Config.Params} {a n : Nat} {t : Target} (h : locate cfg a n = some t) :
    Reaches cfg a n t := by
  unfold locate at h
  split_ifs at h with hal hreg hn hfreq hn' hin hout hscr
  · obtain ⟨r, hr, rfl⟩ := Option.map_eq_some_iff.mp h
    exact ⟨hn, hr⟩
  · cases h
    subst hn'
    exact ⟨rfl, not_not.mp hal, by omega, hfreq, rfl⟩
  · cases h; exact ⟨not_not.mp hal, hin, rfl⟩
  · cases h; exact ⟨not_not.mp hal, hout, rfl⟩
  · cases h; exact ⟨not_not.mp hal, hscr, rfl⟩

/-- In a machine of legal parameters the windows do not overlap, so an access reaches what is at its offset. -/
theorem locate_eq_some_iff {cfg : Config.Params} (hc : cfg.legal) {a n : Nat} (hn : 0 < n) (t : Target) :
    locate cfg a n = some t ↔ Reaches cfg a n t := by
  refine ⟨reaches_of_locate, fun h => ?_⟩
  cases t with
  | reg r =>
    obtain ⟨rfl, hr⟩ := h
    obtain ⟨h4, hlt⟩ := registerOffsets_block a ((regAt_isSome_iff a).mp ⟨r, hr⟩)
    exact locate_reg cfg h4 hlt hr
  | freq sym =>
    obtain ⟨rfl, h4, hlo, hhi, rfl⟩ := h
    exact locate_freq h4 hlo hhi
  | input b =>
    obtain ⟨ha, hin, rfl⟩ := h
    exact locate_input ha hin
  | output b =>
    obtain ⟨ha, hin, rfl⟩ := h
    exact locate_output hc hn ha hin
  | scratch b =>
    obtain ⟨ha, hin, rfl⟩ := h
    exact locate_scratch hc hn ha hin

theorem widthBytes_pos (n : Width) : 0 < widthBytes n := by cases n <;> decide

theorem legalRead_iff {cfg : Config.Params} (hc : cfg.legal) {a n : Nat} (hn : 0 < n) :
    LegalRead cfg a n ↔ ∃ t, locate cfg a n = some t := by
  simp only [locate_eq_some_iff hc hn]
  constructor
  · rintro (⟨rfl, hr⟩ | ⟨rfl, h4, hlo, hhi⟩ | ⟨ha, hin | hout | hscr⟩)
    · obtain ⟨r, hr⟩ := (regAt_isSome_iff a).mpr hr
      exact ⟨.reg r, rfl, hr⟩
    · exact ⟨.freq _, rfl, h4, hlo, hhi, rfl⟩
    · exact ⟨.input a, ha, hin, rfl⟩
    · exact ⟨.output a, ha, hout, rfl⟩
    · exact ⟨.scratch a, ha, hscr, rfl⟩
  · rintro ⟨t, h⟩
    cases t with
    | reg r => exact .inl ⟨h.1, (regAt_isSome_iff a).mp ⟨r, h.2⟩⟩
    | freq sym =>
      obtain ⟨hn4, h4, hlo, hhi, -⟩ := h
      exact .inr (.inl ⟨hn4, h4, hlo, hhi⟩)
    | input b => exact .inr (.inr ⟨h.1, .inl h.2.1⟩)
    | output b => exact .inr (.inr ⟨h.1, .inr (.inl h.2.1)⟩)
    | scratch b => exact .inr (.inr ⟨h.1, .inr (.inr h.2.1)⟩)

/-- The targets a host write is permitted to: not the FREQ window, not the OUT_MEM window (R44). -/
def Permitted (t : Target) : Prop :=
  match t with
  | .reg _ | .input _ | .scratch _ => True
  | .freq _ | .output _ => False

theorem legalWrite_iff {cfg : Config.Params} (hc : cfg.legal) {a n : Nat} (hn : 0 < n) :
    LegalWrite cfg a n ↔ ∃ t, locate cfg a n = some t ∧ Permitted t := by
  simp only [locate_eq_some_iff hc hn]
  constructor
  · rintro (⟨rfl, hr⟩ | ⟨ha, hin | hscr⟩)
    · obtain ⟨r, hr⟩ := (regAt_isSome_iff a).mpr hr
      exact ⟨.reg r, ⟨rfl, hr⟩, trivial⟩
    · exact ⟨.input a, ⟨ha, hin, rfl⟩, trivial⟩
    · exact ⟨.scratch a, ⟨ha, hscr, rfl⟩, trivial⟩
  · rintro ⟨t, h, hp⟩
    cases t with
    | reg r => exact .inl ⟨h.1, (regAt_isSome_iff a).mp ⟨r, h.2⟩⟩
    | freq sym => exact hp.elim
    | input b => exact .inr ⟨h.1, .inl h.2.1⟩
    | output b => exact hp.elim
    | scratch b => exact .inr ⟨h.1, .inr h.2.1⟩

/-! ### The accesses, by what they reach -/

/-- What a host read of `n` bytes answers at each target (R45, R48). -/
def readTarget (s : State) (n : Width) (t : Target) : Word :=
  match t with
  | .reg r => readReg s r
  | .freq sym => freqAt s.freq sym
  | .input a | .output a | .scratch a => readBytes s.mem (widthBytes n) a

theorem hostRead_eq (s : State) (a : BitVec 28) (n : Width) :
    hostRead s a n = (locate s.cfg a.toNat (widthBytes n)).map (readTarget s n) := by
  unfold hostRead
  cases locate s.cfg a.toNat (widthBytes n) with
  | none => rfl
  | some t => cases t <;> rfl

/-- A step that performs a host read records what it answers, or is a bus error (R49). -/
theorem step_read {s : State} {a : BitVec 28} {n : Width} {rest : List HostEvent} (h : NextEvent s (.read a n) rest) :
    step s = match hostRead s a n with
      | some v => .next { s with host := rest, readData := some v }
      | none => .fault .busError := step_nextEvent h

/-- A step that performs a host write writes the target it reaches. -/
theorem step_write {s : State} {a : BitVec 28} {n : Width} {v : Word} {rest : List HostEvent}
    (h : NextEvent s (.write a n v) rest) : step s = hostWrite { s with host := rest } a n v := step_nextEvent h

/-- A write that reaches nothing, or a window that is read-only, is a bus error (R44, R49). -/
theorem hostWrite_busError {s : State} {a : BitVec 28} {n : Width} (v : Word)
    (h : ¬ ∃ t, locate s.cfg a.toNat (widthBytes n) = some t ∧ Permitted t) : hostWrite s a n v = .fault .busError := by
  unfold hostWrite
  cases hl : locate s.cfg a.toNat (widthBytes n) with
  | none => rfl
  | some t =>
    cases t with
    | freq sym => rfl
    | output b => rfl
    | _ => exact absurd ⟨_, hl, trivial⟩ h

theorem hostWrite_next {s : State} {a : BitVec 28} {n : Width} (v : Word)
    (h : ∃ t, locate s.cfg a.toNat (widthBytes n) = some t ∧ Permitted t) (ha : a.toNat ≠ 0) :
    ∃ t, hostWrite s a n v = .next t := by
  obtain ⟨t, hl, hp⟩ := h
  unfold hostWrite
  rw [hl]
  cases t with
  | reg r => exact writeReg_next (fun hr => ha (eq_zero_of_regAt_cmd (hr ▸ (reaches_of_locate hl).2))) v s
  | freq sym => exact hp.elim
  | input b => exact ⟨_, rfl⟩
  | output b => exact hp.elim
  | scratch b => exact ⟨_, rfl⟩

/-- Settles O8: an access is legal exactly when it reaches a target, a write one that is not read-only. -/
theorem busErrorsExactly : Obligations.BusErrorsExactly := by
  unfold Obligations.BusErrorsExactly
  intro s a n rest hc
  have hn := widthBytes_pos n
  refine ⟨fun h => ?_, fun v h => ?_⟩
  · rw [legalRead_iff hc hn, step_read h, hostRead_eq]
    cases locate s.cfg a.toNat (widthBytes n) with
    | none => exact ⟨fun _ => rfl, fun ⟨t, ht⟩ => nomatch ht⟩
    | some t => exact ⟨fun hno => absurd ⟨t, rfl⟩ hno, fun _ => ⟨_, rfl⟩⟩
  · rw [legalWrite_iff hc hn, step_write h]
    exact ⟨hostWrite_busError (s := { s with host := rest }) v, hostWrite_next (s := { s with host := rest }) v⟩

end Sys2Proof.Proofs

/-! PROOFS. The byte windows (20_memory.md R48, R54): little-endian reads and writes, and a write made twice. -/

namespace Sys2Proof.Proofs

open Sys2Proof Sys2Proof.Machine Sys2Proof.Safety Sys2Proof.Laws

theorem widthBytes_le_four (n : Width) : widthBytes n ≤ 4 := by cases n <;> decide

/-! ### Little-endian reads -/

/-- A byte put below a word of at most three. -/
theorem toNat_shiftLeft_or {x : Word} (b : Byte) (h : x.toNat < 2 ^ 24) :
    ((x <<< 8) ||| b.setWidth 32).toNat = 2 ^ 8 * x.toNat + b.toNat := by
  have hb := b.isLt
  rw [BitVec.toNat_or, BitVec.toNat_shiftLeft, BitVec.toNat_setWidth, Nat.mod_eq_of_lt (by omega : b.toNat < 2 ^ 32),
    Nat.mod_eq_of_lt (by rw [Nat.shiftLeft_eq]; omega), ← Nat.shiftLeft_add_eq_or_of_lt hb, Nat.shiftLeft_eq, Nat.mul_comm]

theorem readBytes_lt (m : Memory) {n : Nat} (hn : n ≤ 4) (a : Nat) : (readBytes m n a).toNat < 2 ^ (8 * n) := by
  induction n generalizing a with
  | zero => exact Nat.one_pos
  | succ n ih =>
    have hx := ih (by omega) (a + 1)
    have hb := (m.read a).isLt
    have h24 : 2 ^ (8 * n) ≤ 2 ^ 24 := Nat.pow_le_pow_right (by omega) (by omega)
    rw [readBytes, toNat_shiftLeft_or _ (lt_of_lt_of_le hx h24), Nat.mul_succ, Nat.pow_add]
    omega

theorem readBytes_succ (m : Memory) {n : Nat} (hn : n < 4) (a : Nat) :
    (readBytes m (n + 1) a).toNat = 2 ^ 8 * (readBytes m n (a + 1)).toNat + (m.read a).toNat :=
  toNat_shiftLeft_or _ (lt_of_lt_of_le (readBytes_lt m (by omega) _) (Nat.pow_le_pow_right (by omega) (by omega)))

/-- Byte `k` of what is read is the byte at offset `k` of the access (R48). -/
theorem readBytes_byte (m : Memory) {n : Nat} (hn : n ≤ 4) (a : Nat) {k : Nat} (hk : k < n) :
    (readBytes m n a).toNat / 2 ^ (8 * k) % 2 ^ 8 = (m.read (a + k)).toNat := by
  induction n generalizing a k with
  | zero => omega
  | succ n ih =>
    have hb := (m.read a).isLt
    rw [readBytes_succ m (by omega)]
    cases k with
    | zero => simp; omega
    | succ k =>
      rw [show a + (k + 1) = a + 1 + k by omega, ← ih (by omega) (a + 1) (by omega), Nat.mul_succ, Nat.add_comm (8 * k),
        Nat.pow_add, ← Nat.div_div_eq_div_mul, Nat.mul_add_div (by decide), Nat.div_eq_of_lt hb, Nat.add_zero]

/-- A read of bytes that are a number's is the number's low bits. -/
theorem readBytes_of_bytes {m : Memory} {n : Nat} (hn : n ≤ 4) {a v : Nat}
    (h : ∀ k, k < n → (m.read (a + k)).toNat = v / 2 ^ (8 * k) % 2 ^ 8) : (readBytes m n a).toNat = v % 2 ^ (8 * n) := by
  induction n generalizing a v with
  | zero => simp [readBytes, Nat.mod_one]
  | succ n ih =>
    have hhigh : (readBytes m n (a + 1)).toNat = v / 2 ^ 8 % 2 ^ (8 * n) := ih (by omega) fun k hk => by
      rw [show a + 1 + k = a + (k + 1) by omega, h (k + 1) (by omega), Nat.mul_succ, Nat.add_comm (8 * k), Nat.pow_add,
        Nat.div_div_eq_div_mul]
    have hlow : (m.read a).toNat = v % 2 ^ 8 := by simpa using h 0 (by omega)
    rw [readBytes_succ m (by omega), hhigh, hlow, Nat.mul_succ, Nat.add_comm (8 * n), Nat.pow_add, Nat.mod_mul, Nat.add_comm]

/-! ### Accesses to the windows -/

/-- A byte window that holds the whole access, at an aligned offset. -/
theorem hostRead_window {s : State} {a : BitVec 28} {n : Width} (hc : s.cfg.legal) (ha : a.toNat % widthBytes n = 0)
    (h : Inside inBase s.cfg.inCap a.toNat (widthBytes n) ∨ Inside outBase s.cfg.outCap a.toNat (widthBytes n) ∨
      Inside scrBase s.cfg.scrCap a.toNat (widthBytes n)) :
    hostRead s a n = some (readBytes s.mem (widthBytes n) a.toNat) := by
  have hn := widthBytes_pos n
  rw [hostRead_eq]
  rcases h with hin | hout | hscr
  · rw [locate_input ha hin]; rfl
  · rw [locate_output hc hn ha hout]; rfl
  · rw [locate_scratch hc hn ha hscr]; rfl

/-- A step that performs a host write inside a writable window. -/
theorem step_writeWindow {s : State} {a : BitVec 28} {n : Width} {v : Word} {rest : List HostEvent}
    (h : NextEvent s (.write a n v) rest) (hc : s.cfg.legal) (ha : a.toNat % widthBytes n = 0)
    (hin : Inside inBase s.cfg.inCap a.toNat (widthBytes n) ∨ Inside scrBase s.cfg.scrCap a.toNat (widthBytes n)) :
    step s = .next { s with host := rest, mem := writeBytes (widthBytes n) s.mem a.toNat v } := by
  have hn := widthBytes_pos n
  rw [step_write h]
  unfold hostWrite
  dsimp only
  rcases hin with hin | hscr
  · rw [locate_input ha hin]
  · rw [locate_scratch hc hn ha hscr]

/-- Byte `k` of a host write, as a number (R48). -/
theorem writeBytes_byte (n : Nat) (m : Memory) (a : Nat) (v : Word) (k : Nat) (hk : k < n) :
    ((writeBytes n m a v).read (a + k)).toNat = v.toNat / 2 ^ (8 * k) % 2 ^ 8 := by
  rw [read_writeBytes_inside n m a k v hk, BitVec.toNat_setWidth, BitVec.toNat_ushiftRight, Nat.shiftRight_eq_div_pow]

/-- Settles O10: a window read spells the bytes from the lowest, a window write stores the value's bytes, and the bytes
spell it again. -/
theorem windowsAreLittleEndian : Obligations.WindowsAreLittleEndian := by
  unfold Obligations.WindowsAreLittleEndian
  intro s a n hc ha
  have hn := widthBytes_le_four n
  refine ⟨fun hin => ⟨_, hostRead_window hc ha hin, readBytes_lt _ hn _, fun k => readBytes_byte _ hn _⟩, ?_, ?_⟩
  · rintro hlo hhi rfl
    rw [hostRead_eq, show widthBytes .four = 4 from rfl, locate_freq ha hlo hhi]
    rfl
  · intro v rest h hin
    have hbyte := writeBytes_byte (widthBytes n) s.mem a.toNat v
    refine ⟨_, step_writeWindow h hc ha hin, rfl, hbyte, fun b => read_writeBytes_outside _ _ _ _ _, ?_⟩
    have hread := hostRead_window (s := { s with host := rest, mem := writeBytes (widthBytes n) s.mem a.toNat v }) hc ha
      (hin.imp_right .inr)
    exact (congrArg _ hread).trans (congrArg some (readBytes_of_bytes hn hbyte))

/-! ### A write made twice -/

theorem mem_of_lookupCell {l : List Host.Cell} {a : Nat} {v : Byte} (h : lookupCell l a = some v) : (a, v) ∈ l := by
  induction l with
  | nil => cases h
  | cons c rest ih =>
    obtain ⟨b, w⟩ := c
    unfold lookupCell at h
    split at h
    · rename_i hb; cases h; subst hb; exact List.mem_cons_self
    · exact List.mem_cons_of_mem _ (ih h)

/-- Listing a byte that is listed changes nothing. -/
theorem insertCell_listed {l : List Host.Cell} {a : Nat} {v : Byte} (hl : l.Pairwise fun c d => c.1 < d.1)
    (h : lookupCell l a = some v) : insertCell l a v = l := by
  induction l with
  | nil => cases h
  | cons c rest ih =>
    obtain ⟨b, w⟩ := c
    obtain ⟨hb, hr⟩ := List.pairwise_cons.mp hl
    have hle : b ≤ a := by
      rcases List.mem_cons.mp (mem_of_lookupCell h) with he | he
      · exact le_of_eq (congrArg Prod.fst he).symm
      · exact (hb _ he).le
    unfold lookupCell at h
    rw [insertCell, if_neg (by omega)]
    split at h
    · rename_i hba
      cases h
      rw [if_pos hba.symm, hba]
    · rename_i hba
      rw [if_neg (Ne.symm hba), ih hr h]

theorem lookup_writeBytes_outside (n : Nat) (m : Memory) {a b : Nat} (v : Word) (h : b < a) :
    lookupCell (writeBytes n m a v).cells b = lookupCell m.cells b := by
  induction n generalizing m a v with
  | zero => rfl
  | succ n ih => rw [writeBytes, ih _ _ (by omega)]; exact lookup_insert_ne _ _ (by omega)

/-- A host write lists its bytes. -/
theorem lookup_writeBytes_inside (n : Nat) (m : Memory) (a k : Nat) (v : Word) (h : k < n) :
    lookupCell (writeBytes n m a v).cells (a + k) = some ((v >>> (8 * k)).setWidth 8) := by
  induction n generalizing m a v k with
  | zero => omega
  | succ n ih =>
    rw [writeBytes]
    cases k with
    | zero =>
      rw [lookup_writeBytes_outside _ _ _ (by omega)]
      exact lookup_insert_same _ _ _
    | succ k =>
      rw [show a + (k + 1) = a + 1 + k by omega, ih _ _ _ _ (by omega), Nat.mul_succ, Nat.add_comm (8 * k),
        BitVec.shiftRight_add]

/-- A host write of bytes that are listed changes nothing. -/
theorem writeBytes_listed (n : Nat) {m : Memory} {a : Nat} {v : Word} (hm : m.wf)
    (h : ∀ k, k < n → lookupCell m.cells (a + k) = some ((v >>> (8 * k)).setWidth 8)) : writeBytes n m a v = m := by
  induction n generalizing a v with
  | zero => rfl
  | succ n ih =>
    have hlow : m.write a (v.setWidth 8) = m := by
      have := h 0 (by omega)
      rw [Memory.write, insertCell_listed hm (by simpa using this)]
    rw [writeBytes, hlow]
    refine ih fun k hk => ?_
    rw [show a + 1 + k = a + (k + 1) by omega, h (k + 1) (by omega), Nat.mul_succ, Nat.add_comm (8 * k),
      BitVec.shiftRight_add]

/-- A host write made twice in a row is the write made once (R54). -/
theorem writeBytes_twice (n : Nat) {m : Memory} (a : Nat) (v : Word) (hm : m.wf) :
    writeBytes n (writeBytes n m a v) a v = writeBytes n m a v :=
  writeBytes_listed n (writeBytes_wf n a v hm) fun k => lookup_writeBytes_inside n m a k v

/-- What a step that performs a host write at or above the windows does, if it is no bus error. -/
theorem step_write_above {s t : State} {a : BitVec 28} {n : Width} {v : Word} {rest : List HostEvent}
    (h : NextEvent s (.write a n v) rest) (ha : 0x1000000 ≤ a.toNat) (hst : step s = .next t) :
    t = { s with host := rest, mem := writeBytes (widthBytes n) s.mem a.toNat v } := by
  rw [step_write h] at hst
  unfold hostWrite at hst
  dsimp only at hst
  cases hl : locate s.cfg a.toNat (widthBytes n) with
  | none => rw [hl] at hst; cases hst
  | some x =>
    have hx := reaches_of_locate hl
    rw [hl] at hst
    cases x with
    | reg r =>
      have := (registerOffsets_block _ ((regAt_isSome_iff _).mp ⟨r, hx.2⟩)).2
      omega
    | freq sym => cases hst
    | input b =>
      obtain ⟨-, -, rfl⟩ := hx
      cases hst
      rfl
    | output b => cases hst
    | scratch b =>
      obtain ⟨-, -, rfl⟩ := hx
      cases hst
      rfl

/-- A write of STATUS clears DONE where its bit 1 is set (10_state.md R22). -/
theorem flagsHostWrite_eq (v : Word) (f : Status) : flagsHostWrite v f = { f with done := f.done && !v.getLsbD 1 } := by
  unfold flagsHostWrite
  cases v.getLsbD 1 <;> simp

/-- Settles O11: a read records its data only, which no read looks at; the register writes are one field each; a window
write finds its bytes listed the second time. -/
theorem hostAccessSideEffects : Obligations.HostAccessSideEffects := by
  unfold Obligations.HostAccessSideEffects
  refine ⟨fun s t a n rest h hst => ?_, fun s v rest => ⟨fun h => step_writeReg (r := .arg0) h rfl (by decide) rfl,
    fun h => step_writeReg (r := .arg1) h rfl (by decide) rfl, fun h => step_writeReg (r := .ctrl) h rfl (by decide) rfl,
    fun h => ?_⟩, fun s t u a n v rest hm ha h hst hsu => ?_⟩
  · rw [step_read h] at hst
    cases hr : hostRead s a n with
    | none => rw [hr] at hst; cases hst
    | some w =>
      rw [hr] at hst
      cases hst
      exact ⟨rfl, fun _ _ => rfl⟩
  · rw [step_writeReg (r := .status) h rfl (by decide) rfl]
    rw [writeReg, flagsHostWrite_eq]
  · have ht := step_write_above h ha hst
    have hu := step_write_above (s := t) (rest := rest) ⟨by rw [ht]; exact h.1, by rw [ht]⟩ ha hsu
    have hmem : writeBytes (widthBytes n) t.mem a.toNat v = t.mem := by rw [ht]; exact writeBytes_twice _ _ _ hm
    rw [hu, hmem]

end Sys2Proof.Proofs

/-! PROOFS. Where commands store (20_memory.md R53, 10_state.md R40): the writer in the bytes its stream has grown by,
RD_BYTES in the range of SCRATCH it was given. -/

namespace Sys2Proof.Proofs

open Sys2Proof Sys2Proof.Machine Sys2Proof.Safety Sys2Proof.Laws

/-! ### The growth of the output stream -/

/-- From `s` to `t` the output stream has grown, and memory has changed in the bytes it has grown by only. -/
structure Grown (s t : State) : Prop where
  ok      : OutputOk t
  le      : s.out.len.toNat ≤ t.out.len.toNat
  outside : ∀ a, (a < outBase + s.out.len.toNat ∨ outBase + t.out.len.toNat ≤ a) → t.mem.read a = s.mem.read a

theorem Grown.refl {s : State} (h : OutputOk s) : Grown s s := ⟨h, le_rfl, fun _ _ => rfl⟩

theorem Grown.trans {s t u : State} (h : Grown s t) (k : Grown t u) : Grown s u where
  ok := k.ok
  le := h.le.trans k.le
  outside a ha := by
    have := h.le
    have := k.le
    rw [k.outside a (by omega), h.outside a (by omega)]

theorem Grown.of_within {τ : List Part} {s t : State} (h : OutputOk s) (hw : Within τ s t) (ho : .out ∉ τ) (hm : .mem ∉ τ) :
    Grown s t := by
  have hout : t.out = s.out := hw.2 .out ho
  have hmem : t.mem = s.mem := hw.2 .mem hm
  exact ⟨outputOk_congr hw.1.1 hout h, by rw [hout], fun a _ => by rw [hmem]⟩

theorem Grown.of_appended {s t : State} {bs : List Bool} (h : Appended s t bs) : Grown s t :=
  ⟨h.ok, h.len_le, h.outside⟩

section
variable {α : Type} {s₀ : State}

/-- A primitive stores in the growth of the stream only, if it does so from every state. -/
theorem grown_of_forall {x : Op α} (h : ∀ s, OutputOk s → After (fun _ => Grown s) (Grown s) (x s)) : Keeps (Grown s₀) x :=
  fun s hs => (h s hs.ok).mono (fun _ _ => hs.trans) fun _ => hs.trans

/-- A primitive that touches neither memory nor the output unit. -/
theorem grown_of_footprint {τ : List Part} {x : Op α} (h : Footprint τ x) (ho : .out ∉ τ := by simp)
    (hm : .mem ∉ τ := by simp) : Keeps (Grown s₀) x :=
  .ofFootprint h fun _ _ hw hs => hs.trans (.of_within hs.ok hw ho hm)

theorem putBit_grown (b : Bool) : Keeps (Grown s₀) (putBit b) := grown_of_forall fun s hs => by
  by_cases hr : 0 < room s
  · obtain ⟨t, ht, ha⟩ := putBit_appended b hs hr
    rw [ht]; exact .of_appended ha
  · rw [putBit_full b hs (by omega)]; exact .refl hs

theorem putBits_grown (n : Nat) : ∀ v, Keeps (Grown s₀) (putBits n v) := by
  induction n with
  | zero => exact fun _ => .ofPure _
  | succ n ih => exact fun v => .ofBind (putBit_grown _) fun _ => ih v

theorem putAll_grown (bs : List Bool) : Keeps (Grown s₀) (putAll bs) := by
  induction bs with
  | nil => exact .ofPure _
  | cons b bs ih => exact .ofBind (putBit_grown b) fun _ => ih

theorem flush_grown : Keeps (Grown s₀) flush := grown_of_forall fun s hs => by
  by_cases h : s.out.nbits ≠ 0#3 → s.out.len.toNat < s.cfg.outCap
  · obtain ⟨t, ht, ha, -⟩ := flush_appended hs h
    rw [ht]; exact .of_appended ha
  · obtain ⟨h0, hl⟩ := Classical.not_imp.mp h
    have hfull : s.out.len.toNat = s.cfg.outCap := by have := hs.2.1; omega
    unfold flush
    refine after_get_bind.mpr (after_ite.mpr ⟨fun h => absurd h h0, fun _ => ?_⟩)
    exact after_require_bind.mpr ⟨fun h => absurd hfull h, fun _ => .refl hs⟩

theorem writeVarintFrom_grown (k : Nat) : ∀ v, Keeps (Grown s₀) (writeVarintFrom k v) := by
  induction k with
  | zero => exact fun _ => putBits_grown 8 _
  | succ k ih => exact fun v => .ofIte _ (putBits_grown 8 _) (.ofBind (putBits_grown 8 _) fun _ => ih _)

theorem ser_grown (fuel : Nat) : ∀ n, Keeps (Grown s₀) (ser fuel n) := by
  induction fuel with
  | zero => exact fun _ => .ofHalt _
  | succ fuel ih =>
    exact fun n => .ofBind (grown_of_footprint (τ := []) (nodeAt_footprint _)) fun nd => .ofIte _
      (.ofBind (putBit_grown _) fun _ => putBits_grown 8 _)
      (.ofBind (putBit_grown _) fun _ => .ofBind (ih _) fun _ => ih _)

theorem serRoot_grown : Keeps (Grown s₀) serRoot := .ofBind .ofGet fun _ => ser_grown _ _

theorem encodeSym_grown (sym : Nat) : Keeps (Grown s₀) (encodeSym sym) :=
  .ofBind .ofGet fun _ => .ofBind (grown_of_footprint (τ := []) (nodeAt_footprint _)) fun _ => .ofIte _ (.ofPure _)
    (.ofBind (grown_of_footprint (τ := []) (path_footprint sym)) fun _ => putAll_grown _)

theorem compressBytes_grown (n : Nat) : Keeps (Grown s₀) (compressBytes n) := by
  induction n with
  | zero => exact .ofPure _
  | succ n ih => exact .ofBind (grown_of_footprint (getBits_footprint 8)) fun _ => .ofBind (encodeSym_grown _) fun _ => ih

theorem expandSymbols_grown (n : Nat) : Keeps (Grown s₀) (expandSymbols n) := by
  induction n with
  | zero => exact .ofPure _
  | succ n ih => exact .ofBind (grown_of_footprint decodeSym_footprint) fun _ => .ofBind (putBits_grown 8 _) fun _ => ih

theorem compressStream_grown : Keeps (Grown s₀) compressStream :=
  .ofBind .ofGet fun _ => .ofBind (grown_of_footprint scan_footprint) fun _ =>
  .ofBind (grown_of_footprint build_footprint) fun _ => .ofBind serRoot_grown fun _ =>
  .ofBind (writeVarintFrom_grown 4 _) fun _ => .ofBind (grown_of_footprint inReset_footprint) fun _ =>
  .ofBind (compressBytes_grown _) fun _ => flush_grown

theorem expandStream_grown : Keeps (Grown s₀) expandStream :=
  .ofBind (grown_of_footprint inReset_footprint) fun _ => .ofBind (grown_of_footprint deser_footprint) fun _ =>
  .ofBind (grown_of_footprint readVarint_footprint) fun _ => .ofBind (expandSymbols_grown _) fun _ => flush_grown

end

/-! ### How the bytes of the buffers are reached -/

section
variable {E : State → Prop} {a : Nat} {s : State}

theorem after_inByte {Q : Byte → State → Prop} :
    After Q E (inByte a s) ↔ (a < s.cfg.inCap → Q (s.mem.read (inBase + a)) s) := by
  unfold inByte
  rw [after_get_bind, after_ite]
  exact and_iff_left fun _ => trivial

theorem after_scratchByte {Q : Byte → State → Prop} :
    After Q E (scratchByte a s) ↔ (a < s.cfg.scrCap → Q (s.mem.read (scrBase + a)) s) := by
  unfold scratchByte
  rw [after_get_bind, after_ite]
  exact and_iff_left fun _ => trivial

theorem after_setScratchByte {Q : Unit → State → Prop} {v : Byte} :
    After Q E (setScratchByte a v s) ↔ (a < s.cfg.scrCap → Q ⟨⟩ { s with mem := s.mem.write (scrBase + a) v }) := by
  unfold setScratchByte
  rw [after_get_bind, after_ite]
  exact and_iff_left fun _ => trivial

theorem after_setOutByte {Q : Unit → State → Prop} {v : Byte} :
    After Q E (setOutByte a v s) ↔ (a < s.cfg.outCap → Q ⟨⟩ { s with mem := s.mem.write (outBase + a) v }) := by
  unfold setOutByte
  rw [after_get_bind, after_ite]
  exact and_iff_left fun _ => trivial

end

/-! ### The copies -/

/-- From `s` to `t` memory has changed in the `k` bytes from offset `b` on only. -/
def StoredIn (b k : Nat) (s t : State) : Prop := ∀ a, (a < b ∨ b + k ≤ a) → t.mem.read a = s.mem.read a

/-- The first byte and those after it. -/
theorem StoredIn.cons {b k : Nat} {s t : State} {v : Byte}
    (h : StoredIn (b + 1) k { s with mem := s.mem.write b v } t) : StoredIn b (k + 1) s t := fun a ha =>
  (h a (by omega)).trans (read_write_ne _ _ (by omega))

/-- The copy of WR_BYTES stores its bytes only and raises nothing (42_bitstream_out.md R94). -/
theorem copyOutput_storedIn (k : Nat) : ∀ src dst s,
    After (fun _ => StoredIn (outBase + dst) k s) (fun _ => False) (copyOutput k src dst s) := by
  induction k with
  | zero => exact fun _ _ _ _ _ => rfl
  | succ k ih =>
    intro src dst s
    rw [copyOutput, after_bind, after_scratchByte]
    intro _
    rw [after_bind, after_setOutByte]
    exact fun _ => (ih (src + 1) (dst + 1) _).imp fun _ _ => StoredIn.cons

/-- The copy of RD_BYTES stores its bytes only and raises nothing (41_bitstream_in.md R83). -/
theorem copyInput_storedIn (k : Nat) : ∀ src dst s,
    After (fun _ => StoredIn (scrBase + dst) k s) (fun _ => False) (copyInput k src dst s) := by
  induction k with
  | zero => exact fun _ _ _ _ _ => rfl
  | succ k ih =>
    intro src dst s
    rw [copyInput, after_bind, after_inByte]
    intro _
    rw [after_bind, after_setScratchByte]
    exact fun _ => (ih (src + 1) (dst + 1) _).imp fun _ _ => StoredIn.cons

/-- WR_BYTES stores its bytes behind the stream and then counts them to it (R94). -/
theorem opWrBytes_grown {s₀ : State} : Keeps (Grown s₀) opWrBytes := grown_of_forall fun s hs => by
  unfold opWrBytes
  rw [after_needWriter_bind]
  refine ⟨fun _ => ?_, fun _ => .refl hs⟩
  simp only [after_bind, operand0_run, operand1_run, op_get, after_ok, after_require]
  refine ⟨fun _ => ⟨fun _ => ⟨fun hroom => ?_, fun _ => .refl hs⟩, fun _ => .refl hs⟩, fun _ => .refl hs⟩
  refine ((after_within (copyOutput_footprint _ _ _) s).and (copyOutput_storedIn _ _ _ s)).mono (fun _ t => ?_)
    fun _ h => h.2.elim
  rintro ⟨hw, hst⟩
  have hc : t.cfg = s.cfg := hw.1.1
  obtain ⟨hcfg, -, hbuf⟩ := outputOk_congr hc (hw.2 .out (by simp)) hs
  have hcap := hs.1.2.1.2
  have hlen : (s.out.len + BitVec.ofNat 32 s.a1.toNat).toNat = s.out.len.toNat + s.a1.toNat := by
    rw [BitVec.ofNat_toNat, BitVec.setWidth_eq, BitVec.toNat_add, Nat.mod_eq_of_lt (by omega)]
  exact {
    ok := ⟨hcfg, by rw [hlen, hc]; exact hroom, hbuf⟩
    le := by rw [hlen]; exact Nat.le_add_right _ _
    outside := fun a ha => hst a (by rw [hlen] at ha; omega) }

/-- From `s` to `t` RD_BYTES has stored as many bytes of SCRATCH as it answers in RES0, at most a1, from a0 on. -/
def BytesMoved (s t : State) : Prop :=
  t.res0.toNat ≤ s.a1.toNat ∧ StoredIn (scrBase + s.a0.toNat) t.res0.toNat s t

theorem moveInput_storedIn (off k : Nat) (s : State) :
    After (fun _ t => t.res0 = BitVec.ofNat 32 k ∧ StoredIn (scrBase + off) k s t) (fun _ => False) (moveInput off k s) := by
  unfold moveInput
  rw [after_get_bind, after_bind]
  refine (copyInput_storedIn k _ off s).imp fun _ t ht => ?_
  rw [after_bind, after_inByte]
  exact fun _ => ⟨rfl, ht⟩

/-- RD_BYTES stores nothing, or what it says (R83). -/
theorem opRdBytes_moved (s : State) :
    After (fun _ t => t.mem = s.mem ∨ BytesMoved s t) (fun t => t.mem = s.mem ∨ BytesMoved s t) (opRdBytes s) := by
  unfold opRdBytes
  rw [after_needReader_bind]
  refine ⟨fun _ => ?_, fun _ => .inl rfl⟩
  simp only [after_bind, operand0_run, operand1_run, op_get, after_ok, after_require, after_ite]
  refine ⟨fun _ => ⟨fun _ => ⟨fun _ => .inl rfl, fun _ => ⟨fun _ => .inl rfl, fun _ => ?_⟩⟩, fun _ => .inl trivial⟩,
    fun _ => .inl trivial⟩
  refine (moveInput_storedIn _ _ s).mono (fun _ t ht => .inr ?_) fun _ => False.elim
  obtain ⟨hres, hst⟩ := ht
  have hle := Nat.min_le_left s.a1.toNat (s.inp.len.toNat - s.inp.pos.toNat)
  have hk : t.res0.toNat = min s.a1.toNat (s.inp.len.toNat - s.inp.pos.toNat) := by
    rw [hres, BitVec.toNat_ofNat, Nat.mod_eq_of_lt (lt_of_le_of_lt hle s.a1.isLt)]
  unfold BytesMoved
  rw [hk]
  exact ⟨hle, hst⟩

/-! ### Every command -/

/-- The body of a command that writes the output stream stores in the stream's growth only. -/
theorem bodyOf_grown {i : Instr} (hi : i ∈ outputCommands) {s₀ : State} : Keeps (Grown s₀) (bodyOf i) := by
  have hnone : ∀ {α : Type} {x : Op α}, Footprint [] x → Keeps (Grown s₀) x := fun h => grown_of_footprint h
  cases i with
  | wrBit =>
    exact .ofBind (hnone needWriter_footprint) fun _ => .ofBind (hnone operand0_footprint) fun _ =>
      .ofBind (.ofRequire _ _) fun _ => putBit_grown _
  | wrBits =>
    exact .ofBind (hnone needWriter_footprint) fun _ => .ofBind (hnone operand0_footprint) fun _ =>
      .ofBind (hnone operand1_footprint) fun _ => .ofBind (.ofRequire _ _) fun _ => .ofBind (.ofRequire _ _) fun _ =>
        putBits_grown _ _
  | wrByte =>
    exact .ofBind (hnone needWriter_footprint) fun _ => .ofBind (hnone operand0_footprint) fun _ =>
      .ofBind (.ofRequire _ _) fun _ => putBits_grown _ _
  | wrBytes => exact opWrBytes_grown
  | wrInt =>
    exact .ofBind (hnone needWriter_footprint) fun _ => .ofBind (hnone operand0_footprint) fun _ =>
      .ofBind (.ofRequire _ _) fun _ => writeVarintFrom_grown 4 _
  | wrFlush => exact .ofBind (hnone needWriter_footprint) fun _ => flush_grown
  | hufWrhdr =>
    exact .ofBind (hnone needWriter_footprint) fun _ => .ofBind (hnone needCode_footprint) fun _ => serRoot_grown
  | hufEnc =>
    exact .ofBind (hnone needWriter_footprint) fun _ => .ofBind (hnone needCode_footprint) fun _ =>
      .ofBind (hnone operand0_footprint) fun _ => .ofBind (.ofRequire _ _) fun _ => .ofBind .ofGet fun _ =>
        .ofBind (.ofRequire _ _) fun _ => encodeSym_grown _
  | hufCompress =>
    exact .ofBind (hnone needReader_footprint) fun _ => .ofBind (hnone needWriter_footprint) fun _ => .ofBind .ofGet fun _ =>
      .ofIte _ (.ofPure _) compressStream_grown
  | hufExpand =>
    exact .ofBind (hnone needReader_footprint) fun _ => .ofBind (hnone needWriter_footprint) fun _ => .ofBind .ofGet fun _ =>
      .ofIte _ (.ofPure _) expandStream_grown
  | lzwWrite =>
    exact .ofBind (hnone needWriter_footprint) fun _ => .ofBind .ofGet fun _ => .ofBind (.ofRequire _ _) fun _ =>
      .ofBind (.ofRequire _ _) fun _ => .ofBind (hnone operand0_footprint) fun _ => .ofBind (.ofRequire _ _) fun _ =>
        .ofBind (putBits_grown _ _) fun _ => grown_of_footprint (.ofModify fun s => within_lzw s _)
  | _ => simp [outputCommands] at hi

theorem mem_not_bodyParts {i : Instr} (ho : i ∉ outputCommands) (hr : i ≠ .rdBytes) : .mem ∉ bodyParts i := by
  cases i <;> simp [outputCommands, bodyParts] at ho hr ⊢

/-- Settles O21: a writer stores in the growth of its stream, RD_BYTES in the bytes it answers for, and memory is in no
other command's footprint. -/
theorem commandsStoreWhereTheySay : Obligations.CommandsStoreWhereTheySay := by
  unfold Obligations.CommandsStoreWhereTheySay
  intro i s t a _ hout h hne
  by_cases ho : i ∈ outputCommands
  · rw [exec_eq] at h
    have hg : Grown s t := after_command (J := Grown s) (bodyOf_grown ho s (.refl hout))
      (fun _ k => ⟨k.ok, k.le, k.outside⟩) (fun _ _ k => ⟨k.ok, k.le, k.outside⟩) h
    refine .inl ⟨ho, ?_⟩
    by_contra hn
    exact hne (hg.outside a (by omega))
  · by_cases hr : i = .rdBytes
    · subst hr
      have hst : t.mem = s.mem ∨ BytesMoved s t :=
        after_command (J := fun t => t.mem = s.mem ∨ BytesMoved s t) (opRdBytes_moved s) (fun _ k => k) (fun _ _ k => k) h
      rcases hst with hm | ⟨hle, hst⟩
      · exact absurd (by rw [hm]) hne
      · refine .inr ⟨rfl, ?_⟩
        by_contra hn
        exact hne (hst a (by omega))
    · have hm : t.mem = s.mem := exec_samePart h .mem (by simp [mem_not_bodyParts ho hr])
      exact absurd (by rw [hm]) hne

end Sys2Proof.Proofs

/-! PROOFS. The encoding (30_encoding.md): the decoder inverts the encoder, which words are illegal, what a write of CMD
runs, and what every command leaves when it ends. -/

namespace Sys2Proof.Proofs

open Sys2Proof Sys2Proof.Machine Sys2Proof.Safety Sys2Proof.Laws

/-! ### Words and their fields (R62) -/

theorem fieldsOf_rsv_toNat (w : Word) : (fieldsOf w).rsv.toNat = w.toNat / 2 ^ 9 := by
  have := w.isLt
  simp only [fieldsOf, BitVec.extractLsb'_toNat, Nat.shiftRight_eq_div_pow]
  omega

theorem fieldsOf_opc_toNat (w : Word) : (fieldsOf w).opc.toNat = w.toNat % 2 ^ 8 := by
  simp [fieldsOf]

theorem fieldsOf_p_eq_true_iff (w : Word) : (fieldsOf w).p = true ↔ w.toNat / 2 ^ 8 % 2 = 1 := by
  simp [fieldsOf, BitVec.getLsbD, Nat.testBit_eq_decide_div_mod_eq]

theorem fieldsOf_p_toNat (w : Word) : (fieldsOf w).p.toNat = w.toNat / 2 ^ 8 % 2 := by
  have h := fieldsOf_p_eq_true_iff w
  cases hp : (fieldsOf w).p <;> simp [hp] at h ⊢ <;> omega

theorem assemble_toNat (f : FormatC) :
    (assemble f).toNat = f.rsv.toNat * 2 ^ 9 + f.p.toNat * 2 ^ 8 + f.opc.toNat := by
  simp only [assemble, toNat_append_eq, BitVec.toNat_ofBool]
  omega

/-- A word is its fields: format C drops no bit. -/
theorem assemble_fieldsOf (w : Word) : assemble (fieldsOf w) = w := by
  apply BitVec.eq_of_toNat_eq
  rw [assemble_toNat, fieldsOf_rsv_toNat, fieldsOf_p_toNat, fieldsOf_opc_toNat]
  omega

theorem formatC_eq {f g : FormatC} (hr : f.rsv = g.rsv) (hp : f.p = g.p) (ho : f.opc = g.opc) : f = g :=
  congr (congr (congrArg FormatC.mk hr) hp) ho

theorem fieldsOf_assemble (f : FormatC) : fieldsOf (assemble f) = f := by
  have hp := f.p.toNat_lt
  have ho := f.opc.isLt
  refine formatC_eq (BitVec.eq_of_toNat_eq ?_) ?_ (BitVec.eq_of_toNat_eq ?_)
  · rw [fieldsOf_rsv_toNat, assemble_toNat]; omega
  · rw [Bool.eq_iff_iff, fieldsOf_p_eq_true_iff, assemble_toNat, ← Bool.toNat_eq_one]; omega
  · rw [fieldsOf_opc_toNat, assemble_toNat]; omega

theorem fieldsOf_eq_iff (w : Word) (f : FormatC) : fieldsOf w = f ↔ w = assemble f :=
  ⟨fun h => h ▸ (assemble_fieldsOf w).symm, fun h => h ▸ fieldsOf_assemble f⟩

/-! ### The opcode map (R65, R67) -/

theorem opMap_opcodeOf (i : Instr) : opMap (opcodeOf i).toNat (operandBitOf i) = some i := by
  cases i <;> rfl

/-- The map answers a command at its own opcode only, and PQ_OFFER alone with the P bit it was given. -/
theorem eq_opcodeOf_of_opMap {n : Nat} {p : Bool} {i : Instr} (h : opMap n p = some i) :
    n = (opcodeOf i).toNat ∧ operandBitOf i = (p && n == 0x31) := by
  unfold opMap at h
  split at h <;> cases h <;> exact ⟨rfl, by simp [operandBitOf]⟩

theorem opcodeOf_of_operandBitOf {i : Instr} (h : operandBitOf i = true) : opcodeOf i = 0x31#8 := by
  cases i with
  | pqOffer present => rfl
  | _ => cases h

/-! ### The decoder (R66, R67) -/

/-- The decoder answers a command exactly when all three checks of R66 pass. -/
theorem decode_eq_ok_iff (w : Word) (i : Instr) :
    decode w = .ok i ↔ (fieldsOf w).rsv = 0#23 ∧ opMap (fieldsOf w).opc.toNat (fieldsOf w).p = some i ∧
      ((fieldsOf w).p = true → (fieldsOf w).opc = 0x31#8) := by
  unfold decode
  dsimp only
  by_cases hr : (fieldsOf w).rsv = 0#23
  · rw [if_neg (not_not.mpr hr)]
    cases hm : opMap (fieldsOf w).opc.toNat (fieldsOf w).p with
    | none => simp
    | some j =>
      by_cases hp : (fieldsOf w).p = true ∧ (fieldsOf w).opc ≠ 0x31#8
      · simp [hp.1, hp.2]
      · simp [hp, hr]; tauto
  · simp [hr]

/-- The three checks pass exactly on the fields of the command's own word. -/
theorem decode_eq_ok_iff_fields (w : Word) (i : Instr) : decode w = .ok i ↔ fieldsOf w = formatOf i := by
  rw [decode_eq_ok_iff]
  constructor
  · rintro ⟨hr, hm, hp⟩
    obtain ⟨hn, hb⟩ := eq_opcodeOf_of_opMap hm
    refine formatC_eq hr ?_ (BitVec.eq_of_toNat_eq hn)
    change (fieldsOf w).p = operandBitOf i
    rw [hb]
    cases hb1 : (fieldsOf w).p with
    | false => rfl
    | true => rw [hp hb1]; rfl
  · intro h
    rw [h]
    exact ⟨rfl, opMap_opcodeOf i, opcodeOf_of_operandBitOf⟩

theorem decode_encode (i : Instr) : decode (encode i) = .ok i :=
  (decode_eq_ok_iff_fields _ i).mpr (fieldsOf_assemble (formatOf i))

/-- Settles O1: a word decodes to the command whose fields it has, and fields and word determine each other. -/
theorem decodeInvertsEncode : Obligations.DecodeInvertsEncode := by
  unfold Obligations.DecodeInvertsEncode
  intro w i
  rw [decode_eq_ok_iff_fields, fieldsOf_eq_iff, encode]

/-! ### Illegal words (R66) -/

/-- The opcode ranges R66 lists as illegal. -/
def UnassignedOpcode (n : Nat) : Prop :=
  n = 0x00 ∨ (0x04 ≤ n ∧ n ≤ 0x0F) ∨ (0x17 ≤ n ∧ n ≤ 0x1F) ∨ (0x26 ≤ n ∧ n ≤ 0x2F) ∨ (0x36 ≤ n ∧ n ≤ 0x3F) ∨
    n = 0x46 ∨ n = 0x47 ∨ (0x4E ≤ n ∧ n ≤ 0x4F) ∨ 0x54 ≤ n

theorem opMap_eq_none_iff (n : Nat) (p : Bool) : opMap n p = none ↔ UnassignedOpcode n := by
  unfold opMap UnassignedOpcode
  split
  case h_39 => simp only [imp_false, true_iff] at *; omega
  all_goals simp

/-- The decoder refuses a word exactly when one of the three checks of R66 fails. -/
theorem decode_error_iff (w : Word) : (∃ e, decode w = .error e) ↔
    (fieldsOf w).rsv ≠ 0#23 ∨ ((fieldsOf w).p = true ∧ (fieldsOf w).opc ≠ 0x31#8) ∨
      opMap (fieldsOf w).opc.toNat (fieldsOf w).p = none := by
  have hok : (∃ e, decode w = .error e) ↔ ∀ i, decode w ≠ .ok i := by cases decode w <;> simp
  rw [hok]
  simp only [ne_eq, decode_eq_ok_iff]
  cases opMap (fieldsOf w).opc.toNat (fieldsOf w).p with
  | none => simp
  | some j => simp; tauto

/-- The checks of R66 as bit ranges of the word. -/
theorem decode_error_iff_toNat (w : Word) : (∃ e, decode w = .error e) ↔
    w.toNat / 2 ^ 9 ≠ 0 ∨ (w.toNat / 2 ^ 8 % 2 = 1 ∧ w.toNat % 2 ^ 8 ≠ 0x31) ∨ UnassignedOpcode (w.toNat % 2 ^ 8) := by
  have hrsv : (fieldsOf w).rsv ≠ 0#23 ↔ w.toNat / 2 ^ 9 ≠ 0 := by
    rw [← fieldsOf_rsv_toNat, ne_eq, ← BitVec.toNat_inj]; rfl
  have hopc : (fieldsOf w).opc ≠ 0x31#8 ↔ w.toNat % 2 ^ 8 ≠ 0x31 := by
    rw [← fieldsOf_opc_toNat, ne_eq, ← BitVec.toNat_inj]; rfl
  rw [decode_error_iff, hrsv, hopc, fieldsOf_p_eq_true_iff, opMap_eq_none_iff, fieldsOf_opc_toNat]

/-! ### The write of CMD (R68) -/

/-- R68's condition on the word's opcode field. -/
theorem accepted_iff (w : Word) (s : State) : accepted w s = true ↔
    s.status.err = false ∨ w.toNat % 2 ^ 8 = 0x02 ∨ w.toNat % 2 ^ 8 = 0x03 := by
  have hopc : ∀ c : Byte, w.setWidth 8 = c ↔ w.toNat % 2 ^ 8 = c.toNat := fun c => by
    rw [← BitVec.toNat_inj, BitVec.toNat_setWidth]
  simp [accepted, hopc, or_assoc]

/-- An accepted word is issued, and the engine runs it. -/
theorem step_accepted {s : State} {w : Word} {rest : List HostEvent} (h : NextCommand s w rest)
    (ha : accepted w s = true) : step s = runIssued (issue w { s with host := rest }) := by
  rw [step_writeReg (r := .cmd) h rfl (by decide) rfl]
  exact if_pos ha

theorem runIssued_ok {s : State} {i : Instr} (h : decode s.lastCmd = .ok i) : runIssued s = exec i s := by
  rw [runIssued, h]

theorem runIssued_error {s : State} (h : ∃ e, decode s.lastCmd = .error e) :
    runIssued s = .next (takeError .illegalCommand s) := by
  obtain ⟨e, he⟩ := h
  rw [runIssued, he]

/-- Settles O3: a word is illegal when a check of R66 fails on its fields, and an accepted one is issued and takes the
error. -/
theorem illegalWordRaises : Obligations.IllegalWordRaises := by
  unfold Obligations.IllegalWordRaises
  refine ⟨decode_error_iff_toNat, fun s w rest h hw ha => ?_⟩
  rw [step_accepted h ((accepted_iff w s).mpr ha), runIssued_error (s := issue w { s with host := rest }) hw]
  rfl

/-- Settles O4: the word of a command is accepted, issued and decoded back to the command. -/
theorem stepRunsDecodedCommand : Obligations.StepRunsDecodedCommand := by
  unfold Obligations.StepRunsDecodedCommand
  refine ⟨fun s i rest h hi => ?_, fun s i hb hd => ?_⟩
  · have ha : accepted (encode i) s = true := (accepted_iff _ s).mpr (by
      rcases hi with he | rfl | rfl
      · exact .inl he
      · exact .inr (.inl rfl)
      · exact .inr (.inr rfl))
    rw [step_accepted h ha, runIssued_ok (s := issue (encode i) { s with host := rest }) (decode_encode i)]
    rfl
  · rw [step, advance, if_pos hb, runIssued_ok hd]

/-! ### What every command leaves (R68, 60_exceptions.md R140) -/

/-- Completion and the raise both end with BUSY = 0 and DONE = 1. -/
theorem exec_busy_done {i : Instr} {s t : State} (h : exec i s = .next t) :
    t.status.busy = false ∧ t.status.done = true := by
  rw [exec_eq] at h
  rcases command_next h with ⟨u, -, rfl⟩ | ⟨c, u, -, rfl⟩ <;> exact ⟨rfl, rfl⟩

theorem Flagged.ign {s t : State} (h : Flagged s t) : t.status.ign = s.status.ign := by
  rcases h with h | ⟨h, -⟩ | ⟨h, -⟩ <;> simp [h]

/-- No body but SRESET's writes IGN. -/
theorem bodyOf_ign {i : Instr} (hr : i ≠ .sreset) (s : State) :
    After (fun _ t => t.status.ign = s.status.ign) (fun t => t.status.ign = s.status.ign) (bodyOf i s) := by
  by_cases hc : i = .clrErr
  · subst hc
    exact (rfl : (returnFromError s).status.ign = s.status.ign)
  · exact (bodyOf_flagged hc hr s).mono (fun _ _ => Flagged.ign) fun _ => Flagged.ign

theorem exec_ign {i : Instr} {s t : State} (hr : i ≠ .sreset) (h : exec i s = .next t) :
    t.status.ign = s.status.ign := by
  rw [exec_eq] at h
  exact after_command (J := fun t => t.status.ign = s.status.ign) (bodyOf_ign hr s) (fun _ hu => hu) (fun _ _ hu => hu) h

/-- The registers that only the host, the issue and SRESET write (R68, 10_state.md R19, R21, R24). -/
def issueParts : List Part := [.args, .ctrl, .lastCmd, .cmdCnt]

theorem not_mem_footprint_of_issueParts {i : Instr} (hr : i ≠ .sreset) {p : Part} (hp : p ∈ issueParts) :
    p ∉ Part.status :: .errInfo :: bodyParts i := by
  have hl : p = .args ∨ p = .ctrl ∨ p = .lastCmd ∨ p = .cmdCnt := by simpa [issueParts] using hp
  cases i with
  | sreset => exact absurd rfl hr
  | _ => rcases hl with rfl | rfl | rfl | rfl <;> simp [bodyParts]

/-- Settles O14: what no command changes is outside every footprint, the rest outside all but SRESET's, and IGN outlasts
every body but SRESET's. -/
theorem everyCommandEndsDone : Obligations.EveryCommandEndsDone := by
  unfold Obligations.EveryCommandEndsDone
  intro i s t h
  obtain ⟨hbusy, hdone⟩ := exec_busy_done h
  obtain ⟨hcfg, ha0, ha1, hhost, hread, hdraw⟩ := (exec_within h).1
  refine ⟨hbusy, hdone, hcfg, ha0, ha1, hhost, hread, hdraw, fun hr => ?_⟩
  have hsame : ∀ p ∈ issueParts, samePart p s t := fun p hp => exec_samePart h p (not_mem_footprint_of_issueParts hr hp)
  obtain ⟨harg0, harg1⟩ : t.arg0 = s.arg0 ∧ t.arg1 = s.arg1 := hsame .args (by decide)
  exact ⟨harg0, harg1, hsame .ctrl (by decide), hsame .lastCmd (by decide), hsame .cmdCnt (by decide), exec_ign hr h⟩

end Sys2Proof.Proofs

/-! PROOFS. The control commands (40_control.md): none of them can raise, so each completes in the state its body leaves. -/

namespace Sys2Proof.Proofs

open Sys2Proof Sys2Proof.Machine Sys2Proof.Safety Sys2Proof.Laws

/-- A command completes in the state its body leaves (30_encoding.md R68). -/
theorem exec_of_bodyOf_ok {i : Instr} {s t : State} (h : bodyOf i s = .ok () t) : exec i s = .next (complete t) :=
  (exec_eq i s).trans (command_ok h)

theorem exec_nop (s : State) : exec .nop s = .next (complete s) :=
  exec_of_bodyOf_ok (i := .nop) rfl

theorem exec_clrErr (s : State) : exec .clrErr s = .next (complete (returnFromError s)) :=
  exec_of_bodyOf_ok (i := .clrErr) rfl

theorem exec_sreset (s : State) : exec .sreset s = .next (complete (softReset s)) :=
  exec_of_bodyOf_ok (i := .sreset) rfl

/-- Every count is 0 after a reset (10_state.md R33). -/
@[simp] theorem freqAt_reset (sym : Nat) : freqAt FreqTable.reset sym = 0#32 :=
  (fileGet_replicate sym 0#32 0#32).trans (ite_self _)

/-- Settles O22: NOP completes in the state it was given, CLR_ERR in that of the return from an error. -/
theorem nopAndClrErrEffects : Obligations.NopAndClrErrEffects := by
  unfold Obligations.NopAndClrErrEffects
  exact ⟨rfl, rfl, fun s => ⟨exec_nop s, exec_clrErr s⟩⟩

/-- Settles O23: SRESET completes in the soft reset of its state, whose table is the empty one after reset. -/
theorem softResetEffect : Obligations.SoftResetEffect := by
  unfold Obligations.SoftResetEffect
  exact ⟨rfl, fun s => ⟨complete (softReset s), exec_sreset s, rfl, rfl, fun sym _ => freqAt_reset sym⟩⟩

end Sys2Proof.Proofs

/-! PROOFS. The bit-stream reader (41_bitstream_in.md): fields of bits, byte ranges and varints at the front of the input
stream, and the seven commands that read them. -/

namespace Sys2Proof.Proofs

open Sys2Proof Sys2Proof.Machine Sys2Proof.Safety Sys2Proof.Laws

/-! ### How a reading command runs -/

/-- A command takes the error its body raises (60_exceptions.md R140). -/
theorem exec_of_bodyOf_raise {i : Instr} {s t : State} {c : ErrCode} (h : bodyOf i s = .error (.raise c) t) :
    exec i s = .next (takeError c t) :=
  (exec_eq i s).trans (command_raise h)

/-- With the reader present its check is passed (10_state.md R24). -/
theorem needReader_bind_present {α : Type} {s : State} (f : Unit → Op α) (h : s.ctrl.inEn = true) :
    (needReader >>= f) s = f () s := by
  rw [op_bind, needReader_run, if_pos h]

/-! ### IN_LENGTH and IN_RESET -/

theorem exec_inLength {s : State} (h : s.ctrl.inEn = true) :
    exec .inLength s = .next (complete { s with res0 := s.inp.len }) :=
  exec_of_bodyOf_ok (i := .inLength) (needReader_bind_present _ h)

theorem exec_inReset {s : State} (h : s.ctrl.inEn = true) :
    exec .inReset s = .next (complete { s with inp := rewound s.inp }) :=
  exec_of_bodyOf_ok (i := .inReset) (needReader_bind_present _ h)

/-- Settles O27: IN_LENGTH answers IN_LEN, IN_RESET completes in the rewound stream. -/
theorem lengthAndReset : Obligations.LengthAndReset := by
  unfold Obligations.LengthAndReset
  exact ⟨rfl, rfl, fun s =>
    ⟨fun h => ⟨exec_reader_absent (by decide) h, exec_reader_absent (by decide) h⟩,
      fun h => ⟨exec_inLength h, exec_inReset h⟩⟩⟩

/-! ### Fields of bits -/

/-- A read of more bits than are left answers the sentinel and consumes nothing (R80 to R82). -/
theorem readOrEos_few {n : Nat} {s : State} (after : Op Unit) (h : inBitsLeft s.inp < n) :
    readOrEos n after s = .ok () { s with res0 := Config.eosValue, status := flagsEos s.status } := by
  rw [readOrEos, bitsLeft_bind, if_pos h, endOfStream_run]

/-- A read of bits that are left consumes them and answers the number they spell (R77, R80 to R82). -/
theorem readOrEos_enough {n : Nat} {s : State} (after : Op Unit) (hs : InputOk s) (h : n ≤ inBitsLeft s.inp) :
    ∃ v t, readOrEos n after s = after { t with res0 := BitVec.ofNat 32 v } ∧ v < 2 ^ n ∧ Consumed s t (bitsMSB n v) := by
  obtain ⟨v, t, hrun, hv, hc⟩ := getBits_consumed n hs h
  refine ⟨v, t, ?_, hv, hc⟩
  rw [readOrEos, bitsLeft_bind, if_neg (by omega)]
  simp only [op_bind, hrun, setRes0_run]

/-- The commands that read a field of bits, and how many bits each reads in `s` (R80 to R82). -/
def IsBitRead (s : State) (i : Instr) (n : Nat) : Prop :=
  (i = .rdBit ∧ n = 1) ∨ (i = .rdBits ∧ n = s.a0.toNat ∧ n ≤ 31) ∨ (i = .rdByte ∧ n = 8)

theorem opRdBits_run {s : State} (h : s.ctrl.inEn = true) :
    opRdBits s = (require (s.a0.toNat ≤ 31) .invalidArgument >>= fun _ => readOrEos s.a0.toNat (pure ())) s :=
  needReader_bind_present _ h

/-- With its checks passed a command that reads a field of bits is that read. -/
theorem bodyOf_bitRead {s : State} {i : Instr} {n : Nat} (h : s.ctrl.inEn = true) (hi : IsBitRead s i n) :
    bodyOf i s = readOrEos n (pure ()) s := by
  rcases hi with ⟨rfl, rfl⟩ | ⟨rfl, rfl, hn⟩ | ⟨rfl, rfl⟩
  · exact needReader_bind_present _ h
  · exact (opRdBits_run h).trans (by rw [op_bind, require_pos hn])
  · exact needReader_bind_present _ h

/-- RD_BITS of more than 31 bits (R81). -/
theorem exec_rdBits_wide {s : State} (h : s.ctrl.inEn = true) (hn : 31 < s.a0.toNat) :
    exec .rdBits s = .next (takeError .invalidArgument s) :=
  exec_of_bodyOf_raise (i := .rdBits) ((opRdBits_run h).trans (by rw [op_bind, require_neg (by omega)]))

/-- Settles O24: with its checks passed each command is one read of its bits, which answers the sentinel or consumes them. -/
theorem bitReads : Obligations.BitReads := by
  unfold Obligations.BitReads
  refine ⟨rfl, rfl, rfl, fun s => ⟨fun h i hi => ?_, exec_rdBits_wide, fun h hs i n hi => ?_⟩⟩
  · rcases hi with rfl | rfl | rfl <;> exact exec_reader_absent (by decide) h
  · have hbody := bodyOf_bitRead h hi
    rw [inputBits_length]
    refine ⟨fun hfew => exec_of_bodyOf_ok (hbody.trans (readOrEos_few _ hfew)), fun henough => ?_⟩
    obtain ⟨v, t, hread, hv, hc⟩ := readOrEos_enough (pure ()) hs henough
    exact ⟨t, v, exec_of_bodyOf_ok (hbody.trans hread), hv, hc⟩

/-! ### Byte ranges -/

/-- From the memory `m` to `m'` the `k` bytes of IN_MEM from `src` on have been copied to SCRATCH from `dst` on, and every
other byte reads as before. -/
structure InputCopied (k src dst : Nat) (m m' : Memory) : Prop where
  inside  : ∀ j, j < k → m'.read (scrBase + (dst + j)) = m.read (inBase + (src + j))
  outside : ∀ a, a < scrBase + dst ∨ scrBase + dst + k ≤ a → m'.read a = m.read a

/-- IN_MEM's window ends below SCRATCH's (20_memory.md R44). -/
theorem input_below_scratch {a : Nat} (ha : a < 2 ^ 24) (b : Nat) : inBase + a < scrBase + b := by
  have : inBase + 2 ^ 24 ≤ scrBase := by decide
  omega

/-- The first byte and those after it: no byte of IN_MEM lies in SCRATCH. -/
theorem InputCopied.cons {k src dst : Nat} {m m' : Memory} (hsrc : src + (k + 1) ≤ 2 ^ 24)
    (h : InputCopied k (src + 1) (dst + 1) (m.write (scrBase + dst) (m.read (inBase + src))) m') :
    InputCopied (k + 1) src dst m m' where
  inside j hj := by
    cases j with
    | zero => exact (h.outside (scrBase + dst) (by omega)).trans (read_write_same _ _ _)
    | succ j =>
      rw [show dst + (j + 1) = dst + 1 + j by omega, show src + (j + 1) = src + 1 + j by omega, h.inside j (by omega)]
      exact read_write_ne _ _ (input_below_scratch (by omega) dst).ne
  outside a ha := (h.outside a (by omega)).trans (read_write_ne _ _ (by omega))

/-- The copy loop inside both buffers (R83). -/
theorem copyInput_copied (k : Nat) : ∀ {src dst : Nat} {s : State}, s.cfg.legal → src + k ≤ s.cfg.inCap →
    dst + k ≤ s.cfg.scrCap → ∃ m, copyInput k src dst s = .ok () { s with mem := m } ∧ InputCopied k src dst s.mem m := by
  induction k with
  | zero => exact fun {_ _ s} _ _ _ => ⟨s.mem, rfl, fun _ h => absurd h (Nat.not_lt_zero _), fun _ _ => rfl⟩
  | succ k ih =>
    intro src dst s hcfg hsrc hdst
    obtain ⟨m, hrun, hm⟩ := ih (src := src + 1) (dst := dst + 1)
      (s := { s with mem := s.mem.write (scrBase + dst) (s.mem.read (inBase + src)) }) hcfg (by dsimp only; omega)
      (by dsimp only; omega)
    refine ⟨m, ?_, hm.cons (hsrc.trans hcfg.1.2)⟩
    rw [copyInput, op_bind, inByte_ok (by omega)]
    dsimp only
    rw [op_bind, setScratchByte_ok _ (by omega)]
    exact hrun

/-- The move of RD_BYTES inside both buffers: the last byte moved is read after the copy, which leaves IN_MEM as it was
(R83). -/
theorem moveInput_run {off k : Nat} {s : State} (hcfg : s.cfg.legal) (hk : 0 < k) (hin : s.inp.pos.toNat + k ≤ s.cfg.inCap)
    (hscr : off + k ≤ s.cfg.scrCap) :
    ∃ m, moveInput off k s = .ok () { s with
        mem := m, res0 := BitVec.ofNat 32 k
        inp := { s.inp with
          pos := s.inp.pos + BitVec.ofNat 32 k, buf := s.mem.read (inBase + (s.inp.pos.toNat + k - 1)) } } ∧
      InputCopied k s.inp.pos.toNat off s.mem m := by
  obtain ⟨m, hrun, hm⟩ := copyInput_copied k hcfg hin hscr
  have hlast : m.read (inBase + (s.inp.pos.toNat + k - 1)) = s.mem.read (inBase + (s.inp.pos.toNat + k - 1)) :=
    hm.outside _ (.inl (input_below_scratch (by have := hcfg.1.2; omega) off))
  refine ⟨m, ?_, hm⟩
  rw [moveInput, op_bind, op_get]
  dsimp only
  rw [op_bind, hrun]
  dsimp only
  rw [op_bind, inByte_ok (by dsimp only; omega), hlast]
  rfl

/-- RD_BYTES with the reader present: its checks in order, and what follows them (R83). -/
theorem opRdBytes_run {s : State} (h : s.ctrl.inEn = true) :
    opRdBytes s =
      if s.a0.toNat + s.a1.toNat ≤ s.cfg.scrCap then
        if s.inp.nbits = 0#4 then
          if s.a1.toNat = 0 then setRes0 0#32 s
          else if s.inp.len.toNat - s.inp.pos.toNat = 0 then endOfStream s
          else moveInput s.a0.toNat (min s.a1.toNat (s.inp.len.toNat - s.inp.pos.toNat)) s
        else .error (.raise .misaligned) s
      else .error (.raise .invalidArgument) s := by
  rw [opRdBytes, needReader_bind_present _ h]
  simp only [op_bind, operand0_run, operand1_run, op_get, require_run]
  split_ifs <;> simp [*]

/-- Settles O25: the checks in order, and the bytes the move copies. -/
theorem byteRangeRead : Obligations.ByteRangeRead := by
  unfold Obligations.ByteRangeRead
  refine ⟨rfl, fun s => ⟨exec_reader_absent (by decide), fun h hover => ?_, fun h hfit => ⟨fun hn => ?_, fun hn h0 => ?_,
    fun hn h0 hs => ⟨fun hend => ?_, fun hend => ?_⟩⟩⟩⟩
  · exact exec_of_bodyOf_raise (i := .rdBytes) ((opRdBytes_run h).trans (if_neg (by omega)))
  · exact exec_of_bodyOf_raise (i := .rdBytes) ((opRdBytes_run h).trans (by rw [if_pos hfit, if_neg hn]))
  · exact exec_of_bodyOf_ok (i := .rdBytes)
      ((opRdBytes_run h).trans (by rw [if_pos hfit, if_pos hn, if_pos (by simp [h0]), setRes0_run]))
  all_goals
    have h1 : s.a1.toNat ≠ 0 := fun e => h0 (BitVec.eq_of_toNat_eq e)
    have hbody : bodyOf .rdBytes s = _ := (opRdBytes_run h).trans (by rw [if_pos hfit, if_pos hn, if_neg h1])
  · exact exec_of_bodyOf_ok (hbody.trans (by rw [if_pos (by simp [hend]), endOfStream_run]; rfl))
  · obtain ⟨hcfg, hlen, hpos, -⟩ := hs
    have hlt : s.inp.pos.toNat ≠ s.inp.len.toNat := fun e => hend (BitVec.eq_of_toNat_eq e)
    obtain ⟨m, hrun, hm⟩ := moveInput_run (s := s) (off := s.a0.toNat)
      (k := min s.a1.toNat (s.inp.len.toNat - s.inp.pos.toNat)) hcfg (by omega) (by omega) (by omega)
    exact ⟨{ s with mem := m, inp := _ }, _, exec_of_bodyOf_ok (hbody.trans (by rw [if_neg (by omega), hrun])), rfl, rfl,
      hm.inside, hm.outside⟩

/-! ### Varints -/

theorem testBit_eq_of_bitsMSB_eq {n v w : Nat} (h : bitsMSB n v = bitsMSB n w) {i : Nat} (hi : i < n) :
    v.testBit i = w.testBit i := by
  induction n with
  | zero => omega
  | succ n ih =>
    obtain ⟨hhead, htail⟩ := List.cons.inj h
    rcases Nat.lt_succ_iff_lt_or_eq.mp hi with hlt | rfl
    · exact ih htail hlt
    · exact hhead

/-- A number below 2^n is determined by its n bits. -/
theorem eq_of_bitsMSB_eq {n v w : Nat} (hv : v < 2 ^ n) (hw : w < 2 ^ n) (h : bitsMSB n v = bitsMSB n w) : v = w := by
  refine Nat.eq_of_testBit_eq fun i => ?_
  rcases Nat.lt_or_ge i n with hi | hi
  · exact testBit_eq_of_bitsMSB_eq h hi
  · have hpow : 2 ^ n ≤ 2 ^ i := Nat.pow_le_pow_right (by omega) hi
    rw [Nat.testBit_lt_two_pow (hv.trans_le hpow), Nat.testBit_lt_two_pow (hw.trans_le hpow)]

theorem varintValue_snoc (front : List Nat) (last : Nat) :
    varintValue (front ++ [last]) = varintValue front + last % 128 * 2 ^ (7 * front.length) := by
  induction front with
  | nil => simp [varintValue]
  | cons b front ih =>
    have hpow : 2 ^ (7 * (b :: front).length) = 128 * 2 ^ (7 * front.length) := by
      rw [List.length_cons, Nat.mul_succ, Nat.pow_add, Nat.mul_comm]
    simp only [List.cons_append, varintValue, ih, hpow]
    ring

/-- The byte at the front of the stream is read whole, at any bit position (R79). -/
theorem varintByte_front {s : State} {b : Nat} {rest : List Bool} (hs : InputOk s) (hb : b < 256)
    (h : inputBits s = bitsMSB 8 b ++ rest) :
    ∃ t, varintByte s = .ok b t ∧ Consumed s t (bitsMSB 8 b) ∧ inputBits t = rest := by
  have h8 : 8 ≤ inBitsLeft s.inp := by rw [← inputBits_length, h]; simp
  obtain ⟨w, t, hrun, hw, hc⟩ := getBits_consumed 8 hs h8
  obtain ⟨hbits, hrest⟩ := List.append_inj (hc.bits.symm.trans h) (by simp)
  obtain rfl := eq_of_bitsMSB_eq hw hb hbits
  exact ⟨t, by rw [varintByte, bitsLeft_bind, op_bind, require_pos h8]; exact hrun, hc, hrest⟩

/-- Fewer than 8 bits left (R79). -/
theorem varintByte_short {s : State} (h : inBitsLeft s.inp < 8) :
    varintByte s = .error (.raise .prematureEos) s := by
  rw [varintByte, bitsLeft_bind, op_bind, require_neg (by omega)]

/-- The loop of ReadVarint over continuation bytes: it consumes them, collects their groups and reads on (R79). -/
theorem readVarintFrom_continued (front : List Nat) : ∀ {k sh v : Nat} {s : State} {rest : List Bool}, InputOk s →
    (∀ b ∈ front, 128 ≤ b ∧ b < 256) → inputBits s = bytesBits front ++ rest →
    ∃ t, readVarintFrom (k + front.length) sh v s =
        readVarintFrom k (sh + 7 * front.length) (v + varintValue front * 2 ^ sh) t ∧
      Consumed s t (bytesBits front) ∧ inputBits t = rest := by
  induction front with
  | nil => exact fun {k sh v s rest} hs _ h => ⟨s, by simp [varintValue], .refl hs, by simpa using h⟩
  | cons b front ih =>
    intro k sh v s rest hs hall h
    obtain ⟨⟨hhigh, hbyte⟩, hfront⟩ := List.forall_mem_cons.mp hall
    obtain ⟨t, ht, hct, hrt⟩ := varintByte_front hs hbyte (by rw [h, bytesBits_cons, List.append_assoc])
    obtain ⟨u, hu, hcu, hru⟩ := ih (k := k) (sh := sh + 7) (v := v + b % 128 * 2 ^ sh) hct.ok hfront hrt
    refine ⟨u, ?_, by rw [bytesBits_cons]; exact hct.trans hs hcu, hru⟩
    have hshift : sh + 7 + 7 * front.length = sh + 7 * (b :: front).length := by rw [List.length_cons]; omega
    have hvalue : v + b % 128 * 2 ^ sh + varintValue front * 2 ^ (sh + 7) = v + varintValue (b :: front) * 2 ^ sh := by
      rw [varintValue, Nat.pow_add]; ring
    rw [hshift, hvalue] at hu
    rw [List.length_cons, ← Nat.add_assoc, readVarintFrom, op_bind, ht]
    dsimp only
    rw [if_neg (by omega)]
    exact hu

/-- At most four continuation bytes at the front of the stream are consumed, and ReadVarint reads on behind them. -/
theorem readVarint_continued {front : List Nat} {s : State} {rest : List Bool} (hs : InputOk s) (hlen : front.length ≤ 4)
    (hall : ∀ b ∈ front, 128 ≤ b ∧ b < 256) (h : inputBits s = bytesBits front ++ rest) :
    ∃ t, readVarint s = readVarintFrom (4 - front.length) (7 * front.length) (varintValue front) t ∧
      Consumed s t (bytesBits front) ∧ inputBits t = rest := by
  obtain ⟨t, hrun, hc⟩ := readVarintFrom_continued front (k := 4 - front.length) (sh := 0) (v := 0) hs hall h
  rw [Nat.sub_add_cancel hlen, Nat.zero_add, Nat.zero_add, Nat.pow_zero, Nat.mul_one] at hrun
  exact ⟨t, hrun, hc⟩

/-- A byte without a continuation flag ends the varint; as the fifth byte its group is at most 7 (R79). -/
theorem readVarintFrom_last {k sh v last : Nat} {s t : State} (h : varintByte s = .ok last t) (hlast : last < 128)
    (hfifth : k = 0 → last % 128 ≤ 7) : readVarintFrom k sh v s = .ok (v + last % 128 * 2 ^ sh) t := by
  cases k with
  | zero => rw [readVarintFrom, op_bind, h]; dsimp only; rw [op_bind, require_pos ⟨hfifth rfl, hlast⟩]; rfl
  | succ k => rw [readVarintFrom, op_bind, h]; dsimp only; rw [if_pos hlast]; rfl

/-- Wherever the stream ends inside the varint, PREMATURE_EOS is raised (R79). -/
theorem readVarintFrom_short (k sh v : Nat) {s : State} (h : inBitsLeft s.inp < 8) :
    readVarintFrom k sh v s = .error (.raise .prematureEos) s := by
  cases k <;> rw [readVarintFrom, op_bind, varintByte_short h]

/-- A fifth byte with a group above 7 or a continuation flag (R79). -/
theorem readVarintFrom_fifth {sh v last : Nat} {s t : State} (h : varintByte s = .ok last t)
    (hbad : 7 < last % 128 ∨ 128 ≤ last) : readVarintFrom 0 sh v s = .error (.raise .invalidFormat) t := by
  rw [readVarintFrom, op_bind, h]
  dsimp only
  rw [op_bind, require_neg (by omega)]

/-- ReadVarint consumes the varint at the front of the stream and answers its value (R79). -/
theorem readVarint_consumed {bs : List Nat} {s : State} {rest : List Bool} (hs : InputOk s) (hv : IsVarint bs)
    (h : inputBits s = bytesBits bs ++ rest) :
    ∃ t, readVarint s = .ok (varintValue bs) t ∧ Consumed s t (bytesBits bs) ∧ inputBits t = rest := by
  obtain ⟨hne, hlen, hfront, hlast, hval⟩ := hv
  obtain ⟨front, last, rfl⟩ := (List.eq_nil_or_concat' bs).resolve_left hne
  rw [List.dropLast_concat] at hfront
  rw [List.length_append, List.length_singleton] at hlen
  have hl : last < 128 := hlast last (by simp)
  rw [bytesBits_append, List.append_assoc] at h
  obtain ⟨t, hrun, hct, hrt⟩ := readVarint_continued hs (by omega) hfront h
  obtain ⟨u, hu, hcu, hru⟩ := varintByte_front hct.ok (b := last) (by omega) (by simpa using hrt)
  rw [varintValue_snoc] at hval ⊢
  have hfifth : 4 - front.length = 0 → last % 128 ≤ 7 := fun h0 => by
    rw [show front.length = 4 by omega] at hval
    omega
  exact ⟨u, hrun.trans (readVarintFrom_last hu hl hfifth), by simpa using hct.trans hs hcu, hru⟩

/-- The stream ends inside the varint: its bytes stay consumed (R79, R84). -/
theorem readVarint_premature {bs : List Nat} {s : State} {rest : List Bool} (hs : InputOk s)
    (hall : ∀ b ∈ bs, 128 ≤ b ∧ b < 256) (hlen : bs.length ≤ 4) (hrest : rest.length < 8)
    (h : inputBits s = bytesBits bs ++ rest) :
    ∃ t, readVarint s = .error (.raise .prematureEos) t ∧ Consumed s t (bytesBits bs) := by
  obtain ⟨t, hrun, hc, hr⟩ := readVarint_continued hs hlen hall h
  exact ⟨t, hrun.trans (readVarintFrom_short _ _ _ (by rwa [← inputBits_length, hr])), hc⟩

/-- The value does not fit: the five bytes stay consumed (R79, R84). -/
theorem readVarint_invalid {front : List Nat} {last : Nat} {s : State} {rest : List Bool} (hs : InputOk s)
    (hall : ∀ b ∈ front, 128 ≤ b ∧ b < 256) (hlen : front.length = 4) (hlast : last < 256)
    (hbad : 7 < last % 128 ∨ 128 ≤ last) (h : inputBits s = bytesBits (front ++ [last]) ++ rest) :
    ∃ t, readVarint s = .error (.raise .invalidFormat) t ∧ Consumed s t (bytesBits (front ++ [last])) := by
  rw [bytesBits_append, List.append_assoc] at h
  obtain ⟨t, hrun, hct, hrt⟩ := readVarint_continued hs hlen.le hall h
  obtain ⟨u, hu, hcu, -⟩ := varintByte_front hct.ok hlast (by simpa using hrt)
  rw [hlen] at hrun
  exact ⟨u, hrun.trans (readVarintFrom_fifth hu hbad), by simpa using hct.trans hs hcu⟩

/-- RD_INT with the reader present (R84). -/
theorem opRdInt_run {s : State} (h : s.ctrl.inEn = true) :
    bodyOf .rdInt s = (readVarint >>= fun v => setRes0 (BitVec.ofNat 32 v)) s :=
  needReader_bind_present _ h

/-- RD_INT takes the error ReadVarint raises, with RES0 as it was (R84). -/
theorem exec_rdInt_raise {s t : State} {c : ErrCode} (h : s.ctrl.inEn = true) (hr : readVarint s = .error (.raise c) t) :
    exec .rdInt s = .next (takeError c t) :=
  exec_of_bodyOf_raise ((opRdInt_run h).trans (by rw [op_bind, hr]))

/-- Settles O26: RD_INT ends as ReadVarint does on a varint, on a stream that ends inside it and on a fifth byte that does
not fit. -/
theorem varintRead : Obligations.VarintRead := by
  unfold Obligations.VarintRead
  refine ⟨rfl, fun s => ⟨exec_reader_absent (by decide), fun h hs bs rest hbits =>
    ⟨fun hv => ?_, fun hall hlen hrest => ?_, ?_⟩⟩⟩
  · obtain ⟨t, hrun, hc, -⟩ := readVarint_consumed hs hv hbits
    exact ⟨t, exec_of_bodyOf_ok ((opRdInt_run h).trans (by rw [op_bind, hrun]; rfl)), hc⟩
  · obtain ⟨t, hrun, hc⟩ := readVarint_premature hs hall hlen hrest hbits
    exact ⟨t, exec_rdInt_raise h hrun, hc⟩
  · rintro front last rfl hlen hall hlast hbad
    obtain ⟨t, hrun, hc⟩ := readVarint_invalid hs hall hlen hlast hbad hbits
    exact ⟨t, exec_rdInt_raise h hrun, hc⟩

end Sys2Proof.Proofs

/-! PROOFS. The bit-stream writer (42_bitstream_out.md): every field of bits, varint and padding is one sequence of bits put
to the end of the output stream, and the six commands that write them. -/

namespace Sys2Proof.Proofs

open Sys2Proof Sys2Proof.Machine Sys2Proof.Safety Sys2Proof.Laws

/-! ### How a writing command runs -/

/-- With the writer present its check is passed (10_state.md R24). -/
theorem needWriter_bind_present {α : Type} {s : State} (f : Unit → Op α) (h : s.ctrl.outEn = true) :
    (needWriter >>= f) s = f () s := by
  rw [op_bind, needWriter_run, if_pos h]

/-- One sequence after another is their concatenation. -/
theorem putAll_append (as bs : List Bool) : putAll (as ++ bs) = putAll as >>= fun _ => putAll bs := by
  induction as with
  | nil => rfl
  | cons a as ih => simp only [List.cons_append, putAll, ih, bind_assoc]

/-- A command whose body puts a sequence of bits completes with all of them where they fit, and raises OUT_OVERFLOW with
those that fit where they do not (R88). -/
theorem exec_of_putAll {i : Instr} {s : State} {bs : List Bool} (hbody : bodyOf i s = putAll bs s) (hs : OutputOk s) :
    (bs.length ≤ room s → ∃ t, exec i s = .next (complete t) ∧ Appended s t bs) ∧
    (room s < bs.length →
      ∃ t, exec i s = .next (takeError .outOverflow t) ∧ Appended s t (bs.take (room s))) := by
  refine ⟨fun hfit => ?_, fun hover => ?_⟩
  · obtain ⟨t, hrun, ha⟩ := putAll_appended bs hs hfit
    exact ⟨t, exec_of_bodyOf_ok (hbody.trans hrun), ha⟩
  · obtain ⟨t, hrun, ha⟩ := putAll_overflow bs hs hover
    exact ⟨t, exec_of_bodyOf_raise (hbody.trans hrun), ha⟩

/-! ### Fields of bits -/

/-- WR_BIT with the writer present: its check, and the bit it puts (R91). -/
theorem opWrBit_run {s : State} (h : s.ctrl.outEn = true) :
    bodyOf .wrBit s = (require (s.a0.toNat ≤ 1) .invalidArgument >>= fun _ => putBit (s.a0.toNat == 1)) s :=
  needWriter_bind_present _ h

/-- WR_BITS with the writer present: its checks in order, and the field it puts (R92). -/
theorem opWrBits_run {s : State} (h : s.ctrl.outEn = true) :
    bodyOf .wrBits s =
      (require (s.a0.toNat ≤ 31) .invalidArgument >>= fun _ =>
        require (s.a1.toNat < 2 ^ s.a0.toNat) .invalidArgument >>= fun _ => putBits s.a0.toNat s.a1.toNat) s :=
  needWriter_bind_present _ h

/-- WR_BYTE with the writer present: its check, and the byte it puts (R93). -/
theorem opWrByte_run {s : State} (h : s.ctrl.outEn = true) :
    bodyOf .wrByte s = (require (s.a0.toNat ≤ 255) .invalidArgument >>= fun _ => putBits 8 s.a0.toNat) s :=
  needWriter_bind_present _ h

/-- WR_BIT of a number that is no bit (R91). -/
theorem exec_wrBit_invalid {s : State} (h : s.ctrl.outEn = true) (hv : 1 < s.a0.toNat) :
    exec .wrBit s = .next (takeError .invalidArgument s) :=
  exec_of_bodyOf_raise ((opWrBit_run h).trans (by rw [op_bind, require_neg (by omega)]))

/-- WR_BITS of more than 31 bits, or of a number that has more bits than the field (R92). -/
theorem exec_wrBits_invalid {s : State} (h : s.ctrl.outEn = true) (hv : 31 < s.a0.toNat ∨ 2 ^ s.a0.toNat ≤ s.a1.toNat) :
    exec .wrBits s = .next (takeError .invalidArgument s) := by
  refine exec_of_bodyOf_raise ((opWrBits_run h).trans ?_)
  by_cases hn : s.a0.toNat ≤ 31
  · have hwide : ¬ s.a1.toNat < 2 ^ s.a0.toNat := (hv.resolve_left (by omega)).not_gt
    rw [op_bind, require_pos hn]
    dsimp only
    rw [op_bind, require_neg hwide]
  · rw [op_bind, require_neg hn]

/-- WR_BYTE of a number that is no byte (R93). -/
theorem exec_wrByte_invalid {s : State} (h : s.ctrl.outEn = true) (hv : 255 < s.a0.toNat) :
    exec .wrByte s = .next (takeError .invalidArgument s) :=
  exec_of_bodyOf_raise ((opWrByte_run h).trans (by rw [op_bind, require_neg (by omega)]))

/-- The commands that write a field of bits, with the width and the value each writes in `s` (R91 to R93). -/
def IsBitWrite (s : State) (i : Instr) (n v : Nat) : Prop :=
  (i = .wrBit ∧ n = 1 ∧ v = s.a0.toNat ∧ v ≤ 1) ∨
  (i = .wrBits ∧ n = s.a0.toNat ∧ n ≤ 31 ∧ v = s.a1.toNat ∧ v < 2 ^ n) ∨
  (i = .wrByte ∧ n = 8 ∧ v = s.a0.toNat ∧ v ≤ 255)

/-- A bit is the field of one bit that spells it. -/
theorem bitsMSB_one {v : Nat} (hv : v ≤ 1) : bitsMSB 1 v = [v == 1] := by
  interval_cases v <;> rfl

/-- PutBit puts a sequence of one bit. -/
theorem putBit_eq_putAll (b : Bool) : putBit b = putAll [b] :=
  (bind_pure_unit (x := putBit b)).symm

/-- With its checks passed a command that writes a field of bits puts that field. -/
theorem bodyOf_bitWrite {s : State} {i : Instr} {n v : Nat} (h : s.ctrl.outEn = true) (hi : IsBitWrite s i n v) :
    bodyOf i s = putAll (bitsMSB n v) s := by
  rcases hi with ⟨rfl, rfl, rfl, hv⟩ | ⟨rfl, rfl, hn, rfl, hv⟩ | ⟨rfl, rfl, rfl, hv⟩
  · rw [opWrBit_run h, op_bind, require_pos hv, bitsMSB_one hv, ← putBit_eq_putAll]
  · rw [opWrBits_run h, op_bind, require_pos hn, ← putBits_eq_putAll]
    dsimp only
    rw [op_bind, require_pos hv]
  · rw [opWrByte_run h, op_bind, require_pos hv, ← putBits_eq_putAll]

/-- Settles O28: with its checks passed each command puts one field of bits, as far as it fits. -/
theorem bitWrites : Obligations.BitWrites := by
  unfold Obligations.BitWrites
  refine ⟨rfl, rfl, rfl, fun s => ⟨fun h i hi => ?_, fun h => ⟨exec_wrBit_invalid h, exec_wrBits_invalid h,
    exec_wrByte_invalid h⟩, fun h hs i n v hi => ?_⟩⟩
  · rcases hi with rfl | rfl | rfl <;> exact exec_writer_absent (by decide) h
  · simpa only [bitsMSB_length] using exec_of_putAll (bodyOf_bitWrite h hi) hs

/-! ### Byte ranges -/

/-- OUT_MEM's window ends below SCRATCH's (20_memory.md R44). -/
theorem output_below_scratch {a : Nat} (ha : a < 2 ^ 24) (b : Nat) : outBase + a < scrBase + b := by
  have : outBase + 2 ^ 24 ≤ scrBase := by decide
  omega

/-- The copy loop inside both buffers: it ends, and every byte arrives (R94). -/
theorem copyOutput_run (k : Nat) : ∀ {src dst : Nat} {s : State}, s.cfg.legal → src + k ≤ s.cfg.scrCap →
    dst + k ≤ s.cfg.outCap → ∃ m, copyOutput k src dst s = .ok () { s with mem := m } ∧
      ∀ j, j < k → m.read (outBase + (dst + j)) = s.mem.read (scrBase + (src + j)) := by
  induction k with
  | zero => exact fun {_ _ s} _ _ _ => ⟨s.mem, rfl, fun _ h => absurd h (Nat.not_lt_zero _)⟩
  | succ k ih =>
    intro src dst s hcfg hsrc hdst
    have hcap := hcfg.2.1.2
    obtain ⟨m, hrun, hm⟩ := ih (src := src + 1) (dst := dst + 1)
      (s := { s with mem := s.mem.write (outBase + dst) (s.mem.read (scrBase + src)) }) hcfg (by dsimp only; omega)
      (by dsimp only; omega)
    have hfirst := copyOutput_storedIn k (src + 1) (dst + 1)
      { s with mem := s.mem.write (outBase + dst) (s.mem.read (scrBase + src)) }
    rw [hrun] at hfirst
    refine ⟨m, ?_, fun j hj => ?_⟩
    · rw [copyOutput, op_bind, scratchByte_ok (by omega)]
      dsimp only
      rw [op_bind, setOutByte_ok _ (by omega)]
      exact hrun
    · cases j with
      | zero => exact (hfirst (outBase + dst) (.inl (by omega))).trans (read_write_same _ _ _)
      | succ j =>
        rw [show dst + (j + 1) = dst + 1 + j by omega, show src + (j + 1) = src + 1 + j by omega, hm j (by omega)]
        exact read_write_ne _ _ (output_below_scratch (by omega) _).ne'

/-- WR_BYTES with the writer present: its checks in order, the copy, and the bytes counted to the stream (R94). -/
theorem opWrBytes_run {s : State} (h : s.ctrl.outEn = true) :
    bodyOf .wrBytes s =
      if s.a0.toNat + s.a1.toNat ≤ s.cfg.scrCap then
        if s.out.nbits = 0#3 then
          if s.out.len.toNat + s.a1.toNat ≤ s.cfg.outCap then
            (copyOutput s.a1.toNat s.a0.toNat s.out.len.toNat >>= fun _ =>
              modify fun t => { t with out := { t.out with len := s.out.len + s.a1 } }) s
          else .error (.raise .outOverflow) s
        else .error (.raise .misaligned) s
      else .error (.raise .invalidArgument) s := by
  rw [bodyOf, opWrBytes, needWriter_bind_present _ h]
  simp only [op_bind, operand0_run, operand1_run, op_get, require_run, BitVec.ofNat_toNat, BitVec.setWidth_eq]
  split_ifs <;> rfl

/-- Settles O29: the checks in order, and the bytes the copy moves behind the stream. -/
theorem byteRangeWrite : Obligations.ByteRangeWrite := by
  unfold Obligations.ByteRangeWrite
  refine ⟨rfl, fun s => ⟨exec_writer_absent (by decide), fun h hover => ?_, fun h hfit => ⟨fun hn => ?_, fun hn hfull => ?_,
    fun hn hroom hcfg => ?_⟩⟩⟩
  · exact exec_of_bodyOf_raise ((opWrBytes_run h).trans (if_neg hover.not_ge))
  · exact exec_of_bodyOf_raise ((opWrBytes_run h).trans (by rw [if_pos hfit, if_neg hn]))
  · exact exec_of_bodyOf_raise ((opWrBytes_run h).trans (by rw [if_pos hfit, if_pos hn, if_neg hfull.not_ge]))
  · obtain ⟨m, hrun, hm⟩ := copyOutput_run s.a1.toNat hcfg hfit hroom
    have hstored := copyOutput_storedIn s.a1.toNat s.a0.toNat s.out.len.toNat s
    rw [hrun] at hstored
    refine ⟨{ s with mem := m, out := { s.out with len := s.out.len + s.a1 } }, exec_of_bodyOf_ok ?_, rfl, hm, hstored⟩
    rw [opWrBytes_run h, if_pos hfit, if_pos hn, if_pos hroom, op_bind, hrun]
    rfl

/-! ### Varints -/

/-- The bytes WriteVarint writes for `v`, at most `k` of them behind the first (R90). -/
def varintBytes : (k v : Nat) → List Nat
  | 0, v => [v % 128]
  | k + 1, v => if v / 128 = 0 then [v % 128] else (v % 128 + 128) :: varintBytes k (v / 128)

/-- WriteVarint puts the bits of those bytes (R90). -/
theorem writeVarintFrom_eq_putAll (k : Nat) : ∀ v, writeVarintFrom k v = putAll (bytesBits (varintBytes k v)) := by
  induction k with
  | zero => exact fun v => by simp [writeVarintFrom, varintBytes, putBits_eq_putAll]
  | succ k ih =>
    intro v
    rw [writeVarintFrom, varintBytes]
    split_ifs
    · simp [putBits_eq_putAll]
    · rw [bytesBits_cons, putAll_append, putBits_eq_putAll, ih]

/-- A number of at most k + 1 groups of seven bits is spelled by continuation bytes and a last byte, which is 0 only where
it is the first (R90, 20_memory.md R51). -/
theorem varintBytes_shape (k : Nat) : ∀ {v : Nat}, v < 128 ^ (k + 1) →
    ∃ front last, varintBytes k v = front ++ [last] ∧ front.length ≤ k ∧ (∀ b ∈ front, 128 ≤ b ∧ b < 256) ∧ last < 128 ∧
      (front = [] ∨ last ≠ 0) ∧ varintValue (front ++ [last]) = v := by
  have hsingle : ∀ v, v < 128 → varintValue ([] ++ [v % 128]) = v := fun v hv => by
    simp [varintValue, Nat.mod_eq_of_lt hv]
  induction k with
  | zero => exact fun {v} hv => ⟨[], v % 128, rfl, le_rfl, by simp, by omega, .inl rfl, hsingle v (by simpa using hv)⟩
  | succ k ih =>
    intro v hv
    rw [varintBytes]
    split_ifs with hlast
    · exact ⟨[], v % 128, rfl, by simp, by simp, by omega, .inl rfl, hsingle v (by omega)⟩
    · obtain ⟨front, last, hbytes, hlen, hfront, hl, hmin, hval⟩ :=
        ih (Nat.div_lt_of_lt_mul (by rwa [Nat.pow_succ'] at hv))
      refine ⟨(v % 128 + 128) :: front, last, by rw [hbytes]; rfl, by simpa using hlen,
        List.forall_mem_cons.mpr ⟨by omega, hfront⟩, hl, .inr ?_, ?_⟩
      · rcases hmin with rfl | hne
        · rintro rfl
          exact hlast hval.symm
        · exact hne
      · rw [List.cons_append, varintValue, hval]
        omega

/-- WriteVarint's bytes are the minimal varint of its operand (R90). -/
theorem varintBytes_minimal {v : Nat} (hv : v < 2 ^ 31) :
    IsMinimalVarint (varintBytes 4 v) ∧ varintValue (varintBytes 4 v) = v := by
  obtain ⟨front, last, hbytes, hlen, hfront, hl, hmin, hval⟩ := varintBytes_shape 4 (hv.trans (by norm_num))
  rw [hbytes]
  refine ⟨⟨⟨by simp, by simpa [Nat.lt_succ_iff] using hlen, by simpa using hfront, by simpa using hl, by rwa [hval]⟩, ?_⟩, hval⟩
  rcases hmin with rfl | hne
  · exact .inl rfl
  · exact .inr (by simpa using hne)

/-- WR_INT with the writer present: its check, and the varint it writes (R95). -/
theorem opWrInt_run {s : State} (h : s.ctrl.outEn = true) :
    bodyOf .wrInt s = (require (s.a0.toNat < 2 ^ 31) .invalidArgument >>= fun _ => writeVarint s.a0.toNat) s :=
  needWriter_bind_present _ h

/-- WR_INT of a number of more than 31 bits (R95). -/
theorem exec_wrInt_invalid {s : State} (h : s.ctrl.outEn = true) (hv : 2 ^ 31 ≤ s.a0.toNat) :
    exec .wrInt s = .next (takeError .invalidArgument s) :=
  exec_of_bodyOf_raise ((opWrInt_run h).trans (by rw [op_bind, require_neg hv.not_gt]))

/-- With its checks passed WR_INT puts the bits of its varint. -/
theorem bodyOf_wrInt {s : State} (h : s.ctrl.outEn = true) (hv : s.a0.toNat < 2 ^ 31) :
    bodyOf .wrInt s = putAll (bytesBits (varintBytes 4 s.a0.toNat)) s := by
  rw [opWrInt_run h, op_bind, require_pos hv, ← writeVarintFrom_eq_putAll]
  rfl

/-- Settles O30: WR_INT puts the bits of the minimal varint of its operand, as far as they fit. -/
theorem varintWrite : Obligations.VarintWrite := by
  unfold Obligations.VarintWrite
  refine ⟨rfl, fun s => ⟨exec_writer_absent (by decide), exec_wrInt_invalid, fun h hv hs => ?_⟩⟩
  obtain ⟨hmin, hval⟩ := varintBytes_minimal hv
  exact ⟨_, hmin, hval, by simpa only [bytesBits_length] using exec_of_putAll (bodyOf_wrInt h hv) hs⟩

/-! ### The flush -/

/-- WR_FLUSH with the writer present (R96). -/
theorem opWrFlush_run {s : State} (h : s.ctrl.outEn = true) : bodyOf .wrFlush s = flush s :=
  needWriter_bind_present _ h

/-- With no partial byte there is nothing to flush (R89). -/
theorem flush_aligned {s : State} (h0 : s.out.nbits = 0#3) : flush s = .ok () s := by
  rw [flush, op_bind, op_get]
  simp only [if_pos h0, op_pure]

/-- A partial byte behind a full buffer cannot be flushed, and stays (R89). -/
theorem flush_full {s : State} (h0 : s.out.nbits ≠ 0#3) (hl : s.out.len.toNat = s.cfg.outCap) :
    flush s = .error (.raise .outOverflow) s := by
  rw [flush, op_bind, op_get]
  simp only [if_neg h0, op_bind, require_neg (not_not_intro hl)]

/-- The output unit once bits have been appended that end a byte: it is determined by how many they are (R28). -/
theorem out_of_appended_aligned {s t : State} {bs : List Bool} (h : Appended s t bs) (h0 : t.out.nbits = 0#3)
    (hbs : s.out.nbits.toNat + bs.length = 8) : t.out = { len := s.out.len + 1#32, buf := 0#8, nbits := 0#3 } := by
  obtain ⟨hcfg, hlen, hbuf⟩ := h.ok
  have htotal := h.total
  rw [h0] at hbuf htotal
  have hlen' : t.out.len = s.out.len + 1#32 := BitVec.eq_of_toNat_eq (by
    have := hcfg.2.1.2
    simp at htotal ⊢
    omega)
  have hbuf' : t.out.buf = 0#8 := BitVec.eq_of_toNat_eq (by simpa using hbuf)
  exact congr (congrArg₂ OutUnit.mk hlen' hbuf') h0

/-- Settles O31: WR_FLUSH is the flush, which pads the partial byte where there is one and room for it. -/
theorem flushPads : Obligations.FlushPads := by
  unfold Obligations.FlushPads
  refine ⟨rfl, fun s => ⟨exec_writer_absent (by decide), fun h h0 => ?_, fun h h0 hl => ?_, fun h h0 hl hs => ?_⟩⟩
  · exact exec_of_bodyOf_ok ((opWrFlush_run h).trans (flush_aligned h0))
  · exact exec_of_bodyOf_raise ((opWrFlush_run h).trans (flush_full h0 hl))
  · obtain ⟨t, hrun, ha, hz⟩ := flush_appended hs fun _ => hl
    have hn : s.out.nbits.toNat ≠ 0 := fun e => h0 (BitVec.eq_of_toNat_eq e)
    rw [Nat.mod_eq_of_lt (by omega)] at ha
    exact ⟨t, exec_of_bodyOf_ok ((opWrFlush_run h).trans hrun), ha, out_of_appended_aligned ha hz (by simp; omega)⟩

end Sys2Proof.Proofs

/-! PROOFS. The sifts of the queue (43_pqueue.md): where the sifts put an entry: the path it takes, and what moves along it
(R98 to R101). -/

namespace Sys2Proof.Proofs

open Sys2Proof Sys2Proof.Machine Sys2Proof.Safety Sys2Proof.Laws

/-! ### Reads away from what was written, and of what a swap moved -/

/-- A write leaves every other position as it was, those the heap does not have included. -/
theorem heapAt_setHeap_ne (q : Queue) {p r : Nat} (e : Entry) (hp : 1 ≤ p) (hr : 1 ≤ r) (h : r ≠ p) :
    heapAt (setHeap q p e) r = heapAt q r :=
  fileGet_fileSet_ne _ _ _ (by omega)

/-- A swap leaves every third position as it was. -/
theorem heapAt_swapHeap_ne (q : Queue) {i j p : Nat} (hi : 1 ≤ i) (hj : 1 ≤ j) (hp : 1 ≤ p) (hpi : p ≠ i)
    (hpj : p ≠ j) : heapAt (swapHeap q i j) p = heapAt q p := by
  rw [swapHeap, heapAt_setHeap_ne _ _ hj hp hpj, heapAt_setHeap_ne _ _ hi hp hpi]

/-- The first position of a swap holds what the second held. -/
theorem heapAt_swapHeap_left (q : Queue) {i j : Nat} (hi : 1 ≤ i) (hj : 1 ≤ j) (hm : i ≤ Config.heapPhys) :
    heapAt (swapHeap q i j) i = heapAt q j := by
  rw [heapAt_swapHeap q hi hj hi hm, if_pos rfl]

/-- The second position of a swap holds what the first held. -/
theorem heapAt_swapHeap_right (q : Queue) {i j : Nat} (hi : 1 ≤ i) (hj : 1 ≤ j) (hm : j ≤ Config.heapPhys) :
    heapAt (swapHeap q i j) j = heapAt q i := by
  rw [heapAt_swapHeap q hi hj hj hm, if_pos rfl]
  exact ite_eq_right_iff.mpr fun h => by rw [h]

/-! ### SiftUp (R98) -/

/-- Of two positions on the way from `n` to the root, the later one is lower. -/
theorem shiftRight_lt_shiftRight {n m k : Nat} (hn : 1 ≤ n >>> m) (h : m < k) : n >>> k < n >>> m := by
  obtain ⟨d, rfl⟩ := Nat.exists_eq_add_of_lt h
  calc n >>> (m + d + 1) = (n >>> (m + 1)) >>> d := by rw [← Nat.shiftRight_add, Nat.add_right_comm]
    _ ≤ n >>> (m + 1) := Nat.shiftRight_le _ _
    _ < n >>> m := by rw [Nat.shiftRight_succ]; omega

/-- From `q` to `r` the entry `e` has entered at `n` and made `k` swaps on its way to the root, each with a parent it is
strictly less than: RisesFrom but for the reason to stop. -/
structure RisenBy (n : Nat) (e : Entry) (q r : Queue) (k : Nat) : Prop where
  external : r.external = q.external
  size     : n ≤ Config.heapPhys
  isLive   : 1 ≤ n >>> k
  less     : ∀ m, m < k → entryLt q.external e (heapAt q (n >>> (m + 1))) = true
  place    : heapAt r (n >>> k) = e
  moved    : ∀ m, m < k → heapAt r (n >>> m) = heapAt q (n >>> (m + 1))
  others   : ∀ p, 1 ≤ p → (∀ m, m ≤ k → p ≠ n >>> m) → heapAt r p = heapAt q p

section
variable {n : Nat} {e : Entry} {q r : Queue} {k : Nat}

/-- Every position passed on the way up is above the parent of the last. -/
theorem RisenBy.parent_lt (h : RisenBy n e q r k) {m : Nat} (hm : m ≤ k) : n >>> (k + 1) < n >>> m := by
  have hk := h.isLive
  refine shiftRight_lt_shiftRight ?_ (Nat.lt_succ_of_le hm)
  rcases hm.lt_or_eq with hlt | rfl
  · obtain ⟨d, rfl⟩ := Nat.exists_eq_add_of_lt hlt
    rw [Nat.add_assoc, Nat.shiftRight_add] at hk
    exact hk.trans (Nat.shiftRight_le _ _)
  · exact hk

/-- The parent is still the one of the queue before. -/
theorem RisenBy.heapAt_parent (h : RisenBy n e q r k) (hk : 1 < n >>> k) :
    heapAt r (n >>> (k + 1)) = heapAt q (n >>> (k + 1)) :=
  h.others _ (by rw [Nat.shiftRight_succ]; omega) fun _ hm => (h.parent_lt hm).ne

/-- One more swap, with a parent the entry is less than. -/
theorem RisenBy.swap (h : RisenBy n e q r k) (hk : 1 < n >>> k)
    (hlt : entryLt q.external e (heapAt q (n >>> (k + 1))) = true) :
    RisenBy n e q (swapHeap r (n >>> k) (n >>> (k + 1))) (k + 1) := by
  have hpar : 1 ≤ n >>> (k + 1) := by rw [Nat.shiftRight_succ]; omega
  have hmax : ∀ m, n >>> m ≤ Config.heapPhys := fun m => (Nat.shiftRight_le n m).trans h.size
  refine ⟨h.external, h.size, hpar, fun m hm => ?_, ?_, fun m hm => ?_, fun p hp hoff => ?_⟩
  · rcases (Nat.le_of_lt_succ hm).lt_or_eq with hlt' | rfl
    · exact h.less m hlt'
    · exact hlt
  · rw [heapAt_swapHeap_right _ hk.le hpar (hmax _), h.place]
  · rcases (Nat.le_of_lt_succ hm).lt_or_eq with hlt' | rfl
    · have hm1 := h.parent_lt hlt'.le
      rw [heapAt_swapHeap_ne _ hk.le hpar (by omega) (shiftRight_lt_shiftRight (by omega) hlt').ne' hm1.ne', h.moved m hlt']
    · rw [heapAt_swapHeap_left _ hk.le hpar (hmax _), h.heapAt_parent hk]
  · rw [heapAt_swapHeap_ne _ hk.le hpar hp (hoff k (by omega)) (hoff (k + 1) le_rfl),
      h.others p hp fun m hm => hoff m (by omega)]

/-- An entry that stops has risen. -/
theorem RisenBy.risesFrom (h : RisenBy n e q r k)
    (hstop : n >>> k = 1 ∨ entryLt q.external e (heapAt q (n >>> (k + 1))) = false) : RisesFrom n e q r :=
  ⟨k, h.isLive, h.less, hstop, h.place, h.moved, h.others⟩

end

/-- SiftUp lets the entry rise as far as it goes (R98). -/
theorem RisenBy.risesFrom_siftUpFrom {n : Nat} {e : Entry} {q : Queue} (fuel : Nat) :
    ∀ {r : Queue} {k : Nat}, RisenBy n e q r k → n >>> k ≤ fuel → RisesFrom n e q (siftUpFrom fuel r (n >>> k)) := by
  induction fuel with
  | zero => exact fun h hf => absurd h.isLive (by omega)
  | succ fuel ih =>
    intro r k h hf
    have hlive := h.isLive
    rw [siftUpFrom, ← Nat.shiftRight_succ, h.external, h.place]
    by_cases hroot : n >>> k = 1
    · rw [if_neg (by omega)]
      exact h.risesFrom (.inl hroot)
    · rw [h.heapAt_parent (by omega)]
      by_cases hlt : entryLt q.external e (heapAt q (n >>> (k + 1))) = true
      · rw [if_pos ⟨by omega, hlt⟩]
        exact ih (h.swap (by omega) hlt) (by rw [Nat.shiftRight_succ]; omega)
      · rw [if_neg fun hc => hlt hc.2]
        exact h.risesFrom (.inr (by simpa using hlt))

/-- The entry that is put at the end rises from there (R99). -/
theorem insertLast_rises {q : Queue} (e : Entry) (hs : q.size.toNat < Config.heapPhys) :
    RisesFrom (q.size.toNat + 1) e q (insertLast q e) := by
  have hentered : RisenBy (q.size.toNat + 1) e q (setHeap { q with size := q.size + 1#10 } (q.size.toNat + 1) e) 0 := by
    refine ⟨rfl, hs, Nat.le_add_left 1 _, fun m hm => absurd hm (Nat.not_lt_zero m), ?_,
      fun m hm => absurd hm (Nat.not_lt_zero m), fun p hp hoff => ?_⟩
    · exact (heapAt_setHeap _ e (by omega) (by omega) hs).trans (if_pos rfl)
    · exact heapAt_setHeap_ne _ e (by omega) hp (hoff 0 le_rfl)
  exact hentered.risesFrom_siftUpFrom _ le_rfl

/-- An offer that is taken puts its entry where it has risen to from the end (R99). -/
theorem offered_rises {q r : Queue} {e : Entry} (h : QueueOk q) (hr : offered q e = some r) :
    RisesFrom (q.size.toNat + 1) e q r := by
  obtain ⟨hs, cap, rfl⟩ := offered_eq_insertLast h hr
  exact insertLast_rises (q := { q with cap }) e hs

/-! ### SiftDown (R100) -/

/-- The positions SiftDown compares on its way down from the root, in the queue before. -/
def sinkPath (q : Queue) (n : Nat) : Nat → Nat
  | 0 => 1
  | m + 1 => comparedChild q n (sinkPath q n m)

/-- The compared child is one of the two children. -/
theorem comparedChild_cases (q : Queue) (n p : Nat) :
    comparedChild q n p = 2 * p ∨ (comparedChild q n p = 2 * p + 1 ∧ 2 * p + 1 ≤ n) := by
  unfold comparedChild
  split
  · next h => exact .inr ⟨rfl, h.1⟩
  · exact .inl rfl

theorem one_le_sinkPath (q : Queue) (n m : Nat) : 1 ≤ sinkPath q n m := by
  induction m with
  | zero => exact le_rfl
  | succ m ih =>
    have := comparedChild_cases q n (sinkPath q n m)
    rw [sinkPath]
    omega

theorem sinkPath_strictMono (q : Queue) (n : Nat) : StrictMono (sinkPath q n) :=
  strictMono_nat_of_lt_succ fun m => by
    have := comparedChild_cases q n (sinkPath q n m)
    have := one_le_sinkPath q n m
    rw [sinkPath]
    omega

/-- From `q` to `r` the entry `e` has been put at the root and made `k` swaps on its way down, each with a compared child
that is strictly less: SinksFromRoot but for the reason to stop. -/
structure SunkBy (n : Nat) (e : Entry) (q r : Queue) (k : Nat) : Prop where
  external : r.external = q.external
  size     : r.size.toNat = n
  less     : ∀ m, m < k → 2 * sinkPath q n m ≤ n ∧ entryLt q.external (heapAt q (sinkPath q n (m + 1))) e = true
  place    : heapAt r (sinkPath q n k) = e
  moved    : ∀ m, m < k → heapAt r (sinkPath q n m) = heapAt q (sinkPath q n (m + 1))
  others   : ∀ p, 1 ≤ p → (∀ m, m ≤ k → p ≠ sinkPath q n m) → heapAt r p = heapAt q p

section
variable {n : Nat} {e : Entry} {q r : Queue} {k : Nat}

/-- The positions the entry has not passed are still those of the queue before. -/
theorem SunkBy.heapAt_below (h : SunkBy n e q r k) {p : Nat} (hp : sinkPath q n k < p) : heapAt r p = heapAt q p :=
  h.others p (by omega) fun _ hm => (((sinkPath_strictMono q n).monotone hm).trans_lt hp).ne'

/-- The child SiftDown compares is the next position of the path. -/
theorem SunkBy.smallerChild_eq (h : SunkBy n e q r k) :
    smallerChild r (2 * sinkPath q n k) = sinkPath q n (k + 1) := by
  have hpos := one_le_sinkPath q n k
  rw [smallerChild, h.size, h.external, h.heapAt_below (by omega), h.heapAt_below (by omega), sinkPath, comparedChild]

/-- One more swap, with a compared child that is less. -/
theorem SunkBy.swap (h : SunkBy n e q r k) (hlive : 2 * sinkPath q n k ≤ n)
    (hlt : entryLt q.external (heapAt q (sinkPath q n (k + 1))) e = true) :
    SunkBy n e q (swapHeap r (sinkPath q n k) (sinkPath q n (k + 1))) (k + 1) := by
  have hmono := sinkPath_strictMono q n
  have hpos := one_le_sinkPath q n
  have hnext : sinkPath q n (k + 1) ≤ Config.heapPhys := by
    have := comparedChild_cases q n (sinkPath q n k)
    have := h.size ▸ size_le_heapPhys r
    rw [sinkPath]
    omega
  have hstep : sinkPath q n k < sinkPath q n (k + 1) := hmono (Nat.lt_succ_self k)
  refine ⟨h.external, h.size, fun m hm => ?_, ?_, fun m hm => ?_, fun p hp hoff => ?_⟩
  · rcases (Nat.le_of_lt_succ hm).lt_or_eq with hlt' | rfl
    · exact h.less m hlt'
    · exact ⟨hlive, hlt⟩
  · rw [heapAt_swapHeap_right _ (hpos _) (hpos _) hnext, h.place]
  · rcases (Nat.le_of_lt_succ hm).lt_or_eq with hlt' | rfl
    · rw [heapAt_swapHeap_ne _ (hpos _) (hpos _) (hpos _) (hmono hlt').ne (hmono hm).ne, h.moved m hlt']
    · rw [heapAt_swapHeap_left _ (hpos _) (hpos _) (by omega), h.heapAt_below hstep]
  · rw [heapAt_swapHeap_ne _ (hpos _) (hpos _) hp (hoff k (by omega)) (hoff (k + 1) le_rfl),
      h.others p hp fun m hm => hoff m (by omega)]

/-- An entry that stops has sunk. -/
theorem SunkBy.sinksFromRoot (h : SunkBy n e q r k)
    (hstop : n < 2 * sinkPath q n k ∨ entryLt q.external (heapAt q (sinkPath q n (k + 1))) e = false) :
    SinksFromRoot n e q r :=
  ⟨k, sinkPath q n, rfl, fun m hm => ⟨(h.less m hm).1, rfl, (h.less m hm).2⟩, hstop, h.place, h.moved, h.others⟩

end

/-- SiftDown lets the entry sink as far as it goes (R100). -/
theorem SunkBy.sinksFromRoot_siftDownFrom {n : Nat} {e : Entry} {q : Queue} (fuel : Nat) :
    ∀ {r : Queue} {k : Nat}, SunkBy n e q r k → n < sinkPath q n k + fuel →
      SinksFromRoot n e q (siftDownFrom fuel r (sinkPath q n k)) := by
  induction fuel with
  | zero => exact fun h hf => h.sinksFromRoot (.inl (by omega))
  | succ fuel ih =>
    intro r k h hf
    have hstep : sinkPath q n k < sinkPath q n (k + 1) := sinkPath_strictMono q n (Nat.lt_succ_self k)
    rw [siftDownFrom, h.size]
    by_cases hend : 2 * sinkPath q n k > n
    · rw [if_pos hend]
      exact h.sinksFromRoot (.inl hend)
    · rw [if_neg hend]
      dsimp only
      rw [h.smallerChild_eq, h.external, h.place, h.heapAt_below hstep]
      by_cases hlt : entryLt q.external (heapAt q (sinkPath q n (k + 1))) e = true
      · rw [if_pos hlt]
        exact ih (h.swap (by omega) hlt) (by omega)
      · rw [if_neg hlt]
        exact h.sinksFromRoot (.inr (by simpa using hlt))

/-- PollMin puts the last entry at the root, from where it sinks (R101). -/
theorem polled_sinks {q : Queue} (hs : 1 ≤ q.size.toNat) :
    SinksFromRoot (polled q).size.toNat (heapAt q q.size.toNat) q (polled q) := by
  rw [polled_size]
  have hput : SunkBy (q.size - 1#10).toNat (heapAt q q.size.toNat) q
      { setHeap q 1 (heapAt q q.size.toNat) with size := q.size - 1#10 } 0 := by
    refine ⟨rfl, rfl, fun m hm => absurd hm (Nat.not_lt_zero m), ?_, fun m hm => absurd hm (Nat.not_lt_zero m),
      fun p hp hoff => ?_⟩
    · exact (heapAt_setHeap q _ le_rfl le_rfl (hs.trans (size_le_heapPhys q))).trans (if_pos rfl)
    · exact heapAt_setHeap_ne q _ le_rfl hp (hoff 0 le_rfl)
  exact hput.sinksFromRoot_siftDownFrom _ (Nat.lt_add_of_pos_left Nat.one_pos)

end Sys2Proof.Proofs

/-! PROOFS. The six queue commands (43_pqueue.md R102 to R107). -/

namespace Sys2Proof.Proofs

open Sys2Proof Sys2Proof.Machine Sys2Proof.Safety Sys2Proof.Laws

/-! ### The least entry of an ordered heap (10_state.md R31) -/

/-- In a strict weak order nothing is less than itself. -/
theorem not_less_self {ext : Bool} (hw : StrictWeak ext) (x : Entry) : entryLt ext x x = false := by
  by_contra h
  rw [Bool.not_eq_false] at h
  exact Bool.false_ne_true (((hw x x x).1 h).symm.trans h)

/-- No live entry of an ordered heap is less than its root. -/
theorem not_less_root {q : Queue} (hw : StrictWeak q.external) (h : HeapOrdered q) (p : Nat) (hp : 1 ≤ p)
    (hps : p ≤ q.size.toNat) : entryLt q.external (heapAt q p) (heapAt q 1) = false := by
  induction p using Nat.strongRecOn with
  | ind p ih =>
    rcases hp.eq_or_lt with rfl | hlt
    · exact not_less_self hw _
    · exact not_less_trans hw (h p hlt hps) (ih (p / 2) (by omega) (by omega) (by omega))

theorem not_less_root_of_mem {q : Queue} (hw : StrictWeak q.external) (h : HeapOrdered q) {e : Entry}
    (he : e ∈ entries q) : entryLt q.external e (heapAt q 1) = false := by
  obtain ⟨k, hk, rfl⟩ := List.mem_map.mp he
  exact not_less_root hw h (k + 1) (by omega) (List.mem_range.mp hk)

/-! ### How the commands run -/

/-- A check that passes is followed by what comes after it. -/
theorem require_bind_pos {α : Type} {p : Prop} [Decidable p] (h : p) {c : ErrCode} (f : Unit → Op α) (s : State) :
    (require p c >>= f) s = f () s := by
  rw [op_bind, require_pos h]

/-- A check that fails raises, and nothing after it runs. -/
theorem require_bind_neg {α : Type} {p : Prop} [Decidable p] (h : ¬ p) {c : ErrCode} (f : Unit → Op α) (s : State) :
    (require p c >>= f) s = .error (.raise c) s := by
  rw [op_bind, require_neg h]

/-- PQ_INIT's checks in order, and the queue it makes (R102). -/
theorem bodyOf_pqInit (s : State) :
    bodyOf .pqInit s =
      (require (¬ (s.a1.toNat = 1 ∧ s.cfg.extCmpPresent = false)) .nullArgument >>= fun _ =>
        require (s.a1.toNat ≤ 1) .invalidArgument >>= fun _ =>
          require (0 < s.a0.toInt) .invalidArgument >>= fun _ =>
            require (s.a0.toNat ≤ Config.heapPhys) .capacityExceeded >>= fun _ =>
              set { s with pq := freshQueue s.pq (BitVec.ofNat 10 s.a0.toNat) (s.a1.toNat == 1) }) s := rfl

/-- PQ_OFFER with its operand present is Offer of (a0, a1) (R103). -/
theorem bodyOf_pqOffer (s : State) : bodyOf (.pqOffer true) s = offer { key := s.a0, tag := s.a1 } s := rfl

theorem exec_pqOffer_absent (s : State) : exec (.pqOffer false) s = .next (takeError .nullArgument s) :=
  exec_of_bodyOf_raise (i := .pqOffer false) rfl

theorem exec_pqOffer_refused {s : State} (h : offered s.pq { key := s.a0, tag := s.a1 } = none) :
    exec (.pqOffer true) s = .next (takeError .capacityExceeded s) :=
  exec_of_bodyOf_raise ((bodyOf_pqOffer s).trans (by rw [offer_run, h]))

theorem exec_pqOffer_taken {s : State} {q : Queue} (h : offered s.pq { key := s.a0, tag := s.a1 } = some q) :
    exec (.pqOffer true) s = .next (complete { s with pq := q }) :=
  exec_of_bodyOf_ok ((bodyOf_pqOffer s).trans (by rw [offer_run, h]))

/-- PQ_POLL answers the sentinel or takes the root out (R104). -/
theorem bodyOf_pqPoll (s : State) :
    bodyOf .pqPoll s = if s.pq.size = 0#10 then emptyQueue s else (pollMin >>= setResEntry) s := op_ite ..

theorem exec_pqPoll_empty {s : State} (h : s.pq.size = 0#10) :
    exec .pqPoll s = .next (complete { s with res0 := 0#32, res1 := 0#32, status := flagsEmpty s.status }) :=
  exec_of_bodyOf_ok ((bodyOf_pqPoll s).trans (if_pos h))

theorem exec_pqPoll_root {s : State} (h : s.pq.size ≠ 0#10) :
    exec .pqPoll s = .next (complete { s with
      pq := polled s.pq, res0 := (heapAt s.pq 1).key, res1 := (heapAt s.pq 1).tag }) :=
  exec_of_bodyOf_ok ((bodyOf_pqPoll s).trans (if_neg h))

/-- PQ_PEEK answers the sentinel or the root (R105). -/
theorem bodyOf_pqPeek (s : State) :
    bodyOf .pqPeek s = if s.pq.size = 0#10 then emptyQueue s else setResEntry (heapAt s.pq 1) s := op_ite ..

theorem exec_pqPeek_empty {s : State} (h : s.pq.size = 0#10) :
    exec .pqPeek s = .next (complete { s with res0 := 0#32, res1 := 0#32, status := flagsEmpty s.status }) :=
  exec_of_bodyOf_ok ((bodyOf_pqPeek s).trans (if_pos h))

theorem exec_pqPeek_root {s : State} (h : s.pq.size ≠ 0#10) :
    exec .pqPeek s = .next (complete { s with res0 := (heapAt s.pq 1).key, res1 := (heapAt s.pq 1).tag }) :=
  exec_of_bodyOf_ok ((bodyOf_pqPeek s).trans (if_neg h))

theorem exec_pqSize (s : State) : exec .pqSize s = .next (complete { s with res0 := s.pq.size.setWidth 32 }) :=
  exec_of_bodyOf_ok (i := .pqSize) rfl

/-- PQ_AT's check, and the entry it answers (R107). -/
theorem bodyOf_pqAt (s : State) :
    bodyOf .pqAt s = (require (1 ≤ s.a0.toNat ∧ s.a0.toNat ≤ s.pq.size.toNat) .invalidArgument >>= fun _ =>
      setResEntry (heapAt s.pq s.a0.toNat)) s := rfl

/-! ### The obligations -/

/-- A queue that is not empty has an entry. -/
theorem one_le_size {q : Queue} (h : q.size ≠ 0#10) : 1 ≤ q.size.toNat :=
  Nat.one_le_iff_ne_zero.mpr fun e => h (BitVec.eq_of_toNat_eq e)

/-- Settles O33: an offer is refused by a full queue that cannot grow, and else its entry rises from the end. -/
theorem offerPlacesEntry : Obligations.OfferPlacesEntry := by
  unfold Obligations.OfferPlacesEntry
  refine ⟨rfl, rfl, fun s => ⟨exec_pqOffer_absent s, fun hfull hcap => ?_, fun hok hroom => ?_⟩⟩
  · refine exec_pqOffer_refused ?_
    rw [offered, if_pos hfull]
    exact if_pos hcap
  · obtain ⟨q, hq⟩ : ∃ q, offered s.pq { key := s.a0, tag := s.a1 } = some q := by
      rcases offered_cases s.pq { key := s.a0, tag := s.a1 } with ⟨-, ho⟩ | ⟨-, -, ho⟩ | ⟨hfull, hcap, -⟩
      · exact ⟨_, ho⟩
      · exact ⟨_, ho⟩
      · exact absurd (hroom.resolve_left (not_not_intro hfull)) hcap.not_ge
    obtain ⟨-, hext, hcap⟩ := offered_some hq
    refine ⟨q, exec_pqOffer_taken hq, offered_size hok hq, hext, ?_, offered_rises hok hq⟩
    rcases hcap with ⟨hne, hcap⟩ | ⟨hfull, hcap⟩
    · rw [if_neg hne, hcap]
    · rw [if_pos hfull, hcap]

/-- Settles O34: a poll answers HEAP[1], and the last entry sinks from the root. -/
theorem pollReplacesRoot : Obligations.PollReplacesRoot := by
  unfold Obligations.PollReplacesRoot
  refine ⟨rfl, fun s => ⟨exec_pqPoll_empty, fun hne => ?_⟩⟩
  have hs := one_le_size hne
  refine ⟨polled s.pq, exec_pqPoll_root hne, ?_, polled_cap _, polled_external _, polled_sinks hs⟩
  rw [polled_size, size_pred hs, Nat.sub_add_cancel hs]

/-- Settles O36: an offer adds its entry to the live ones, a poll takes the root out, and the root of an ordered heap is a
minimum. -/
theorem queueHoldsAMultiset : Obligations.QueueHoldsAMultiset := by
  unfold Obligations.QueueHoldsAMultiset
  refine fun s t hok => ⟨fun ht herr => ?_, fun ht hne => ?_⟩
  · cases hq : offered s.pq { key := s.a0, tag := s.a1 } with
    | none =>
      cases (exec_pqOffer_refused hq).symm.trans ht
      exact Bool.noConfusion herr
    | some q =>
      cases (exec_pqOffer_taken hq).symm.trans ht
      exact Multiset.coe_eq_coe.mp (offered_live hok hq)
  · cases (exec_pqPoll_root hne).symm.trans ht
    exact ⟨Multiset.coe_eq_coe.mp (live_polled (one_le_size hne)), fun hw hord _ => not_less_root_of_mem hw hord⟩

/-- Settles O32: PQ_INIT's four checks in their order, and the empty queue it makes. -/
theorem queueConstruction : Obligations.QueueConstruction := by
  unfold Obligations.QueueConstruction
  have hphys : Config.heapPhys = 1023 := rfl
  refine ⟨rfl, fun s => ⟨fun h1 hno => ?_, fun h1 => ?_, fun hord => ?_⟩⟩
  · refine exec_of_bodyOf_raise ((bodyOf_pqInit s).trans (require_bind_neg ?_ _ s))
    exact not_not_intro ⟨by rw [h1]; rfl, hno⟩
  · refine exec_of_bodyOf_raise ((bodyOf_pqInit s).trans ?_)
    rw [require_bind_pos (by omega), require_bind_neg (by omega)]
  · have hpresent : ¬ (s.a1.toNat = 1 ∧ s.cfg.extCmpPresent = false) := by
      rcases hord with h0 | ⟨-, hext⟩
      · rw [h0]; simp
      · rw [hext]; simp
    have hle : s.a1.toNat ≤ 1 := by
      rcases hord with h | ⟨h, -⟩ <;> rw [h] <;> decide
    refine ⟨fun hneg => ?_, fun hpos hcap => ?_, fun hpos hcap => ⟨BitVec.ofNat 10 s.a0.toNat, ?_, ?_⟩⟩
    · refine exec_of_bodyOf_raise ((bodyOf_pqInit s).trans ?_)
      rw [require_bind_pos hpresent, require_bind_pos hle, require_bind_neg hneg.not_gt]
    · refine exec_of_bodyOf_raise ((bodyOf_pqInit s).trans ?_)
      rw [require_bind_pos hpresent, require_bind_pos hle, require_bind_pos hpos, require_bind_neg (by omega)]
    · rw [BitVec.toNat_ofNat, Nat.mod_eq_of_lt (by omega)]
    · have hcmp : (s.a1.toNat == 1) = decide (s.a1 = 1#32) := decide_eq_decide.mpr (BitVec.toNat_inj (y := 1#32))
      rw [← hcmp]
      refine exec_of_bodyOf_ok ((bodyOf_pqInit s).trans ?_)
      rw [require_bind_pos hpresent, require_bind_pos hle, require_bind_pos hpos, require_bind_pos (by omega)]
      rfl

/-- Settles O35: the sentinel or the root, the size, and an entry by its position. -/
theorem queueReads : Obligations.QueueReads := by
  unfold Obligations.QueueReads
  refine ⟨rfl, rfl, rfl, fun s =>
    ⟨exec_pqPeek_empty, exec_pqPeek_root, ⟨_, ?_, exec_pqSize s⟩, fun hout => ?_, fun hlo hhi => ?_⟩⟩
  · exact BitVec.toNat_setWidth_of_le (by decide)
  · exact exec_of_bodyOf_raise ((bodyOf_pqAt s).trans (require_bind_neg (by omega) _ s))
  · exact exec_of_bodyOf_ok ((bodyOf_pqAt s).trans (require_bind_pos ⟨hlo, hhi⟩ _ s))

end Sys2Proof.Proofs

/-! PROOFS. The frequency table's commands and the node and leaf reads (44_huffman_tree.md R113 to R115, R117, R118). -/

namespace Sys2Proof.Proofs

open Sys2Proof Sys2Proof.Machine Sys2Proof.Safety Sys2Proof.Laws

/-! ### FREQ_CLEAR and FREQ_SET -/

theorem exec_freqClear (s : State) : exec .freqClear s = .next (complete { s with freq := emptyFreq }) :=
  exec_of_bodyOf_ok (i := .freqClear) rfl

/-- FREQ_SET's checks, and the counter it writes (R114). -/
theorem bodyOf_freqSet (s : State) :
    bodyOf .freqSet s =
      (require (s.a0.toNat ≤ 255) .invalidArgument >>= fun _ =>
        require (s.a1.toNat < 2 ^ 31) .invalidArgument >>= fun _ =>
          modify fun s' => { s' with
            freq := { setFreq s'.freq s.a0.toNat (BitVec.ofNat 32 s.a1.toNat) with valid := true } }) s := rfl

/-- Settles O37: the empty table, and a write of one counter behind two checks. -/
theorem frequencyTableCommands : Obligations.FrequencyTableCommands := by
  unfold Obligations.FrequencyTableCommands
  refine ⟨rfl, rfl, fun s =>
    ⟨⟨_, exec_freqClear s, rfl, fun sym _ => freqAt_emptyFreq sym⟩, fun hbad => ?_, fun hsym hn =>
      ⟨{ setFreq s.freq s.a0.toNat s.a1 with valid := true }, ?_, rfl, fun sym hs => ?_⟩⟩⟩
  · refine exec_of_bodyOf_raise ((bodyOf_freqSet s).trans ?_)
    by_cases hsym : s.a0.toNat ≤ 255
    · rw [require_bind_pos hsym, require_bind_neg (by omega)]
    · rw [require_bind_neg hsym]
  · refine exec_of_bodyOf_ok ((bodyOf_freqSet s).trans ?_)
    rw [require_bind_pos hsym, require_bind_pos hn, op_modify, BitVec.ofNat_toNat, BitVec.setWidth_eq]
  · exact (freqAt_setFreq s.freq s.a0.toNat sym s.a1 hs).trans (by simp only [eq_comm])

/-! ### FREQ_SCAN -/

/-- The counting loop of Scan adds to every counter how often its symbol stands in the bytes (R110). -/
theorem countFrom_run (n : Nat) : ∀ (k : Nat) (s : State), k + n ≤ s.cfg.inCap →
    (∀ sym, sym < 256 → (freqAt s.freq sym).toNat + n < 2 ^ 32) →
    ∃ f : FreqTable, countFrom n k s = .ok () { s with freq := f } ∧
      ∀ sym, sym < 256 → (freqAt f sym).toNat = (freqAt s.freq sym).toNat + (inputBytes s k n).count sym := by
  induction n with
  | zero => exact fun k s _ _ => ⟨s.freq, rfl, fun sym _ => rfl⟩
  | succ n ih =>
    intro k s hcap hroom
    generalize hb : s.mem.read (inBase + k) = b
    have hset : ∀ sym, sym < 256 → (freqAt (setFreq s.freq b.toNat (freqAt s.freq b.toNat + 1#32)) sym).toNat =
        (freqAt s.freq sym).toNat + if b.toNat = sym then 1 else 0 := fun sym hs => by
      have := hroom sym hs
      rw [freqAt_setFreq _ _ _ _ hs]
      split
      · rename_i he
        rw [← he] at this ⊢
        rw [BitVec.toNat_add, Nat.mod_eq_of_lt] <;> simp; omega
      · rfl
    obtain ⟨f, hrun, hf⟩ := ih (k + 1)
      { s with freq := setFreq s.freq b.toNat (freqAt s.freq b.toNat + 1#32) } (by dsimp only; omega) fun sym hs => by
        have := hroom sym hs
        rw [hset sym hs]
        split <;> omega
    refine ⟨f, ?_, fun sym hs => ?_⟩
    · rw [countFrom, op_bind, inByte_ok (by omega), hb]
      exact hrun
    · rw [hf sym hs, hset sym hs, inputBytes_cons, List.count_cons, hb]
      simp only [beq_iff_eq]
      exact (Nat.add_assoc _ _ _).trans (congrArg _ (Nat.add_comm _ _))

/-- Scan counts every byte of the stream, and rewinds it (R110). -/
theorem scan_run {s : State} (h : InputOk s) :
    ∃ f : FreqTable, scan s = .ok () { s with freq := f, inp := rewound s.inp } ∧ f.valid = true ∧
      ∀ sym, sym < 256 → (freqAt f sym).toNat = (inputBytes s 0 s.inp.len.toNat).count sym := by
  obtain ⟨hcfg, hlen, -, -⟩ := h
  have hzero : ∀ sym, freqAt { s.freq with counts := Vector.replicate 256 0#32 } sym = 0#32 := fun sym => by
    simp [freqAt]
  obtain ⟨f, hrun, hf⟩ := countFrom_run s.inp.len.toNat 0
    { s with freq := { s.freq with counts := Vector.replicate 256 0#32 } } (by dsimp only; omega) fun sym _ => by
      have := hcfg.1.2
      rw [hzero]
      simp; omega
  refine ⟨{ f with valid := true }, ?_, rfl, fun sym hs => (hf sym hs).trans ?_⟩
  · rw [scan, op_bind, op_modify]
    dsimp only
    rw [op_bind, op_get]
    dsimp only
    rw [op_bind, hrun]
    rfl
  · rw [hzero]
    exact Nat.zero_add _

/-- Settles O38: the check of the stream, and the scan. -/
theorem scanCountsInput : Obligations.ScanCountsInput := by
  unfold Obligations.ScanCountsInput
  refine ⟨rfl, fun s => ⟨exec_reader_absent (by decide), fun h hin => ?_⟩⟩
  obtain ⟨f, hrun, hvalid, hf⟩ := scan_run hin
  exact ⟨f, exec_of_bodyOf_ok (i := .freqScan) ((needReader_bind_present _ h).trans hrun), hvalid, hf⟩

/-! ### HUF_NODE and HUF_LEAF -/

/-- The layout of RES1 (R117). -/
theorem nodeLinks_toNat (n : Node) :
    (nodeLinks n).toNat = 2 ^ 31 * n.leaf.toNat + 2 ^ 18 * n.parent.toNat + 2 ^ 9 * n.right.toNat + n.left.toNat := by
  simp only [nodeLinks, toNat_append_eq, BitVec.toNat_ofBool, BitVec.toNat_ofNat]
  omega

/-- HUF_NODE's check, and the three results (R117). -/
theorem bodyOf_hufNode (s : State) :
    bodyOf .hufNode s =
      (require (s.a0.toNat < s.code.count.toNat) .invalidArgument >>= fun _ =>
        nodeAt s.a0.toNat >>= fun nd =>
          (do setRes0 nd.freq; setRes1 (nodeLinks nd); setRes2 (nd.sym.setWidth 32))) s := rfl

/-- With a code held its check is passed. -/
theorem needCode_bind_present {α : Type} {s : State} (f : Unit → Op α) (h : s.code.valid = true) :
    (needCode >>= f) s = f () s := by
  rw [op_bind, needCode_run, if_pos h]

/-- With a code HUF_LEAF is its check of the symbol, and the read of LEAF_MAP (R118). -/
theorem bodyOf_hufLeaf {s : State} (h : s.code.valid = true) :
    bodyOf .hufLeaf s =
      (require (s.a0.toNat ≤ 255) .invalidArgument >>= fun _ =>
        get >>= fun t => setRes0 ((leafAt t.code s.a0.toNat).setWidth 32)) s :=
  needCode_bind_present _ h

/-- Settles O41: the checks in their order, and the fields of a node side by side. -/
theorem nodeAndLeafReads : Obligations.NodeAndLeafReads := by
  unfold Obligations.NodeAndLeafReads
  refine ⟨rfl, rfl, fun s => ⟨fun hge => ?_, fun hlt hcount => ?_, fun hv => ?_, fun hv hsym => ?_, fun hv hsym =>
    ⟨_, BitVec.toNat_setWidth_of_le (by decide), ?_⟩⟩⟩
  · exact exec_of_bodyOf_raise ((bodyOf_hufNode s).trans (require_bind_neg (by omega) _ s))
  · obtain ⟨nd, hnd⟩ := nodeOf_some hcount hlt
    refine ⟨nd, nodeLinks nd, nd.sym.setWidth 32, hnd, nodeLinks_toNat nd, BitVec.toNat_setWidth_of_le (by decide),
      exec_of_bodyOf_ok ((bodyOf_hufNode s).trans ?_)⟩
    rw [require_bind_pos hlt, op_bind, nodeAt_run, hnd]
    rfl
  · refine exec_of_bodyOf_raise (i := .hufLeaf) (?_ : opHufLeaf s = _)
    rw [opHufLeaf, op_bind, needCode_run, if_neg (by simp [hv])]
  · exact exec_of_bodyOf_raise ((bodyOf_hufLeaf hv).trans (require_bind_neg (by omega) _ s))
  · exact exec_of_bodyOf_ok ((bodyOf_hufLeaf hv).trans (require_bind_pos hsym _ s))

end Sys2Proof.Proofs

/-! PROOFS. Why merging the two lightest trees is optimal (44_huffman_tree.md R112): a tree as the multiset of its leaves'
weights and depths, and the exchange that moves the two least weights to a deepest pair of siblings. -/

namespace Sys2Proof.Proofs

open Sys2Proof Sys2Proof.Machine Sys2Proof.Safety Sys2Proof.Laws

/-! ### Weights at depths -/

/-- The pairs (weight, depth) are those of the leaves of some full binary tree whose root stands at depth `d`. -/
inductive Placement : Nat → Multiset (Nat × Nat) → Prop
  | leaf (w d : Nat) : Placement d {(w, d)}
  | node {d : Nat} {P Q : Multiset (Nat × Nat)} (hP : Placement (d + 1) P) (hQ : Placement (d + 1) Q) :
    Placement d (P + Q)

/-- The sum of weight times depth. -/
def placedCost (P : Multiset (Nat × Nat)) : Nat := (P.map fun p => p.1 * p.2).sum

@[simp] theorem placedCost_singleton (p : Nat × Nat) : placedCost {p} = p.1 * p.2 := by simp [placedCost]

@[simp] theorem placedCost_cons (p : Nat × Nat) (P : Multiset (Nat × Nat)) :
    placedCost (p ::ₘ P) = p.1 * p.2 + placedCost P := by simp [placedCost]

@[simp] theorem placedCost_add (P Q : Multiset (Nat × Nat)) : placedCost (P + Q) = placedCost P + placedCost Q := by
  simp [placedCost]

theorem Placement.depth_le {d : Nat} {P : Multiset (Nat × Nat)} (h : Placement d P) : ∀ p ∈ P, d ≤ p.2 := by
  induction h with
  | leaf w d => simp
  | node _ _ ihP ihQ =>
    intro p hp
    rcases Multiset.mem_add.mp hp with hp | hp
    · exact Nat.le_of_succ_le (ihP p hp)
    · exact Nat.le_of_succ_le (ihQ p hp)

/-- A leaf can be given another weight. -/
theorem Placement.reweigh {d w e : Nat} {Q : Multiset (Nat × Nat)} (h : Placement d ((w, e) ::ₘ Q)) (v : Nat) :
    Placement d ((v, e) ::ₘ Q) := by
  generalize hP : (w, e) ::ₘ Q = P at h
  induction h generalizing Q with
  | leaf x d =>
    obtain ⟨hx, rfl⟩ := (Multiset.singleton_eq_cons_iff _).mp hP.symm
    obtain ⟨-, rfl⟩ := Prod.mk.inj hx
    exact .leaf v d
  | @node d A B hA hB ihA ihB =>
    have hmem : (w, e) ∈ A + B := hP ▸ Multiset.mem_cons_self _ _
    rcases Multiset.mem_add.mp hmem with hm | hm
    · obtain ⟨A, rfl⟩ := Multiset.exists_cons_of_mem hm
      rw [Multiset.cons_add, Multiset.cons_inj_right] at hP
      rw [hP, ← Multiset.cons_add]
      exact .node (ihA rfl) hB
    · obtain ⟨B, rfl⟩ := Multiset.exists_cons_of_mem hm
      rw [Multiset.add_cons, Multiset.cons_inj_right] at hP
      rw [hP, ← Multiset.add_cons]
      exact .node hA (ihB rfl)

/-! ### A deepest pair of siblings -/

/-- Two sibling leaves of weights `x` and `y` at the greatest depth, `D + 1`, beside the leaves `Q`: their parent could be
a leaf in their place, of any weight. -/
structure DeepPair (d : Nat) (P : Multiset (Nat × Nat)) (D x y : Nat) (Q : Multiset (Nat × Nat)) : Prop where
  pair    : P = (x, D + 1) ::ₘ (y, D + 1) ::ₘ Q
  deepest : ∀ p ∈ P, p.2 ≤ D + 1
  parent  : ∀ z, Placement d ((z, D) ::ₘ Q)

theorem DeepPair.add {d D x y : Nat} {P Q R : Multiset (Nat × Nat)} (h : DeepPair (d + 1) P D x y Q)
    (hR : Placement (d + 1) R) (hd : ∀ p ∈ R, p.2 ≤ D + 1) : DeepPair d (P + R) D x y (Q + R) where
  pair := by rw [h.pair, Multiset.cons_add, Multiset.cons_add]
  deepest p hp := (Multiset.mem_add.mp hp).elim (h.deepest p) (hd p)
  parent z := by
    rw [← Multiset.cons_add]
    exact .node (h.parent z) hR

/-- A tree is a single leaf or has a deepest pair of siblings. -/
theorem Placement.deepPair {d : Nat} {P : Multiset (Nat × Nat)} (h : Placement d P) :
    (∃ w, P = {(w, d)}) ∨ ∃ D x y Q, DeepPair d P D x y Q := by
  have hleaf : ∀ {d D x y w : Nat} {P Q : Multiset (Nat × Nat)}, Placement (d + 1) P → DeepPair (d + 1) P D x y Q →
      ∀ p ∈ ({(w, d + 1)} : Multiset (Nat × Nat)), p.2 ≤ D + 1 := fun {d D x y w P Q} hP h p hp => by
    obtain rfl := Multiset.mem_singleton.mp hp
    exact hP.depth_le (x, D + 1) (by simp [h.pair])
  induction h with
  | leaf w d => exact .inl ⟨w, rfl⟩
  | @node d A B hA hB ihA ihB =>
    refine .inr ?_
    rcases ihA with ⟨v, rfl⟩ | ⟨D, x, y, Q, hpA⟩ <;> rcases ihB with ⟨w, rfl⟩ | ⟨E, x', y', R, hpB⟩
    · exact ⟨d, v, w, 0, rfl, by simp, fun z => .leaf z d⟩
    · exact ⟨E, x', y', _, add_comm B _ ▸ hpB.add hA (hleaf hB hpB)⟩
    · exact ⟨D, x, y, _, hpA.add hB (hleaf hA hpA)⟩
    · rcases le_total E D with hle | hle
      · exact ⟨D, x, y, _, hpA.add hB fun p hp => (hpB.deepest p hp).trans (by omega)⟩
      · exact ⟨E, x', y', _, add_comm B _ ▸ hpB.add hA fun p hp => (hpA.deepest p hp).trans (by omega)⟩

/-! ### The exchange -/

/-- The leaves `Q` beside a deepest pair of siblings at depth `D + 1`. -/
structure Beside (D : Nat) (Q : Multiset (Nat × Nat)) : Prop where
  depth  : ∀ p ∈ Q, p.2 ≤ D + 1
  parent : ∀ z, Placement 0 ((z, D) ::ₘ Q)

/-- The least weight `a` changes places with the weight `x` of a deepest leaf, at no cost. -/
theorem Beside.exchange {D x a : Nat} {Q : Multiset (Nat × Nat)} {W : Multiset Nat} (h : Beside D Q)
    (hw : x ::ₘ Q.map Prod.fst = a ::ₘ W) (hle : a ≤ x) :
    ∃ R, Beside D R ∧ R.map Prod.fst = W ∧ a * (D + 1) + placedCost R ≤ x * (D + 1) + placedCost Q := by
  by_cases hax : a = x
  · subst hax
    exact ⟨Q, h, (Multiset.cons_inj_right a).mp hw, le_rfl⟩
  · have hmem : a ∈ x ::ₘ Q.map Prod.fst := hw ▸ Multiset.mem_cons_self a W
    obtain ⟨⟨a, e⟩, hp, rfl⟩ := Multiset.mem_map.mp ((Multiset.mem_cons.mp hmem).resolve_left hax)
    obtain ⟨R, rfl⟩ := Multiset.exists_cons_of_mem hp
    have he : e ≤ D + 1 := h.depth (a, e) (by simp)
    refine ⟨(x, e) ::ₘ R, ⟨fun p hm => ?_, fun z => ?_⟩, ?_, ?_⟩
    · rcases Multiset.mem_cons.mp hm with rfl | hm
      · exact he
      · exact h.depth p (by simp [hm])
    · have hz := h.parent z
      rw [Multiset.cons_swap] at hz ⊢
      exact hz.reweigh x
    · rw [Multiset.map_cons, Multiset.cons_swap, Multiset.cons_inj_right] at hw
      rw [← hw, Multiset.map_cons]
    · obtain ⟨i, rfl⟩ := Nat.exists_eq_add_of_le hle
      obtain ⟨j, hj⟩ := Nat.exists_eq_add_of_le he
      simp only [placedCost_cons, hj]
      nlinarith [Nat.zero_le (i * j)]

/-- The two least weights can be joined to one leaf of their sum, which saves at least that sum (R112). -/
theorem Placement.join_least {P : Multiset (Nat × Nat)} {a b : Nat} {W : Multiset Nat} (h : Placement 0 P)
    (hw : P.map Prod.fst = a ::ₘ b ::ₘ W) (hab : a ≤ b) (hmin : ∀ w ∈ W, b ≤ w) :
    ∃ Q, Placement 0 Q ∧ Q.map Prod.fst = (a + b) ::ₘ W ∧ placedCost Q + (a + b) ≤ placedCost P := by
  rcases h.deepPair with ⟨w, rfl⟩ | ⟨D, x, y, Q, hp⟩
  · have := congrArg Multiset.card hw
    simp at this
  · have hQ : Beside D Q := ⟨fun p hm => hp.deepest p (by simp [hp.pair, hm]), hp.parent⟩
    have hleb : ∀ v ∈ b ::ₘ W, b ≤ v := fun v hv => (Multiset.mem_cons.mp hv).elim (fun e => e.ge) (hmin v)
    have hlea : ∀ v ∈ a ::ₘ b ::ₘ W, a ≤ v := fun v hv =>
      (Multiset.mem_cons.mp hv).elim (fun e => e.ge) fun hv => hab.trans (hleb v hv)
    have hxy : x ::ₘ y ::ₘ Q.map Prod.fst = a ::ₘ b ::ₘ W := by rw [← hw, hp.pair]; simp
    have hcost : placedCost P = x * (D + 1) + (y * (D + 1) + placedCost Q) := by rw [hp.pair]; simp
    suffices hR : ∃ R, Beside D R ∧ R.map Prod.fst = W ∧ a * (D + 1) + (b * (D + 1) + placedCost R) ≤ placedCost P by
      obtain ⟨R, hR, rfl, hle⟩ := hR
      refine ⟨(a + b, D) ::ₘ R, hR.parent _, Multiset.map_cons .., ?_⟩
      rw [placedCost_cons]
      nlinarith
    rw [hcost]
    by_cases hay : a = y
    · subst hay
      rw [Multiset.cons_swap, Multiset.cons_inj_right] at hxy
      obtain ⟨R, hR, hRw, hle⟩ := hQ.exchange hxy (hleb x (hxy ▸ Multiset.mem_cons_self x _))
      exact ⟨R, hR, hRw, by omega⟩
    · have ha : a ∈ x ::ₘ Q.map Prod.fst := by
        have : a ∈ y ::ₘ x ::ₘ Q.map Prod.fst := by rw [Multiset.cons_swap, hxy]; exact Multiset.mem_cons_self a _
        exact (Multiset.mem_cons.mp this).resolve_left hay
      obtain ⟨V, hV⟩ := Multiset.exists_cons_of_mem ha
      obtain ⟨R, hR, rfl, hle⟩ := hQ.exchange hV (hlea x (hxy ▸ Multiset.mem_cons_self x _))
      rw [Multiset.cons_swap, hV, Multiset.cons_swap, Multiset.cons_inj_right] at hxy
      obtain ⟨S, hS, hSw, hle'⟩ := hR.exchange hxy (hleb y (hxy ▸ Multiset.mem_cons_self y _))
      exact ⟨S, hS, hSw, by omega⟩

end Sys2Proof.Proofs

namespace Sys2Proof.Safety

open Sys2Proof Sys2Proof.Machine Sys2Proof.Laws Sys2Proof.Proofs

variable {w : Byte → Nat}

/-! ### The weight of a tree -/

/-- The sum of the weights of a tree's leaves: what Build writes as a node's FREQ (R111). -/
def HTree.weight (w : Byte → Nat) (T : HTree) : Nat := (T.symbols.map w).sum

@[simp] theorem HTree.weight_leaf (sym : Byte) : (HTree.leaf sym).weight w = w sym := by simp [weight, symbols]

@[simp] theorem HTree.weight_node (l r : HTree) : (HTree.node l r).weight w = l.weight w + r.weight w := by
  simp [weight, symbols]

/-- A full binary tree of k leaves has 2k − 1 nodes. -/
theorem HTree.size_add_one (T : HTree) : T.size + 1 = 2 * T.symbols.length := by
  induction T with
  | leaf sym => rfl
  | node l r ihl ihr => simp only [size, symbols, List.length_append]; omega

/-- A tree one level deeper costs its weight more. -/
theorem HTree.cost_succ (T : HTree) (d : Nat) : T.cost w (d + 1) = T.cost w d + T.weight w := by
  induction T generalizing d with
  | leaf sym => rw [cost, cost, weight_leaf, Nat.mul_succ]
  | node l r ihl ihr => rw [cost, cost, ihl, ihr, weight_node]; omega

theorem HTree.cost_node_zero (l r : HTree) :
    (HTree.node l r).cost w 0 = l.cost w 0 + r.cost w 0 + (l.weight w + r.weight w) := by
  rw [cost, cost_succ, cost_succ]; omega

/-- The weights and depths of a tree's leaves, the root standing at depth `d`. -/
def HTree.placed (w : Byte → Nat) : (d : Nat) → HTree → Multiset (Nat × Nat)
  | d, .leaf sym => {(w sym, d)}
  | d, .node l r => l.placed w (d + 1) + r.placed w (d + 1)

theorem HTree.placement (T : HTree) (d : Nat) : Placement d (T.placed w d) := by
  induction T generalizing d with
  | leaf sym => exact .leaf _ _
  | node l r ihl ihr => exact .node (ihl _) (ihr _)

theorem HTree.placedCost_placed (T : HTree) (d : Nat) : placedCost (T.placed w d) = T.cost w d := by
  induction T generalizing d with
  | leaf sym => simp [placed, cost]
  | node l r ihl ihr => simp [placed, cost, ihl, ihr]

theorem HTree.weights_placed (T : HTree) (d : Nat) :
    (T.placed w d).map Prod.fst = ((T.symbols.map w : List Nat) : Multiset Nat) := by
  induction T generalizing d with
  | leaf sym => rfl
  | node l r ihl ihr => simp [placed, symbols, ihl, ihr]

end Sys2Proof.Safety

namespace Sys2Proof.Proofs

open Sys2Proof Sys2Proof.Machine Sys2Proof.Safety Sys2Proof.Laws

/-! ### Merging trees -/

/-- The trees `F` can still be joined to an optimal tree over leaves of the weights `W`: no tree over these leaves costs
less than the trees of `F` and some way to join them. -/
def Optimal (w : Byte → Nat) (W : Multiset Nat) (F : Multiset HTree) : Prop :=
  ∀ P, Placement 0 P → P.map Prod.fst = W →
    ∃ Q, Placement 0 Q ∧ Q.map Prod.fst = F.map (HTree.weight w) ∧
      placedCost Q + (F.map (HTree.cost w 0)).sum ≤ placedCost P

variable {w : Byte → Nat} {W : Multiset Nat}

/-- The leaves themselves can. -/
theorem optimal_leaves (S : Multiset Byte) : Optimal w (S.map w) (S.map HTree.leaf) := by
  refine fun P hP hw => ⟨P, hP, ?_, ?_⟩
  · simpa [Multiset.map_map, Function.comp_def] using hw
  · simp [Multiset.map_map, Function.comp_def, HTree.cost]

/-- So can the trees after a merge of the two lightest (R112). -/
theorem Optimal.merge {L R : HTree} {F : Multiset HTree} (h : Optimal w W (L ::ₘ R ::ₘ F))
    (hLR : L.weight w ≤ R.weight w) (hmin : ∀ T ∈ F, R.weight w ≤ T.weight w) : Optimal w W (.node L R ::ₘ F) := by
  intro P hP hw
  obtain ⟨Q, hQ, hQw, hle⟩ := h P hP hw
  simp only [Multiset.map_cons, Multiset.sum_cons] at hQw hle
  obtain ⟨Q', hQ', hQw', hle'⟩ := hQ.join_least hQw hLR fun v hv => by
    obtain ⟨T, hT, rfl⟩ := Multiset.mem_map.mp hv
    exact hmin T hT
  refine ⟨Q', hQ', by simpa using hQw', ?_⟩
  rw [Multiset.map_cons, Multiset.sum_cons, HTree.cost_node_zero]
  omega

/-- One tree that is left is optimal. -/
theorem Optimal.cost_le {T U : HTree} (h : Optimal w W {T}) (hU : ((U.symbols.map w : List Nat) : Multiset Nat) = W) :
    T.cost w 0 ≤ U.cost w 0 := by
  obtain ⟨Q, -, -, hle⟩ := h _ (U.placement 0) ((U.weights_placed 0).trans hU)
  rw [HTree.placedCost_placed, Multiset.map_singleton, Multiset.sum_singleton] at hle
  omega

end Sys2Proof.Proofs

/-! PROOFS. Build (44_huffman_tree.md R111), entry by entry: on a table with a count and a legal sum both loops run to their
end, and what each leaf and each merge leaves stands to the end. -/

namespace Sys2Proof.Proofs

open Sys2Proof Sys2Proof.Machine Sys2Proof.Safety Sys2Proof.Laws

/-! ### Nodes that stay -/

/-- The node `e` is the node `d`, but that a PARENT of NONE may have been replaced. -/
def SameNode (d e : Node) : Prop :=
  e = { d with parent := e.parent } ∧ (d.parent ≠ Config.noNode → e.parent = d.parent)

theorem SameNode.refl (d : Node) : SameNode d d := ⟨rfl, fun _ => rfl⟩

theorem SameNode.trans {d e g : Node} (h : SameNode d e) (k : SameNode e g) : SameNode d g := by
  obtain ⟨he, hp⟩ := h
  obtain ⟨hg, hq⟩ := k
  refine ⟨by rw [hg, he], fun hne => ?_⟩
  have := hp hne
  rw [hq (this ▸ hne), this]

/-- Every node of `c` stays in `d`, but for a PARENT that was NONE (R111 writes PARENT once). -/
def NodesKept (c d : Code) : Prop := ∀ n nd, nodeOf c n = some nd → ∃ nd', nodeOf d n = some nd' ∧ SameNode nd nd'

theorem NodesKept.refl (c : Code) : NodesKept c c := fun _ nd h => ⟨nd, h, .refl nd⟩

theorem NodesKept.trans {c d e : Code} (h : NodesKept c d) (k : NodesKept d e) : NodesKept c e := fun n nd hn => by
  obtain ⟨nd₁, h₁, s₁⟩ := h n nd hn
  obtain ⟨nd₂, h₂, s₂⟩ := k n nd₁ h₁
  exact ⟨nd₂, h₂, s₁.trans s₂⟩

theorem nodesKept_allocated {c : Code} (nd : Node) (hc : c.count.toNat < Config.nodeCap) :
    NodesKept c (allocated c nd) := fun _ kd h => ⟨kd, nodeOf_allocated_old hc h, .refl kd⟩

theorem nodesKept_withLeaf {c : Code} {sym : Nat} (f : Word) (hc : c.count.toNat < Config.nodeCap) :
    NodesKept c (withLeaf c sym f) := fun _ kd h => ⟨kd, nodeOf_withLeaf_old f hc h, .refl kd⟩

theorem nodesKept_reparented {c : Code} {r : NodeIdx} {rd : Node} (hr : nodeOf c r.toNat = some rd)
    (hp : rd.parent = Config.noNode) (q : NodeIdx) : NodesKept c (reparented c r rd q) := fun n nd hn => by
  rw [nodeOf_reparented hr]
  by_cases hk : r.toNat = n
  · obtain rfl : rd = nd := by simpa [← hk, hr] using hn
    exact ⟨_, if_pos hk, rfl, fun hne => absurd hp hne⟩
  · exact ⟨nd, by rwa [if_neg hk], .refl nd⟩

section
variable {c : Code} {f : Word} {l r : NodeIdx} {ld rd : Node} (h : Joinable c f l r ld rd)
include h

theorem Joinable.nodesKept : NodesKept c (joined c f l r ld rd) :=
  ((nodesKept_allocated _ h.room).trans (nodesKept_reparented h.left h.lroot _)).trans
    (nodesKept_reparented h.right h.rroot _)

theorem Joinable.leftNode :
    nodeOf (joined c f l r ld rd) l.toNat = some { ld with parent := c.count.setWidth 9 } := by
  rw [joined, nodeOf_reparented_ne h.right _ h.ne, nodeOf_reparented h.left, if_pos rfl]

theorem Joinable.rightNode :
    nodeOf (joined c f l r ld rd) r.toNat = some { rd with parent := c.count.setWidth 9 } := by
  rw [joined, nodeOf_reparented h.right, if_pos rfl]

theorem Joinable.newNode : nodeOf (joined c f l r ld rd) c.count.toNat = some (freshNode false 0#8 f l r) := by
  have := h.node
  rwa [(allocIndex_toNat h.room).1] at this

end

/-- Two trees of a forest can be joined. -/
theorem Forest.exists_joinable {c : Code} {F : Multiset (NodeIdx × HTree)} {l r : NodeIdx} {L R : HTree}
    (h : Forest c ((l, L) ::ₘ (r, R) ::ₘ F)) (hc : c.count.toNat < Config.nodeCap) (f : Word) :
    ∃ ld rd, nodeOf c l.toNat = some ld ∧ nodeOf c r.toNat = some rd ∧ Joinable c f l r ld rd := by
  obtain ⟨ld, hld, -⟩ := h.root (x := (l, L)) (by simp)
  obtain ⟨rd, hrd, -⟩ := h.root (x := (r, R)) (by simp)
  have hne : r ≠ l := fun e => by
    have := h.roots
    simp [e] at this
  have hl := nodeOf_allocated_old (nd := freshNode false 0#8 f l r) hc hld
  refine ⟨ld, rd, hld, hrd, h.joinable hc hl ?_⟩
  rw [nodeOf_reparented_ne hl _ hne]
  exact nodeOf_allocated_old hc hrd

/-- The arena determines the tree it holds at a node. -/
theorem tree_unique_of_holds {c : Code} {T U : HTree} {p q n : NodeIdx} (h : Holds c p n T) (k : Holds c q n U) :
    T = U := by
  induction T generalizing U p q n with
  | leaf sym =>
    obtain ⟨nd, hn, hleaf, hsym, -⟩ := h
    cases U with
    | leaf sym' =>
      obtain ⟨md, hm, -, hsym', -⟩ := k
      cases hn.symm.trans hm
      rw [← hsym, hsym']
    | node l r =>
      obtain ⟨md, hm, hleaf', -⟩ := k
      cases hn.symm.trans hm
      simp [hleaf] at hleaf'
  | node l r ihl ihr =>
    obtain ⟨nd, hn, hleaf, -, -, hl, hr⟩ := h
    cases U with
    | leaf sym' =>
      obtain ⟨md, hm, hleaf', -⟩ := k
      cases hn.symm.trans hm
      simp [hleaf] at hleaf'
    | node l' r' =>
      obtain ⟨md, hm, -, -, -, hl', hr'⟩ := k
      cases hn.symm.trans hm
      rw [ihl hl hl', ihr hr hr']

/-! ### What the nodes weigh -/

/-- The weight of a symbol (R112). -/
def weightOf (f : FreqTable) (sym : Byte) : Nat := (freqAt f sym.toNat).toNat

/-- A leaf weighs its symbol's count; an internal node weighs its two children, the left one no heavier than the right
(R111). -/
def Weighs (f : FreqTable) (c : Code) (nd : Node) : Prop :=
  (nd.leaf = true → nd.freq = freqAt f nd.sym.toNat) ∧
  (nd.leaf = false → nd.sym = 0#8 ∧ ∃ l r, nodeOf c nd.left.toNat = some l ∧ nodeOf c nd.right.toNat = some r ∧
    nd.freq.toNat = l.freq.toNat + r.freq.toNat ∧ l.freq.toNat ≤ r.freq.toNat)

/-- Every allocated node weighs what R111 says. -/
def Weighed (f : FreqTable) (c : Code) : Prop := ∀ n nd, nodeOf c n = some nd → Weighs f c nd

theorem SameNode.freq {d e : Node} (h : SameNode d e) : e.freq = d.freq := by rw [h.1]

theorem Weighs.mono {f : FreqTable} {c d : Code} {nd nd' : Node} (h : Weighs f c nd) (hcd : NodesKept c d)
    (hs : SameNode nd nd') : Weighs f d nd' := by
  obtain ⟨hleaf, hnode⟩ := h
  rw [hs.1]
  refine ⟨hleaf, fun hf => ?_⟩
  obtain ⟨hsym, l, r, hl, hr, hsum, hle⟩ := hnode hf
  obtain ⟨l', hl', sl⟩ := hcd _ l hl
  obtain ⟨r', hr', sr⟩ := hcd _ r hr
  exact ⟨hsym, l', r', hl', hr', by rwa [sl.freq, sr.freq], by rwa [sl.freq, sr.freq]⟩

/-- A new node that weighs what it should leaves every node so. -/
theorem Weighed.grow {f : FreqTable} {c d : Code} {nd : Node} (h : Weighed f c) (hcd : NodesKept c d)
    (hc : c.count.toNat < Config.nodeCap) (hcount : d.count.toNat = c.count.toNat + 1)
    (hnew : nodeOf d c.count.toNat = some nd) (hnd : Weighs f d nd) : Weighed f d := fun n md hn => by
  rcases Nat.lt_or_ge n c.count.toNat with hlt | hge
  · obtain ⟨od, hod⟩ := nodeOf_some hc.le hlt
    obtain ⟨md', hmd', hs⟩ := hcd n od hod
    cases hn.symm.trans hmd'
    exact (h n od hod).mono hcd hs
  · obtain rfl : n = c.count.toNat := by have := (nodeOf_lt hn).2; omega
    cases hn.symm.trans hnew
    exact hnd

/-- The root of a held tree weighs its leaves' counts. -/
theorem freq_toNat_of_holds {f : FreqTable} {c : Code} (hw : Weighed f c) {T : HTree} {p n : NodeIdx} {nd : Node}
    (h : Holds c p n T) (hn : nodeOf c n.toNat = some nd) : nd.freq.toNat = T.weight (weightOf f) := by
  induction T generalizing p n nd with
  | leaf sym =>
    obtain ⟨md, hm, hleaf, rfl, -⟩ := h
    cases hn.symm.trans hm
    rw [(hw _ nd hn).1 hleaf, HTree.weight_leaf]
    rfl
  | node L R ihL ihR =>
    obtain ⟨md, hm, hleaf, -, -, hL, hR⟩ := h
    cases hn.symm.trans hm
    obtain ⟨-, l, r, hl, hr, hsum, -⟩ := (hw _ nd hn).2 hleaf
    rw [hsum, ihL hL hl, ihR hR hr, HTree.weight_node]

theorem weighed_withLeaf {f : FreqTable} {c : Code} {sym : Nat} (h : Weighed f c) (hc : c.count.toNat < Config.nodeCap)
    (hsym : sym < 256) : Weighed f (withLeaf c sym (freqAt f sym)) := by
  refine h.grow (nd := freshNode true (BitVec.ofNat 8 sym) (freqAt f sym) Config.noNode Config.noNode)
    (nodesKept_withLeaf _ hc) hc (withLeaf_count _ hc) ?_ ⟨fun _ => ?_, fun hf => by simp at hf⟩
  · rw [withLeaf, nodeOf_setLeaf, nodeOf_allocated c _ _ hc, if_pos rfl]
  · rw [BitVec.toNat_ofNat, Nat.mod_eq_of_lt hsym]

theorem Joinable.weighed {tbl : FreqTable} {c : Code} {f : Word} {l r : NodeIdx} {ld rd : Node}
    (h : Joinable c f l r ld rd) (hw : Weighed tbl c) (hsum : f.toNat = ld.freq.toNat + rd.freq.toNat)
    (hle : ld.freq.toNat ≤ rd.freq.toNat) : Weighed tbl (joined c f l r ld rd) :=
  hw.grow h.nodesKept h.room h.count h.newNode
    ⟨fun hf => by simp at hf, fun _ => ⟨rfl, _, _, h.leftNode, h.rightNode, hsum, hle⟩⟩

/-! ### The natural ordering of small keys -/

theorem natural_strictWeak : StrictWeak false := fun x y z => by
  simp only [entryLt, Bool.false_eq_true, if_false, BitVec.slt, decide_eq_true_eq, decide_eq_false_iff_not]
  omega

/-- Among keys below 2^31 the natural ordering is that of the numbers (43_pqueue.md R97). -/
theorem key_le_of_not_less {x y : Entry} (h : entryLt false x y = false) (hx : x.key.toNat < 2 ^ 31)
    (hy : y.key.toNat < 2 ^ 31) : y.key.toNat ≤ x.key.toNat := by
  simp only [entryLt, Bool.false_eq_true, if_false, BitVec.slt, decide_eq_false_iff_not, BitVec.toInt_eq_toNat_cond] at h
  omega

/-- No live entry of a natural queue is less than its root. -/
theorem not_less_root_natural {q : Queue} (h : QueueInv q) (hn : q.external = false) {e : Entry} (he : e ∈ live q) :
    entryLt false e (heapAt q 1) = false := by
  have hw : StrictWeak q.external := hn ▸ natural_strictWeak
  have := not_less_root_of_mem hw (h.2 hw) (Multiset.mem_coe.mp he)
  rwa [hn] at this

theorem card_live (q : Queue) : Multiset.card (live q) = q.size.toNat := by simp [live, firstEntries]

/-- A queue of fewer than 512 entries takes one more (43_pqueue.md R99). -/
theorem exists_offered {q : Queue} (e : Entry) (hs : q.size.toNat < 512) : ∃ r, offered q e = some r := by
  rcases offered_cases q e with ⟨-, ho⟩ | ⟨-, -, ho⟩ | ⟨he, hc, -⟩
  · exact ⟨_, ho⟩
  · exact ⟨_, ho⟩
  · have hm : Config.heapPhys = 1023 := rfl
    have := congrArg BitVec.toNat he
    omega

/-! ### Between two steps of Build -/

/-- The queue entry of a tree with its root (R111). -/
def treeEntry (f : FreqTable) (x : NodeIdx × HTree) : Entry :=
  { key := BitVec.ofNat 32 (x.2.weight (weightOf f)), tag := x.1.setWidth 32 }

/-- Build has made, from the state `s₀`, the trees `F` over the symbols `syms`: the queue holds their entries, and every node
weighs what it should. -/
structure Growing (s₀ : State) (syms : List Nat) (F : Multiset (NodeIdx × HTree)) (s : State) : Prop where
  same    : s = { s₀ with pq := s.pq, code := s.code }
  queue   : QueueInv s.pq
  natural : s.pq.external = false
  forest  : Forest s.code F
  entries : live s.pq = F.map (treeEntry s₀.freq)
  symbols : (F.bind fun x => (x.2.symbols : Multiset Byte)) = (syms.map (BitVec.ofNat 8) : List Byte)
  weighed : Weighed s₀.freq s.code

/-- Few enough symbols for the arena and the queue, with a sum the natural ordering takes (R116). -/
structure Buildable (f : FreqTable) (syms : List Nat) : Prop where
  few : syms.length ≤ 256
  sum : (syms.map fun sym => weightOf f (BitVec.ofNat 8 sym)).sum < 2 ^ 31

section
variable {s₀ s : State} {syms : List Nat} {F : Multiset (NodeIdx × HTree)} (h : Growing s₀ syms F s)
include h

theorem Growing.card : Multiset.card F = s.pq.size.toNat := by
  rw [← card_live, h.entries, Multiset.card_map]

/-- Every symbol has its leaf, and every tree one node less than two for each of its leaves. -/
theorem Growing.count : s.code.count.toNat + s.pq.size.toNat = 2 * syms.length := by
  have hleaves : (F.map fun x => x.2.symbols.length).sum = syms.length := by
    have := congrArg Multiset.card h.symbols
    simpa [Multiset.card_bind, Function.comp_def] using this
  calc s.code.count.toNat + s.pq.size.toNat
      = (F.map fun x => x.2.size + 1).sum := by
        rw [Multiset.sum_map_add, h.forest.total, ← h.card]; simp
    _ = (F.map fun x => 2 * x.2.symbols.length).sum := by simp only [HTree.size_add_one]
    _ = 2 * syms.length := by rw [Multiset.sum_map_mul_left, hleaves]

theorem Growing.sum_weight :
    (F.map fun x => x.2.weight (weightOf s₀.freq)).sum =
      (syms.map fun sym => weightOf s₀.freq (BitVec.ofNat 8 sym)).sum := by
  have := congrArg (fun S => (Multiset.map (weightOf s₀.freq) S).sum) h.symbols
  simpa [Multiset.map_bind, Multiset.sum_bind, Function.comp_def, HTree.weight] using this

theorem Growing.weight_lt (hb : Buildable s₀.freq syms) {x : NodeIdx × HTree} (hx : x ∈ F) :
    x.2.weight (weightOf s₀.freq) < 2 ^ 31 :=
  (Multiset.le_sum_of_mem (Multiset.mem_map_of_mem (fun x => x.2.weight (weightOf s₀.freq)) hx)).trans_lt
    (h.sum_weight ▸ hb.sum)

theorem Growing.key_toNat (hb : Buildable s₀.freq syms) {x : NodeIdx × HTree} (hx : x ∈ F) :
    (treeEntry s₀.freq x).key.toNat = x.2.weight (weightOf s₀.freq) := by
  have := h.weight_lt hb hx
  exact (BitVec.toNat_ofNat _ _).trans (Nat.mod_eq_of_lt (by omega))

end

/-- An entry taken from the entries of trees is the entry of one of them. -/
theorem exists_tree_of_entries_cons {f : FreqTable} {F : Multiset (NodeIdx × HTree)} {e : Entry} {E : Multiset Entry}
    (h : F.map (treeEntry f) = e ::ₘ E) : ∃ x G, F = x ::ₘ G ∧ e = treeEntry f x ∧ G.map (treeEntry f) = E := by
  obtain ⟨x, hx, rfl, hG⟩ := (Multiset.map_eq_cons (treeEntry f) F E e).mpr h
  exact ⟨x, F.erase x, (Multiset.cons_erase hx).symm, rfl, hG⟩

end Sys2Proof.Proofs

/-! PROOFS. One merge of Build (44_huffman_tree.md R111): the two lightest trees become one. -/

namespace Sys2Proof.Proofs

open Sys2Proof Sys2Proof.Machine Sys2Proof.Safety Sys2Proof.Laws

/-- The sum of the two keys that a merge polls from the queue `q` (R111). -/
def mergedKey (q : Queue) : Word := (heapAt q 1).key + (heapAt (polled q) 1).key

/-- The entry a merge offers (R111). -/
def mergeEntry (q : Queue) (tag : Word) : Entry := { key := mergedKey q, tag }

/-- What follows a primitive that ends well runs from where it ended. -/
theorem bind_of_ok {α β : Type} {x : Op α} {f : α → Op β} {s t : State} {a : α} (h : x s = .ok a t) :
    (x >>= f) s = f a t := by
  rw [op_bind, h]

theorem offer_taken {e : Entry} {s : State} {q : Queue} (h : offered s.pq e = some q) :
    offer e s = .ok () { s with pq := q } := by rw [offer_run, h]

theorem alloc_taken {s : State} (leaf : Bool) (sym : Byte) (f : Word) (l r : NodeIdx)
    (h : s.code.count.toNat < Config.nodeCap) :
    alloc leaf sym f l r s =
      .ok (s.code.count.setWidth 9) { s with code := allocated s.code (freshNode leaf sym f l r) } := by
  rw [alloc_run, if_pos h]

/-- The tag of a new node's entry (R111). -/
theorem nodeTag_eq {c : Code} (h : c.count.toNat < Config.nodeCap) :
    ((c.count.setWidth 9 : NodeIdx).setWidth 32 : Word) = BitVec.ofNat 32 c.count.toNat := by
  apply BitVec.eq_of_toNat_eq
  have := c.count.isLt
  rw [BitVec.toNat_setWidth_of_le (by decide), (allocIndex_toNat h).1, BitVec.toNat_ofNat, Nat.mod_eq_of_lt (by omega)]

/-- How a merge runs (R111). -/
theorem mergeTwo_run {s : State} {l r : NodeIdx} {ld rd : Node} {q : Queue} (hl : rootOf (heapAt s.pq 1) = l)
    (hr : rootOf (heapAt (polled s.pq) 1) = r)
    (hj : Joinable s.code (mergedKey s.pq) l r ld rd)
    (hq : offered (polled (polled s.pq)) (mergeEntry s.pq (BitVec.ofNat 32 s.code.count.toNat)) = some q) :
    mergeTwo s = .ok () { s with
      pq := q, code := joined s.code (mergedKey s.pq) l r ld rd } := by
  subst hl hr
  refine (bind_of_ok (pollMin_run s)).trans <| (bind_of_ok (pollMin_run _)).trans ?_
  refine (bind_of_ok (alloc_taken _ _ _ _ _ (by exact hj.room))).trans ?_
  refine (bind_of_ok (setParent_ok (by exact hj.left))).trans ?_
  refine (bind_of_ok (setParent_ok (by exact hj.right))).trans ?_
  rw [nodeTag_eq hj.room]
  exact offer_taken hq

/-- What two polls leave of the size (43_pqueue.md R101). -/
theorem polled_twice_size {q : Queue} (hs : 2 ≤ q.size.toNat) : (polled (polled q)).size.toNat = q.size.toNat - 2 := by
  have h₁ : (polled q).size.toNat = q.size.toNat - 1 := by rw [polled_size, size_pred (by omega)]
  rw [polled_size, size_pred (by omega), h₁]
  omega

/-- One merge of the trees `L` at `l` and `R` at `r`, beside the trees `G`, from `s` to `t` (R111). -/
structure Merge (f : FreqTable) (s t : State) (l r : NodeIdx) (L R : HTree) (G : Multiset (NodeIdx × HTree))
    (ld rd : Node) : Prop where
  first    : heapAt s.pq 1 = treeEntry f (l, L)
  second   : heapAt (polled s.pq) 1 = treeEntry f (r, R)
  lighter  : L.weight (weightOf f) ≤ R.weight (weightOf f)
  least    : ∀ x ∈ G, R.weight (weightOf f) ≤ x.2.weight (weightOf f)
  joinable : Joinable s.code (mergedKey s.pq) l r ld rd
  code     : t.code = joined s.code (mergedKey s.pq) l r ld rd
  queue    : offered (polled (polled s.pq)) (mergeEntry s.pq (BitVec.ofNat 32 s.code.count.toNat)) = some t.pq

/-- The two trees that a merge takes: the lightest ones. -/
theorem Growing.exists_lightest {s₀ s : State} {syms : List Nat} {F : Multiset (NodeIdx × HTree)}
    (h : Growing s₀ syms F s) (hb : Buildable s₀.freq syms) (hs : 2 ≤ s.pq.size.toNat) :
    ∃ l r L R G, F = (l, L) ::ₘ (r, R) ::ₘ G ∧ heapAt s.pq 1 = treeEntry s₀.freq (l, L) ∧
      heapAt (polled s.pq) 1 = treeEntry s₀.freq (r, R) ∧ G.map (treeEntry s₀.freq) = live (polled (polled s.pq)) ∧
      L.weight (weightOf s₀.freq) ≤ R.weight (weightOf s₀.freq) ∧
      ∀ x ∈ G, R.weight (weightOf s₀.freq) ≤ x.2.weight (weightOf s₀.freq) := by
  have hsize : (polled s.pq).size.toNat = s.pq.size.toNat - 1 := by rw [polled_size, size_pred (by omega)]
  have hent := h.entries
  have hlive := live_polled (q := s.pq) (by omega)
  have hlive' := live_polled (q := polled s.pq) (by omega)
  rw [← hlive, ← hlive'] at hent
  obtain ⟨⟨l, L⟩, F₁, rfl, hx, hF₁⟩ := exists_tree_of_entries_cons hent.symm
  obtain ⟨⟨r, R⟩, G, rfl, hy, hG⟩ := exists_tree_of_entries_cons hF₁
  have hpolled : QueueInv (polled s.pq) := polled_queueInv h.queue (by omega)
  have hnat : (polled s.pq).external = false := (polled_external _).trans h.natural
  have hle : ∀ a ∈ (l, L) ::ₘ (r, R) ::ₘ G, ∀ b ∈ (l, L) ::ₘ (r, R) ::ₘ G,
      entryLt false (treeEntry s₀.freq a) (treeEntry s₀.freq b) = false →
      b.2.weight (weightOf s₀.freq) ≤ a.2.weight (weightOf s₀.freq) := fun a ha b hb' hlt => by
    have := key_le_of_not_less hlt
    rw [h.key_toNat hb ha, h.key_toNat hb hb'] at this
    exact this (h.weight_lt hb ha) (h.weight_lt hb hb')
  refine ⟨l, r, L, R, G, rfl, hx, hy, hG, ?_, fun x hxG => ?_⟩
  · refine hle (r, R) (by simp) (l, L) (by simp) ?_
    rw [← hx, ← hy]
    exact not_less_root_natural h.queue h.natural (by rw [← hlive, ← hlive']; simp)
  · refine hle x (by simp [hxG]) (r, R) (by simp) ?_
    rw [← hy]
    exact not_less_root_natural hpolled hnat (by
      rw [← hlive', ← hG]; exact Multiset.mem_cons_of_mem (Multiset.mem_map_of_mem _ hxG))

/-- The sum a merge writes is that of the two trees' weights: it does not overflow (R116). -/
theorem Growing.mergedKey_toNat {s₀ s : State} {syms : List Nat} {l r : NodeIdx} {L R : HTree}
    {G : Multiset (NodeIdx × HTree)} (h : Growing s₀ syms ((l, L) ::ₘ (r, R) ::ₘ G) s) (hb : Buildable s₀.freq syms)
    (hx : heapAt s.pq 1 = treeEntry s₀.freq (l, L)) (hy : heapAt (polled s.pq) 1 = treeEntry s₀.freq (r, R)) :
    (mergedKey s.pq).toNat = L.weight (weightOf s₀.freq) + R.weight (weightOf s₀.freq) := by
  have hL := h.weight_lt hb (x := (l, L)) (by simp)
  have hR := h.weight_lt hb (x := (r, R)) (by simp)
  rw [mergedKey, hx, hy, BitVec.toNat_add, h.key_toNat hb (by simp), h.key_toNat hb (by simp)]
  exact Nat.mod_eq_of_lt (by dsimp only at hL hR ⊢; omega)

/-- A merge runs to its end, and leaves the two lightest trees joined (R111). -/
theorem Growing.merge {s₀ s : State} {syms : List Nat} {F : Multiset (NodeIdx × HTree)} (h : Growing s₀ syms F s)
    (hb : Buildable s₀.freq syms) (hs : 2 ≤ s.pq.size.toNat) :
    ∃ l r L R G ld rd t, F = (l, L) ::ₘ (r, R) ::ₘ G ∧ mergeTwo s = .ok () t ∧ Merge s₀.freq s t l r L R G ld rd ∧
      Growing s₀ syms ((s.code.count.setWidth 9, .node L R) ::ₘ G) t := by
  obtain ⟨l, r, L, R, G, rfl, hx, hy, hG, hLR, hmin⟩ := h.exists_lightest hb hs
  have hsize₁ : (polled s.pq).size.toNat = s.pq.size.toNat - 1 := by rw [polled_size, size_pred (by omega)]
  have hsize₂ := polled_twice_size hs
  have hqueue : QueueInv (polled (polled s.pq)) := polled_queueInv (polled_queueInv h.queue (by omega)) (by omega)
  have hcount := h.count
  have hfew := hb.few
  have hroom : s.code.count.toNat < Config.nodeCap := by
    have : Config.nodeCap = 511 := rfl
    omega
  obtain ⟨ld, rd, hld, hrd, hj⟩ :=
    h.forest.exists_joinable hroom (mergedKey s.pq)
  obtain ⟨q, hq⟩ := exists_offered (q := polled (polled s.pq)) (mergeEntry s.pq (BitVec.ofNat 32 s.code.count.toNat))
    (by omega)
  have hldw : ld.freq.toNat = L.weight (weightOf s₀.freq) :=
    freq_toNat_of_holds h.weighed (h.forest.holds (l, L) (by simp)) hld
  have hrdw : rd.freq.toNat = R.weight (weightOf s₀.freq) :=
    freq_toNat_of_holds h.weighed (h.forest.holds (r, R) (by simp)) hrd
  have hkey := h.mergedKey_toNat hb hx hy
  refine ⟨l, r, L, R, G, ld, rd, _, rfl, mergeTwo_run (by rw [hx]; exact rootOf_setWidth _ _)
    (by rw [hy]; exact rootOf_setWidth _ _) hj hq, ⟨hx, hy, hLR, hmin, hj, rfl, hq⟩, ?_⟩
  refine ⟨?_, offered_queueInv hqueue hq, ?_, h.forest.join hj, ?_, ?_, hj.weighed h.weighed (by omega) (by omega)⟩
  · rw [h.same]
  · simpa [h.natural] using (offered_some hq).2.1
  · rw [offered_live hqueue.1 hq, Multiset.map_cons, hG, mergeEntry, mergedKey, hx, hy]
    simp [treeEntry, BitVec.ofNat_add, nodeTag_eq hroom]
  · have := h.symbols
    simp only [Multiset.cons_bind, HTree.symbols, ← Multiset.coe_add] at this ⊢
    rw [← this, add_assoc]

end Sys2Proof.Proofs

/-! PROOFS. The two loops of Build (44_huffman_tree.md R111): each runs to its end, and every leaf and every merge leaves
its record. -/

namespace Sys2Proof.Proofs

open Sys2Proof Sys2Proof.Machine Sys2Proof.Safety Sys2Proof.Laws

/-! ### The record of a merge -/

/-- The queue before the m-th merge of `k` leaves, from the queue `q` (R111). -/
def mergeQueue (k : Nat) (q : Queue) : Nat → Queue
  | 0 => q
  | m + 1 =>
    let p := mergeQueue k q m
    (offered (polled (polled p)) (mergeEntry p (BitVec.ofNat 32 (k + m)))).getD p

/-- What the m-th merge leaves of itself: its offer, its node, and the PARENTs of the two nodes it polled (R111). -/
def MergeRecorded (k : Nat) (merges : Nat → Queue) (c : Code) (m : Nat) : Prop :=
  ∃ (x y : Entry) (nd nx ny : Node),
    x = heapAt (merges m) 1 ∧ y = heapAt (polled (merges m)) 1 ∧
    offered (polled (polled (merges m))) { key := x.key + y.key, tag := BitVec.ofNat 32 (k + m) } = some (merges (m + 1)) ∧
    nodeOf c (k + m) = some nd ∧ nd.leaf = false ∧ nd.sym = 0#8 ∧ nd.freq = x.key + y.key ∧
    nd.left.toNat = x.tag.toNat ∧ nd.right.toNat = y.tag.toNat ∧
    nodeOf c x.tag.toNat = some nx ∧ nx.parent.toNat = k + m ∧
    nodeOf c y.tag.toNat = some ny ∧ ny.parent.toNat = k + m

/-- A PARENT that has been written stays. -/
theorem SameNode.parent_toNat {d e : Node} (h : SameNode d e) {n : Nat} (hp : d.parent.toNat = n)
    (hn : n < Config.nodeCap) : e.parent.toNat = n := by
  rw [h.2 fun e => ?_, hp]
  rw [e] at hp
  exact absurd hn (hp ▸ by decide)

theorem MergeRecorded.mono {k : Nat} {merges : Nat → Queue} {c d : Code} {m : Nat} (h : MergeRecorded k merges c m)
    (hcd : NodesKept c d) : MergeRecorded k merges d m := by
  obtain ⟨x, y, nd, nx, ny, hx, hy, hq, hnd, hleaf, hsym, hfreq, hl, hr, hnx, hpx, hny, hpy⟩ := h
  have hk := (nodeOf_lt hnd).1
  obtain ⟨nd', hnd', sd⟩ := hcd _ nd hnd
  obtain ⟨nx', hnx', sx⟩ := hcd _ nx hnx
  obtain ⟨ny', hny', sy⟩ := hcd _ ny hny
  refine ⟨x, y, nd', nx', ny', hx, hy, hq, hnd', ?_, ?_, ?_, ?_, ?_, hnx', sx.parent_toNat hpx hk, hny',
    sy.parent_toNat hpy hk⟩ <;> rw [sd.1] <;> assumption

theorem treeEntry_tag_toNat (f : FreqTable) (x : NodeIdx × HTree) : (treeEntry f x).tag.toNat = x.1.toNat :=
  BitVec.toNat_setWidth_of_le (by decide)

section
variable {f : FreqTable} {s t : State} {l r : NodeIdx} {L R : HTree} {G : Multiset (NodeIdx × HTree)} {ld rd : Node}
  (h : Merge f s t l r L R G ld rd)
include h

theorem Merge.nodesKept : NodesKept s.code t.code := h.code ▸ h.joinable.nodesKept

/-- A merge takes out more than it puts in, so the capacity stays (43_pqueue.md R99). -/
theorem Merge.cap (hok : QueueOk s.pq) (hs : 2 ≤ s.pq.size.toNat) : t.pq.cap = s.pq.cap := by
  rcases (offered_some h.queue).2.2 with ⟨-, hc⟩ | ⟨he, -⟩
  · rw [hc, polled_cap, polled_cap]
  · have hfull := congrArg BitVec.toNat he
    rw [polled_twice_size hs, polled_cap, polled_cap] at hfull
    have := hok.2
    omega

/-- A merge, the m-th of `k` leaves, leaves its record. -/
theorem Merge.recorded {k m : Nat} {merges : Nat → Queue} (hq : s.pq = merges m) (hq' : t.pq = merges (m + 1))
    (hcount : s.code.count.toNat = k + m) : MergeRecorded k merges t.code m := by
  have hparent := (allocIndex_toNat h.joinable.room).1.trans hcount
  have hoffer := h.queue
  rw [mergeEntry, hcount, hq'] at hoffer
  refine ⟨heapAt s.pq 1, heapAt (polled s.pq) 1, freshNode false 0#8 _ l r, { ld with parent := s.code.count.setWidth 9 },
    { rd with parent := s.code.count.setWidth 9 }, by rw [hq], by rw [hq], hq ▸ hoffer, ?_, rfl, rfl, rfl, ?_, ?_, ?_,
    hparent, ?_, hparent⟩
  · rw [h.code, ← hcount]
    exact h.joinable.newNode
  · rw [h.first, treeEntry_tag_toNat]
  · rw [h.second, treeEntry_tag_toNat]
  · rw [h.first, treeEntry_tag_toNat, h.code]
    exact h.joinable.leftNode
  · rw [h.second, treeEntry_tag_toNat, h.code]
    exact h.joinable.rightNode

/-- A merge of the two lightest trees keeps the trees optimal (R112). -/
theorem Merge.optimal {W : Multiset Nat} {n : NodeIdx}
    (ho : Optimal (weightOf f) W (((l, L) ::ₘ (r, R) ::ₘ G).map Prod.snd)) :
    Optimal (weightOf f) W (((n, .node L R) ::ₘ G).map Prod.snd) := by
  rw [Multiset.map_cons, Multiset.map_cons] at ho
  rw [Multiset.map_cons]
  refine ho.merge h.lighter fun T hT => ?_
  obtain ⟨x, hx, rfl⟩ := Multiset.mem_map.mp hT
  exact h.least x hx

end

/-! ### Build's second loop -/

/-- `m` merges after the state `u` that the first loop left (R111). -/
structure Merging (s₀ u : State) (syms : List Nat) (m : Nat) (F : Multiset (NodeIdx × HTree)) (s : State) : Prop where
  growing  : Growing s₀ syms F s
  size     : s.pq.size.toNat + m = syms.length
  nodes    : NodesKept u.code s.code
  leafMap  : s.code.leafMap = u.code.leafMap
  cap      : s.pq.cap = u.pq.cap
  queue    : s.pq = mergeQueue syms.length u.pq m
  recorded : ∀ i, i < m → MergeRecorded syms.length (mergeQueue syms.length u.pq) s.code i
  optimal  : Optimal (weightOf s₀.freq) (syms.map fun sym => weightOf s₀.freq (BitVec.ofNat 8 sym) : List Nat)
    (F.map Prod.snd)

/-- The next merge. -/
theorem Merging.merge {s₀ u s : State} {syms : List Nat} {m : Nat} {F : Multiset (NodeIdx × HTree)}
    (h : Merging s₀ u syms m F s) (hb : Buildable s₀.freq syms) (hs : 2 ≤ s.pq.size.toNat) :
    ∃ G t, mergeTwo s = .ok () t ∧ Merging s₀ u syms (m + 1) G t := by
  obtain ⟨l, r, L, R, G, ld, rd, t, rfl, hrun, hm, hg⟩ := h.growing.merge hb hs
  have hsize := h.size
  have hcount : s.code.count.toNat = syms.length + m := by
    have := h.growing.count
    omega
  have hqueue : t.pq = mergeQueue syms.length u.pq (m + 1) := by
    have hoffer := hm.queue
    rw [hcount] at hoffer
    simp only [mergeQueue, ← h.queue, hoffer, Option.getD_some]
  refine ⟨_, t, hrun, hg, ?_, h.nodes.trans hm.nodesKept, ?_, (hm.cap h.growing.queue.1 hs).trans h.cap, hqueue,
    fun i hi => ?_, hm.optimal h.optimal⟩
  · have := hg.count
    have hc := hm.joinable.count
    rw [← hm.code] at hc
    omega
  · rw [hm.code]
    exact h.leafMap
  · rcases Nat.lt_succ_iff_lt_or_eq.mp hi with hlt | rfl
    · exact (h.recorded i hlt).mono hm.nodesKept
    · exact hm.recorded h.queue hqueue hcount

/-- The second loop merges until one tree is left (R111). -/
theorem mergeAll_run {s₀ u : State} {syms : List Nat} (hb : Buildable s₀.freq syms) (fuel : Nat) :
    ∀ {m : Nat} {F : Multiset (NodeIdx × HTree)} {s : State}, Merging s₀ u syms m F s → 1 ≤ s.pq.size.toNat →
      s.pq.size.toNat ≤ fuel →
      ∃ G t, mergeAll fuel s = .ok () t ∧ Merging s₀ u syms (syms.length - 1) G t ∧ t.pq.size.toNat = 1 := by
  induction fuel with
  | zero => intro m F s _ h1 hf; omega
  | succ fuel ih =>
    intro m F s h h1 hf
    have hsize := h.size
    by_cases hs : 1 < s.pq.size.toNat
    · obtain ⟨G, t, hrun, ht⟩ := h.merge hb hs
      have hsize' := ht.size
      obtain ⟨G', t', hrun', ht'⟩ := ih ht (by omega) (by omega)
      refine ⟨G', t', ?_, ht'⟩
      rw [mergeAll, op_bind, op_get]
      dsimp only
      rw [if_pos hs]
      exact (bind_of_ok hrun).trans hrun'
    · obtain rfl : m = syms.length - 1 := by omega
      refine ⟨F, s, ?_, h, by omega⟩
      rw [mergeAll, op_bind, op_get]
      dsimp only
      rw [if_neg hs]
      rfl

/-! ### Build's first loop -/

/-- The queue after `j` of the leaves of `syms`, from the queue `q` (R111). -/
def leafQueue (f : FreqTable) (q : Queue) (syms : List Nat) : Nat → Queue
  | 0 => q
  | j + 1 =>
    let p := leafQueue f q syms j
    (offered p { key := freqAt f (syms.getD j 0), tag := BitVec.ofNat 32 j }).getD p

/-- The queue after the first leaves does not depend on the later ones. -/
theorem leafQueue_append (f : FreqTable) (q : Queue) (syms rest : List Nat) (j : Nat) (h : j ≤ syms.length) :
    leafQueue f q (syms ++ rest) j = leafQueue f q syms j := by
  induction j with
  | zero => rfl
  | succ j ih => simp only [leafQueue, ih (by omega), List.getD_append _ _ _ _ (by omega : j < syms.length)]

/-- What the leaf of the j-th symbol leaves of itself: its offer, its entry in LEAF_MAP, and its node (R111). -/
def LeafRecorded (f : FreqTable) (leaves : Nat → Queue) (c : Code) (j sym : Nat) : Prop :=
  offered (leaves j) { key := freqAt f sym, tag := BitVec.ofNat 32 j } = some (leaves (j + 1)) ∧
  (leafAt c sym).toNat = j ∧
  ∃ nd, nodeOf c j = some nd ∧ nd.leaf = true ∧ nd.sym.toNat = sym ∧ nd.freq = freqAt f sym ∧
    nd.left = 0x1FF#9 ∧ nd.right = 0x1FF#9

theorem LeafRecorded.sym_lt {f : FreqTable} {leaves : Nat → Queue} {c : Code} {j sym : Nat}
    (h : LeafRecorded f leaves c j sym) : sym < 256 := by
  obtain ⟨-, -, nd, -, -, hsym, -⟩ := h
  exact hsym ▸ nd.sym.isLt

theorem LeafRecorded.mono {f : FreqTable} {leaves : Nat → Queue} {c d : Code} {j sym : Nat}
    (h : LeafRecorded f leaves c j sym) (hcd : NodesKept c d) (hmap : leafAt d sym = leafAt c sym) :
    LeafRecorded f leaves d j sym := by
  obtain ⟨hq, hl, nd, hnd, hrest⟩ := h
  obtain ⟨nd', hnd', hs⟩ := hcd _ nd hnd
  refine ⟨hq, hmap ▸ hl, nd', hnd', ?_⟩
  rw [hs.1]
  exact hrest

/-- The capacity `cap` is the least of the growth sequence 1, 3, 7, … that holds `n` entries (43_pqueue.md R99). -/
def LeastCap (n : Nat) (cap : Nat) : Prop :=
  ∃ j, 1 ≤ j ∧ cap = 2 ^ j - 1 ∧ n ≤ 2 ^ j - 1 ∧ (j = 1 ∨ 2 ^ (j - 1) - 1 < n)

theorem LeastCap.offered {q r : Queue} {e : Entry} (h : LeastCap q.size.toNat q.cap.toNat) (hq : QueueOk q)
    (hr : offered q e = some r) : LeastCap r.size.toNat r.cap.toNat := by
  obtain ⟨j, h1, hcap, hle, hj⟩ := h
  rw [offered_size hq hr]
  rcases (offered_some hr).2.2 with ⟨hne, hc⟩ | ⟨he, hc⟩
  · have hlt : q.size.toNat ≠ q.cap.toNat := fun e => hne (BitVec.eq_of_toNat_eq e)
    exact ⟨j, h1, by rw [hc, hcap], by omega, hj.imp_right fun h => by omega⟩
  · have hfull := congrArg BitVec.toNat he
    have hpow : 2 ^ (j + 1) = 2 * 2 ^ j := by rw [Nat.pow_succ, Nat.mul_comm]
    have hpos := Nat.one_le_two_pow (n := j)
    exact ⟨j + 1, by omega, by omega, by omega, .inr (by rw [Nat.add_sub_cancel]; omega)⟩

/-- The first loop, started from `s₀` with the queue `q`, has done the symbols `syms` (R111). -/
structure Planting (s₀ : State) (q : Queue) (syms : List Nat) (F : Multiset (NodeIdx × HTree)) (s : State) : Prop where
  growing  : Growing s₀ syms F s
  trees    : F.map Prod.snd = ((syms.map (BitVec.ofNat 8) : List Byte) : Multiset Byte).map HTree.leaf
  queue    : s.pq = leafQueue s₀.freq q syms syms.length
  recorded : ∀ j sym, syms[j]? = some sym → LeafRecorded s₀.freq (leafQueue s₀.freq q syms) s.code j sym
  cap      : LeastCap syms.length s.pq.cap.toNat

theorem Planting.size {s₀ s : State} {q : Queue} {syms : List Nat} {F : Multiset (NodeIdx × HTree)}
    (h : Planting s₀ q syms F s) : s.pq.size.toNat = syms.length := by
  have := congrArg Multiset.card h.trees
  rw [← h.growing.card]
  simpa using this

theorem planting_start (s : State) :
    Planting s { s.pq with size := 0#10, cap := 1#10, external := false } [] 0
      { s with code := noCode s.code, pq := freshQueue s.pq Config.hufPqInitCap false } where
  growing :=
    { same := rfl
      queue := (building_start s).queue
      natural := rfl
      forest := forest_noCode s.code
      entries := rfl
      symbols := rfl
      weighed := fun n nd h => by simp at h }
  trees := rfl
  queue := rfl
  recorded j sym h := by simp at h
  cap := ⟨1, le_rfl, rfl, by simp, .inl rfl⟩

/-- How the leaf of a symbol with a count is made (R111). -/
theorem offerLeaf_run {s : State} {sym : Nat} {q : Queue} (hne : freqAt s.freq sym ≠ 0#32)
    (hc : s.code.count.toNat < Config.nodeCap)
    (hq : offered s.pq { key := freqAt s.freq sym, tag := BitVec.ofNat 32 s.code.count.toNat } = some q) :
    offerLeaf sym s = .ok () { s with pq := q, code := withLeaf s.code sym (freqAt s.freq sym) } := by
  rw [offerLeaf, op_bind, op_get]
  dsimp only
  rw [if_neg hne]
  refine (bind_of_ok (alloc_taken _ _ _ _ _ hc)).trans ?_
  refine (bind_of_ok (mapLeaf_run _ _ _)).trans ?_
  rw [nodeTag_eq hc]
  exact offer_taken hq

/-- A new leaf, the j-th, leaves its record. -/
theorem leafRecorded_withLeaf {f : FreqTable} {leaves : Nat → Queue} {c : Code} {sym : Nat}
    (hc : c.count.toNat < Config.nodeCap) (hsym : sym < 256)
    (hq : offered (leaves c.count.toNat) { key := freqAt f sym, tag := BitVec.ofNat 32 c.count.toNat } =
      some (leaves (c.count.toNat + 1))) :
    LeafRecorded f leaves (withLeaf c sym (freqAt f sym)) c.count.toNat sym := by
  refine ⟨hq, ?_, freshNode true (BitVec.ofNat 8 sym) (freqAt f sym) Config.noNode Config.noNode, ?_, rfl, ?_, rfl, rfl,
    rfl⟩
  · rw [withLeaf, leafAt_setLeaf _ _ _ _ hsym, if_pos rfl, (allocIndex_toNat hc).1]
  · rw [withLeaf, nodeOf_setLeaf, nodeOf_allocated c _ _ hc, if_pos rfl]
  · rw [BitVec.toNat_ofNat, Nat.mod_eq_of_lt hsym]

theorem weightOf_ofNat (f : FreqTable) {sym : Nat} (hs : sym < 256) :
    weightOf f (BitVec.ofNat 8 sym) = (freqAt f sym).toNat := by
  rw [weightOf, BitVec.toNat_ofNat, Nat.mod_eq_of_lt hs]

/-- The entry of a leaf (R111). -/
theorem treeEntry_leaf (f : FreqTable) {c : Code} {sym : Nat} (hs : sym < 256) (hc : c.count.toNat < Config.nodeCap) :
    treeEntry f (c.count.setWidth 9, .leaf (BitVec.ofNat 8 sym)) =
      { key := freqAt f sym, tag := BitVec.ofNat 32 c.count.toNat } := by
  rw [treeEntry, HTree.weight_leaf, weightOf_ofNat f hs, BitVec.ofNat_toNat, BitVec.setWidth_eq, nodeTag_eq hc]

/-- A leaf and its entry keep what Build has made. -/
theorem Growing.leaf {s₀ s : State} {syms : List Nat} {F : Multiset (NodeIdx × HTree)} {sym : Nat} {q : Queue}
    (h : Growing s₀ syms F s) (hc : s.code.count.toNat < Config.nodeCap) (hsym : sym < 256)
    (hq : offered s.pq { key := freqAt s₀.freq sym, tag := BitVec.ofNat 32 s.code.count.toNat } = some q) :
    Growing s₀ (syms ++ [sym]) ((s.code.count.setWidth 9, .leaf (BitVec.ofNat 8 sym)) ::ₘ F)
      { s with pq := q, code := withLeaf s.code sym (freqAt s₀.freq sym) } where
  same := by rw [h.same]
  queue := offered_queueInv h.queue hq
  natural := (offered_some hq).2.1.trans h.natural
  forest := h.forest.newLeaf hc hsym _
  entries := by rw [offered_live h.queue.1 hq, Multiset.map_cons, h.entries, treeEntry_leaf _ hsym hc]
  symbols := by
    rw [Multiset.cons_bind, h.symbols, List.map_append, ← Multiset.coe_add, add_comm]
    rfl
  weighed := weighed_withLeaf h.weighed hc hsym

/-- The next symbol with a count gets its leaf and its entry. -/
theorem Planting.leaf {s₀ s : State} {q : Queue} {syms : List Nat} {F : Multiset (NodeIdx × HTree)} {sym : Nat}
    (h : Planting s₀ q syms F s) (hne : freqAt s₀.freq sym ≠ 0#32) (hfew : syms.length < 256) (hsym : sym < 256)
    (hnew : sym ∉ syms) :
    ∃ G t, offerLeaf sym s = .ok () t ∧ Planting s₀ q (syms ++ [sym]) G t := by
  have hg := h.growing
  have hsize := h.size
  have hcount : s.code.count.toNat = syms.length := by have := hg.count; omega
  have hc : s.code.count.toNat < Config.nodeCap := by
    have : Config.nodeCap = 511 := rfl
    omega
  have hfreq : s.freq = s₀.freq := by rw [hg.same]
  obtain ⟨r, hr⟩ := exists_offered (q := s.pq)
    { key := freqAt s₀.freq sym, tag := BitVec.ofNat 32 s.code.count.toNat } (by omega)
  have hqueue : ∀ j, j ≤ syms.length →
      leafQueue s₀.freq q (syms ++ [sym]) j = leafQueue s₀.freq q syms j := leafQueue_append _ _ _ _
  have hprev : s.pq = leafQueue s₀.freq q (syms ++ [sym]) s.code.count.toNat := by
    rw [hcount, hqueue _ le_rfl, ← h.queue]
  have hlast : r = leafQueue s₀.freq q (syms ++ [sym]) (s.code.count.toNat + 1) := by
    have hget : (syms ++ [sym]).getD s.code.count.toNat 0 = sym := by simp [hcount]
    rw [leafQueue, ← hprev, hget, hr, Option.getD_some]
  have hrec := leafRecorded_withLeaf (leaves := leafQueue s₀.freq q (syms ++ [sym])) hc hsym
    (hprev ▸ hlast ▸ hr)
  refine ⟨_, { s with pq := r, code := withLeaf s.code sym (freqAt s₀.freq sym) },
    (offerLeaf_run (hfreq ▸ hne) hc (hfreq ▸ hr)).trans (by rw [hfreq]), hg.leaf hc hsym hr, ?_, ?_, fun j x hx => ?_, ?_⟩
  · rw [Multiset.map_cons, h.trees, List.map_append, ← Multiset.coe_add, Multiset.map_add, add_comm]
    rfl
  · rw [List.length_append, List.length_singleton, ← hcount]
    exact hlast
  · rcases Nat.lt_or_ge j syms.length with hj | hj
    · rw [List.getElem?_append_left hj] at hx
      have hne' : sym ≠ x := fun e => hnew (e ▸ List.mem_of_getElem? hx)
      have hold := h.recorded j x hx
      obtain ⟨hq, hrest⟩ := hold.mono (nodesKept_withLeaf (sym := sym) (freqAt s₀.freq sym) hc)
        ((leafAt_setLeaf _ _ _ _ hold.sym_lt).trans (if_neg hne'))
      refine ⟨?_, hrest⟩
      rw [hqueue j hj.le, hqueue (j + 1) hj]
      exact hq
    · have hjlt := (List.getElem?_eq_some_iff.mp hx).1
      obtain rfl : j = syms.length := by simp at hjlt; omega
      obtain rfl : sym = x := by simpa using hx
      exact hcount ▸ hrec
  · have hcap := h.cap
    rw [← hsize] at hcap
    rw [List.length_append, List.length_singleton, ← hsize, ← offered_size hg.queue.1 hr]
    exact hcap.offered hg.queue.1 hr

/-- The first loop gives every listed symbol with a count its leaf and its entry (R111). -/
theorem offerLeaves_run {s₀ : State} {q : Queue} (l : List Nat) : ∀ {syms : List Nat} {F : Multiset (NodeIdx × HTree)}
    {s : State}, Planting s₀ q syms F s → (syms ++ l).Nodup → (syms ++ l).length ≤ 256 → (∀ sym ∈ l, sym < 256) →
    ∃ G t, offerLeaves l s = .ok () t ∧
      Planting s₀ q (syms ++ l.filter fun sym => decide (freqAt s₀.freq sym ≠ 0#32)) G t := by
  induction l with
  | nil => exact fun {syms F s} h _ _ _ => ⟨F, s, rfl, by simpa using h⟩
  | cons sym rest ih =>
    intro syms F s h hnodup hlen hl
    have hfreq : s.freq = s₀.freq := by rw [h.growing.same]
    by_cases hne : freqAt s₀.freq sym ≠ 0#32
    · rw [List.append_cons] at hnodup hlen
      have hnew : sym ∉ syms := fun hm => by
        have := (List.nodup_append.mp (List.nodup_append.mp hnodup).1).2.2 sym hm sym (by simp)
        exact this rfl
      obtain ⟨G, t, hrun, ht⟩ := h.leaf hne (by simp at hlen; omega) (hl sym (by simp)) hnew
      obtain ⟨G', t', hrun', ht'⟩ := ih ht hnodup hlen fun x hx => hl x (by simp [hx])
      refine ⟨G', t', (bind_of_ok hrun).trans hrun', ?_⟩
      rwa [List.filter_cons_of_pos (by simpa using hne), List.append_cons]
    · have hskip : offerLeaf sym s = .ok () s := by
        rw [offerLeaf, op_bind, op_get]
        dsimp only
        rw [hfreq, if_pos (not_not.mp hne)]
        rfl
      obtain ⟨G, t, hrun, ht⟩ := ih h (hnodup.sublist (by simp)) (by simp at hlen ⊢; omega)
        fun x hx => hl x (by simp [hx])
      refine ⟨G, t, (bind_of_ok hskip).trans hrun, ?_⟩
      rwa [List.filter_cons_of_neg (by simpa using hne)]

end Sys2Proof.Proofs

/-! PROOFS. HUF_BUILD (44_huffman_tree.md R116): its checks, and what Build leaves on the tables that pass them. -/

namespace Sys2Proof.Proofs

open Sys2Proof Sys2Proof.Machine Sys2Proof.Safety Sys2Proof.Laws

/-! ### The symbols of a table -/

theorem mem_tableSymbols {f : FreqTable} {sym : Nat} : sym ∈ tableSymbols f ↔ sym < 256 ∧ freqAt f sym ≠ 0#32 := by
  simp [tableSymbols]

theorem tableSymbols_nodup (f : FreqTable) : (tableSymbols f).Nodup := List.nodup_range.filter _

theorem tableSymbols_length_le (f : FreqTable) : (tableSymbols f).length ≤ 256 :=
  (List.length_filter_le _ _).trans_eq List.length_range

/-- The place of a symbol among those of the table is the number of lesser ones. -/
theorem tableSymbols_getElem? {f : FreqTable} {sym : Nat} (hs : sym < 256) (hne : freqAt f sym ≠ 0#32) :
    (tableSymbols f)[((List.range sym).filter fun x => decide (freqAt f x ≠ 0#32)).length]? = some sym := by
  obtain ⟨n, hn⟩ : ∃ n, 256 = sym + (n + 1) := ⟨255 - sym, by omega⟩
  have hrange : List.range 256 = List.range sym ++ sym :: (List.range n).map fun x => sym + (x + 1) := by
    rw [hn, List.range_add, List.range_succ_eq_map, List.map_cons, List.map_map]
    rfl
  rw [tableSymbols, hrange, List.filter_append, List.filter_cons_of_pos (by simpa using hne),
    List.getElem?_append_right le_rfl, Nat.sub_self]
  rfl

/-- The symbols with a count weigh all (R116). -/
theorem sum_tableSymbols (f : FreqTable) :
    ((tableSymbols f).map fun sym => weightOf f (BitVec.ofNat 8 sym)).sum = totalFreq f := by
  have hall : ∀ l : List Nat, (∀ sym ∈ l, sym < 256) →
      ((l.filter fun sym => decide (freqAt f sym ≠ 0#32)).map fun sym => weightOf f (BitVec.ofNat 8 sym)).sum =
        (l.map fun sym => (freqAt f sym).toNat).sum := fun l hl => by
    induction l with
    | nil => rfl
    | cons sym rest ih =>
      have hrest := ih fun x hx => hl x (by simp [hx])
      by_cases h0 : freqAt f sym = 0#32
      · rw [List.filter_cons_of_neg (by simpa using h0), hrest, List.map_cons, List.sum_cons, h0]
        simp
      · rw [List.filter_cons_of_pos (by simpa using h0), List.map_cons, List.sum_cons, hrest, List.map_cons,
          List.sum_cons, weightOf_ofNat f (hl sym (by simp))]
  exact hall _ fun sym hs => List.mem_range.mp hs

/-- The sum HUF_BUILD checks is that of all counters (R116). -/
theorem freqTotal_eq (f : FreqTable) : freqTotal f = totalFreq f := by
  refine congrArg List.sum (List.ext_getElem (by simp) fun n h₁ h₂ => ?_)
  have hn : n < 256 := by simpa using h₁
  simp [freqAt, fileGet_eq _ _ hn]

theorem totalFreq_ne_zero_iff (f : FreqTable) : totalFreq f ≠ 0 ↔ ∃ sym, sym < 256 ∧ freqAt f sym ≠ 0#32 := by
  rw [← freqTotal_eq]
  refine ⟨exists_freqAt_ne_zero, fun ⟨sym, hs, hne⟩ h0 => hne (BitVec.eq_of_toNat_eq ?_)⟩
  rw [freqTotal_eq] at h0
  exact List.sum_eq_zero_iff.mp h0 _ (List.mem_map_of_mem (List.mem_range.mpr hs))

theorem buildable_table {f : FreqTable} (h : totalFreq f ≤ 2 ^ 31 - 1) : Buildable f (tableSymbols f) :=
  ⟨tableSymbols_length_le f, by rw [sum_tableSymbols]; omega⟩

/-! ### What Build leaves -/

/-- The queue after `j` leaves of HUF_BUILD in the state `s` (R111). -/
def buildLeaves (s : State) : Nat → Queue :=
  leafQueue s.freq { s.pq with size := 0#10, cap := 1#10, external := false } (tableSymbols s.freq)

/-- The queue before the m-th merge of HUF_BUILD in the state `s` (R111). -/
def buildMerges (s : State) : Nat → Queue :=
  mergeQueue (tableSymbols s.freq).length (buildLeaves s (tableSymbols s.freq).length)

/-- Build has gone from `s` to `t`, which holds the tree `T` (R111, R112). -/
structure Built (s t : State) (T : HTree) : Prop where
  same     : t = { s with pq := t.pq, code := t.code }
  holds    : HoldsTree t.code T
  symbols  : T.symbols.Perm ((tableSymbols s.freq).map (BitVec.ofNat 8))
  weighed  : Weighed s.freq t.code
  optimal  : Optimal (weightOf s.freq)
    ((tableSymbols s.freq).map fun sym => weightOf s.freq (BitVec.ofNat 8 sym) : List Nat) {T}
  leaves   : ∀ j sym, (tableSymbols s.freq)[j]? = some sym → LeafRecorded s.freq (buildLeaves s) t.code j sym
  merges   : ∀ m, m + 1 < (tableSymbols s.freq).length →
    MergeRecorded (tableSymbols s.freq).length (buildMerges s) t.code m
  queue    : t.pq = polled (buildMerges s ((tableSymbols s.freq).length - 1))
  root     : t.code.root.toNat = (heapAt (buildMerges s ((tableSymbols s.freq).length - 1)) 1).tag.toNat
  empty    : t.pq.size = 0#10
  natural  : t.pq.external = false
  cap      : LeastCap (tableSymbols s.freq).length t.pq.cap.toNat

/-- The second loop starts where the first has ended. -/
theorem Planting.merging {s₀ s : State} {q : Queue} {syms : List Nat} {F : Multiset (NodeIdx × HTree)}
    (h : Planting s₀ q syms F s) : Merging s₀ s syms 0 F s where
  growing := h.growing
  size := h.size
  nodes := .refl _
  leafMap := rfl
  cap := rfl
  queue := rfl
  recorded i hi := by omega
  optimal := by
    have := optimal_leaves (w := weightOf s₀.freq) ((syms.map (BitVec.ofNat 8) : List Byte) : Multiset Byte)
    rw [← h.trees, Multiset.map_coe, List.map_map] at this
    exact this

/-- Only LEAF_MAP says what a symbol's leaf is. -/
theorem leafAt_congr {c d : Code} (h : c.leafMap = d.leafMap) (sym : Nat) : leafAt c sym = leafAt d sym := by
  rw [leafAt, leafAt, h]

/-- The last entry polled is that of the one tree. -/
theorem Growing.exists_root {s₀ s : State} {syms : List Nat} {F : Multiset (NodeIdx × HTree)} (h : Growing s₀ syms F s)
    (h1 : s.pq.size.toNat = 1) : ∃ r T, F = {(r, T)} ∧ heapAt s.pq 1 = treeEntry s₀.freq (r, T) := by
  obtain ⟨⟨r, T⟩, rfl⟩ := Multiset.card_eq_one.mp (h.card.trans h1)
  have hent := h.entries
  rw [← live_polled (q := s.pq) (by omega), Multiset.map_singleton] at hent
  exact ⟨r, T, rfl, ((Multiset.singleton_eq_cons_iff _).mp hent.symm).1.symm⟩

/-- Build, on a table with a count and a legal sum, makes its tree and raises nothing (R111, R116). -/
theorem build_run {s : State} (hne : ∃ sym, sym < 256 ∧ freqAt s.freq sym ≠ 0#32) (hsum : totalFreq s.freq ≤ 2 ^ 31 - 1) :
    ∃ t T, build s = .ok () t ∧ Built s t T := by
  have hpos : 1 ≤ (tableSymbols s.freq).length := by
    obtain ⟨sym, hsym⟩ := hne
    exact List.length_pos_of_mem (mem_tableSymbols.mpr hsym)
  obtain ⟨F, u, hleaves, hu⟩ := offerLeaves_run (List.range 256) (planting_start s)
    ((List.nil_append _).symm ▸ List.nodup_range) (by simp) (by simp)
  change Planting s _ (tableSymbols s.freq) F u at hu
  obtain ⟨G, v, hmerges, hv, h1⟩ := mergeAll_run (buildable_table hsum) _ hu.merging (hu.size ▸ hpos) le_rfl
  obtain ⟨r, T, rfl, htop⟩ := hv.growing.exists_root h1
  have hmerged : v.pq = buildMerges s ((tableSymbols s.freq).length - 1) := hv.queue.trans (by rw [hu.queue]; rfl)
  have hroot : rootOf (heapAt v.pq 1) = r := by rw [htop]; exact rootOf_setWidth _ _
  refine ⟨{ v with pq := polled v.pq, code := { v.code with root := rootOf (heapAt v.pq 1), valid := true } }, T, ?_, ?_⟩
  · refine (bind_of_ok (op_modify _ s)).trans ?_
    refine (bind_of_ok hleaves).trans ?_
    refine (bind_of_ok (op_get u)).trans ?_
    refine (bind_of_ok hmerges).trans ?_
    exact bind_of_ok (pollMin_run v)
  · rw [hroot]
    have hg := hv.growing
    refine ⟨?_, hg.forest.holdsTree, ?_, hg.weighed, hv.optimal, fun j sym hj => ?_, fun m hm => ?_, ?_, ?_, ?_, ?_, ?_⟩
    · rw [hg.same]
    · exact Multiset.coe_eq_coe.mp (by simpa using hg.symbols)
    · exact (hu.recorded j sym hj).mono hv.nodes (leafAt_congr hv.leafMap sym)
    · have := hv.recorded m (by omega)
      rwa [hu.queue] at this
    · exact congrArg polled hmerged
    · rw [← hmerged, htop, treeEntry_tag_toNat]
    · refine BitVec.eq_of_toNat_eq ?_
      dsimp only
      rw [polled_size, size_pred (by omega), h1]
      rfl
    · exact (polled_external _).trans hg.natural
    · dsimp only
      rw [polled_cap, hv.cap]
      exact hu.cap

/-! ### HUF_BUILD -/

/-- HUF_BUILD's checks in order (R116). -/
theorem bodyOf_hufBuild (s : State) :
    bodyOf .hufBuild s =
      (require (s.freq.valid = true) .nullArgument >>= fun _ =>
        require (freqTotal s.freq ≠ 0) .invalidArgument >>= fun _ =>
          require (freqTotal s.freq ≤ 2 ^ 31 - 1) .invalidArgument >>= fun _ => build) s := rfl

theorem exec_hufBuild_absent {s : State} (hv : s.freq.valid = false) :
    exec .hufBuild s = .next (takeError .nullArgument s) :=
  exec_of_bodyOf_raise ((bodyOf_hufBuild s).trans (require_bind_neg (by simp [hv]) _ s))

theorem exec_hufBuild_invalid {s : State} (hv : s.freq.valid = true)
    (hbad : totalFreq s.freq = 0 ∨ 2 ^ 31 - 1 < totalFreq s.freq) :
    exec .hufBuild s = .next (takeError .invalidArgument s) := by
  refine exec_of_bodyOf_raise ((bodyOf_hufBuild s).trans ?_)
  rw [require_bind_pos hv, freqTotal_eq]
  rcases hbad with h0 | hbig
  · rw [require_bind_neg (not_not_intro h0)]
  · rw [require_bind_pos (by omega), require_bind_neg (by omega)]

theorem exec_hufBuild_built {s : State} (hv : s.freq.valid = true) (hne : ∃ sym, sym < 256 ∧ freqAt s.freq sym ≠ 0#32)
    (hsum : totalFreq s.freq ≤ 2 ^ 31 - 1) : ∃ t T, exec .hufBuild s = .next (complete t) ∧ Built s t T := by
  obtain ⟨t, T, hrun, ht⟩ := build_run hne hsum
  refine ⟨t, T, exec_of_bodyOf_ok ((bodyOf_hufBuild s).trans ?_), ht⟩
  rw [require_bind_pos hv, freqTotal_eq, require_bind_pos ((totalFreq_ne_zero_iff _).mpr hne), require_bind_pos hsum, hrun]

section
variable {s t : State} {T : HTree} (h : Built s t T)
include h

theorem Built.mem_symbols (sym : Byte) : sym ∈ T.symbols ↔ freqAt s.freq sym.toNat ≠ 0#32 := by
  rw [h.symbols.mem_iff, List.mem_map]
  constructor
  · rintro ⟨x, hx, rfl⟩
    obtain ⟨hlt, hne⟩ := mem_tableSymbols.mp hx
    rwa [BitVec.toNat_ofNat, Nat.mod_eq_of_lt hlt]
  · exact fun hne => ⟨sym.toNat, mem_tableSymbols.mpr ⟨sym.isLt, hne⟩, by simp⟩

theorem Built.nodup : T.symbols.Nodup := by
  refine h.symbols.nodup_iff.mpr (List.Nodup.map_on (fun x hx y hy hxy => ?_) (tableSymbols_nodup _))
  have := congrArg BitVec.toNat hxy
  rwa [BitVec.toNat_ofNat, BitVec.toNat_ofNat, Nat.mod_eq_of_lt (mem_tableSymbols.mp hx).1,
    Nat.mod_eq_of_lt (mem_tableSymbols.mp hy).1] at this

theorem Built.length : T.symbols.length = (tableSymbols s.freq).length := by
  simpa using h.symbols.length_eq

theorem Built.count : t.code.count.toNat + 1 = 2 * T.symbols.length := by
  obtain ⟨-, -, hsize, -⟩ := h.holds
  rw [← hsize, HTree.size_add_one]

theorem Built.leafAt_toNat {sym : Byte} (hs : sym ∈ T.symbols) :
    (leafAt t.code sym.toNat).toNat =
      ((List.range sym.toNat).filter fun x => decide (freqAt s.freq x ≠ 0#32)).length := by
  obtain ⟨-, hleaf, -⟩ := h.leaves _ _ (tableSymbols_getElem? sym.isLt ((h.mem_symbols sym).mp hs))
  exact hleaf

theorem Built.leafAt_uncounted {sym : Nat} (hs : sym < 256) (h0 : freqAt s.freq sym = 0#32) :
    leafAt t.code sym = Config.noNode := by
  obtain ⟨-, -, -, -, hmaps⟩ := h.holds
  by_contra hne
  have hmem := (hmaps (BitVec.ofNat 8 sym)).1
  rw [h.mem_symbols, BitVec.toNat_ofNat, Nat.mod_eq_of_lt hs] at hmem
  exact hmem.mp hne h0

theorem Built.root_node : ∃ nd, nodeOf t.code t.code.root.toNat = some nd ∧ nd.parent = Config.noNode ∧
    nd.freq.toNat = totalFreq s.freq := by
  obtain ⟨-, hT, -⟩ := h.holds
  obtain ⟨nd, hnd, hp⟩ := hT.root
  refine ⟨nd, hnd, hp, (freq_toNat_of_holds h.weighed hT hnd).trans ?_⟩
  rw [HTree.weight, (h.symbols.map _).sum_eq, List.map_map, ← sum_tableSymbols]
  rfl

end

/-- Settles O39: the three refusals, and the tree that the merges have made of the table's leaves. -/
theorem buildMakesTree : Obligations.BuildMakesTree := by
  unfold Obligations.BuildMakesTree
  refine ⟨rfl, fun s => ⟨exec_hufBuild_absent, fun hv h0 => exec_hufBuild_invalid hv (.inl ?_),
    fun hv hbig => exec_hufBuild_invalid hv (.inr hbig), fun hv hne hsum => ?_⟩⟩
  · by_contra hne
    obtain ⟨sym, hs, hsym⟩ := (totalFreq_ne_zero_iff s.freq).mp hne
    exact hsym (h0 sym hs)
  · obtain ⟨t, T, hrun, h⟩ := exec_hufBuild_built hv hne hsum
    obtain ⟨nd, hnd, -, hroot⟩ := h.root_node
    exact ⟨t, T, hrun, h.same, h.holds, h.nodup, h.mem_symbols, h.count, fun sym => h.leafAt_toNat,
      fun n nd hn => (h.weighed n nd hn).1, fun n nd hn => (h.weighed n nd hn).2, ⟨nd, hnd, hroot⟩, h.empty, h.natural,
      h.length ▸ h.cap⟩

/-- Settles O40: the tree that is held is the one Build has made, and each merge has kept the forest optimal. -/
theorem buildIsOptimal : Obligations.BuildIsOptimal := by
  unfold Obligations.BuildIsOptimal
  intro s t T U hv hne hsum hexec hT hU
  obtain ⟨t', T', hrun, h⟩ := exec_hufBuild_built hv hne hsum
  cases hexec.symm.trans hrun
  obtain ⟨-, hheld, -⟩ := hT
  obtain ⟨-, hheld', -⟩ := h.holds
  obtain rfl := tree_unique_of_holds hheld hheld'
  refine h.optimal.cost_le (Multiset.coe_eq_coe.mpr ?_)
  have := (hU.trans h.symbols).map (weightOf s.freq)
  rwa [List.map_map] at this

/-- Settles O60: every leaf and every merge has left its record. -/
theorem buildMergesInOrder : Obligations.BuildMergesInOrder := by
  unfold Obligations.BuildMergesInOrder
  intro s hv hne hsum
  obtain ⟨t, T, hrun, h⟩ := exec_hufBuild_built hv hne hsum
  obtain ⟨hvalid, -⟩ := h.holds
  obtain ⟨nd, hnd, hp, -⟩ := h.root_node
  exact ⟨t, buildLeaves s, buildMerges s, _, rfl, hrun, h.same, rfl, h.leaves, fun sym => h.leafAt_uncounted, rfl,
    h.merges, h.queue, h.empty, h.length ▸ h.count, hvalid, h.root, nd, hnd, hp⟩

end Sys2Proof.Proofs

/-! PROOFS. Headers as bit sequences (45_huffman_code.md R119, R120): how long they are, that none begins another, and what
the stack of a half-read header says about the tree that the header is of. -/

namespace Sys2Proof.Safety

open Sys2Proof Sys2Proof.Machine Sys2Proof.Laws Sys2Proof.Proofs

theorem HTree.symbols_length_pos (T : HTree) : 0 < T.symbols.length := by
  induction T with
  | leaf sym => exact Nat.one_pos
  | node l r ihl _ => rw [symbols, List.length_append]; omega

theorem HTree.size_pos (T : HTree) : 0 < T.size := by cases T <;> simp [size]

/-- A leaf token has 9 bits, a parent token one, and there is one parent less than there are leaves (R119). -/
theorem HTree.header_length (T : HTree) : T.header.length + 1 = 10 * T.symbols.length := by
  induction T with
  | leaf sym => simp [header, symbols]
  | node l r ihl ihr => simp only [header, symbols, List.length_cons, List.length_append]; omega

theorem HTree.nine_le_header_length (T : HTree) : 9 ≤ T.header.length := by
  have := T.header_length
  have := T.symbols_length_pos
  omega

theorem HTree.header_leaf_ofNat {sym : Nat} (h : sym < 256) :
    (leaf (BitVec.ofNat 8 sym)).header = false :: bitsMSB 8 sym := by
  rw [header, BitVec.toNat_ofNat, Nat.mod_eq_of_lt h]

theorem HTree.header_node_append (l r : HTree) (rest : List Bool) :
    (node l r).header ++ rest = true :: (l.header ++ (r.header ++ rest)) := by
  rw [header, List.cons_append, List.append_assoc]

/-- A header ends where it says itself, so two headers at the front of the same bits are one (R119). -/
theorem HTree.header_append_inj {T U : HTree} {as bs : List Bool} (h : T.header ++ as = U.header ++ bs) :
    T = U ∧ as = bs := by
  induction T generalizing U as bs with
  | leaf sym =>
    cases U with
    | leaf sym' =>
      obtain ⟨hsym, hrest⟩ := List.append_inj (List.cons.inj h).2 (by simp)
      exact ⟨congrArg _ (BitVec.eq_of_toNat_eq (eq_of_bitsMSB_eq sym.isLt sym'.isLt hsym)), hrest⟩
    | node l r => simp [header] at h
  | node l r ihl ihr =>
    cases U with
    | leaf sym => simp [header] at h
    | node l' r' =>
      rw [header_node_append, header_node_append] at h
      obtain ⟨rfl, hr⟩ := ihl (List.cons.inj h).2
      obtain ⟨rfl, hrest⟩ := ihr hr
      exact ⟨rfl, hrest⟩

@[simp] theorem Consumed.dstack {s t : State} {bs : List Bool} (h : Consumed s t bs) : t.dstack = s.dstack := by
  rw [h.shape]

end Sys2Proof.Safety

namespace Sys2Proof.Proofs

open Sys2Proof Sys2Proof.Machine Sys2Proof.Safety Sys2Proof.Laws

/-! ### The stack of a half-read header -/

/-- An entry of DSTACK with what it stands for (10_state.md R38): a parent marker, or the root of a subtree that has been
read and the subtree. Lists of them are the stack from the top down. -/
abbrev Slot := Option (NodeIdx × HTree)

/-- What DSTACK holds for a slot. -/
def slotEntry : Slot → StackEntry
  | none => .ph
  | some x => .node x.1

/-- The subtrees on the stack, with their roots. -/
def slotTrees : List Slot → Multiset (NodeIdx × HTree)
  | [] => 0
  | none :: es => slotTrees es
  | some x :: es => x ::ₘ slotTrees es

/-- The number of their nodes. -/
def slotSize (es : List Slot) : Nat := ((slotTrees es).map fun x => x.2.size).sum

/-- The bits whose reading has made the stack (R120). -/
def slotBits : List Slot → List Bool
  | [] => []
  | none :: es => slotBits es ++ [true]
  | some x :: es => slotBits es ++ x.2.header

@[simp] theorem slotSize_nil : slotSize [] = 0 := rfl

@[simp] theorem slotSize_parent (es : List Slot) : slotSize (none :: es) = slotSize es := rfl

@[simp] theorem slotSize_tree (x : NodeIdx × HTree) (es : List Slot) :
    slotSize (some x :: es) = x.2.size + slotSize es := by
  simp [slotSize, slotTrees]

/-- The stack between two turns of Deser: every parent marker waits for its left subtree, or holds it and waits for the
right one. -/
inductive OpenParents : List Slot → Prop
  | nil : OpenParents []
  | parent {es : List Slot} (h : OpenParents es) : OpenParents (none :: es)
  | left {es : List Slot} (x : NodeIdx × HTree) (h : OpenParents es) : OpenParents (some x :: none :: es)

/-- Where the bits of an open stack begin the header of a tree, the bits that follow begin that of a subtree, which has its
place in the tree beside what is on the stack. -/
theorem OpenParents.next_header {es : List Slot} (ho : OpenParents es) {T : HTree} {bs rest : List Bool}
    (h : slotBits es ++ bs = T.header ++ rest) :
    ∃ (X : HTree) (rest' : List Bool), bs = X.header ++ rest' ∧ es.length + X.size ≤ T.size ∧
      slotSize es + X.size ≤ T.size := by
  induction ho generalizing bs with
  | nil => exact ⟨T, rest, h, by simp, by simp⟩
  | parent _ ih =>
    rw [slotBits, List.append_assoc] at h
    obtain ⟨X, rest', hX, hlen, hsize⟩ := ih h
    cases X with
    | leaf sym => simp [HTree.header] at hX
    | node a b =>
      rw [HTree.header_node_append] at hX
      simp only [HTree.size, List.length_cons, slotSize_parent] at hlen hsize ⊢
      exact ⟨a, _, (List.cons.inj hX).2, by omega, by omega⟩
  | left x _ ih =>
    rw [slotBits, slotBits, List.append_assoc, List.append_assoc] at h
    obtain ⟨X, rest', hX, hlen, hsize⟩ := ih h
    cases X with
    | leaf sym => simp [HTree.header] at hX
    | node a b =>
      rw [HTree.header_node_append] at hX
      obtain ⟨hx, hb⟩ := HTree.header_append_inj (List.cons.inj hX).2
      have := a.size_pos
      simp only [HTree.size, List.length_cons, slotSize_parent, slotSize_tree, hx] at hlen hsize ⊢
      exact ⟨b, rest', hb, by omega, by omega⟩

/-! ### DSTACK as a list -/

/-- The lowest `n` entries of DSTACK, from the top down. -/
def stackBelow (d : DStack) : Nat → List StackEntry
  | 0 => []
  | n + 1 => stackAt d n :: stackBelow d n

/-- The entries of DSTACK, from the top down (10_state.md R38). -/
def stackList (d : DStack) : List StackEntry := stackBelow d d.dsp.toNat

theorem stackBelow_congr {d e : DStack} {n : Nat} (h : ∀ k, k < n → stackAt d k = stackAt e k) :
    stackBelow d n = stackBelow e n := by
  induction n with
  | zero => rfl
  | succ n ih => rw [stackBelow, stackBelow, h n (by omega), ih fun k hk => h k (by omega)]

@[simp] theorem stackBelow_length (d : DStack) (n : Nat) : (stackBelow d n).length = n := by
  induction n with
  | zero => rfl
  | succ n ih => rw [stackBelow, List.length_cons, ih]

theorem stackList_pushed (d : DStack) (e : StackEntry) (h : d.dsp.toNat < Config.dstackCap) :
    stackList (pushed d e) = e :: stackList d := by
  rw [stackList, pushed_dsp d e h, stackBelow, stackAt_pushed_top d e h, stackList]
  exact congrArg _ (stackBelow_congr fun k hk => by rw [stackAt_pushed d e k h, if_neg (by omega)])

/-- The two nodes of the pattern that a collapse looks for at the top of the stack (R120). -/
def siblings : List StackEntry → Option (NodeIdx × NodeIdx)
  | .node r :: .node l :: .ph :: _ => some (l, r)
  | _ => none

theorem collapsible_eq (d : DStack) : collapsible d = siblings (stackList d) := by
  unfold collapsible stackList
  rcases d.dsp.toNat with _ | _ | _ | n
  · rfl
  · simp [stackBelow, siblings]
  · simp [stackBelow, siblings]
  · have h2 : n + 3 - 2 = n + 1 := by omega
    simp only [Nat.le_add_left, if_true, Nat.add_sub_cancel, h2]
    cases h0 : stackAt d n <;> cases h1 : stackAt d (n + 1) <;> cases h2 : stackAt d (n + 2) <;>
      simp [stackBelow, siblings, h0, h1, h2]

/-- The node that is alone on the stack, where one is (R120). -/
def onlyNode : List StackEntry → Option NodeIdx
  | [.node t] => some t
  | _ => none

theorem soleNode_eq (d : DStack) : soleNode d = onlyNode (stackList d) := by
  have hdsp : d.dsp = 1#9 ↔ d.dsp.toNat = 1 := by rw [← BitVec.toNat_inj]; rfl
  unfold soleNode stackList
  simp only [hdsp]
  rcases d.dsp.toNat with _ | _ | n
  · rfl
  · cases h0 : stackAt d 0 <;> simp [stackBelow, onlyNode, h0]
  · simp [stackBelow, onlyNode]

/-- A collapse takes the pattern off the stack (R120). -/
theorem stackList_popped {d : DStack} {a b c : StackEntry} {es : List StackEntry} (h : stackList d = a :: b :: c :: es) :
    stackList { d with dsp := d.dsp - 3#9 } = es ∧ (d.dsp - 3#9).toNat < Config.dstackCap := by
  obtain ⟨n, hn⟩ : ∃ n, d.dsp.toNat = n + 3 := ⟨es.length, by simpa [stackList] using congrArg List.length h⟩
  have hlt := d.dsp.isLt
  have hsub : (d.dsp - 3#9).toNat = n := by rw [BitVec.toNat_sub]; simp; omega
  have hcap : Config.dstackCap = 511 := rfl
  rw [stackList, hn] at h
  simp only [stackBelow, List.cons.injEq] at h
  obtain ⟨-, -, -, hes⟩ := h
  refine ⟨?_, by omega⟩
  rw [stackList, hsub, ← hes]
  exact stackBelow_congr fun _ _ => rfl

end Sys2Proof.Proofs

/-! PROOFS. Deser (45_huffman_code.md R120) on any bits: it holds the tree of the header it has read, or fails on bits that
begin with no header of a tree the arena can hold. -/

namespace Sys2Proof.Proofs

open Sys2Proof Sys2Proof.Machine Sys2Proof.Safety Sys2Proof.Laws

/-! ### The arena and DSTACK while a header is read -/

/-- Every allocated node has FREQ 0: the header carries no frequencies (R120). -/
def Unweighed (c : Code) : Prop := ∀ n nd, nodeOf c n = some nd → nd.freq = 0#32

/-- A new node with FREQ 0 leaves every node so. -/
theorem Unweighed.grow {c d : Code} {nd : Node} (h : Unweighed c) (hcd : NodesKept c d) (hc : c.count.toNat < Config.nodeCap)
    (hcount : d.count.toNat = c.count.toNat + 1) (hnew : nodeOf d c.count.toNat = some nd) (hnd : nd.freq = 0#32) :
    Unweighed d := fun n md hn => by
  rcases Nat.lt_or_ge n c.count.toNat with hlt | hge
  · obtain ⟨od, hod⟩ := nodeOf_some hc.le hlt
    obtain ⟨md', hmd', hs⟩ := hcd n od hod
    cases hn.symm.trans hmd'
    exact hs.freq.trans (h n od hod)
  · obtain rfl : n = c.count.toNat := by have := (nodeOf_lt hn).2; omega
    cases hn.symm.trans hnew
    exact hnd

/-- The arena holds the subtrees of the slots `es` and nothing else, DSTACK lists their roots and the open parents, and no
code is held (R120). -/
structure Stacked (c : Code) (d : DStack) (es : List Slot) : Prop where
  forest    : Forest c (slotTrees es)
  stack     : stackList d = es.map slotEntry
  invalid   : c.valid = false
  noRoot    : c.root = Config.noNode
  unweighed : Unweighed c

theorem stacked_start (c : Code) (d : DStack) : Stacked (noCode c) { d with dsp := 0#9 } [] :=
  ⟨forest_noCode c, rfl, rfl, rfl, fun n nd h => by simp at h⟩

section
variable {c : Code} {d : DStack} {es : List Slot} (h : Stacked c d es)
include h

theorem Stacked.length : es.length = d.dsp.toNat := by
  simpa [stackList] using (congrArg List.length h.stack).symm

theorem Stacked.size : slotSize es = c.count.toNat := h.forest.total

theorem Stacked.parent (hd : d.dsp.toNat < Config.dstackCap) : Stacked c (pushed d .ph) (none :: es) :=
  { h with stack := by rw [stackList_pushed d _ hd, h.stack]; rfl }

/-- The new leaf goes to the top of the stack. -/
theorem Stacked.leaf (hd : d.dsp.toNat < Config.dstackCap) (hc : c.count.toNat < Config.nodeCap) {sym : Nat}
    (hsym : sym < 256) :
    Stacked (withLeaf c sym 0#32) (pushed d (.node (c.count.setWidth 9)))
      (some (c.count.setWidth 9, .leaf (BitVec.ofNat 8 sym)) :: es) where
  forest := h.forest.newLeaf hc hsym 0#32
  stack := by rw [stackList_pushed d _ hd, h.stack]; rfl
  invalid := h.invalid
  noRoot := h.noRoot
  unweighed := by
    refine h.unweighed.grow (nd := freshNode true (BitVec.ofNat 8 sym) 0#32 Config.noNode Config.noNode)
      (nodesKept_withLeaf _ hc) hc (withLeaf_count _ hc) ?_ rfl
    rw [withLeaf, nodeOf_setLeaf, nodeOf_allocated c _ _ hc, if_pos rfl]

end

/-- A collapse puts the two subtrees under the open parent (R120). -/
theorem Stacked.collapsed {c : Code} {d : DStack} {es : List Slot} {l r : NodeIdx} {L R : HTree} {ld rd : Node}
    (h : Stacked c d (some (r, R) :: some (l, L) :: none :: es)) (hj : Joinable c 0#32 l r ld rd) :
    Stacked (joined c 0#32 l r ld rd) (pushed { d with dsp := d.dsp - 3#9 } (.node (c.count.setWidth 9)))
      (some (c.count.setWidth 9, .node L R) :: es) := by
  obtain ⟨hpop, hlow⟩ := stackList_popped h.stack
  refine ⟨?_, ?_, h.invalid, h.noRoot, h.unweighed.grow hj.nodesKept hj.room hj.count hj.newNode rfl⟩
  · exact (show Forest c ((l, L) ::ₘ (r, R) ::ₘ slotTrees es) from Multiset.cons_swap .. ▸ h.forest).join hj
  · rw [stackList_pushed _ _ hlow, hpop]
    rfl

/-! ### The bits read so far -/

/-- From `s` to `t` exactly the bits `bs` have been consumed, and nothing but the input unit, the code and DSTACK has
changed. -/
def ReadTo (s t : State) (bs : List Bool) : Prop := Consumed s { t with code := s.code, dstack := s.dstack } bs

theorem ReadTo.trans {s t u : State} {as bs : List Bool} (hs : InputOk s) (h : ReadTo s t as) (k : Consumed t u bs) :
    ReadTo s u (as ++ bs) :=
  Consumed.trans hs h
    ⟨congrArg (fun v : State => { v with code := s.code, dstack := s.dstack }) k.shape, k.ok, k.len, k.bits, k.buf⟩

/-- The bits do not begin with the header of a tree that the arena can hold. -/
def NoHeader (s : State) : Prop :=
  ∀ (T : HTree) (rest : List Bool), inputBits s = T.header ++ rest → 256 < T.symbols.length

/-- How Deser, started in `s`, fails in `t` (R120): some bits are consumed and no code is held; and the bits it was given
begin with no header. -/
structure HeaderFails (s : State) (c : ErrCode) (t : State) : Prop where
  error    : c = .invalidFormat ∨ c = .capacityExceeded
  invalid  : t.code.valid = false
  noRoot   : t.code.root = Config.noNode
  read     : ∃ bs, ReadTo s t bs
  noHeader : NoHeader s

/-- A part of Deser, started in `s`, ends well in a state that `Q` holds of, or fails. -/
def ReadsOrFails (s : State) (Q : State → Prop) : EStateM.Result Stop State Unit → Prop
  | .ok _ t => Q t
  | .error (.raise c) t => HeaderFails s c t
  | .error (.fault _) _ => False

theorem ReadsOrFails.imp {s : State} {Q R : State → Prop} {r : EStateM.Result Stop State Unit} (h : ReadsOrFails s Q r)
    (hq : ∀ t, Q t → R t) : ReadsOrFails s R r := by
  cases r with
  | ok a t => exact hq t h
  | error e t => cases e <;> exact h

theorem readsOrFails_within {s u : State} {Q : State → Prop} {τ : List Part} {x : Op Unit} (hx : Footprint τ x)
    (h : ReadsOrFails s Q (x u)) : ReadsOrFails s (fun t => Q t ∧ Within τ u t) (x u) := by
  have hw := hx u
  cases hr : x u with
  | ok a t => rw [hr] at h hw; exact ⟨h, hw⟩
  | error e t => rw [hr] at h; cases e <;> exact h

theorem readsOrFails_bind {s u : State} {Q R : State → Prop} {x : Op Unit} {f : Unit → Op Unit}
    (hx : ReadsOrFails s Q (x u)) (hf : ∀ t, Q t → ReadsOrFails s R (f () t)) : ReadsOrFails s R ((x >>= f) u) := by
  rw [op_bind]
  cases hr : x u with
  | ok a t => rw [hr] at hx; exact hf t hx
  | error e t => rw [hr] at hx; cases e <;> exact hx

/-- Deser, started in `s₀`, has read the bits of the slots `es` and stands in `s`. -/
structure Parsing (s₀ : State) (es : List Slot) (s : State) : Prop where
  start   : InputOk s₀
  stacked : Stacked s.code s.dstack es
  read    : ReadTo s₀ s (slotBits es)

section
variable {s₀ s : State} {es : List Slot} (h : Parsing s₀ es s)
include h

theorem Parsing.inputOk : InputOk s := h.read.ok

theorem Parsing.bits : inputBits s₀ = slotBits es ++ inputBits s := h.read.bits

theorem Parsing.fails {c : ErrCode} {t : State} {bs : List Bool} (hc : c = .invalidFormat ∨ c = .capacityExceeded)
    (hcode : t.code = s.code) (hread : ReadTo s₀ t bs) (hno : NoHeader s₀) : HeaderFails s₀ c t :=
  ⟨hc, hcode ▸ h.stacked.invalid, hcode ▸ h.stacked.noRoot, ⟨bs, hread⟩, hno⟩

/-- Between two turns: if the bits left begin with no header for which there is room, the given ones began with none. -/
theorem Parsing.noHeader (ho : OpenParents es)
    (hno : ∀ (X : HTree) (rest : List Bool), inputBits s = X.header ++ rest → s.dstack.dsp.toNat + X.size ≤ 511 →
      s.code.count.toNat + X.size ≤ 511 → False) : NoHeader s₀ := fun T rest hT => by
  by_contra hle
  obtain ⟨X, rest', hX, hlen, hsize⟩ := ho.next_header (h.bits.symm.trans hT)
  have := T.size_add_one
  rw [h.stacked.length] at hlen
  rw [h.stacked.size] at hsize
  exact hno X rest' hX (by omega) (by omega)

end

/-- A read of the state is followed by what comes after it. -/
theorem get_bind {α : Type} (f : State → Op α) (s : State) : ((get : Op State) >>= f) s = f s s := rfl

/-! ### The collapses -/

/-- What the collapses leave: one tree alone, or open parents again (R120). -/
def Settled (s₀ s : State) : Prop :=
  (∃ x, Parsing s₀ [some x] s) ∨ ∃ es, OpenParents es ∧ Parsing s₀ es s

theorem collapse_none (fuel : Nat) {s : State} (h : siblings (stackList s.dstack) = none) :
    collapse fuel s = .ok () s := by
  cases fuel with
  | zero => rfl
  | succ fuel =>
    rw [collapse, get_bind, collapsible_eq, h]
    rfl

/-- The state after one collapse (R120). -/
def collapsedState (s : State) (l r : NodeIdx) (ld rd : Node) : State :=
  { s with
    code := joined s.code 0#32 l r ld rd
    dstack := pushed { s.dstack with dsp := s.dstack.dsp - 3#9 } (.node (s.code.count.setWidth 9)) }

theorem collapse_some (fuel : Nat) {s : State} {l r : NodeIdx} {ld rd : Node}
    (h : siblings (stackList s.dstack) = some (l, r)) (hj : Joinable s.code 0#32 l r ld rd) :
    collapse (fuel + 1) s = collapse fuel (collapsedState s l r ld rd) := by
  rw [collapse, get_bind, collapsible_eq, h]
  refine (bind_of_ok (op_modify _ _)).trans <| (bind_of_ok (alloc_taken _ _ _ _ _ (by exact hj.room))).trans ?_
  refine (bind_of_ok (setParent_ok (by exact hj.left))).trans ?_
  exact (bind_of_ok (setParent_ok (by exact hj.right))).trans rfl

theorem collapse_full (fuel : Nat) {s : State} {l r : NodeIdx} (h : siblings (stackList s.dstack) = some (l, r))
    (hc : ¬ s.code.count.toNat < Config.nodeCap) :
    collapse (fuel + 1) s = .error (.raise .capacityExceeded)
      { s with dstack := { s.dstack with dsp := s.dstack.dsp - 3#9 } } := by
  rw [collapse, get_bind, collapsible_eq, h]
  refine (bind_of_ok (op_modify _ _)).trans ?_
  rw [op_bind, alloc_run, if_neg (by exact hc)]

/-- Two finished subtrees over an open parent, where the arena is full: there is no room for the tree (R120). -/
theorem Parsing.noHeader_of_full {s₀ s : State} {es : List Slot} {x y : NodeIdx × HTree} (ho : OpenParents es)
    (h : Parsing s₀ (some y :: some x :: none :: es) s) (hc : ¬ s.code.count.toNat < Config.nodeCap) : NoHeader s₀ :=
  fun T rest hT => by
    by_contra hle
    have hbits : slotBits es ++ ((HTree.node x.2 y.2).header ++ inputBits s) = T.header ++ rest := by
      rw [← hT, h.bits, HTree.header_node_append]
      simp [slotBits]
    obtain ⟨X, rest', hX, -, hsize⟩ := ho.next_header hbits
    obtain ⟨rfl, -⟩ := HTree.header_append_inj hX
    have hcount := h.stacked.size
    have := T.size_add_one
    have hcap : Config.nodeCap = 511 := rfl
    simp only [slotSize_tree, slotSize_parent, HTree.size] at hcount hsize
    omega

/-- A collapse keeps what has been read. -/
theorem Parsing.collapsed {s₀ s : State} {es : List Slot} {l r : NodeIdx} {L R : HTree} {ld rd : Node}
    (h : Parsing s₀ (some (r, R) :: some (l, L) :: none :: es) s) (hj : Joinable s.code 0#32 l r ld rd) :
    Parsing s₀ (some (s.code.count.setWidth 9, .node L R) :: es) (collapsedState s l r ld rd) where
  start := h.start
  stacked := h.stacked.collapsed hj
  read := by
    have hread := h.read
    simp only [slotBits, HTree.header, List.append_assoc, List.singleton_append] at hread ⊢
    exact hread

/-- A new subtree at the top of open parents: they take it in as far as they can (R120). -/
theorem collapse_settles {s₀ : State} {es : List Slot} (ho : OpenParents es) : ∀ {fuel : Nat} {x : NodeIdx × HTree}
    {s : State}, es.length ≤ fuel → Parsing s₀ (some x :: es) s →
    ReadsOrFails s₀ (Settled s₀) (collapse fuel s) := by
  induction ho with
  | nil =>
    intro fuel x s _ h
    rw [collapse_none fuel (by rw [h.stacked.stack]; rfl)]
    exact .inl ⟨x, h⟩
  | parent ho _ =>
    intro fuel x s _ h
    rw [collapse_none fuel (by rw [h.stacked.stack]; rfl)]
    exact .inr ⟨_, .left x ho, h⟩
  | @left es y ho ih =>
    rintro (_ | fuel) x s hfuel h
    · simp at hfuel
    · have hsib : siblings (stackList s.dstack) = some (y.1, x.1) := by rw [h.stacked.stack]; rfl
      by_cases hc : s.code.count.toNat < Config.nodeCap
      · obtain ⟨ld, rd, -, -, hj⟩ := (show Forest s.code (y ::ₘ x ::ₘ slotTrees es) from
          Multiset.cons_swap .. ▸ h.stacked.forest).exists_joinable hc 0#32
        rw [collapse_some fuel hsib hj]
        exact ih (by simp at hfuel; omega) (h.collapsed hj)
      · rw [collapse_full fuel hsib hc]
        exact h.fails (.inr rfl) rfl h.read (h.noHeader_of_full ho hc)

/-! ### The two markers -/

/-- Reading on leaves the arena and DSTACK as they are. -/
theorem Parsing.stacked_of_consumed {s₀ s t : State} {es : List Slot} {bs : List Bool} (h : Parsing s₀ es s)
    (hb : Consumed s t bs) : Stacked t.code t.dstack es := by
  rw [hb.code, hb.dstack]
  exact h.stacked

/-- A PARENT marker opens a parent, or finds the stack full, as it is under no header that there is room for (R120). -/
theorem parentMarker_reads {s₀ s t : State} {es : List Slot} (h : Parsing s₀ es s) (ho : OpenParents es)
    (hb : Consumed s t [true]) : ReadsOrFails s₀ (Parsing s₀ (none :: es)) (parentMarker t) := by
  have hread := ReadTo.trans h.start h.read hb
  have hstacked := h.stacked_of_consumed hb
  rw [parentMarker, get_bind]
  by_cases hne : t.dstack.dsp = 511#9
  · rw [require_bind_neg (not_not_intro hne)]
    refine h.fails (.inr rfl) hb.code hread (h.noHeader ho fun X rest _ hroom _ => ?_)
    have := X.size_pos
    rw [← hb.dstack, hne] at hroom
    simp at hroom
    omega
  · rw [require_bind_pos hne]
    exact ⟨h.start, hstacked.parent (dsp_lt_of_ne hne), hread⟩

/-- The state after the new leaf of a LEAF marker, before the collapses (R120). -/
def leafState (t : State) (sym : Nat) : State :=
  { t with code := withLeaf t.code sym 0#32, dstack := pushed t.dstack (.node (t.code.count.setWidth 9)) }

theorem leafMarker_short {t : State} (h : inBitsLeft t.inp < 8) : leafMarker t = .error (.raise .invalidFormat) t := by
  rw [leafMarker, bitsLeft_bind, require_bind_neg (by omega)]

theorem leafMarker_run {t u : State} {sym : Nat} (h8 : 8 ≤ inBitsLeft t.inp) (hu : getBits 8 t = .ok sym u)
    (hc : u.code.count.toNat < Config.nodeCap) (hd : u.dstack.dsp ≠ 511#9) :
    leafMarker t = collapse (leafState u sym).dstack.dsp.toNat (leafState u sym) := by
  rw [leafMarker, bitsLeft_bind, require_bind_pos h8, bind_of_ok hu, get_bind, require_bind_pos ⟨hc, hd⟩]
  exact (bind_of_ok (alloc_taken _ _ _ _ _ hc)).trans rfl

theorem leafMarker_full {t u : State} {sym : Nat} (h8 : 8 ≤ inBitsLeft t.inp) (hu : getBits 8 t = .ok sym u)
    (hfull : ¬ (u.code.count.toNat < Config.nodeCap ∧ u.dstack.dsp ≠ 511#9)) :
    leafMarker t = .error (.raise .capacityExceeded) u := by
  rw [leafMarker, bitsLeft_bind, require_bind_pos h8, bind_of_ok hu, get_bind]
  exact require_bind_neg hfull _ _

/-- With fewer bits left than any header has, the given ones began with none. -/
theorem Parsing.noHeader_of_short {s₀ s : State} {es : List Slot} (h : Parsing s₀ es s) (ho : OpenParents es)
    (hshort : inBitsLeft s.inp < 9) : NoHeader s₀ :=
  h.noHeader ho fun X rest hX _ _ => by
    have := X.nine_le_header_length
    have := congrArg List.length hX
    rw [inputBits_length, List.length_append] at this
    omega

/-- A LEAF marker brings a leaf that the open parents take in, or fails for want of bits or of room (R120). -/
theorem leafMarker_reads {s₀ s t : State} {es : List Slot} (h : Parsing s₀ es s) (ho : OpenParents es)
    (hb : Consumed s t [false]) :
    ReadsOrFails s₀ (fun u => Settled s₀ u ∧ inBitsLeft u.inp < inBitsLeft t.inp) (leafMarker t) := by
  by_cases h8 : 8 ≤ inBitsLeft t.inp
  · obtain ⟨sym, u, hu, hsym, hbyte⟩ := getBits_consumed 8 hb.ok h8
    have hsu := hb.trans h.inputOk hbyte
    have hread := ReadTo.trans h.start h.read hsu
    by_cases hroom : u.code.count.toNat < Config.nodeCap ∧ u.dstack.dsp ≠ 511#9
    · have hdsp := dsp_lt_of_ne hroom.2
      have hleaf : Parsing s₀ (some (u.code.count.setWidth 9, .leaf (BitVec.ofNat 8 sym)) :: es) (leafState u sym) :=
        ⟨h.start, (h.stacked_of_consumed hsu).leaf hdsp hroom.1 hsym, by
          rw [slotBits, HTree.header_leaf_ofNat hsym]; exact hread⟩
      rw [leafMarker_run h8 hu hroom.1 hroom.2]
      refine (readsOrFails_within (collapse_footprint _) (collapse_settles ho ?_ hleaf)).imp ?_
      · have := hleaf.stacked.length
        rw [List.length_cons] at this
        omega
      · rintro v ⟨hsettled, hw⟩
        have hinp : v.inp = u.inp := hw.2 .inp (by simp)
        have := hbyte.left
        refine ⟨hsettled, ?_⟩
        rw [hinp]
        simp at this
        omega
    · rw [leafMarker_full h8 hu hroom]
      refine h.fails (.inr rfl) hsu.code hread (h.noHeader ho fun X rest _ hdsp hcount => ?_)
      rw [hsu.code, hsu.dstack] at hroom
      have := X.size_pos
      have hcap : Config.nodeCap = 511 := rfl
      exact hroom ⟨by omega, fun e => by rw [e] at hdsp; simp at hdsp; omega⟩
  · rw [leafMarker_short (by omega)]
    refine h.fails (.inl rfl) hb.code (ReadTo.trans h.start h.read hb) (h.noHeader_of_short ho ?_)
    have := hb.left
    simp at this
    omega

/-! ### Deser -/

/-- Deser, started in `s`, holds in `t` the tree whose header it has read. -/
def HeaderHeld (s t : State) : Prop := ∃ T, HoldsTree t.code T ∧ Unweighed t.code ∧ ReadTo s t T.header

/-- One tree alone on the stack becomes the held code (R120). -/
theorem Parsing.held {s₀ s : State} {x : NodeIdx × HTree} (h : Parsing s₀ [some x] s) :
    HeaderHeld s₀ { s with code := { s.code with root := x.1, valid := true } } :=
  ⟨x.2, Forest.holdsTree (T := x.2) h.stacked.forest, h.stacked.unweighed, h.read⟩

theorem OpenParents.onlyNode_eq {es : List Slot} (ho : OpenParents es) : onlyNode (es.map slotEntry) = none := by
  cases ho <;> rfl

theorem deserFrom_short (fuel : Nat) {s : State} (h : inBitsLeft s.inp < 1) :
    deserFrom fuel s = .error (.raise .invalidFormat) s := by
  cases fuel with
  | zero => rfl
  | succ fuel => rw [deserFrom, bitsLeft_bind, require_bind_neg (by omega)]

/-- The loop of Deser from a half-read header (R120). -/
theorem deserFrom_reads (fuel : Nat) : ∀ {s₀ s : State} {es : List Slot}, Parsing s₀ es s → OpenParents es →
    inBitsLeft s.inp ≤ fuel → ReadsOrFails s₀ (HeaderHeld s₀) (deserFrom fuel s) := by
  induction fuel with
  | zero =>
    intro s₀ s es h ho hfuel
    rw [deserFrom_short 0 (by omega)]
    exact h.fails (.inl rfl) rfl h.read (h.noHeader_of_short ho (by omega))
  | succ fuel ih =>
    intro s₀ s es h ho hfuel
    by_cases h1 : 1 ≤ inBitsLeft s.inp
    · obtain ⟨b, t, ht, hb⟩ := getBit_consumed h.inputOk h1
      have hleft : inBitsLeft t.inp ≤ fuel := by have := hb.left; simp at this; omega
      rw [deserFrom, bitsLeft_bind, require_bind_pos h1, bind_of_ok ht]
      cases b with
      | true =>
        rw [if_pos rfl]
        refine readsOrFails_bind (readsOrFails_within parentMarker_footprint (parentMarker_reads h ho hb)) ?_
        rintro u ⟨hu, hw⟩
        have hinp : u.inp = t.inp := hw.2 .inp (by simp)
        exact ih hu ho.parent (hinp ▸ hleft)
      | false =>
        rw [if_neg (by simp)]
        refine readsOrFails_bind (leafMarker_reads h ho hb) ?_
        rintro u ⟨⟨x, hx⟩ | ⟨es', ho', hes⟩, hlt⟩ <;> rw [get_bind, soleNode_eq]
        · rw [hx.stacked.stack]
          exact hx.held
        · rw [hes.stacked.stack, ho'.onlyNode_eq]
          exact ih hes ho' (by omega)
    · rw [deserFrom_short _ (by omega)]
      exact h.fails (.inl rfl) rfl h.read (h.noHeader_of_short ho (by omega))

/-- Deser holds the tree of the header it has read, or fails on bits that begin with none (R120). -/
theorem deser_reads {s : State} (h : InputOk s) : ReadsOrFails s (HeaderHeld s) (deser s) := by
  rw [deser, op_bind, op_modify]
  dsimp only
  rw [bitsLeft_bind]
  exact deserFrom_reads _ ⟨h, stacked_start _ _, Consumed.refl h⟩ .nil le_rfl

/-! ### HUF_RDHDR -/

theorem HeaderHeld.of_header {s t : State} (h : HeaderHeld s t) {T : HTree} {rest : List Bool}
    (hT : inputBits s = T.header ++ rest) : HoldsTree t.code T ∧ Unweighed t.code ∧ ReadTo s t T.header := by
  obtain ⟨U, hU, hfreq, hread⟩ := h
  obtain ⟨rfl, -⟩ := HTree.header_append_inj (hT.symm.trans hread.bits)
  exact ⟨hU, hfreq, hread⟩

theorem HeaderHeld.not_noHeader {s t : State} (h : HeaderHeld s t) : ¬ NoHeader s := fun hno => by
  obtain ⟨T, ⟨-, -, -, hcap, -⟩, -, hread⟩ := h
  have := hno T _ hread.bits
  have := T.size_add_one
  have : Config.nodeCap = 511 := rfl
  omega

theorem exec_hufRdhdr_absent {s : State} (h : s.ctrl.inEn = false) :
    exec .hufRdhdr s = .next (takeError .nullArgument s) := by
  refine exec_of_bodyOf_raise (i := .hufRdhdr) (?_ : opHufRdhdr s = _)
  rw [opHufRdhdr, op_bind, needReader_run, if_neg (by simp [h])]

/-- HUF_RDHDR with the reader present (R125). -/
theorem exec_hufRdhdr {s : State} (hin : s.ctrl.inEn = true) (h : InputOk s) :
    (∃ t, exec .hufRdhdr s = .next (complete t) ∧ HeaderHeld s t) ∨
      ∃ c t, exec .hufRdhdr s = .next (takeError c t) ∧ HeaderFails s c t := by
  have hbody : bodyOf .hufRdhdr s = deser s := needReader_bind_present _ hin
  have hread := deser_reads h
  match hrun : deser s with
  | .ok () t => exact .inl ⟨t, exec_of_bodyOf_ok (hbody.trans hrun), by rwa [hrun] at hread⟩
  | .error (.raise c) t => exact .inr ⟨c, t, exec_of_bodyOf_raise (hbody.trans hrun), by rwa [hrun] at hread⟩
  | .error (.fault f) t => rw [hrun] at hread; exact hread.elim

/-- Settles O43: Deser's stack is that of the header read so far, so it ends with the header's tree or the bits had none. -/
theorem headerRead : Obligations.HeaderRead := by
  unfold Obligations.HeaderRead
  refine ⟨rfl, fun s => ⟨exec_hufRdhdr_absent, fun hin hs => ⟨fun T rest hT hk => ?_, fun hno => ?_⟩⟩⟩
  · rcases exec_hufRdhdr hin hs with ⟨t, hrun, ht⟩ | ⟨c, t, -, hfail⟩
    · obtain ⟨hheld, hfreq, hread⟩ := ht.of_header hT
      exact ⟨t, _, hrun, hread, rfl, hheld, hfreq⟩
    · exact absurd (hfail.noHeader T rest hT) (by omega)
  · rcases exec_hufRdhdr hin hs with ⟨t, -, ht⟩ | ⟨c, t, hrun, hfail⟩
    · exact absurd hno ht.not_noHeader
    · obtain ⟨bs, hread⟩ := hfail.read
      exact ⟨t, _, c, bs, hrun, hfail.error, hread, rfl, hfail.invalid, hfail.noRoot⟩

end Sys2Proof.Proofs

/-! PROOFS. The held code in use (45_huffman_code.md): what the walks of Ser, Path and DecodeSym make of a held tree, and the
three commands that walk. -/

namespace Sys2Proof.Safety

open Sys2Proof Sys2Proof.Machine

/-! ### Paths in a held tree -/

/-- The first step of a path of child links. -/
theorem follow_cons {c : Code} {n m : NodeIdx} {b : Bool} {p : List Bool} :
    follow c n (b :: p) = some m ↔
      ∃ nd, nodeOf c n.toNat = some nd ∧ nd.leaf = false ∧ follow c (if b then nd.right else nd.left) p = some m := by
  rw [follow]
  cases nodeOf c n.toNat with
  | none => simp
  | some nd => cases hleaf : nd.leaf <;> simp [hleaf]

/-- The last step of a path of child links. -/
theorem exists_last_of_follow {c : Code} {m : NodeIdx} {b : Bool} {p : List Bool} : ∀ {n : NodeIdx},
    follow c n (p ++ [b]) = some m →
    ∃ k kd, follow c n p = some k ∧ nodeOf c k.toNat = some kd ∧ kd.leaf = false ∧
      m = if b then kd.right else kd.left := by
  induction p with
  | nil =>
    intro n h
    obtain ⟨nd, hn, hleaf, hm⟩ := follow_cons.mp h
    exact ⟨n, nd, rfl, hn, hleaf, (Option.some.inj hm).symm⟩
  | cons a p ih =>
    intro n h
    obtain ⟨nd, hn, hleaf, hp⟩ := follow_cons.mp h
    obtain ⟨k, kd, hk, hrest⟩ := ih hp
    exact ⟨k, kd, follow_cons.mpr ⟨nd, hn, hleaf, hk⟩, hrest⟩

/-- The child links of an internal node lead to the subtrees, which have its index as PARENT (R36). -/
theorem Holds.children {c : Code} {p n : NodeIdx} {T : HTree} {nd : Node} (h : Holds c p n T)
    (hn : nodeOf c n.toNat = some nd) (hleaf : nd.leaf = false) :
    ∃ l r, T = .node l r ∧ nd.left ≠ nd.right ∧ Holds c n nd.left l ∧ Holds c n nd.right r := by
  cases T with
  | leaf sym =>
    obtain ⟨md, hm, hmleaf, -⟩ := h
    cases hn.symm.trans hm
    simp [hleaf] at hmleaf
  | node l r =>
    obtain ⟨md, hm, -, -, hne, hl, hr⟩ := h
    cases hn.symm.trans hm
    exact ⟨l, r, rfl, hne, hl, hr⟩

/-- A path from the root of a held tree ends at the root of a subtree, and is shorter the larger that is. -/
theorem Holds.subtree_of_follow {c : Code} {m : NodeIdx} {path : List Bool} : ∀ {p n : NodeIdx} {T : HTree},
    Holds c p n T → follow c n path = some m → ∃ q U, Holds c q m U ∧ path.length + U.size ≤ T.size := by
  induction path with
  | nil =>
    intro p n T h hm
    obtain rfl := Option.some.inj hm
    exact ⟨p, T, h, by simp⟩
  | cons b path ih =>
    intro p n T h hm
    obtain ⟨nd, hn, hleaf, hm⟩ := follow_cons.mp hm
    obtain ⟨l, r, rfl, -, hl, hr⟩ := h.children hn hleaf
    cases b with
    | false =>
      obtain ⟨q, U, hU, hsize⟩ := ih hl hm
      exact ⟨q, U, hU, by simp only [List.length_cons, HTree.size]; omega⟩
    | true =>
      obtain ⟨q, U, hU, hsize⟩ := ih hr hm
      exact ⟨q, U, hU, by simp only [List.length_cons, HTree.size]; omega⟩

/-- What the upward walk finds at a node below the root: a PARENT, and that it is the RIGHT of it where the path's last bit
is 1 (R121). -/
theorem Holds.exists_parent {c : Code} {root m : NodeIdx} {T : HTree} {path : List Bool} {b : Bool}
    (h : Holds c Config.noNode root T) (hm : follow c root (path ++ [b]) = some m) :
    ∃ md kd, m ≠ root ∧ nodeOf c m.toNat = some md ∧ follow c root path = some md.parent ∧
      nodeOf c md.parent.toNat = some kd ∧ decide (kd.right = m) = b := by
  obtain ⟨k, kd, hk, hkd, hleaf, rfl⟩ := exists_last_of_follow hm
  obtain ⟨q, U, hU, -⟩ := h.subtree_of_follow hk
  obtain ⟨l, r, -, hne, hl, hr⟩ := hU.children hkd hleaf
  have hchild : ∃ md, nodeOf c (if b then kd.right else kd.left).toNat = some md ∧ md.parent = k := by
    cases b
    · exact hl.root
    · exact hr.root
  obtain ⟨md, hmd, rfl⟩ := hchild
  refine ⟨md, kd, fun e => ?_, hmd, hk, hkd, ?_⟩
  · obtain ⟨rd, hrd, hrp⟩ := h.root
    rw [e, hrd] at hmd
    obtain rfl := Option.some.inj hmd
    exact ne_noNode_of_nodeOf hkd hrp
  · cases b <;> simp [hne.symm]

theorem HTree.decode_node_cons (l r : HTree) (b : Bool) (bs : List Bool) :
    (HTree.node l r).decode (b :: bs) = (if b then r else l).decode bs := by
  cases b <;> rfl

end Sys2Proof.Safety

namespace Sys2Proof.Proofs

open Sys2Proof Sys2Proof.Machine Sys2Proof.Safety Sys2Proof.Laws

theorem nodeAt_some {n : Nat} {s : State} {nd : Node} (h : nodeOf s.code n = some nd) : nodeAt n s = .ok nd s := by
  rw [nodeAt_run, h]

/-- Two sequences run alike if they begin alike and go on alike from every state that the beginning can end in. -/
theorem bind_congr_within {α β : Type} {τ : List Part} {x : Op α} (hx : Footprint τ x) {f g : α → Op β} {s : State}
    (hfg : ∀ a t, Within τ s t → f a t = g a t) : (x >>= f) s = (x >>= g) s := by
  have hw := hx s
  rw [op_bind, op_bind]
  cases hr : x s with
  | ok a t => rw [hr] at hw; exact hfg a t hw
  | error e t => rfl

theorem bind_congr_first {α β : Type} {x y : Op α} {s : State} (h : x s = y s) (f : α → Op β) :
    (x >>= f) s = (y >>= f) s := by
  rw [op_bind, op_bind, h]

/-! ### Ser (R119) -/

/-- Ser puts the header of the tree held at the node (R119). -/
theorem ser_eq_putAll {T : HTree} : ∀ {fuel : Nat} {p n : NodeIdx} {s : State}, Holds s.code p n T → T.size ≤ fuel →
    ser fuel n s = putAll T.header s := by
  induction T with
  | leaf sym =>
    rintro (_ | fuel) p n s h hfuel
    · simp [HTree.size] at hfuel
    · obtain ⟨nd, hn, hleaf, hsym, -⟩ := h
      rw [ser, bind_of_ok (nodeAt_some hn), if_pos hleaf, hsym, putBits_eq_putAll]
      rfl
  | node l r ihl ihr =>
    rintro (_ | fuel) p n s h hfuel
    · simp [HTree.size] at hfuel
    · obtain ⟨nd, hn, hleaf, -, -, hl, hr⟩ := h
      have hsize : l.size + r.size ≤ fuel := by simp only [HTree.size] at hfuel; omega
      rw [ser, bind_of_ok (nodeAt_some hn), if_neg (by simp [hleaf]), HTree.header, putAll, putAll_append]
      refine bind_congr_within (putBit_footprint true) fun _ t ht => ?_
      have htcode : t.code = s.code := ht.2 .code (by simp)
      refine (bind_congr_first (ihl (htcode ▸ hl) (by omega)) _).trans ?_
      refine bind_congr_within (putAll_footprint l.header) fun _ u hu => ?_
      have hucode : u.code = t.code := hu.2 .code (by simp)
      exact ihr (by rw [hucode, htcode]; exact hr) (by omega)

/-- HUF_WRHDR with the writer and a code puts the code's header (R124). -/
theorem bodyOf_hufWrhdr {s : State} (hout : s.ctrl.outEn = true) {T : HTree} (hT : HoldsTree s.code T) :
    bodyOf .hufWrhdr s = putAll T.header s := by
  obtain ⟨hvalid, hheld, -, hcap, -⟩ := hT
  exact ((needWriter_bind_present _ hout).trans (needCode_bind_present _ hvalid)).trans (ser_eq_putAll hheld hcap)

/-- The first two checks of a command that needs a stream and a code raise NULL_ARGUMENT (R124, R126, R127). -/
theorem stream_needCode_absent {α : Type} {p : Prop} [Decidable p] {need : Op Unit} {s : State}
    (hneed : need s = if p then .ok () s else .error (.raise .nullArgument) s) (f : Unit → Op α)
    (h : ¬ p ∨ s.code.valid = false) : (need >>= fun _ => needCode >>= f) s = .error (.raise .nullArgument) s := by
  rw [op_bind, hneed]
  by_cases hp : p
  · have hv := h.resolve_left (not_not_intro hp)
    rw [if_pos hp]
    dsimp only
    rw [op_bind, needCode_run, if_neg (by simp [hv])]
  · rw [if_neg hp]

/-- Settles O42: Ser puts the header's bits as one sequence. -/
theorem headerWritten : Obligations.HeaderWritten := by
  unfold Obligations.HeaderWritten
  refine ⟨rfl, fun s => ⟨fun h => exec_of_bodyOf_raise (i := .hufWrhdr) ?_, fun hout hs T hT =>
    ⟨T.header_length, exec_of_putAll (bodyOf_hufWrhdr hout hT) hs⟩⟩⟩
  exact stream_needCode_absent (needWriter_run s) _ (by simpa using h)

/-! ### Path (R121) -/

/-- The upward walk from the end of a path records the path, last bit first (R121). -/
theorem pathUp_run {s : State} {T : HTree} (h : Holds s.code Config.noNode s.code.root T) (path : List Bool) :
    ∀ {fuel : Nat} {m : NodeIdx}, follow s.code s.code.root path = some m → path.length < fuel →
      pathUp fuel m s = .ok path.reverse s := by
  induction path using List.reverseRecOn with
  | nil =>
    rintro (_ | fuel) m hm hfuel
    · simp at hfuel
    · obtain rfl := Option.some.inj hm
      rw [pathUp, get_bind, if_pos rfl]
      rfl
  | append_singleton path b ih =>
    rintro (_ | fuel) m hm hfuel
    · simp at hfuel
    · obtain ⟨md, kd, hne, hmd, hpath, hkd, hb⟩ := h.exists_parent hm
      rw [pathUp, get_bind, if_neg hne, bind_of_ok (nodeAt_some hmd), bind_of_ok (nodeAt_some hkd),
        bind_of_ok (ih hpath (by simp at hfuel; omega)), hb, List.reverse_append]
      rfl

/-- Path of a symbol is the path from the root to its leaf (R121). -/
theorem path_run {s : State} {T : HTree} (h : Holds s.code Config.noNode s.code.root T) (hcap : T.size ≤ Config.nodeCap)
    {sym : Nat} {p : List Bool} (hp : follow s.code s.code.root p = some (leafAt s.code sym)) : path sym s = .ok p s := by
  obtain ⟨q, U, -, hsize⟩ := h.subtree_of_follow hp
  have := U.size_pos
  rw [path, get_bind, bind_of_ok (pathUp_run h p hp (by omega)), List.reverse_reverse]
  rfl

/-! ### HUF_ENC (R122, R126) -/

/-- EncodeSym puts the bits of the path to the symbol's leaf; with a single leaf that is no bit (R122). -/
theorem encodeSym_eq_putAll {s : State} {T : HTree} (h : Holds s.code Config.noNode s.code.root T)
    (hcap : T.size ≤ Config.nodeCap) {sym : Nat} {p : List Bool} {x : Byte}
    (hp : follow s.code s.code.root p = some (leafAt s.code sym)) (hx : T.symbolAt p = some x) :
    encodeSym sym s = putAll p s := by
  cases T with
  | leaf y =>
    obtain ⟨rd, hrd, hleaf, -⟩ := h
    rw [encodeSym, get_bind, bind_of_ok (nodeAt_some hrd), if_pos hleaf]
    cases p with
    | nil => rfl
    | cons b p => simp [HTree.symbolAt] at hx
  | node l r =>
    have hrun := path_run h hcap hp
    obtain ⟨rd, hrd, hleaf, -⟩ := h
    rw [encodeSym, get_bind, bind_of_ok (nodeAt_some hrd), if_neg (by simp [hleaf]), bind_of_ok hrun]

/-- HUF_ENC with the writer and a code: its two checks of the symbol, and EncodeSym (R126). -/
theorem bodyOf_hufEnc {s : State} (hout : s.ctrl.outEn = true) (hv : s.code.valid = true) :
    bodyOf .hufEnc s =
      (require (s.a0.toNat ≤ 255) .invalidArgument >>= fun _ =>
        get >>= fun t => require (leafAt t.code s.a0.toNat ≠ Config.noNode) .invalidArgument >>= fun _ =>
          encodeSym s.a0.toNat) s :=
  (needWriter_bind_present _ hout).trans (needCode_bind_present _ hv)

theorem exec_hufEnc_invalid {s : State} (hout : s.ctrl.outEn = true) (hv : s.code.valid = true)
    (hsym : 255 < s.a0.toNat ∨ leafAt s.code s.a0.toNat = Config.noNode) :
    exec .hufEnc s = .next (takeError .invalidArgument s) := by
  refine exec_of_bodyOf_raise ((bodyOf_hufEnc hout hv).trans ?_)
  by_cases h : s.a0.toNat ≤ 255
  · have hnone := hsym.resolve_left (by omega)
    rw [require_bind_pos h, get_bind, require_bind_neg (not_not_intro hnone)]
  · rw [require_bind_neg h]

/-- Settles O44: LEAF_MAP's leaf stands at the end of a path, and the walk up from it records that path. -/
theorem encodeWritesCodeword : Obligations.EncodeWritesCodeword := by
  unfold Obligations.EncodeWritesCodeword
  refine ⟨rfl, fun s => ⟨fun h => exec_of_bodyOf_raise (i := .hufEnc) ?_, exec_hufEnc_invalid,
    fun hout hs hsym hleaf T hT => ?_⟩⟩
  · exact stream_needCode_absent (needWriter_run s) _ (by simpa using h)
  · obtain ⟨hv, hheld, -, hcap, hmaps⟩ := hT
    have hx : (BitVec.ofNat 8 s.a0.toNat).toNat = s.a0.toNat := by
      rw [BitVec.toNat_ofNat, Nat.mod_eq_of_lt (by omega)]
    obtain ⟨-, hpath⟩ := hmaps (BitVec.ofNat 8 s.a0.toNat)
    rw [hx] at hpath
    obtain ⟨p, hp, hend⟩ := hpath hleaf
    refine ⟨p, hp, hend, exec_of_putAll ((bodyOf_hufEnc hout hv).trans ?_) hs⟩
    rw [require_bind_pos hsym, get_bind, require_bind_pos hleaf, encodeSym_eq_putAll hheld hcap hp hend]

/-! ### HUF_DEC (R123, R127) -/

/-- How DecodeSym from a node ends, given the tree's reading of the bits that are left (R123): the symbol with its codeword
consumed, or PREMATURE_EOS with everything consumed. -/
def Decodes (s : State) (want : Option (Byte × List Bool)) (r : EStateM.Result Stop State Byte) : Prop :=
  match want with
  | some (sym, rest) => ∃ t bs, r = .ok sym t ∧ Consumed s t bs ∧ inputBits s = bs ++ rest
  | none => ∃ t, r = .error (.raise .prematureEos) t ∧ Consumed s t (inputBits s)

/-- A bit read first is the first one consumed. -/
theorem Decodes.of_bit {s t : State} {b : Bool} (hs : InputOk s) (hb : Consumed s t [b])
    {want : Option (Byte × List Bool)} {r : EStateM.Result Stop State Byte} (h : Decodes t want r) : Decodes s want r := by
  match want, h with
  | some (sym, rest), ⟨u, bs, hrun, hu, hbits⟩ =>
    exact ⟨u, [b] ++ bs, hrun, hb.trans hs hu, by rw [hb.bits, hbits, List.append_assoc]⟩
  | none, ⟨u, hrun, hu⟩ => exact ⟨u, hrun, by rw [hb.bits]; exact hb.trans hs hu⟩

theorem decodes_none {s : State} (hs : InputOk s) (h : inputBits s = []) :
    Decodes s none (.error (.raise .prematureEos) s) := ⟨s, rfl, h ▸ Consumed.refl hs⟩

theorem decodeFrom_leaf (fuel : Nat) {s : State} {n : NodeIdx} {nd : Node} (hn : nodeOf s.code n.toNat = some nd)
    (hleaf : nd.leaf = true) : decodeFrom fuel n s = .ok nd.sym s := by
  cases fuel <;> rw [decodeFrom, bind_of_ok (nodeAt_some hn), if_pos hleaf] <;> rfl

theorem decodeFrom_empty (fuel : Nat) {s : State} {n : NodeIdx} {nd : Node} (hn : nodeOf s.code n.toNat = some nd)
    (hleaf : nd.leaf = false) (h : inBitsLeft s.inp < 1) : decodeFrom fuel n s = .error (.raise .prematureEos) s := by
  cases fuel with
  | zero => rw [decodeFrom, bind_of_ok (nodeAt_some hn), if_neg (by simp [hleaf])]; rfl
  | succ fuel =>
    rw [decodeFrom, bind_of_ok (nodeAt_some hn), if_neg (by simp [hleaf]), bitsLeft_bind, require_bind_neg (by omega)]

theorem decodeFrom_bit (fuel : Nat) {s t : State} {n : NodeIdx} {nd : Node} {b : Bool}
    (hn : nodeOf s.code n.toNat = some nd) (hleaf : nd.leaf = false) (h : 1 ≤ inBitsLeft s.inp) (ht : getBit s = .ok b t) :
    decodeFrom (fuel + 1) n s = decodeFrom fuel (if b then nd.right else nd.left) t := by
  rw [decodeFrom, bind_of_ok (nodeAt_some hn), if_neg (by simp [hleaf]), bitsLeft_bind, require_bind_pos h, bind_of_ok ht]
  cases b <;> rfl

/-- DecodeSym from a node walks the tree held there on the bits left (R123). -/
theorem decodeFrom_decodes {T : HTree} : ∀ {fuel : Nat} {p n : NodeIdx} {s : State}, Holds s.code p n T → InputOk s →
    inBitsLeft s.inp ≤ fuel → Decodes s (T.decode (inputBits s)) (decodeFrom fuel n s) := by
  induction T with
  | leaf sym =>
    intro fuel p n s h hs _
    obtain ⟨nd, hn, hleaf, rfl, -⟩ := h
    rw [decodeFrom_leaf fuel hn hleaf]
    exact ⟨s, [], rfl, Consumed.refl hs, rfl⟩
  | node l r ihl ihr =>
    intro fuel p n s h hs hfuel
    obtain ⟨nd, hn, hleaf, -, -, hl, hr⟩ := h
    by_cases h1 : 1 ≤ inBitsLeft s.inp
    · obtain ⟨b, t, ht, hb⟩ := getBit_consumed hs h1
      have hleft : inBitsLeft s.inp = 1 + inBitsLeft t.inp := hb.left
      obtain ⟨fuel, rfl⟩ : ∃ k, fuel = k + 1 := ⟨fuel - 1, by omega⟩
      rw [decodeFrom_bit fuel hn hleaf h1 ht, hb.bits, List.singleton_append, HTree.decode_node_cons]
      refine Decodes.of_bit hs hb ?_
      cases b with
      | false => exact ihl (hb.code ▸ hl) hb.ok (by omega)
      | true => exact ihr (hb.code ▸ hr) hb.ok (by omega)
    · have hnil : inputBits s = [] := List.length_eq_zero_iff.mp (by rw [inputBits_length]; omega)
      rw [decodeFrom_empty fuel hn hleaf (by omega), hnil]
      exact decodes_none hs hnil

/-- DecodeSym walks the held tree (R123). -/
theorem decodeSym_decodes {s : State} {T : HTree} (hT : HoldsTree s.code T) (hs : InputOk s) :
    Decodes s (T.decode (inputBits s)) (decodeSym s) := by
  obtain ⟨-, hheld, -⟩ := hT
  exact decodeFrom_decodes hheld hs le_rfl

/-- HUF_DEC with the reader and a code (R127). -/
theorem bodyOf_hufDec {s : State} (hin : s.ctrl.inEn = true) (hv : s.code.valid = true) :
    bodyOf .hufDec s = (decodeSym >>= fun sym => setRes0 (sym.setWidth 32)) s :=
  (needReader_bind_present _ hin).trans (needCode_bind_present _ hv)

/-- Settles O45: DecodeSym's walk through the arena is the tree's own reading of the bits. -/
theorem decodeReadsCodeword : Obligations.DecodeReadsCodeword := by
  unfold Obligations.DecodeReadsCodeword
  refine ⟨rfl, fun s => ⟨fun h => exec_of_bodyOf_raise (i := .hufDec) ?_, fun hin hs T hT => ?_⟩⟩
  · exact stream_needCode_absent (needReader_run s) _ (by simpa using h)
  · have hdec := decodeSym_decodes hT hs
    obtain ⟨hv, -⟩ := hT
    have hbody := bodyOf_hufDec hin hv
    refine ⟨fun sym rest hwant => ?_, fun hwant => ?_⟩
    · rw [hwant] at hdec
      obtain ⟨t, bs, hrun, hc, hbits⟩ := hdec
      exact ⟨t, bs, sym.setWidth 32, exec_of_bodyOf_ok (hbody.trans ((bind_of_ok hrun).trans (setRes0_run _ t))),
        BitVec.toNat_setWidth_of_le (by decide), hbits, hc⟩
    · rw [hwant] at hdec
      obtain ⟨t, hrun, hc⟩ := hdec
      exact ⟨t, exec_of_bodyOf_raise (hbody.trans (by rw [op_bind, hrun])), hc⟩

end Sys2Proof.Proofs

/-! PROOFS. Streams in motion (46_huffman_stream.md R128): runs that read the input and append to the output, one after the
other, and the flush that ends them. -/

namespace Sys2Proof.Safety

open Sys2Proof Sys2Proof.Machine Sys2Proof.Laws

/-- From `s` to `t` the input has been read or rewound and exactly the bits `bs` have been appended to the output;
nothing else has changed. -/
structure Moved (s t : State) (bs : List Bool) : Prop where
  shape  : t = { s with inp := t.inp, out := t.out, mem := t.mem }
  input  : InputOk t
  len    : t.inp.len = s.inp.len
  output : Appended s { s with out := t.out, mem := t.mem } bs

theorem Moved.refl {s : State} (hi : InputOk s) (ho : OutputOk s) : Moved s s [] := ⟨rfl, hi, rfl, Appended.refl ho⟩

section
variable {s t : State} {bs : List Bool} (h : Moved s t bs)
include h

theorem Moved.cfg : t.cfg = s.cfg := by rw [h.shape]

theorem Moved.code : t.code = s.code := by rw [h.shape]

theorem Moved.outputOk : OutputOk t := by
  obtain ⟨hcfg, hlen, hbuf⟩ := h.output.ok
  unfold OutputOk
  rw [h.cfg]
  exact ⟨hcfg, hlen, hbuf⟩

theorem Moved.outputLength : outputLength t = outputLength s + bs.length := h.output.total

theorem Moved.room : room t = room s - bs.length := by
  have := h.output.room_eq
  rwa [Safety.room, h.cfg]

/-- Appending to the output writes nothing in the window of IN_MEM (20_memory.md R44). -/
theorem Moved.read_input {a : Nat} (ha : a < 2 ^ 24) : t.mem.read (inBase + a) = s.mem.read (inBase + a) :=
  h.output.outside _ (.inl (by
    have : inBase + 2 ^ 24 = outBase := rfl
    omega))

theorem Moved.inputBytes_eq {k n : Nat} (hkn : k + n ≤ 2 ^ 24) : inputBytes t k n = inputBytes s k n :=
  List.map_congr_left fun j hj => by rw [h.read_input (by have := List.mem_range.mp hj; omega)]

/-- What has been appended, seen from a state with the same output. -/
theorem Moved.appended_from {u : State} (hc : s.cfg = u.cfg) (ho : s.out = u.out) (hm : s.mem = u.mem) :
    Appended u { u with out := t.out, mem := t.mem } bs := by
  obtain ⟨-, hok, hbits, houtside⟩ := h.output
  unfold OutputOk at hok
  unfold outputBits outputBytes at hbits
  rw [ho, hm] at hbits
  rw [ho, hm] at houtside
  exact ⟨rfl, by rwa [hc] at hok, hbits, houtside⟩

theorem Moved.trans {u : State} {cs : List Bool} (k : Moved t u cs) : Moved s u (bs ++ cs) where
  shape := by
    have h1 := h.shape
    have h2 := k.shape
    rw [h2]; rw [h1]
  input := k.input
  len := k.len.trans h.len
  output := by
    have hbetween : Appended { s with out := t.out, mem := t.mem } { s with out := u.out, mem := u.mem } cs :=
      ⟨rfl, by have := k.outputOk; unfold OutputOk at this; rwa [k.cfg, h.cfg] at this, k.output.bits, k.output.outside⟩
    exact h.output.trans hbetween

end

/-- Reading appends nothing. -/
theorem Consumed.moved {s t : State} {bs : List Bool} (h : Consumed s t bs) (ho : OutputOk s) : Moved s t [] := by
  have hout : t.out = s.out := by rw [h.shape]
  refine ⟨?_, h.ok, h.len, ?_⟩
  · rw [hout, h.mem]; exact h.shape
  · rw [hout, h.mem]; exact Appended.refl ho

/-- Appending reads nothing. -/
theorem Appended.moved {s t : State} {bs : List Bool} (h : Appended s t bs) (hi : InputOk s) :
    Moved s t bs ∧ inputBits t = inputBits s := by
  have hm : Moved s t bs := by
    refine ⟨?_, by unfold InputOk; rw [h.cfg, h.inp]; exact hi, by rw [h.inp], ⟨rfl, ?_, h.bits, h.outside⟩⟩
    · rw [h.inp]; exact h.shape
    · have := h.ok
      unfold OutputOk at this
      rwa [h.cfg] at this
  obtain ⟨hcfg, hcap, hpos, -⟩ := hi
  refine ⟨hm, ?_⟩
  rw [inputBits, inputBits, h.inp, hm.inputBytes_eq (by have := hcfg.1.2; omega)]

end Sys2Proof.Safety

namespace Sys2Proof.Proofs

open Sys2Proof Sys2Proof.Machine Sys2Proof.Safety Sys2Proof.Laws

/-- `x`, started in `s`, appends the bits `bs` and leaves the bits `rest` of the input unread; or, where `bs` does not fit,
it raises OUT_OVERFLOW behind the bits that do (42_bitstream_out.md R88). -/
structure Writes (x : Op Unit) (s : State) (bs rest : List Bool) : Prop where
  fits : bs.length ≤ room s → ∃ t, x s = .ok () t ∧ Moved s t bs ∧ inputBits t = rest
  overflows : room s < bs.length → ∃ t, x s = .error (.raise .outOverflow) t ∧ Moved s t (bs.take (room s))

theorem writes_putAll (bs : List Bool) {s : State} (hi : InputOk s) (ho : OutputOk s) :
    Writes (putAll bs) s bs (inputBits s) where
  fits hfit := by
    obtain ⟨t, hrun, ha⟩ := putAll_appended bs ho hfit
    exact ⟨t, hrun, ha.moved hi⟩
  overflows hover := by
    obtain ⟨t, hrun, ha⟩ := putAll_overflow bs ho hover
    exact ⟨t, hrun, (ha.moved hi).1⟩

theorem Writes.congr {x y : Op Unit} {s : State} {bs rest : List Bool} (h : Writes y s bs rest) (hxy : x s = y s) :
    Writes x s bs rest := ⟨hxy ▸ h.fits, hxy ▸ h.overflows⟩

/-- A read before the writing. -/
theorem Writes.after {α : Type} {x : Op α} {f : α → Op Unit} {s t : State} {a : α} {bs rest : List Bool}
    (hrun : x s = .ok a t) (hm : Moved s t []) (hf : Writes (f a) t bs rest) : Writes (x >>= f) s bs rest where
  fits hfit := by
    obtain ⟨u, hu, hmu, hbits⟩ := hf.fits (by rw [hm.room]; exact hfit)
    exact ⟨u, (bind_of_ok hrun).trans hu, hm.trans hmu, hbits⟩
  overflows hover := by
    obtain ⟨u, hu, hmu⟩ := hf.overflows (by rw [hm.room]; exact hover)
    rw [hm.room] at hmu
    exact ⟨u, (bind_of_ok hrun).trans hu, hm.trans hmu⟩

/-- Two pieces of a stream, one after the other. -/
theorem Writes.bind {x : Op Unit} {f : Unit → Op Unit} {s : State} {as bs mid rest : List Bool}
    (hx : Writes x s as mid) (hf : ∀ t, Moved s t as → inputBits t = mid → Writes (f ()) t bs rest) :
    Writes (x >>= f) s (as ++ bs) rest := by
  by_cases has : as.length ≤ room s
  · obtain ⟨t, hrun, hm, hmid⟩ := hx.fits has
    have hft := hf t hm hmid
    constructor
    · intro hfit
      obtain ⟨u, hu, hmu, hbits⟩ := hft.fits (by rw [hm.room]; simp at hfit; omega)
      exact ⟨u, (bind_of_ok hrun).trans hu, hm.trans hmu, hbits⟩
    · intro hover
      obtain ⟨u, hu, hmu⟩ := hft.overflows (by rw [hm.room]; simp at hover; omega)
      refine ⟨u, (bind_of_ok hrun).trans hu, ?_⟩
      rw [List.take_append, List.take_of_length_le has, ← hm.room]
      exact hm.trans hmu
  · obtain ⟨t, hrun, hm⟩ := hx.overflows (by omega)
    refine ⟨fun hfit => by simp at hfit; omega, fun _ => ⟨t, by rw [op_bind, hrun], ?_⟩⟩
    rw [List.take_append_of_le_length (by omega)]
    exact hm

/-! ### The flush at the end (R128) -/

/-- Flush pads the stream to a whole byte, wherever that is within the buffer (42_bitstream_out.md R89). -/
theorem flush_pads {s : State} (h : OutputOk s) (hfit : outputLength s ≤ 8 * s.cfg.outCap) :
    ∃ t, flush s = .ok () t ∧ Appended s t (padding (outputLength s)) ∧ t.out.nbits = 0#3 := by
  have hn := s.out.nbits.isLt
  have hmod : outputLength s % 8 = s.out.nbits.toNat := by rw [outputLength]; omega
  obtain ⟨t, hrun, ha, hz⟩ := flush_appended h fun h0 => by
    have : s.out.nbits.toNat ≠ 0 := fun e => h0 (BitVec.eq_of_toNat_eq e)
    rw [outputLength] at hfit
    omega
  exact ⟨t, hrun, by rw [padding, hmod]; exact ha, hz⟩

/-- Pending bits behind a full buffer cannot be padded (R89). -/
theorem flush_over {s : State} (h : OutputOk s) (hover : 8 * s.cfg.outCap < outputLength s) :
    flush s = .error (.raise .outOverflow) s := by
  obtain ⟨-, hlen, -⟩ := h
  have hn := s.out.nbits.isLt
  rw [outputLength] at hover
  refine flush_full (fun h0 => ?_) (by omega)
  rw [h0] at hover
  simp at hover
  omega

/-- A stream that is flushed at its end fits where its last byte does: it is appended with its padding, or as far as there
is room. -/
theorem Writes.flushed {x : Op Unit} {s : State} {bs rest : List Bool} (h : Writes x s bs rest) :
    ∃ t written, Moved s t written ∧
      (outputLength s + bs.length ≤ 8 * s.cfg.outCap → (x >>= fun _ => flush) s = .ok () t ∧
        written = bs ++ padding (outputLength s + bs.length) ∧ inputBits t = rest ∧ t.out.nbits = 0#3) ∧
      (8 * s.cfg.outCap < outputLength s + bs.length → (x >>= fun _ => flush) s = .error (.raise .outOverflow) t ∧
        written = bs.take (room s)) := by
  have hroom : room s = 8 * s.cfg.outCap + 7 - outputLength s := rfl
  by_cases hlt : room s < bs.length
  · obtain ⟨t, hrun, hm⟩ := h.overflows hlt
    exact ⟨t, _, hm, fun hfit => by omega, fun _ => ⟨by rw [op_bind, hrun], rfl⟩⟩
  · obtain ⟨t, hrun, hm, hrest⟩ := h.fits (by omega)
    by_cases hfit : outputLength t ≤ 8 * t.cfg.outCap
    · obtain ⟨u, hu, ha, hz⟩ := flush_pads hm.outputOk hfit
      obtain ⟨hmu, hbits⟩ := ha.moved hm.input
      rw [hm.outputLength, hm.cfg] at hfit
      rw [hm.outputLength] at hmu
      exact ⟨u, _, hm.trans hmu, fun _ => ⟨(bind_of_ok hrun).trans hu, rfl, hbits.trans hrest, hz⟩, fun hno => by omega⟩
    · have hfull := flush_over hm.outputOk (by omega)
      rw [hm.outputLength, hm.cfg] at hfit
      exact ⟨t, bs, hm, fun hno => absurd hno hfit,
        fun _ => ⟨(bind_of_ok hrun).trans hfull, (List.take_of_length_le (by omega)).symm⟩⟩

/-! ### Commands from stream to stream -/

/-- A command from stream to stream needs both (10_state.md R24). -/
theorem exec_streams_absent {i : Instr} {s : State} (hin : i ∈ inputCommands) (hout : i ∈ outputCommands)
    (h : s.ctrl.inEn = false ∨ s.ctrl.outEn = false) : exec i s = .next (takeError .nullArgument s) :=
  h.elim (exec_reader_absent hin) (exec_writer_absent hout)

/-- With both streams present HUF_COMPRESS and HUF_EXPAND do nothing on an empty input, and else `x` (R129, R130). -/
theorem streamCommand_run {s : State} (x : Op Unit) (hin : s.ctrl.inEn = true) (hout : s.ctrl.outEn = true) :
    (needReader >>= fun _ => needWriter >>= fun _ => get >>= fun t => if t.inp.len = 0#32 then pure () else x) s =
      if s.inp.len = 0#32 then .ok () s else x s := by
  refine (needReader_bind_present _ hin).trans ((needWriter_bind_present _ hout).trans ?_)
  rw [get_bind, op_ite, op_pure]

end Sys2Proof.Proofs

/-! PROOFS. HUF_COMPRESS (46_huffman_stream.md R129): the code of a tree with distinct symbols, Build on a scanned input, and
the header, the count and the codewords as one stream. -/

namespace Sys2Proof.Safety

open Sys2Proof Sys2Proof.Machine

/-! ### Codewords -/

theorem HTree.mem_of_codeword {T : HTree} {sym : Byte} {p : List Bool} (h : T.codeword sym = some p) :
    sym ∈ T.symbols := by
  induction T generalizing p with
  | leaf x =>
    rw [codeword] at h
    split at h
    · rename_i hx; simp [symbols, hx]
    · cases h
  | node l r ihl ihr =>
    rw [symbols, List.mem_append]
    rw [codeword] at h
    cases hl : l.codeword sym with
    | some q => exact .inl (ihl hl)
    | none =>
      rw [hl] at h
      obtain ⟨q, hq, -⟩ := Option.map_eq_some_iff.mp h
      exact .inr (ihr hq)

/-- Every symbol of a tree has a codeword. -/
theorem HTree.exists_codeword {T : HTree} {sym : Byte} (h : sym ∈ T.symbols) : ∃ p, T.codeword sym = some p := by
  induction T with
  | leaf x => exact ⟨[], if_pos (List.mem_singleton.mp h).symm⟩
  | node l r ihl ihr =>
    rw [codeword]
    cases hl : l.codeword sym with
    | some q => exact ⟨_, rfl⟩
    | none =>
      have hnot : sym ∉ l.symbols := fun hmem => by
        obtain ⟨q, hq⟩ := ihl hmem
        rw [hl] at hq
        cases hq
      obtain ⟨q, hq⟩ := ihr ((List.mem_append.mp h).resolve_left hnot)
      exact ⟨_, by rw [hq]; rfl⟩

/-- Where no symbol is repeated a symbol's codeword is the one path to it (45_huffman_code.md R121). -/
theorem HTree.codeword_of_symbolAt {T : HTree} {sym : Byte} {p : List Bool} (hT : T.distinct)
    (h : T.symbolAt p = some sym) : T.codeword sym = some p := by
  induction T generalizing p with
  | leaf x =>
    cases p with
    | nil => exact if_pos (Option.some.inj h)
    | cons b p => cases h
  | node l r ihl ihr =>
    obtain ⟨hl, hr, hdisjoint⟩ := List.nodup_append'.mp hT
    match p with
    | [] => cases h
    | false :: p => rw [codeword, ihl hl h]
    | true :: p =>
      have hnone : l.codeword sym = none := Option.eq_none_iff_forall_not_mem.mpr fun q hq =>
        hdisjoint (mem_of_codeword hq) (symbolAt_mem h)
      rw [codeword, hnone, ihr hr h]
      rfl

/-- What a codeword stands for is read back from the front of any bits (R121, R123). -/
theorem HTree.decode_codeword {T : HTree} {sym : Byte} {p : List Bool} (h : T.codeword sym = some p) (rest : List Bool) :
    T.decode (p ++ rest) = some (sym, rest) := by
  induction T generalizing p with
  | leaf x =>
    rw [codeword] at h
    split at h
    · rename_i hx
      cases h
      rw [hx]
      rfl
    · cases h
  | node l r ihl ihr =>
    rw [codeword] at h
    cases hl : l.codeword sym with
    | some q =>
      rw [hl] at h
      cases h
      exact ihl hl
    | none =>
      rw [hl] at h
      obtain ⟨q, hq, rfl⟩ := Option.map_eq_some_iff.mp h
      exact ihr hq

theorem HTree.encodeMany_cons {T : HTree} {sym : Byte} {syms : List Byte} {bs : List Bool} :
    T.encodeMany (sym :: syms) = some bs ↔
      ∃ p q, T.codeword sym = some p ∧ T.encodeMany syms = some q ∧ bs = p ++ q := by
  rw [encodeMany]
  cases T.codeword sym <;> cases T.encodeMany syms <;> simp [eq_comm]

theorem HTree.exists_encodeMany {T : HTree} {syms : List Byte} (h : ∀ sym ∈ syms, sym ∈ T.symbols) :
    ∃ bs, T.encodeMany syms = some bs := by
  induction syms with
  | nil => exact ⟨[], rfl⟩
  | cons sym syms ih =>
    obtain ⟨hsym, hsyms⟩ := List.forall_mem_cons.mp h
    obtain ⟨p, hp⟩ := exists_codeword hsym
    obtain ⟨q, hq⟩ := ih hsyms
    exact ⟨_, encodeMany_cons.mpr ⟨p, q, hp, hq, rfl⟩⟩

theorem HTree.decodeMany_succ {T : HTree} {n : Nat} {bs tail : List Bool} {syms : List Byte} :
    T.decodeMany (n + 1) bs = some (syms, tail) ↔
      ∃ sym rest syms', T.decode bs = some (sym, rest) ∧ T.decodeMany n rest = some (syms', tail) ∧
        syms = sym :: syms' := by
  rw [decodeMany]
  cases T.decode bs with
  | none => simp
  | some x =>
    obtain ⟨sym, rest⟩ := x
    dsimp only
    cases hm : T.decodeMany n rest with
    | none => simp [hm]
    | some y =>
      obtain ⟨syms', tail'⟩ := y
      simp only [Option.some.injEq, Prod.mk.injEq]
      constructor
      · rintro ⟨rfl, rfl⟩
        exact ⟨sym, rest, syms', ⟨rfl, rfl⟩, hm, rfl⟩
      · rintro ⟨_, _, syms'', ⟨rfl, rfl⟩, hm', rfl⟩
        cases hm.symm.trans hm'
        exact ⟨rfl, rfl⟩

theorem HTree.decodeMany_length {T : HTree} {n : Nat} : ∀ {bs tail : List Bool} {syms : List Byte},
    T.decodeMany n bs = some (syms, tail) → syms.length = n := by
  induction n with
  | zero => intro bs tail syms h; cases h; rfl
  | succ n ih =>
    intro bs tail syms h
    obtain ⟨sym, rest, syms', -, hrest, rfl⟩ := decodeMany_succ.mp h
    rw [List.length_cons, ih hrest]

/-- What has been encoded is read back (46_huffman_stream.md R131). -/
theorem HTree.decodeMany_encodeMany {T : HTree} {syms : List Byte} {bs : List Bool} (h : T.encodeMany syms = some bs)
    (rest : List Bool) : T.decodeMany syms.length (bs ++ rest) = some (syms, rest) := by
  induction syms generalizing bs with
  | nil => cases h; rfl
  | cons sym syms ih =>
    obtain ⟨p, q, hp, hq, rfl⟩ := encodeMany_cons.mp h
    rw [List.append_assoc]
    exact decodeMany_succ.mpr ⟨sym, _, syms, decode_codeword hp _, ih hq, rfl⟩

end Sys2Proof.Safety

namespace Sys2Proof.Proofs

open Sys2Proof Sys2Proof.Machine Sys2Proof.Safety Sys2Proof.Laws

/-! ### Build looks at no input -/

/-- The end of a run with another input unit. -/
def withInput {α : Type} (u : InUnit) : EStateM.Result Stop State α → EStateM.Result Stop State α
  | .ok a t => .ok a { t with inp := u }
  | .error e t => .error e { t with inp := u }

/-- `x` runs in the same way whatever the input unit is, and leaves it alone. -/
def InputBlind {α : Type} (x : Op α) : Prop := ∀ (s : State) (u : InUnit), x { s with inp := u } = withInput u (x s)

namespace InputBlind

variable {α β : Type}

theorem ofPure (a : α) : InputBlind (pure a : Op α) := fun _ _ => rfl

theorem ofModify {f : State → State} (h : ∀ s u, f { s with inp := u } = { f s with inp := u }) :
    InputBlind (modify f : Op PUnit) := fun s u => by rw [op_modify, op_modify, h]; rfl

theorem ofBind {x : Op α} {f : α → Op β} (hx : InputBlind x) (hf : ∀ a, InputBlind (f a)) : InputBlind (x >>= f) :=
  fun s u => by
    rw [op_bind, op_bind, hx]
    cases x s with
    | ok a t => exact hf a t u
    | error e t => rfl

theorem ofGetBind {f : State → Op α} (hf : ∀ s u, f { s with inp := u } = f s) (h : ∀ s, InputBlind (f s)) :
    InputBlind (get >>= f) := fun s u => by
  rw [get_bind, get_bind, hf]
  exact h s s u

theorem ofIte (p : Prop) [Decidable p] {x y : Op α} (hx : InputBlind x) (hy : InputBlind y) :
    InputBlind (if p then x else y) := by split <;> assumption

end InputBlind

section
open InputBlind

theorem nodeAt_inputBlind (n : Nat) : InputBlind (nodeAt n) := fun s u => by
  rw [nodeAt_run, nodeAt_run]
  cases nodeOf s.code n <;> rfl

theorem setParent_inputBlind (n p : NodeIdx) : InputBlind (setParent n p) :=
  ofBind (nodeAt_inputBlind _) fun _ => ofModify fun _ _ => rfl

theorem alloc_inputBlind (leaf : Bool) (sym : Byte) (f : Word) (l r : NodeIdx) : InputBlind (alloc leaf sym f l r) :=
  fun s u => by
    rw [alloc_run, alloc_run]
    by_cases h : s.code.count.toNat < Config.nodeCap
    · rw [if_pos h, if_pos h]; rfl
    · rw [if_neg h, if_neg h]; rfl

theorem offer_inputBlind (e : Entry) : InputBlind (offer e) := fun s u => by
  rw [offer_run, offer_run]
  cases offered s.pq e <;> rfl

theorem pollMin_inputBlind : InputBlind pollMin := fun _ _ => rfl

theorem offerLeaf_inputBlind (sym : Nat) : InputBlind (offerLeaf sym) :=
  ofGetBind (fun _ _ => rfl) fun _ => ofIte _ (ofPure _) <|
    ofBind (alloc_inputBlind _ _ _ _ _) fun _ => ofBind (ofModify fun _ _ => rfl) fun _ => offer_inputBlind _

theorem offerLeaves_inputBlind (l : List Nat) : InputBlind (offerLeaves l) := by
  induction l with
  | nil => exact ofPure _
  | cons sym rest ih => exact ofBind (offerLeaf_inputBlind sym) fun _ => ih

theorem mergeTwo_inputBlind : InputBlind mergeTwo :=
  ofBind pollMin_inputBlind fun _ => ofBind pollMin_inputBlind fun _ => ofBind (alloc_inputBlind _ _ _ _ _) fun _ =>
    ofBind (setParent_inputBlind _ _) fun _ => ofBind (setParent_inputBlind _ _) fun _ => offer_inputBlind _

theorem mergeAll_inputBlind (fuel : Nat) : InputBlind (mergeAll fuel) := by
  induction fuel with
  | zero => exact ofPure _
  | succ fuel ih =>
    exact ofGetBind (fun _ _ => rfl) fun _ => ofIte _ (ofBind mergeTwo_inputBlind fun _ => ih) (ofPure _)

theorem build_inputBlind : InputBlind build :=
  ofBind (ofModify fun _ _ => rfl) fun _ => ofBind (offerLeaves_inputBlind _) fun _ =>
    ofGetBind (fun _ _ => rfl) fun _ => ofBind (mergeAll_inputBlind _) fun _ => ofBind pollMin_inputBlind fun _ =>
      ofModify fun _ _ => rfl

end

/-! ### Build on a scanned input -/

/-- The counts of bytes sum up to their number. -/
theorem sum_count_bytes {n : Nat} (bs : List Nat) (h : ∀ b ∈ bs, b < n) :
    ((List.range n).map fun sym => bs.count sym).sum = bs.length := by
  have hcard := Multiset.sum_count_eq_card (s := (List.range n).toFinset) (m := (bs : Multiset Nat)) fun b hb =>
    List.mem_toFinset.mpr (List.mem_range.mpr (h b hb))
  simpa only [List.sum_toFinset _ List.nodup_range, Multiset.coe_card, Multiset.coe_count] using hcard

theorem inputBytes_lt {s : State} {k n b : Nat} (h : b ∈ inputBytes s k n) : b < 256 := by
  obtain ⟨j, -, rfl⟩ := List.mem_map.mp h
  exact (s.mem.read _).isLt

@[simp] theorem inputBytes_length (s : State) (k n : Nat) : (inputBytes s k n).length = n := by
  simp [inputBytes]

/-- `f` counts the bytes of the input stream of `s`, whatever its position (44_huffman_tree.md R110). -/
structure Scanned (s : State) (f : FreqTable) : Prop where
  valid  : f.valid = true
  counts : ∀ sym, sym < 256 → (freqAt f sym).toNat = (inputBytes s 0 s.inp.len.toNat).count sym

section
variable {s : State} {f : FreqTable} (h : Scanned s f)
include h

/-- A scanned table sums up to the length of the stream. -/
theorem Scanned.total : totalFreq f = s.inp.len.toNat := by
  refine Eq.trans (congrArg List.sum (List.map_congr_left fun sym hs => h.counts sym (List.mem_range.mp hs))) ?_
  rw [sum_count_bytes _ fun b => inputBytes_lt, inputBytes_length]

theorem Scanned.counted_iff (sym : Byte) :
    freqAt f sym.toNat ≠ 0#32 ↔ sym.toNat ∈ inputBytes s 0 s.inp.len.toNat := by
  rw [← List.count_pos_iff, ← h.counts _ sym.isLt, Nat.pos_iff_ne_zero]
  exact not_congr BitVec.toNat_inj.symm

end

/-- The state after the scan and Build of HUF_COMPRESS: the scanned table, the rewound input, and the queue and the code
that Build leaves in `b` (R129). -/
abbrev scanBuilt (s : State) (f : FreqTable) (b : State) : State :=
  { s with freq := f, inp := rewound s.inp, pq := b.pq, code := b.code }

/-- The scan and Build of HUF_COMPRESS on a stream that is not empty: the code and the queue are those that HUF_BUILD leaves
on the scanned table (R129). -/
theorem scan_build_run {s : State} (hi : InputOk s) (hlen : s.inp.len ≠ 0#32) :
    ∃ f b T, Scanned s f ∧ exec .hufBuild { s with freq := f } = .next (complete b) ∧ Built { s with freq := f } b T ∧
      (scan >>= fun _ => build) s = .ok () (scanBuilt s f b) := by
  obtain ⟨f, hscan, hvalid, hcounts⟩ := scan_run hi
  have hf : Scanned s f := ⟨hvalid, hcounts⟩
  have htotal := hf.total
  have hpos : totalFreq f ≠ 0 := fun h0 => hlen (BitVec.eq_of_toNat_eq (htotal.symm.trans h0))
  have hsum : totalFreq f ≤ 2 ^ 31 - 1 := by
    obtain ⟨hcfg, hcap, -⟩ := hi
    have := hcfg.1.2
    omega
  have hne := (totalFreq_ne_zero_iff f).mp hpos
  obtain ⟨b, T, hbuild, hb⟩ := build_run (s := { s with freq := f }) hne hsum
  refine ⟨f, b, T, hf, exec_of_bodyOf_ok ((bodyOf_hufBuild _).trans ?_), hb, (bind_of_ok hscan).trans ?_⟩
  · rw [require_bind_pos hvalid, freqTotal_eq, require_bind_pos hpos, require_bind_pos hsum, hbuild]
  · have hblind := build_inputBlind { s with freq := f } (rewound s.inp)
    rw [hbuild] at hblind
    refine hblind.trans ?_
    rw [hb.same]
    rfl

/-! ### The coded stream (R128) -/

/-- The header of the held tree is one sequence of bits (45_huffman_code.md R119). -/
theorem serRoot_eq_putAll {s : State} {T : HTree} (hT : HoldsTree s.code T) : serRoot s = putAll T.header s := by
  obtain ⟨-, hheld, -, hcap, -⟩ := hT
  exact ser_eq_putAll hheld hcap

/-- The codeword of a symbol of the held tree is written (45_huffman_code.md R122). -/
theorem writes_encodeSym {s : State} {T : HTree} (hT : HoldsTree s.code T) (hd : T.distinct) (hi : InputOk s)
    (ho : OutputOk s) {sym : Byte} {p : List Bool} (hp : T.codeword sym = some p) :
    Writes (encodeSym sym.toNat) s p (inputBits s) := by
  obtain ⟨-, hheld, -, hcap, hmaps⟩ := hT
  obtain ⟨hleaf, hpath⟩ := hmaps sym
  obtain ⟨q, hq, hend⟩ := hpath (hleaf.mpr (HTree.mem_of_codeword hp))
  cases hp.symm.trans (HTree.codeword_of_symbolAt hd hend)
  exact (writes_putAll p hi ho).congr (encodeSym_eq_putAll hheld hcap hq hend)

/-- The byte at the front of the stream is read whole (41_bitstream_in.md R77). -/
theorem getBits_front {s : State} {b : Nat} {rest : List Bool} (hs : InputOk s) (hb : b < 256)
    (h : inputBits s = bitsMSB 8 b ++ rest) :
    ∃ t, getBits 8 s = .ok b t ∧ Consumed s t (bitsMSB 8 b) ∧ inputBits t = rest := by
  obtain ⟨t, hrun, hc, hrest⟩ := varintByte_front hs hb h
  have h8 : 8 ≤ inBitsLeft s.inp := by rw [← inputBits_length, h]; simp
  rw [varintByte, bitsLeft_bind, require_bind_pos h8] at hrun
  exact ⟨t, hrun, hc, hrest⟩

/-- The coding loop writes the codewords of the bytes it reads (R129). -/
theorem writes_compressBytes {T : HTree} (hd : T.distinct) {bytes : List Nat} {rest : List Bool} :
    ∀ {s : State} {codewords : List Bool}, HoldsTree s.code T → InputOk s → OutputOk s → (∀ b ∈ bytes, b < 256) →
      inputBits s = bytesBits bytes ++ rest → T.encodeMany (byteSymbols bytes) = some codewords →
      Writes (compressBytes bytes.length) s codewords rest := by
  induction bytes with
  | nil =>
    intro s codewords _ hi ho _ hbits hcode
    cases hcode
    exact (show inputBits s = rest from hbits) ▸ writes_putAll [] hi ho
  | cons b bytes ih =>
    intro s codewords hT hi ho hall hbits hcode
    obtain ⟨hb, hbytes⟩ := List.forall_mem_cons.mp hall
    obtain ⟨p, q, hp, hq, rfl⟩ := HTree.encodeMany_cons.mp hcode
    obtain ⟨t, hread, hc, hrest⟩ := getBits_front hi hb (by rw [hbits, bytesBits_cons, List.append_assoc])
    have hm := hc.moved ho
    have hsym := writes_encodeSym (hm.code ▸ hT) hd hm.input hm.outputOk hp
    rw [BitVec.toNat_ofNat, Nat.mod_eq_of_lt hb] at hsym
    refine Writes.after hread hm (hsym.bind fun u hu hubits => ?_)
    exact ih (by rw [hu.code, hm.code]; exact hT) hu.input hu.outputOk hbytes (hubits.trans hrest) hq

/-- What HUF_COMPRESS writes before the flush: the header, the count and the codewords (R128, R129). -/
def codedStream (n : Nat) : Op Unit := do
  serRoot
  writeVarint n
  inReset
  compressBytes n

theorem compressStream_eq (s : State) :
    compressStream s = ((scan >>= fun _ => build) >>= fun _ => codedStream s.inp.len.toNat >>= fun _ => flush) s := by
  simp only [compressStream, codedStream, bind_assoc]
  rfl

/-- The bits left of a stream that has been rewound. -/
theorem inputBits_rewound (s : State) :
    inputBits { s with inp := rewound s.inp } = bytesBits (inputBytes s 0 s.inp.len.toNat) := rfl

theorem inputOk_rewound {s : State} (h : InputOk s) : InputOk { s with inp := rewound s.inp } := by
  obtain ⟨hcfg, hcap, -, -⟩ := h
  exact ⟨hcfg, hcap, Nat.zero_le _, Nat.zero_le _⟩

/-- Header, count and codewords are written, and the input is read to its end (R128, R129). -/
theorem writes_codedStream {s : State} {T : HTree} {codewords : List Bool} (hT : HoldsTree s.code T) (hd : T.distinct)
    (hi : InputOk s) (ho : OutputOk s)
    (hcode : T.encodeMany (byteSymbols (inputBytes s 0 s.inp.len.toNat)) = some codewords) :
    Writes (codedStream s.inp.len.toNat) s
      (T.header ++ (bytesBits (varintBytes 4 s.inp.len.toNat) ++ codewords)) [] := by
  refine ((writes_putAll T.header hi ho).congr (serRoot_eq_putAll hT)).bind fun t ht _ => ?_
  refine ((writes_putAll _ ht.input ht.outputOk).congr (x := writeVarint s.inp.len.toNat)
    (congrFun (writeVarintFrom_eq_putAll 4 s.inp.len.toNat) t)).bind fun u hu _ => ?_
  have hsu := ht.trans hu
  have hbytes : inputBytes u 0 s.inp.len.toNat = inputBytes s 0 s.inp.len.toNat := hsu.inputBytes_eq (by
    obtain ⟨hcfg, hle, -⟩ := hi
    have := hcfg.1.2
    omega)
  refine Writes.after (t := { u with inp := rewound u.inp }) rfl
    ⟨rfl, inputOk_rewound hsu.input, rfl, Appended.refl hsu.outputOk⟩ ?_
  have hloop := writes_compressBytes (s := { u with inp := rewound u.inp }) (rest := []) hd
    (by exact hsu.code ▸ hT) (inputOk_rewound hsu.input) hsu.outputOk (fun b => inputBytes_lt)
    (by rw [inputBits_rewound, hsu.len, hbytes, List.append_nil]) hcode
  rwa [inputBytes_length] at hloop

/-! ### HUF_COMPRESS -/

theorem bodyOf_hufCompress {s : State} (hin : s.ctrl.inEn = true) (hout : s.ctrl.outEn = true) :
    bodyOf .hufCompress s = if s.inp.len = 0#32 then .ok () s else compressStream s :=
  streamCommand_run compressStream hin hout

/-- With nothing to compress nothing is done (R129). -/
theorem exec_hufCompress_empty {s : State} (hin : s.ctrl.inEn = true) (hout : s.ctrl.outEn = true)
    (hlen : s.inp.len = 0#32) : exec .hufCompress s = .next (complete s) :=
  exec_of_bodyOf_ok ((bodyOf_hufCompress hin hout).trans (if_pos hlen))

/-- Every byte of the scanned input has a codeword in the tree that Build makes of the counts. -/
theorem Built.exists_codewords {s b : State} {f : FreqTable} {T : HTree} (hb : Built { s with freq := f } b T)
    (hf : Scanned s f) : ∃ codewords, T.encodeMany (byteSymbols (inputBytes s 0 s.inp.len.toNat)) = some codewords := by
  refine HTree.exists_encodeMany fun sym hsym => ?_
  obtain ⟨x, hx, rfl⟩ := List.mem_map.mp hsym
  refine (hb.mem_symbols _).mpr ((hf.counted_iff _).mpr ?_)
  rwa [BitVec.toNat_ofNat, Nat.mod_eq_of_lt (inputBytes_lt hx)]

/-- All of a stream is read where no bit of it is left. -/
theorem read_to_end {s : State} (hi : InputOk s) (h : inputBits s = []) : s.inp.pos = s.inp.len ∧ s.inp.nbits = 0#4 := by
  obtain ⟨-, -, hpos, -⟩ := hi
  have hleft : inBitsLeft s.inp = 0 := by rw [← inputBits_length, h]; rfl
  rw [inBitsLeft] at hleft
  exact ⟨BitVec.eq_of_toNat_eq (by omega), BitVec.eq_of_toNat_eq (by simp; omega)⟩

/-- Settles O46: after the scan and Build the command is one stream that is flushed at its end. -/
theorem compressWritesStream : Obligations.CompressWritesStream := by
  unfold Obligations.CompressWritesStream
  refine ⟨rfl, fun s => ⟨exec_streams_absent (by decide) (by decide), exec_hufCompress_empty,
    fun hin hout hlen hi ho => ?_⟩⟩
  obtain ⟨f, b, T, hf, hbuild, hb, hrun⟩ := scan_build_run hi hlen
  obtain ⟨codewords, hcode⟩ := hb.exists_codewords hf
  have hlen31 : s.inp.len.toNat < 2 ^ 31 := by
    obtain ⟨hcfg, hcap, -⟩ := hi
    have := hcfg.1.2
    omega
  obtain ⟨hmin, hval⟩ := varintBytes_minimal hlen31
  have hbody : bodyOf .hufCompress s = _ := (bodyOf_hufCompress hin hout).trans
    ((if_neg hlen).trans ((compressStream_eq s).trans (bind_of_ok hrun)))
  obtain ⟨t, written, hm, hfits, hover⟩ :=
    (writes_codedStream (s := scanBuilt s f b) hb.holds hb.nodup (inputOk_rewound hi) ho hcode).flushed
  rw [← List.append_assoc] at hfits hover
  have hheld : t.code = b.code := hm.code
  have hfreq : t.freq = f := by rw [hm.shape]
  have hpq : t.pq = b.pq := by rw [hm.shape]
  have happended := hm.appended_from (u := s) rfl rfl rfl
  refine ⟨t, T, _, codewords, _, rfl, hb.nodup, fun sym => (hb.mem_symbols sym).trans (hf.counted_iff sym), hmin, hval,
    hcode, ?_⟩
  rw [hheld, hfreq, hpq]
  refine ⟨hb.holds, hf.valid, hf.counts, ⟨b, hbuild, rfl, rfl⟩, hb.empty, hb.natural, hm.shape, hm.len, hm.input,
    fun hfit => ?_, fun hno => ?_⟩
  · obtain ⟨hok, rfl, hnil, hz⟩ := hfits hfit
    obtain ⟨hpos, hnbits⟩ := read_to_end hm.input hnil
    exact ⟨exec_of_bodyOf_ok (hbody.trans hok), hpos.trans hm.len, hnbits, hz, happended⟩
  · obtain ⟨herr, rfl⟩ := hover hno
    exact ⟨exec_of_bodyOf_raise (hbody.trans herr), happended⟩

end Sys2Proof.Proofs

/-! PROOFS. HUF_EXPAND (46_huffman_stream.md R130): how a header that is none ends, the decoding loop, and what the command
makes of every input. -/

namespace Sys2Proof.Proofs

open Sys2Proof Sys2Proof.Machine Sys2Proof.Safety Sys2Proof.Laws

/-! ### Where Deser raises (45_huffman_code.md R120) -/

/-- Where a header fails: its bits have run out, or the arena or the stack is full. -/
def RunOut (c : ErrCode) (t : State) : Prop :=
  (c = .invalidFormat ∧ inBitsLeft t.inp < 8) ∨
    (c = .capacityExceeded ∧ (¬ t.code.count.toNat < Config.nodeCap ∨ t.dstack.dsp = 511#9))

/-- Where `x` raises, a header fails. -/
def RaisesRunOut {α : Type} (x : Op α) : Prop := ∀ s c t, x s = .error (.raise c) t → RunOut c t

/-- A sequence raises in its first half, or in its second from where the first has ended. -/
theorem raise_of_bind {α β : Type} {x : Op α} {f : α → Op β} {s t : State} {c : ErrCode}
    (h : (x >>= f) s = .error (.raise c) t) :
    x s = .error (.raise c) t ∨ ∃ a u, x s = .ok a u ∧ f a u = .error (.raise c) t := by
  rw [op_bind] at h
  cases hr : x s with
  | ok a u => rw [hr] at h; exact .inr ⟨a, u, rfl, h⟩
  | error e u => rw [hr] at h; cases h; exact .inl rfl

namespace RaisesRunOut

variable {α β : Type}

theorem ofOk {x : Op α} (h : ∀ s, ∃ a t, x s = .ok a t) : RaisesRunOut x := fun s c t hx => by
  obtain ⟨a, u, hu⟩ := h s
  rw [hu] at hx
  cases hx

theorem ofPure (a : α) : RaisesRunOut (pure a : Op α) := ofOk fun s => ⟨a, s, rfl⟩

theorem ofModify (f : State → State) : RaisesRunOut (modify f : Op PUnit) := ofOk fun s => ⟨_, _, op_modify f s⟩

theorem ofBind {x : Op α} {f : α → Op β} (hx : RaisesRunOut x) (hf : ∀ a, RaisesRunOut (f a)) :
    RaisesRunOut (x >>= f) := fun s c t h => by
  rcases raise_of_bind h with hx' | ⟨a, u, -, hf'⟩
  · exact hx s c t hx'
  · exact hf a u c t hf'

theorem ofGetBind {f : State → Op α} (h : ∀ s c t, f s s = .error (.raise c) t → RunOut c t) :
    RaisesRunOut (get >>= f) := h

theorem ofGet {f : State → Op α} (h : ∀ s, RaisesRunOut (f s)) : RaisesRunOut (get >>= f) := fun s => h s s

theorem ofIte (p : Prop) [Decidable p] {x y : Op α} (hx : RaisesRunOut x) (hy : RaisesRunOut y) :
    RaisesRunOut (if p then x else y) := by split <;> assumption

/-- A check that fails only where a header fails. -/
theorem ofRequire {p : Prop} [Decidable p] {c : ErrCode} {f : Unit → Op α} {s : State} (hp : ¬ p → RunOut c s)
    (hf : RaisesRunOut (f ())) : ∀ c' t, (require p c >>= f) s = .error (.raise c') t → RunOut c' t := fun c' t h => by
  by_cases h0 : p
  · rw [require_bind_pos h0] at h
    exact hf s c' t h
  · rw [require_bind_neg h0] at h
    cases h
    exact hp h0

end RaisesRunOut

section
open RaisesRunOut

theorem nodeAt_raisesRunOut (n : Nat) : RaisesRunOut (nodeAt n) := fun s c t h => by
  rw [nodeAt_run] at h
  cases hn : nodeOf s.code n <;> rw [hn] at h <;> cases h

theorem setParent_raisesRunOut (n p : NodeIdx) : RaisesRunOut (setParent n p) :=
  ofBind (nodeAt_raisesRunOut _) fun _ => ofModify _

theorem inByte_raisesRunOut (a : Nat) : RaisesRunOut (inByte a) := fun s c t h => by
  by_cases ha : a < s.cfg.inCap
  · rw [inByte_ok ha] at h; cases h
  · rw [inByte_fault ha] at h; cases h

theorem getBit_raisesRunOut : RaisesRunOut getBit :=
  ofBind (ofGet fun _ => ofIte _ (ofBind (inByte_raisesRunOut _) fun _ => ofOk fun _ => ⟨_, _, rfl⟩) (ofPure _)) fun _ =>
    ofOk fun _ => ⟨_, _, rfl⟩

theorem getBitsFrom_raisesRunOut (n : Nat) : ∀ v, RaisesRunOut (getBitsFrom n v) := by
  induction n with
  | zero => exact fun _ => ofPure _
  | succ n ih => exact fun v => ofBind getBit_raisesRunOut fun _ => ih _

theorem alloc_raisesRunOut (leaf : Bool) (sym : Byte) (f : Word) (l r : NodeIdx) : RaisesRunOut (alloc leaf sym f l r) :=
  ofGetBind fun _ => ofRequire (fun hc => .inr ⟨rfl, .inl hc⟩) (ofOk fun _ => ⟨_, _, rfl⟩)

theorem collapse_raisesRunOut (fuel : Nat) : RaisesRunOut (collapse fuel) := by
  induction fuel with
  | zero => exact ofPure _
  | succ fuel ih =>
    refine ofGet fun s => ?_
    cases collapsible s.dstack with
    | none => exact ofPure _
    | some lr =>
      exact ofBind (ofModify _) fun _ => ofBind (alloc_raisesRunOut _ _ _ _ _) fun _ =>
        ofBind (setParent_raisesRunOut _ _) fun _ => ofBind (setParent_raisesRunOut _ _) fun _ =>
          ofBind (ofModify _) fun _ => ih

theorem parentMarker_raisesRunOut : RaisesRunOut parentMarker :=
  ofGetBind fun _ => ofRequire (fun hd => .inr ⟨rfl, .inr (not_not.mp hd)⟩) (ofModify _)

theorem leafMarker_raisesRunOut : RaisesRunOut leafMarker := fun s => by
  rw [leafMarker, bitsLeft_bind]
  refine ofRequire (fun h8 => .inl ⟨rfl, by omega⟩) (ofBind (getBitsFrom_raisesRunOut 8 0) fun sym => ofGetBind fun t => ?_)
  refine ofRequire (fun hfull => .inr ⟨rfl, ?_⟩) (ofBind (alloc_raisesRunOut _ _ _ _ _) fun n => ?_)
  · by_cases hc : t.code.count.toNat < Config.nodeCap
    · exact .inr (by_contra fun hd => hfull ⟨hc, hd⟩)
    · exact .inl hc
  · exact ofBind (ofModify _) fun _ => ofBind (ofModify _) fun _ => ofGet fun _ => collapse_raisesRunOut _

end

/-- The loop of Deser raises where a header fails: with fuel for all the bits left it ends before the fuel does. -/
theorem deserFrom_runOut (fuel : Nat) : ∀ {s₀ s t : State} {es : List Slot} {c : ErrCode}, Parsing s₀ es s →
    OpenParents es → inBitsLeft s.inp ≤ fuel → deserFrom fuel s = .error (.raise c) t → RunOut c t := by
  induction fuel with
  | zero =>
    intro s₀ s t es c _ _ hfuel h
    rw [deserFrom_short 0 (by omega)] at h
    cases h
    exact .inl ⟨rfl, by omega⟩
  | succ fuel ih =>
    intro s₀ s t es c hs ho hfuel h
    by_cases h1 : 1 ≤ inBitsLeft s.inp
    · obtain ⟨b, u, hu, hb⟩ := getBit_consumed hs.inputOk h1
      have hleft : inBitsLeft s.inp = 1 + inBitsLeft u.inp := hb.left
      rw [deserFrom, bitsLeft_bind, require_bind_pos h1, bind_of_ok hu] at h
      cases b with
      | true =>
        rw [if_pos rfl] at h
        rcases raise_of_bind h with hmark | ⟨_, v, hmark, hrest⟩
        · exact parentMarker_raisesRunOut u c t hmark
        · have hv := parentMarker_reads hs ho hb
          have hinp := parentMarker_footprint u
          rw [hmark] at hv hinp
          have hinp : v.inp = u.inp := hinp.2 .inp (by simp)
          exact ih hv ho.parent (by rw [hinp]; omega) hrest
      | false =>
        rw [if_neg (by simp)] at h
        rcases raise_of_bind h with hmark | ⟨_, v, hmark, hrest⟩
        · exact leafMarker_raisesRunOut u c t hmark
        · have hv := leafMarker_reads hs ho hb
          rw [hmark] at hv
          obtain ⟨⟨x, hx⟩ | ⟨es', ho', hes⟩, hlt⟩ := hv <;> rw [get_bind, soleNode_eq] at hrest
          · rw [hx.stacked.stack] at hrest
            cases hrest
          · rw [hes.stacked.stack, ho'.onlyNode_eq] at hrest
            exact ih hes ho' (by omega) hrest
    · rw [deserFrom_short _ (by omega)] at h
      cases h
      exact .inl ⟨rfl, by omega⟩

theorem deser_runOut {s t : State} {c : ErrCode} (hs : InputOk s) (h : deser s = .error (.raise c) t) : RunOut c t := by
  rw [deser, op_bind, op_modify] at h
  dsimp only at h
  rw [bitsLeft_bind] at h
  exact deserFrom_runOut _ (s₀ := s) (by exact ⟨hs, stacked_start _ _, Consumed.refl hs⟩) .nil le_rfl h

/-! ### The decoding loop -/

/-- A codeword that is cut short ends the loop, with all bits read (45_huffman_code.md R123). -/
theorem expandSymbols_short {s : State} {T : HTree} (n : Nat) (hT : HoldsTree s.code T) (hi : InputOk s) (ho : OutputOk s)
    (h : T.decode (inputBits s) = none) :
    ∃ t, expandSymbols (n + 1) s = .error (.raise .prematureEos) t ∧ Moved s t [] ∧ inputBits t = [] := by
  have hdec := decodeSym_decodes hT hi
  rw [h] at hdec
  obtain ⟨t, hrun, hc⟩ := hdec
  have hrest : inputBits s ++ inputBits t = inputBits s ++ [] := hc.bits.symm.trans (List.append_nil _).symm
  exact ⟨t, by rw [expandSymbols, op_bind, hrun], hc.moved ho, List.append_cancel_left hrest⟩

/-- A codeword is read and its symbol's byte written, or as much of the byte as fits (R130). -/
theorem expandSymbols_symbol {s : State} {T : HTree} {sym : Byte} {rest : List Bool} (n : Nat) (hT : HoldsTree s.code T)
    (hi : InputOk s) (ho : OutputOk s) (h : T.decode (inputBits s) = some (sym, rest)) :
    (8 ≤ room s → ∃ t, expandSymbols (n + 1) s = expandSymbols n t ∧ Moved s t (bitsMSB 8 sym.toNat) ∧
      inputBits t = rest) ∧
    (room s < 8 → ∃ t, expandSymbols (n + 1) s = .error (.raise .outOverflow) t ∧
      Moved s t ((bitsMSB 8 sym.toNat).take (room s)) ∧ inputBits t = rest) := by
  have hdec := decodeSym_decodes hT hi
  rw [h] at hdec
  obtain ⟨t, bs, hrun, hc, hbits⟩ := hdec
  have hm := hc.moved ho
  have hrest : inputBits t = rest := List.append_cancel_left (hc.bits.symm.trans hbits)
  rw [expandSymbols, bind_of_ok hrun, putBits_eq_putAll]
  refine ⟨fun hfit => ?_, fun hover => ?_⟩
  · obtain ⟨u, hu, ha⟩ := putAll_appended (bitsMSB 8 sym.toNat) hm.outputOk (by rw [hm.room]; simpa using hfit)
    obtain ⟨hmu, hbitsu⟩ := ha.moved hm.input
    exact ⟨u, bind_of_ok hu, hm.trans hmu, hbitsu.trans hrest⟩
  · obtain ⟨u, hu, ha⟩ := putAll_overflow (bitsMSB 8 sym.toNat) hm.outputOk (by rw [hm.room]; simpa using hover)
    obtain ⟨hmu, hbitsu⟩ := ha.moved hm.input
    rw [hm.room] at hmu
    exact ⟨u, by rw [op_bind, hu], hm.trans hmu, hbitsu.trans hrest⟩

@[simp] theorem symbolBits_length (syms : List Byte) : (bytesBits (symbolBytes syms)).length = 8 * syms.length := by
  rw [bytesBits_length, symbolBytes, List.length_map]

/-- The first `n` codewords, whose bytes fit: the loop goes on behind them (R130). -/
theorem expandSymbols_fits {T : HTree} (n : Nat) : ∀ {m : Nat} {s : State} {syms : List Byte} {tail : List Bool},
    HoldsTree s.code T → InputOk s → OutputOk s → T.decodeMany n (inputBits s) = some (syms, tail) → 8 * n ≤ room s →
    ∃ t, expandSymbols (n + m) s = expandSymbols m t ∧ Moved s t (bytesBits (symbolBytes syms)) ∧ inputBits t = tail := by
  induction n with
  | zero =>
    intro m s syms tail _ hi ho h _
    cases h
    exact ⟨s, by rw [Nat.zero_add], Moved.refl hi ho, rfl⟩
  | succ n ih =>
    intro m s syms tail hT hi ho h hfit
    obtain ⟨sym, rest, syms', hsym, hsyms, rfl⟩ := HTree.decodeMany_succ.mp h
    obtain ⟨t, hrun, hm, hrest⟩ := (expandSymbols_symbol (n + m) hT hi ho hsym).1 (by omega)
    obtain ⟨u, hu, hmu, htail⟩ := ih (m := m) (hm.code ▸ hT) hm.input hm.outputOk (hrest ▸ hsyms)
      (by rw [hm.room, bitsMSB_length]; omega)
    refine ⟨u, ?_, ?_, htail⟩
    · rw [Nat.add_right_comm, hrun, hu]
    · rw [symbolBytes, List.map_cons, bytesBits_cons]
      exact hm.trans hmu

/-- Among the first `n` codewords is one whose byte does not fit: the loop ends there, and has read no further (R130). -/
theorem expandSymbols_over {T : HTree} (n : Nat) : ∀ {m : Nat} {s : State} {syms : List Byte} {tail : List Bool},
    HoldsTree s.code T → InputOk s → OutputOk s → T.decodeMany n (inputBits s) = some (syms, tail) → room s < 8 * n →
    ∃ t, expandSymbols (n + m) s = .error (.raise .outOverflow) t ∧
      Moved s t ((bytesBits (symbolBytes syms)).take (room s)) ∧ (8 * n ≤ room s + 8 → inputBits t = tail) := by
  induction n with
  | zero => intro m s syms tail _ _ _ _ hover; omega
  | succ n ih =>
    intro m s syms tail hT hi ho h hover
    obtain ⟨sym, rest, syms', hsym, hsyms, rfl⟩ := HTree.decodeMany_succ.mp h
    obtain ⟨hfits, hoverflows⟩ := expandSymbols_symbol (n + m) hT hi ho hsym
    rw [Nat.add_right_comm, symbolBytes, List.map_cons, bytesBits_cons]
    by_cases h8 : room s < 8
    · obtain ⟨t, hrun, hm, hrest⟩ := hoverflows h8
      refine ⟨t, hrun, ?_, fun hlast => ?_⟩
      · rw [List.take_append_of_le_length (by rw [bitsMSB_length]; omega)]
        exact hm
      · obtain rfl : n = 0 := by omega
        cases hsyms
        exact hrest
    · obtain ⟨t, hrun, hm, hrest⟩ := hfits (by omega)
      have hroom := hm.room
      rw [bitsMSB_length] at hroom
      obtain ⟨u, hu, hmu, htail⟩ := ih (m := m) (hm.code ▸ hT) hm.input hm.outputOk (hrest ▸ hsyms) (by omega)
      refine ⟨u, hrun.trans hu, ?_, fun hlast => htail (by omega)⟩
      rw [List.take_append, List.take_of_length_le (by rw [bitsMSB_length]; omega), bitsMSB_length, ← hroom]
      exact hm.trans hmu

/-- Fewer than `n` codewords, whose bytes fit, and then one that is cut short (R130). -/
theorem expandSymbols_premature {T : HTree} {k n : Nat} {s : State} {syms : List Byte} {tail : List Bool} (hk : k < n)
    (hT : HoldsTree s.code T) (hi : InputOk s) (ho : OutputOk s) (h : T.decodeMany k (inputBits s) = some (syms, tail))
    (hcut : T.decode tail = none) (hfit : 8 * k ≤ room s) :
    ∃ t, expandSymbols n s = .error (.raise .prematureEos) t ∧ Moved s t (bytesBits (symbolBytes syms)) ∧
      inputBits t = [] := by
  obtain ⟨m, rfl⟩ : ∃ m, n = k + (m + 1) := ⟨n - k - 1, by omega⟩
  obtain ⟨t, hrun, hm, htail⟩ := expandSymbols_fits k (m := m + 1) hT hi ho h hfit
  obtain ⟨u, hu, hmu, hend⟩ := expandSymbols_short m (hm.code ▸ hT) hm.input hm.outputOk (htail ▸ hcut)
  exact ⟨u, hrun.trans hu, by simpa only [List.append_nil] using hm.trans hmu, hend⟩

/-- The loop on codewords that can all be read writes their symbols' bytes (R130). -/
theorem writes_expandSymbols {T : HTree} {n : Nat} {s : State} {syms : List Byte} {tail : List Bool}
    (hT : HoldsTree s.code T) (hi : InputOk s) (ho : OutputOk s)
    (h : T.decodeMany n (inputBits s) = some (syms, tail)) :
    Writes (expandSymbols n) s (bytesBits (symbolBytes syms)) tail := by
  have hlen : (bytesBits (symbolBytes syms)).length = 8 * n := by
    rw [symbolBits_length, HTree.decodeMany_length h]
  constructor
  · intro hfit
    exact expandSymbols_fits n (m := 0) hT hi ho h (hlen ▸ hfit)
  · intro hover
    obtain ⟨t, hrun, hm, -⟩ := expandSymbols_over n (m := 0) hT hi ho h (hlen ▸ hover)
    exact ⟨t, hrun, hm⟩

/-- However the loop ends, it has only moved the streams. -/
theorem expandSymbols_moved {T : HTree} (n : Nat) : ∀ {s : State}, HoldsTree s.code T → InputOk s → OutputOk s →
    ∃ bs, Moved s (resultState (expandSymbols n s)) bs := by
  induction n with
  | zero => exact fun _ hi ho => ⟨[], Moved.refl hi ho⟩
  | succ n ih =>
    intro s hT hi ho
    cases hdec : T.decode (inputBits s) with
    | none =>
      obtain ⟨t, hrun, hm, -⟩ := expandSymbols_short n hT hi ho hdec
      exact ⟨_, by rw [hrun]; exact hm⟩
    | some x =>
      obtain ⟨hfits, hover⟩ := expandSymbols_symbol n hT hi ho hdec
      by_cases h8 : room s < 8
      · obtain ⟨t, hrun, hm, -⟩ := hover h8
        exact ⟨_, by rw [hrun]; exact hm⟩
      · obtain ⟨t, hrun, hm, -⟩ := hfits (by omega)
        obtain ⟨bs, hbs⟩ := ih (hm.code ▸ hT) hm.input hm.outputOk
        exact ⟨_, by rw [hrun]; exact hm.trans hbs⟩

/-- What HUF_EXPAND does behind the count `n` (R130). -/
def expandFlush (n : Nat) : Op Unit := expandSymbols n >>= fun _ => flush

/-- The state in which that ends, however it does. -/
abbrev expandEnd (n : Nat) (s : State) : State := resultState (expandFlush n s)

/-- An error of the loop is one of the command, without a flush. -/
theorem expandFlush_of_error {n : Nat} {s t : State} {e : Stop} (h : expandSymbols n s = .error e t) :
    expandFlush n s = .error e t := by
  rw [expandFlush, op_bind, h]

/-- However the loop and the flush end, they have only moved the streams. -/
theorem expandFlush_moved {T : HTree} (n : Nat) {s : State} (hT : HoldsTree s.code T) (hi : InputOk s) (ho : OutputOk s) :
    ∃ bs, Moved s (expandEnd n s) bs := by
  obtain ⟨bs, hbs⟩ := expandSymbols_moved n hT hi ho
  rw [expandEnd, expandFlush, op_bind]
  cases hrun : expandSymbols n s with
  | error e t => rw [hrun] at hbs; exact ⟨bs, hbs⟩
  | ok a t =>
    rw [hrun] at hbs
    have ht : Moved s t bs := hbs
    by_cases hfit : outputLength t ≤ 8 * t.cfg.outCap
    · obtain ⟨u, hu, ha, -⟩ := flush_pads ht.outputOk hfit
      exact ⟨_, by dsimp only; rw [hu]; exact ht.trans (ha.moved ht.input).1⟩
    · exact ⟨bs, by dsimp only; rw [flush_over ht.outputOk (by omega)]; exact ht⟩

/-! ### HUF_EXPAND -/

theorem bodyOf_hufExpand {s : State} (hin : s.ctrl.inEn = true) (hout : s.ctrl.outEn = true) :
    bodyOf .hufExpand s = if s.inp.len = 0#32 then .ok () s else expandStream s :=
  streamCommand_run expandStream hin hout

/-- With nothing to expand nothing is done (R130). -/
theorem exec_hufExpand_empty {s : State} (hin : s.ctrl.inEn = true) (hout : s.ctrl.outEn = true)
    (hlen : s.inp.len = 0#32) : exec .hufExpand s = .next (complete s) :=
  exec_of_bodyOf_ok ((bodyOf_hufExpand hin hout).trans (if_pos hlen))

/-- What HUF_EXPAND does behind the header (R130). -/
def expandBody : Op Unit := readVarint >>= expandFlush

/-- HUF_EXPAND on a stream that is not empty reads the header from byte 0 (R130). -/
theorem bodyOf_hufExpand_stream {s : State} (hin : s.ctrl.inEn = true) (hout : s.ctrl.outEn = true)
    (hlen : s.inp.len ≠ 0#32) :
    bodyOf .hufExpand s = (deser >>= fun _ => expandBody) { s with inp := rewound s.inp } :=
  (bodyOf_hufExpand hin hout).trans (if_neg hlen)

/-- From `s` to `t` the input has been read, from byte 0 on, and only the code and DSTACK have changed beside it. -/
structure HeaderRead (s t : State) : Prop where
  shape : t = { s with inp := t.inp, code := t.code, dstack := t.dstack }
  input : InputOk t
  len   : t.inp.len = s.inp.len

theorem ReadTo.headerRead {s t : State} {bs : List Bool} (h : ReadTo { s with inp := rewound s.inp } t bs) :
    HeaderRead s t :=
  ⟨congrArg (fun v : State => { v with code := t.code, dstack := t.dstack }) h.shape, h.ok, h.len⟩

section
variable {s t : State} (h : HeaderRead s t)
include h

theorem HeaderRead.cfg : t.cfg = s.cfg := by rw [h.shape]

theorem HeaderRead.out : t.out = s.out := by rw [h.shape]

theorem HeaderRead.mem : t.mem = s.mem := by rw [h.shape]

theorem HeaderRead.room : room t = room s := by rw [Safety.room, h.cfg, h.out]; rfl

theorem HeaderRead.outputLength : outputLength t = outputLength s := by rw [Safety.outputLength, h.out]; rfl

theorem HeaderRead.outputOk (ho : OutputOk s) : OutputOk t := outputOk_congr h.cfg h.out ho

theorem HeaderRead.consumed {u : State} {bs : List Bool} (hc : Consumed t u bs) : HeaderRead s u where
  shape := by
    have h1 := h.shape
    have h2 := hc.shape
    rw [h2]; rw [h1]
  input := hc.ok
  len := hc.len.trans h.len

theorem HeaderRead.moved_shape {u : State} {bs : List Bool} (hm : Moved t u bs) :
    u = { s with inp := u.inp, out := u.out, mem := u.mem, code := u.code, dstack := u.dstack } := by
  have h1 := h.shape
  have h2 := hm.shape
  rw [h2]; rw [h1]

end

/-- Input that begins with no header that there is room for (R130). -/
theorem deser_fails {s : State} (hi : InputOk s) (hno : NoHeader s) :
    ∃ c t, deser s = .error (.raise c) t ∧ HeaderFails s c t ∧ RunOut c t := by
  have hread := deser_reads hi
  match hrun : deser s with
  | .ok () t => rw [hrun] at hread; exact absurd hno hread.not_noHeader
  | .error (.raise c) t => rw [hrun] at hread; exact ⟨c, t, rfl, hread, deser_runOut hi hrun⟩
  | .error (.fault f) t => rw [hrun] at hread; exact hread.elim

/-- Input that begins with the header of a tree that there is room for (R130). -/
theorem deser_holds {s : State} {T : HTree} {rest : List Bool} (hi : InputOk s) (hT : inputBits s = T.header ++ rest)
    (hk : T.symbols.length ≤ 256) :
    ∃ t, deser s = .ok () t ∧ HoldsTree t.code T ∧ ReadTo s t T.header ∧ inputBits t = rest := by
  have hread := deser_reads hi
  match hrun : deser s with
  | .ok () t =>
    rw [hrun] at hread
    obtain ⟨hheld, -, hto⟩ := hread.of_header hT
    exact ⟨t, rfl, hheld, hto, (List.append_cancel_left (hT.symm.trans hto.bits)).symm⟩
  | .error (.raise c) t => rw [hrun] at hread; exact absurd (hread.noHeader T rest hT) (by omega)
  | .error (.fault f) t => rw [hrun] at hread; exact hread.elim

/-- The arena never holds more nodes than it has room for, however Deser ends. -/
theorem count_le_of_deser {s t : State} {c : ErrCode} (h : deser s = .error (.raise c) t) :
    t.code.count.toNat ≤ Config.nodeCap := by
  have hlegal := deser_legal s
  rw [h] at hlegal
  exact hlegal.1

/-- Input that begins with no header ends the command where the header fails, with no code held (R130). -/
theorem exec_hufExpand_noHeader {s : State} (hin : s.ctrl.inEn = true) (hout : s.ctrl.outEn = true)
    (hlen : s.inp.len ≠ 0#32) (hi : InputOk s) (hno : NoHeader { s with inp := rewound s.inp }) :
    ∃ t c, exec .hufExpand s = .next (takeError c t) ∧
      ((c = .invalidFormat ∧ (inputBits t).length < 8) ∨
        (c = .capacityExceeded ∧ (t.code.count.toNat = 511 ∨ t.dstack.dsp.toNat = 511))) ∧
      HeaderRead s t ∧ t.code.valid = false ∧ t.code.root = Config.noNode := by
  obtain ⟨c, t, hrun, hfail, hrunOut⟩ := deser_fails (inputOk_rewound hi) hno
  obtain ⟨bs, hread⟩ := hfail.read
  have hcount := count_le_of_deser hrun
  refine ⟨t, c, exec_of_bodyOf_raise ((bodyOf_hufExpand_stream hin hout hlen).trans (by rw [op_bind, hrun])), ?_,
    hread.headerRead, hfail.invalid, hfail.noRoot⟩
  have hcap : Config.nodeCap = 511 := rfl
  rcases hrunOut with ⟨rfl, h8⟩ | ⟨rfl, hfull | hdsp⟩
  · exact .inl ⟨rfl, by rwa [inputBits_length]⟩
  · exact .inr ⟨rfl, .inl (by omega)⟩
  · exact .inr ⟨rfl, .inr (by rw [hdsp]; rfl)⟩

/-- Behind the header of `T` HUF_EXPAND goes on, with `T` held, on the bits that follow (R130). -/
theorem bodyOf_hufExpand_header {s : State} {T : HTree} {body : List Bool} (hin : s.ctrl.inEn = true)
    (hout : s.ctrl.outEn = true) (hlen : s.inp.len ≠ 0#32) (hi : InputOk s)
    (hT : bytesBits (inputBytes s 0 s.inp.len.toNat) = T.header ++ body) (hk : T.symbols.length ≤ 256) :
    ∃ t, bodyOf .hufExpand s = expandBody t ∧ HoldsTree t.code T ∧ HeaderRead s t ∧ inputBits t = body := by
  obtain ⟨t, hrun, hheld, hto, hbody⟩ := deser_holds (inputOk_rewound hi) (by rw [inputBits_rewound]; exact hT) hk
  exact ⟨t, (bodyOf_hufExpand_stream hin hout hlen).trans (bind_of_ok hrun), hheld, hto.headerRead, hbody⟩

/-- A count that fails ends the command, with nothing written and the code held (R130). -/
theorem exec_hufExpand_badCount {s t u : State} {T : HTree} {c : ErrCode} {bs rest : List Bool}
    (hbody : bodyOf .hufExpand s = expandBody t) (hheld : HoldsTree t.code T) (hread : HeaderRead s t)
    (hbits : inputBits t = bs ++ rest) (hrun : readVarint t = .error (.raise c) u) (hc : Consumed t u bs) :
    ∃ u, exec .hufExpand s = .next (takeError c u) ∧ HeaderRead s u ∧ HoldsTree u.code T ∧ inputBits u = rest :=
  ⟨u, exec_of_bodyOf_raise (hbody.trans (by rw [expandBody, op_bind, hrun])), hread.consumed hc, hc.code ▸ hheld,
    List.append_cancel_left (hc.bits.symm.trans hbits)⟩

/-- Whole bytes leave the padding as it is. -/
theorem padding_bytes (n k : Nat) : padding (n + 8 * k) = padding n := by
  rw [padding, padding, Nat.add_mul_mod_self_left]

section
variable {s u : State} {T : HTree} {n : Nat} (hloop : bodyOf .hufExpand s = expandFlush n u)
include hloop

theorem exec_hufExpand_ok {t : State} (h : expandFlush n u = .ok () t) :
    exec .hufExpand s = .next (complete (expandEnd n u)) ∧ expandEnd n u = t := by
  have hend : expandEnd n u = t := by rw [expandEnd, h]; rfl
  exact ⟨hend.symm ▸ exec_of_bodyOf_ok (hloop.trans h), hend⟩

theorem exec_hufExpand_raise {t : State} {c : ErrCode} (h : expandFlush n u = .error (.raise c) t) :
    exec .hufExpand s = .next (takeError c (expandEnd n u)) ∧ expandEnd n u = t := by
  have hend : expandEnd n u = t := by rw [expandEnd, h]; rfl
  exact ⟨hend.symm ▸ exec_of_bodyOf_raise (hloop.trans h), hend⟩

variable (hu : HeaderRead s u) (hT : HoldsTree u.code T) (ho : OutputOk s)
include hu hT ho

/-- All codewords can be read: their symbols' bytes are written and padded, as far as they fit (R130). -/
theorem exec_hufExpand_all {syms : List Byte} {tail : List Bool}
    (hdec : T.decodeMany n (inputBits u) = some (syms, tail)) :
    (outputLength s + 8 * syms.length ≤ 8 * s.cfg.outCap →
      exec .hufExpand s = .next (complete (expandEnd n u)) ∧ inputBits (expandEnd n u) = tail ∧
      (expandEnd n u).out.nbits = 0#3 ∧
      Appended s { s with out := (expandEnd n u).out, mem := (expandEnd n u).mem }
        (bytesBits (symbolBytes syms) ++ padding (outputLength s))) ∧
    (8 * s.cfg.outCap < outputLength s + 8 * syms.length →
      exec .hufExpand s = .next (takeError .outOverflow (expandEnd n u)) ∧
      Appended s { s with out := (expandEnd n u).out, mem := (expandEnd n u).mem }
        ((bytesBits (symbolBytes syms)).take (room s))) := by
  obtain ⟨t, written, hm, hfits, hover⟩ := (writes_expandSymbols hT hu.input (hu.outputOk ho) hdec).flushed
  have happended := hm.appended_from hu.cfg hu.out hu.mem
  rw [symbolBits_length, hu.outputLength, hu.cfg] at hfits hover
  refine ⟨fun hfit => ?_, fun hno => ?_⟩
  · obtain ⟨hrun, rfl, htail, hz⟩ := hfits hfit
    obtain ⟨hexec, rfl⟩ := exec_hufExpand_ok hloop hrun
    rw [padding_bytes] at happended
    exact ⟨hexec, htail, hz, happended⟩
  · obtain ⟨hrun, rfl⟩ := hover hno
    obtain ⟨hexec, rfl⟩ := exec_hufExpand_raise hloop hrun
    rw [hu.room] at happended
    exact ⟨hexec, happended⟩

/-- The input ends inside a codeword: the bytes before it are written, and all input is read (R130). -/
theorem exec_hufExpand_premature {k : Nat} {syms : List Byte} {tail : List Bool} (hk : k < n)
    (hdec : T.decodeMany k (inputBits u) = some (syms, tail)) (hcut : T.decode tail = none)
    (hfit : 8 * syms.length ≤ room s) :
    exec .hufExpand s = .next (takeError .prematureEos (expandEnd n u)) ∧ inputBits (expandEnd n u) = [] ∧
      Appended s { s with out := (expandEnd n u).out, mem := (expandEnd n u).mem } (bytesBits (symbolBytes syms)) := by
  rw [HTree.decodeMany_length hdec, ← hu.room] at hfit
  obtain ⟨t, hrun, hm, hnil⟩ := expandSymbols_premature hk hT hu.input (hu.outputOk ho) hdec hcut hfit
  obtain ⟨hexec, rfl⟩ := exec_hufExpand_raise hloop (expandFlush_of_error hrun)
  exact ⟨hexec, hnil, hm.appended_from hu.cfg hu.out hu.mem⟩

/-- The output is full before some codeword's byte: what comes behind that codeword is not read (R130). -/
theorem exec_hufExpand_over {k : Nat} {syms : List Byte} {tail : List Bool} (hk : k ≤ n)
    (hdec : T.decodeMany k (inputBits u) = some (syms, tail)) (hno : room s < 8 * syms.length) :
    exec .hufExpand s = .next (takeError .outOverflow (expandEnd n u)) ∧
      (8 * syms.length ≤ room s + 8 → inputBits (expandEnd n u) = tail) ∧
      Appended s { s with out := (expandEnd n u).out, mem := (expandEnd n u).mem }
        ((bytesBits (symbolBytes syms)).take (room s)) := by
  rw [HTree.decodeMany_length hdec, ← hu.room] at hno ⊢
  obtain ⟨m, rfl⟩ := Nat.exists_eq_add_of_le hk
  obtain ⟨t, hrun, hm, htail⟩ := expandSymbols_over k (m := m) hT hu.input (hu.outputOk ho) hdec hno
  obtain ⟨hexec, rfl⟩ := exec_hufExpand_raise hloop (expandFlush_of_error hrun)
  exact ⟨hexec, htail, hm.appended_from hu.cfg hu.out hu.mem⟩

end

/-- Settles O47: Deser reads a header or fails, ReadVarint reads a count or fails, and the loop ends with its codewords or
where the input or the room for output does. -/
theorem expandReadsStream : Obligations.ExpandReadsStream := by
  unfold Obligations.ExpandReadsStream
  refine ⟨rfl, fun s => ⟨exec_streams_absent (by decide) (by decide), exec_hufExpand_empty,
    fun hin hout hlen hi ho => ⟨fun hno => ?_, fun T body hT hk => ?_⟩⟩⟩
  · obtain ⟨t, c, hrun, hc, hread, hv, hroot⟩ := exec_hufExpand_noHeader hin hout hlen hi hno
    exact ⟨t, c, hrun, hc, hread.shape, hread.len, hread.input, hv, hroot⟩
  obtain ⟨t, hbody, hheld, hread, hbits⟩ := bodyOf_hufExpand_header hin hout hlen hi hT hk
  refine ⟨?_, ?_, ?_⟩
  · rintro front rest rfl hall hlen4 hshort
    obtain ⟨u, hrun, hc⟩ := readVarint_premature hread.input hall hlen4 hshort hbits
    obtain ⟨v, hexec, hv, hheld', hrest⟩ := exec_hufExpand_badCount hbody hheld hread hbits hrun hc
    exact ⟨v, hexec, hv.shape, hheld', hv.len, hv.input, hrest⟩
  · rintro front last rest rfl hall hlen4 hlast hbad
    obtain ⟨u, hrun, hc⟩ := readVarint_invalid hread.input hall hlen4 hlast hbad hbits
    obtain ⟨v, hexec, hv, hheld', hrest⟩ := exec_hufExpand_badCount hbody hheld hread hbits hrun hc
    exact ⟨v, hexec, hv.shape, hheld', hv.len, hv.input, hrest⟩
  · rintro count rest rfl hvarint
    obtain ⟨u, hrun, hc, rfl⟩ := readVarint_consumed hread.input hvarint hbits
    have hu := hread.consumed hc
    have hT := hc.code ▸ hheld
    have hloop : bodyOf .hufExpand s = expandFlush (varintValue count) u := hbody.trans (bind_of_ok hrun)
    obtain ⟨bs, hend⟩ := expandFlush_moved (varintValue count) hT hu.input (hu.outputOk ho)
    exact ⟨_, hu.moved_shape hend, hend.code ▸ hT, hend.len.trans hu.len, hend.input,
      fun syms tail => exec_hufExpand_all hloop hu hT ho,
      fun k syms tail => exec_hufExpand_premature hloop hu hT ho,
      fun k syms tail => exec_hufExpand_over hloop hu hT ho⟩

end Sys2Proof.Proofs

/-! PROOFS. The round trip (46_huffman_stream.md R131). -/

namespace Sys2Proof.Proofs

open Sys2Proof Sys2Proof.Machine Sys2Proof.Safety Sys2Proof.Laws

/-- Bytes are determined by their bits. -/
theorem bytesBits_inj {as : List Nat} : ∀ {bs : List Nat}, (∀ a ∈ as, a < 256) → (∀ b ∈ bs, b < 256) →
    bytesBits as = bytesBits bs → as = bs := by
  induction as with
  | nil =>
    intro bs _ _ h
    have := congrArg List.length h
    exact (List.length_eq_zero_iff.mp (by simpa using this)).symm
  | cons a as ih =>
    intro bs ha hb h
    cases bs with
    | nil => simpa using congrArg List.length h
    | cons b bs =>
      obtain ⟨ha, has⟩ := List.forall_mem_cons.mp ha
      obtain ⟨hb, hbs⟩ := List.forall_mem_cons.mp hb
      rw [bytesBits_cons, bytesBits_cons] at h
      obtain ⟨hhead, htail⟩ := List.append_inj h (by simp)
      rw [eq_of_bitsMSB_eq ha hb hhead, ih has hbs htail]

theorem outputBytes_lt {s : State} {n b : Nat} (h : b ∈ outputBytes s n) : b < 256 := by
  obtain ⟨j, -, rfl⟩ := List.mem_map.mp h
  exact (s.mem.read _).isLt

/-- The bytes of the symbols of bytes are those bytes. -/
theorem symbolBytes_byteSymbols {bs : List Nat} (h : ∀ b ∈ bs, b < 256) : symbolBytes (byteSymbols bs) = bs := by
  rw [symbolBytes, byteSymbols, List.map_map]
  refine (List.map_congr_left fun b hb => ?_).trans (List.map_id bs)
  exact (BitVec.toNat_ofNat b 8).trans (Nat.mod_eq_of_lt (h b hb))

/-- A tree with distinct symbols has at most one leaf for each byte. -/
theorem symbols_length_le {T : HTree} (h : T.distinct) : T.symbols.length ≤ 256 := by
  have hnodup : (T.symbols.map BitVec.toNat).Nodup := List.Nodup.map (fun _ _ => BitVec.eq_of_toNat_eq) h
  have hsub := hnodup.subperm (l₂ := List.range 256) fun n hn => by
    obtain ⟨sym, -, rfl⟩ := List.mem_map.mp hn
    exact List.mem_range.mpr sym.isLt
  rw [← List.length_map BitVec.toNat, ← List.length_range (n := 256)]
  exact hsub.length_le

/-- An output of whole bytes is its bits. -/
theorem outputBits_aligned {s : State} (h : s.out.nbits = 0#3) :
    outputBits s = bytesBits (outputBytes s s.out.len.toNat) := by
  rw [outputBits, h]
  exact List.append_nil _

/-- An empty output. -/
theorem outputBits_empty {s : State} (hlen : s.out.len = 0#32) (h : s.out.nbits = 0#3) : outputBits s = [] := by
  rw [outputBits_aligned h, hlen]
  rfl

/-- What HUF_COMPRESS without an error makes of an input that is not empty, in an empty output (R128, R131). -/
theorem exec_hufCompress_output {s t : State} (hi : InputOk s) (ho : OutputOk s) (hin : s.ctrl.inEn = true)
    (hout : s.ctrl.outEn = true) (hlen : s.out.len = 0#32) (hz : s.out.nbits = 0#3)
    (hexec : exec .hufCompress s = .next t) (herr : t.status.err = false) (hne : s.inp.len ≠ 0#32) :
    ∃ (T : HTree) (count : List Nat) (codewords : List Bool) (k : Nat),
      T.distinct ∧ IsVarint count ∧ varintValue count = s.inp.len.toNat ∧
      T.encodeMany (byteSymbols (inputBytes s 0 s.inp.len.toNat)) = some codewords ∧
      bytesBits (outputBytes t t.out.len.toNat) = T.header ++ (bytesBits count ++ (codewords ++ padding k)) := by
  obtain ⟨-, hall⟩ := compressWritesStream
  obtain ⟨-, -, hstream⟩ := hall s
  obtain ⟨v, T, count, codewords, stream, rfl, hd, -, hmin, hval, hcode, -, -, -, -, -, -, -, -, -, hfits, hover⟩ :=
    hstream hin hout hne hi ho
  refine ⟨T, count, codewords, outputLength s + (T.header ++ bytesBits count ++ codewords).length, hd, hmin.1, hval, hcode,
    ?_⟩
  rcases Nat.lt_or_ge (8 * s.cfg.outCap) (outputLength s + (T.header ++ bytesBits count ++ codewords).length)
    with hno | hfit
  · obtain ⟨hrun, -⟩ := hover hno
    cases hexec.symm.trans hrun
    cases herr
  · obtain ⟨hrun, -, -, hvz, happ⟩ := hfits hfit
    cases hexec.symm.trans hrun
    have hbits : outputBits v = _ := happ.bits
    rw [outputBits_empty hlen hz, outputBits_aligned hvz] at hbits
    exact hbits.trans (by simp only [List.nil_append, List.append_assoc])

/-- Settles O48: the header, the count and the codewords that HUF_COMPRESS has written are those HUF_EXPAND reads. -/
theorem expandInvertsCompress : Obligations.ExpandInvertsCompress := by
  unfold Obligations.ExpandInvertsCompress
  intro s t u hsi hso hsin hsout hslen hsz hexec _ herr hui huo huin huout hulen huz hlen hbytes hcap
  by_cases hne : s.inp.len = 0#32
  · cases hexec.symm.trans (exec_hufCompress_empty hsin hsout hne)
    have hexpand := exec_hufExpand_empty huin huout (hlen.trans hslen)
    exact ⟨⟨u, hexpand, huz, hulen.trans hne.symm, by rw [hulen, hne]; rfl⟩, fun _ => ⟨rfl, hexpand⟩⟩
  refine ⟨?_, fun h0 => absurd h0 hne⟩
  obtain ⟨T, count, codewords, k, hd, hcount, hval, hcode, hbits⟩ :=
    exec_hufCompress_output hsi hso hsin hsout hslen hsz hexec herr hne
  rw [← hbytes] at hbits
  have hune : u.inp.len ≠ 0#32 := fun h0 => by
    rw [h0] at hbits
    have := T.nine_le_header_length
    have := congrArg List.length hbits
    simp [inputBytes] at this
    omega
  obtain ⟨-, hall⟩ := expandReadsStream
  obtain ⟨-, -, hstream⟩ := hall u
  obtain ⟨-, hheader⟩ := hstream huin huout hune hui huo
  obtain ⟨-, -, hcounted⟩ := hheader T _ hbits (symbols_length_le hd)
  obtain ⟨v, -, -, -, -, hdecoded, -, -⟩ := hcounted count _ rfl hcount
  have hsyms : (byteSymbols (inputBytes s 0 s.inp.len.toNat)).length = varintValue count := by
    rw [byteSymbols, List.length_map, inputBytes_length, hval]
  obtain ⟨hfits, -⟩ := hdecoded _ _ (hsyms ▸ HTree.decodeMany_encodeMany hcode (padding k))
  have hul : outputLength u = 0 := by rw [outputLength, hulen, huz]; rfl
  obtain ⟨hrun, -, hvz, happ⟩ := hfits (by rw [hul, hsyms, hval]; omega)
  have hvbits : outputBits v = _ := happ.bits
  rw [outputBits_empty hulen huz, outputBits_aligned hvz, hul, symbolBytes_byteSymbols fun b => inputBytes_lt] at hvbits
  have hsame : outputBytes v v.out.len.toNat = inputBytes s 0 s.inp.len.toNat :=
    bytesBits_inj (fun b => outputBytes_lt) (fun b => inputBytes_lt) (by simpa [padding] using hvbits)
  have hvlen : v.out.len.toNat = s.inp.len.toNat := by simpa [outputBytes] using congrArg List.length hsame
  exact ⟨v, hrun, hvz, BitVec.eq_of_toNat_eq hvlen, hsame⟩

end Sys2Proof.Proofs

/-! PROOFS. The LZW codes (47_lzw_codec.md): the width of a code, and the four commands that set up and use the code writer
and the code reader. -/

namespace Sys2Proof.Safety

open Sys2Proof Sys2Proof.Machine

@[simp] theorem Appended.lzw {s t : State} {bs : List Bool} (h : Appended s t bs) : t.lzw = s.lzw := by
  rw [h.shape]

@[simp] theorem Consumed.lzw {s t : State} {bs : List Bool} (h : Consumed s t bs) : t.lzw = s.lzw := by
  rw [h.shape]

end Sys2Proof.Safety

namespace Sys2Proof.Proofs

open Sys2Proof Sys2Proof.Machine Sys2Proof.Safety Sys2Proof.Laws

/-- Width(sz) is the least exponent whose power of two reaches the size (R132). -/
theorem codeWidth_of_isWidth {size w : Nat} (h : IsWidth size w) : codeWidth size = w := by
  obtain ⟨hle, hleast⟩ := h
  cases w with
  | zero => exact if_pos hle
  | succ v =>
    have hlt : 2 ^ v < size := hleast v (Nat.lt_succ_self v)
    have hpos : 1 ≤ 2 ^ v := Nat.one_le_two_pow
    have hlog : (size - 1).log2 = v := (Nat.log2_eq_iff (by omega)).mpr (by omega)
    rw [codeWidth, if_neg (by omega), hlog]

/-! ### LZW_WINIT and LZW_RINIT (R133, R135) -/

theorem bodyOf_lzwWinit (s : State) :
    bodyOf .lzwWinit s =
      (require (256 ≤ s.a0.toInt) .invalidArgument >>= fun _ =>
        modify fun t => { t with lzw := { t.lzw with wsize := t.a0, wValid := true } }) s := rfl

theorem bodyOf_lzwRinit (s : State) :
    bodyOf .lzwRinit s =
      (require (256 ≤ s.a0.toInt) .invalidArgument >>= fun _ =>
        modify fun t => { t with lzw := { t.lzw with rsize := t.a0, rValid := true } }) s := rfl

/-- Settles O49: one check of the signed operand, and the size and the flag of one codec. -/
theorem lzwConstruction : Obligations.LzwConstruction := by
  unfold Obligations.LzwConstruction
  refine ⟨rfl, rfl, fun s => ⟨fun hsmall => ⟨?_, ?_⟩, fun hsize => ⟨?_, ?_⟩⟩⟩
  · exact exec_of_bodyOf_raise ((bodyOf_lzwWinit s).trans (require_bind_neg hsmall.not_ge _ s))
  · exact exec_of_bodyOf_raise ((bodyOf_lzwRinit s).trans (require_bind_neg hsmall.not_ge _ s))
  · exact exec_of_bodyOf_ok ((bodyOf_lzwWinit s).trans (require_bind_pos hsize _ s))
  · exact exec_of_bodyOf_ok ((bodyOf_lzwRinit s).trans (require_bind_pos hsize _ s))

/-! ### LZW_WRITE (R134) -/

/-- Without the output stream or without a writer set up, LZW_WRITE is refused. -/
theorem exec_lzwWrite_absent {s : State} (h : s.ctrl.outEn = false ∨ s.lzw.wValid = false) :
    exec .lzwWrite s = .next (takeError .nullArgument s) := by
  cases hout : s.ctrl.outEn with
  | false => exact exec_writer_absent (by decide) hout
  | true =>
    have hno : s.lzw.wValid = false := h.resolve_left (by simp [hout])
    exact exec_of_bodyOf_raise (i := .lzwWrite)
      ((needWriter_bind_present _ hout).trans (require_bind_neg (by simp [hno]) _ s))

/-- With the output stream and a writer LZW_WRITE is its checks of the width and of the code in order, the bits it puts,
and the growth of the size. -/
theorem bodyOf_lzwWrite {s : State} (hout : s.ctrl.outEn = true) (hv : s.lzw.wValid = true) {w : Nat}
    (hw : IsWidth s.lzw.wsize.toNat w) :
    bodyOf .lzwWrite s =
      (require (w ≤ 31) .invalidArgument >>= fun _ =>
        operand0 >>= fun k => require (k < s.lzw.wsize.toNat) .invalidArgument >>= fun _ =>
          putAll (bitsMSB w k) >>= fun _ =>
            modify fun t => { t with lzw := { t.lzw with wsize := t.lzw.wsize + 1#32 } }) s := by
  obtain rfl := codeWidth_of_isWidth hw
  simp only [← putBits_eq_putAll]
  exact (needWriter_bind_present _ hout).trans (require_bind_pos hv _ s)

theorem exec_lzwWrite_invalid {s : State} (hout : s.ctrl.outEn = true) (hv : s.lzw.wValid = true) {w : Nat}
    (hw : IsWidth s.lzw.wsize.toNat w) (hbad : 31 < w ∨ s.lzw.wsize.toNat ≤ s.a0.toNat) :
    exec .lzwWrite s = .next (takeError .invalidArgument s) := by
  refine exec_of_bodyOf_raise ((bodyOf_lzwWrite hout hv hw).trans ?_)
  by_cases hwide : 31 < w
  · rw [require_bind_neg hwide.not_ge]
  · have hcode := hbad.resolve_left hwide
    rw [require_bind_pos (by omega), bind_of_ok (operand0_run s), require_bind_neg hcode.not_gt]

/-- With its checks passed LZW_WRITE puts its code, and the size grows where that has ended well. -/
theorem bodyOf_lzwWrite_code {s : State} (hout : s.ctrl.outEn = true) (hv : s.lzw.wValid = true) {w : Nat}
    (hw : IsWidth s.lzw.wsize.toNat w) (hle : w ≤ 31) (hcode : s.a0.toNat < s.lzw.wsize.toNat) :
    bodyOf .lzwWrite s =
      (putAll (bitsMSB w s.a0.toNat) >>= fun _ =>
        modify fun t => { t with lzw := { t.lzw with wsize := t.lzw.wsize + 1#32 } }) s := by
  rw [bodyOf_lzwWrite hout hv hw, require_bind_pos hle, bind_of_ok (operand0_run s), require_bind_pos hcode]

/-- Settles O50: behind the checks the code is put as one sequence of bits, and the size grows only if all of them fit. -/
theorem lzwCodeWrite : Obligations.LzwCodeWrite := by
  unfold Obligations.LzwCodeWrite
  refine ⟨rfl, fun s => ⟨exec_lzwWrite_absent, fun hout hv w hw => ⟨exec_lzwWrite_invalid hout hv hw,
    fun hle hcode hs => ⟨fun hfit => ?_, fun hover => ?_⟩⟩⟩⟩
  · obtain ⟨t, hput, ha⟩ := putAll_appended (bitsMSB w s.a0.toNat) hs (by rwa [bitsMSB_length])
    refine ⟨t, exec_of_bodyOf_ok ((bodyOf_lzwWrite_code hout hv hw hle hcode).trans ?_), ha⟩
    rw [bind_of_ok hput, op_modify, ha.lzw]
  · obtain ⟨t, hput, ha⟩ := putAll_overflow (bitsMSB w s.a0.toNat) hs (by rwa [bitsMSB_length])
    refine ⟨t, exec_of_bodyOf_raise ((bodyOf_lzwWrite_code hout hv hw hle hcode).trans ?_), ha⟩
    rw [op_bind, hput]

/-! ### LZW_READ (R136) -/

/-- Without the input stream or without a reader set up, LZW_READ is refused. -/
theorem exec_lzwRead_absent {s : State} (h : s.ctrl.inEn = false ∨ s.lzw.rValid = false) :
    exec .lzwRead s = .next (takeError .nullArgument s) := by
  cases hin : s.ctrl.inEn with
  | false => exact exec_reader_absent (by decide) hin
  | true =>
    have hno : s.lzw.rValid = false := h.resolve_left (by simp [hin])
    exact exec_of_bodyOf_raise (i := .lzwRead)
      ((needReader_bind_present _ hin).trans (require_bind_neg (by simp [hno]) _ s))

/-- With the input stream and a reader LZW_READ is its check of the width, and a read of that many bits that makes the size
grow unless it has answered the sentinel. -/
theorem bodyOf_lzwRead {s : State} (hin : s.ctrl.inEn = true) (hv : s.lzw.rValid = true) {w : Nat}
    (hw : IsWidth s.lzw.rsize.toNat w) :
    bodyOf .lzwRead s =
      (require (w ≤ 31) .invalidArgument >>= fun _ =>
        readOrEos w (modify fun t => { t with lzw := { t.lzw with rsize := t.lzw.rsize + 1#32 } })) s := by
  obtain rfl := codeWidth_of_isWidth hw
  exact (needReader_bind_present _ hin).trans (require_bind_pos hv _ s)

/-- Settles O51: behind the checks the command is one read of the width's bits, which answers the sentinel or consumes
them. -/
theorem lzwCodeRead : Obligations.LzwCodeRead := by
  unfold Obligations.LzwCodeRead
  refine ⟨rfl, fun s => ⟨exec_lzwRead_absent, fun hin hv w hw => ?_⟩⟩
  have hbody := bodyOf_lzwRead hin hv hw
  refine ⟨fun hwide => exec_of_bodyOf_raise (hbody.trans (require_bind_neg hwide.not_ge _ s)), fun hle hs => ?_⟩
  rw [require_bind_pos hle] at hbody
  rw [inputBits_length]
  refine ⟨fun hfew => exec_of_bodyOf_ok (hbody.trans (readOrEos_few _ hfew)), fun henough => ?_⟩
  obtain ⟨v, t, hread, hlt, hc⟩ := readOrEos_enough
    (modify fun t => { t with lzw := { t.lzw with rsize := t.lzw.rsize + 1#32 } }) hs henough
  refine ⟨t, v, exec_of_bodyOf_ok ((hbody.trans hread).trans ?_), hlt, hc⟩
  rw [op_modify, hc.lzw]

end Sys2Proof.Proofs

/-! PROOFS. Progress (70_reset_and_hazards.md R163): from legal states no body stops at a fault, so every command answers a
next state, and a bus error is the one thing that is no step. -/

namespace Sys2Proof.Proofs

open Sys2Proof Sys2Proof.Machine Sys2Proof.Safety Sys2Proof.Laws

/-! ### Runs that end -/

/-- A run that ends: well, or in an error of the block. -/
def Ends {α : Type} : EStateM.Result Stop State α → Prop
  | .ok _ _ => True
  | .error (.raise _) _ => True
  | .error (.fault _) _ => False

section
variable {α β : Type} {s : State}

theorem ends_ok {a : α} {t : State} : Ends (.ok a t : EStateM.Result Stop State α) := trivial

theorem ends_raise {c : ErrCode} {t : State} : Ends (.error (.raise c) t : EStateM.Result Stop State α) := trivial

theorem Ends.bind {x : Op α} {f : α → Op β} (hx : Ends (x s)) (hf : ∀ a t, x s = .ok a t → Ends (f a t)) :
    Ends ((x >>= f) s) := by
  rw [op_bind]
  match hrun : x s with
  | .ok a t => exact hf a t hrun
  | .error (.raise c) t => exact ends_raise
  | .error (.fault g) t => rw [hrun] at hx; exact hx.elim

theorem ends_ite {p : Prop} [Decidable p] {x y : Op α} (hx : p → Ends (x s)) (hy : ¬ p → Ends (y s)) :
    Ends ((if p then x else y) s) := by
  by_cases hp : p
  · rw [if_pos hp]; exact hx hp
  · rw [if_neg hp]; exact hy hp

theorem ends_require_bind {p : Prop} [Decidable p] {c : ErrCode} {f : Unit → Op α} (hf : p → Ends (f () s)) :
    Ends ((require p c >>= f) s) := by
  by_cases hp : p
  · rw [require_bind_pos hp]; exact hf hp
  · rw [require_bind_neg hp]; exact ends_raise

theorem ends_needReader_bind {f : Unit → Op α} (hf : Ends (f () s)) : Ends ((needReader >>= f) s) :=
  ends_require_bind (p := s.ctrl.inEn = true) fun _ => hf

theorem ends_needWriter_bind {f : Unit → Op α} (hf : Ends (f () s)) : Ends ((needWriter >>= f) s) :=
  ends_require_bind (p := s.ctrl.outEn = true) fun _ => hf

theorem ends_needCode_bind {f : Unit → Op α} (hf : s.code.valid = true → Ends (f () s)) : Ends ((needCode >>= f) s) :=
  ends_require_bind hf

/-- A command whose body ends answers a next state (30_encoding.md R68, 60_exceptions.md R140). -/
theorem exec_next_of_ends {i : Instr} (h : Ends (bodyOf i s)) : ∃ t, exec i s = .next t := by
  rw [exec_eq]
  rcases command_cases (bodyOf i) s with ⟨t, -, hc⟩ | ⟨c, t, -, hc⟩ | ⟨f, t, hb, -⟩
  · exact ⟨_, hc⟩
  · exact ⟨_, hc⟩
  · rw [hb] at h; exact h.elim

end

/-! ### The streams -/

section
variable {s : State}

theorem getBits_ends {n : Nat} (hs : InputOk s) (hn : n ≤ inBitsLeft s.inp) : Ends (getBits n s) := by
  obtain ⟨v, t, hrun, -⟩ := getBits_consumed n hs hn
  exact hrun ▸ ends_ok

theorem readOrEos_ends (n : Nat) {after : Op Unit} (hs : InputOk s) (hafter : ∀ t, Ends (after t)) :
    Ends (readOrEos n after s) := by
  rw [readOrEos, bitsLeft_bind]
  exact ends_ite (fun _ => ends_ok) fun hn => (getBits_ends hs (by omega)).bind fun _ _ _ => hafter _

theorem varintByte_ends (hs : InputOk s) : Ends (varintByte s) := by
  rw [varintByte, bitsLeft_bind]
  exact ends_require_bind fun h8 => getBits_ends hs h8

theorem readVarintFrom_ends {L : Word} (k : Nat) : ∀ {sh v : Nat} {s : State}, LegalWith L s →
    Ends (readVarintFrom k sh v s) := by
  have hbyte : ∀ {s t : State} {b : Nat}, LegalWith L s → varintByte s = .ok b t → LegalWith L t := fun hs hrun => by
    have hkept := varintByte_keeps _ hs
    rwa [hrun] at hkept
  induction k with
  | zero =>
    intro sh v s hs
    exact (varintByte_ends hs.inputOk).bind fun _ _ _ => ends_require_bind fun _ => ends_ok
  | succ k ih =>
    intro sh v s hs
    exact (varintByte_ends hs.inputOk).bind fun _ _ hrun => ends_ite (fun _ => ends_ok) fun _ => ih (hbyte hs hrun)

theorem putAll_ends (bs : List Bool) (hs : OutputOk s) : Ends (putAll bs s) := by
  rcases Nat.lt_or_ge (room s) bs.length with hover | hfit
  · obtain ⟨t, hrun, -⟩ := putAll_overflow bs hs hover
    exact hrun ▸ ends_raise
  · obtain ⟨t, hrun, -⟩ := putAll_appended bs hs hfit
    exact hrun ▸ ends_ok

theorem putBits_ends (n v : Nat) (hs : OutputOk s) : Ends (putBits n v s) :=
  putBits_eq_putAll n v ▸ putAll_ends _ hs

theorem writeVarint_ends (v : Nat) (hs : OutputOk s) : Ends (writeVarint v s) := by
  rw [writeVarint, writeVarintFrom_eq_putAll]
  exact putAll_ends _ hs

theorem flush_ends (hs : OutputOk s) : Ends (flush s) := by
  rcases Nat.lt_or_ge (8 * s.cfg.outCap) (outputLength s) with hover | hfit
  · exact flush_over hs hover ▸ ends_raise
  · obtain ⟨t, hrun, -⟩ := flush_pads hs hfit
    exact hrun ▸ ends_ok

theorem opRdBytes_ends (hs : InputOk s) : Ends (opRdBytes s) := by
  obtain ⟨hcfg, hlen, hpos, -⟩ := hs
  refine ends_needReader_bind (ends_require_bind fun hfit => ends_require_bind fun _ => ?_)
  refine ends_ite (fun _ => ends_ok) fun hn => ends_ite (fun _ => ends_ok) fun havail => ?_
  obtain ⟨m, hrun, -⟩ := moveInput_run (s := s) (off := s.a0.toNat)
    (k := min s.a1.toNat (s.inp.len.toNat - s.inp.pos.toNat)) hcfg (by omega) (by omega) (by omega)
  exact hrun ▸ ends_ok

theorem opWrBytes_ends (hs : OutputOk s) : Ends (opWrBytes s) := by
  refine ends_needWriter_bind (ends_require_bind fun hfit => ends_require_bind fun _ => ends_require_bind fun hroom => ?_)
  obtain ⟨m, hrun, -⟩ := copyOutput_run s.a1.toNat hs.1 hfit hroom
  exact (show Ends _ from hrun ▸ ends_ok).bind fun _ _ _ => ends_ok

/-! ### The queue -/

theorem offer_ends (e : Entry) : Ends (offer e s) := by
  rw [offer_run]
  cases offered s.pq e with
  | none => exact ends_raise
  | some q => exact ends_ok

/-! ### Trees and codes -/

theorem opHufBuild_ends : Ends (opHufBuild s) := by
  refine ends_require_bind fun _ => ends_require_bind fun hne => ends_require_bind fun hsum => ?_
  obtain ⟨t, T, hrun, -⟩ := build_run (exists_freqAt_ne_zero hne) (freqTotal_eq s.freq ▸ hsum)
  exact hrun ▸ ends_ok

theorem opHufNode_ends (hc : CodeOk s.code) : Ends (opHufNode s) := by
  refine ends_require_bind (p := s.a0.toNat < s.code.count.toNat) fun hlt => ?_
  obtain ⟨nd, hnd⟩ := nodeOf_some hc.1 hlt
  exact (show Ends (nodeAt s.a0.toNat s) from nodeAt_some hnd ▸ ends_ok).bind fun _ _ _ => ends_ok

theorem opHufWrhdr_ends (hs : OutputOk s) (hc : CodeOk s.code) : Ends (opHufWrhdr s) :=
  ends_needWriter_bind <| ends_needCode_bind fun hv => by
    obtain ⟨T, hT⟩ := hc.2 hv
    exact serRoot_eq_putAll hT ▸ putAll_ends _ hs

theorem deser_ends (hs : InputOk s) : Ends (deser s) := by
  have hread := deser_reads hs
  match hrun : deser s with
  | .ok a t => exact ends_ok
  | .error (.raise c) t => exact ends_raise
  | .error (.fault f) t => rw [hrun] at hread; exact hread

/-- A symbol that LEAF_MAP maps to a leaf has a path to it (R121, R122). -/
theorem opHufEnc_ends (hs : OutputOk s) (hc : CodeOk s.code) : Ends (opHufEnc s) :=
  ends_needWriter_bind <| ends_needCode_bind fun hv => ends_require_bind (p := s.a0.toNat ≤ 255) fun hsym =>
    ends_require_bind (p := leafAt s.code s.a0.toNat ≠ Config.noNode) fun hleaf => by
      obtain ⟨T, -, hheld, -, hcap, hmaps⟩ := hc.2 hv
      have hx : (BitVec.ofNat 8 s.a0.toNat).toNat = s.a0.toNat := by
        rw [BitVec.toNat_ofNat, Nat.mod_eq_of_lt (by omega)]
      have hpath := (hmaps (BitVec.ofNat 8 s.a0.toNat)).2
      rw [hx] at hpath
      obtain ⟨p, hp, hend⟩ := hpath hleaf
      exact encodeSym_eq_putAll hheld hcap hp hend ▸ putAll_ends p hs

theorem decodeSym_ends {T : HTree} (hs : InputOk s) (hT : HoldsTree s.code T) : Ends (decodeSym s) := by
  have hdec := decodeSym_decodes hT hs
  cases hwant : T.decode (inputBits s) with
  | none =>
    rw [hwant] at hdec
    obtain ⟨t, hrun, -⟩ := hdec
    exact hrun ▸ ends_raise
  | some x =>
    rw [hwant] at hdec
    obtain ⟨t, bs, hrun, -⟩ := hdec
    exact hrun ▸ ends_ok

theorem opHufDec_ends (hs : InputOk s) (hc : CodeOk s.code) : Ends (opHufDec s) :=
  ends_needReader_bind <| ends_needCode_bind fun hv => by
    obtain ⟨T, hT⟩ := hc.2 hv
    exact (decodeSym_ends hs hT).bind fun _ _ _ => ends_ok

/-! ### From stream to stream -/

theorem Writes.flushed_ends {x : Op Unit} {bs rest : List Bool} (h : Writes x s bs rest) :
    Ends ((x >>= fun _ => flush) s) := by
  obtain ⟨t, written, -, hfits, hover⟩ := h.flushed
  rcases Nat.lt_or_ge (8 * s.cfg.outCap) (outputLength s + bs.length) with hno | hfit
  · exact (hover hno).1 ▸ ends_raise
  · exact (hfits hfit).1 ▸ ends_ok

theorem compressStream_ends (hi : InputOk s) (ho : OutputOk s) (hlen : s.inp.len ≠ 0#32) : Ends (compressStream s) := by
  obtain ⟨f, b, T, hf, -, hb, hrun⟩ := scan_build_run hi hlen
  obtain ⟨codewords, hcode⟩ := hb.exists_codewords hf
  rw [compressStream_eq, bind_of_ok hrun]
  exact (writes_codedStream (s := scanBuilt s f b) hb.holds hb.nodup (inputOk_rewound hi) ho hcode).flushed_ends

theorem expandSymbols_ends {T : HTree} (n : Nat) : ∀ {s : State}, HoldsTree s.code T → InputOk s → OutputOk s →
    Ends (expandSymbols n s) := by
  induction n with
  | zero => exact fun _ _ _ => ends_ok
  | succ n ih =>
    intro s hT hi ho
    cases hdec : T.decode (inputBits s) with
    | none =>
      obtain ⟨t, hrun, -⟩ := expandSymbols_short n hT hi ho hdec
      exact hrun ▸ ends_raise
    | some x =>
      obtain ⟨hfits, hover⟩ := expandSymbols_symbol n hT hi ho hdec
      rcases Nat.lt_or_ge (room s) 8 with h8 | h8
      · obtain ⟨t, hrun, -⟩ := hover h8
        exact hrun ▸ ends_raise
      · obtain ⟨t, hrun, hm, -⟩ := hfits h8
        exact hrun ▸ ih (hm.code ▸ hT) hm.input hm.outputOk

theorem expandFlush_ends {T : HTree} (n : Nat) (hT : HoldsTree s.code T) (hi : InputOk s) (ho : OutputOk s) :
    Ends (expandFlush n s) :=
  (expandSymbols_ends n hT hi ho).bind fun _ t hrun => by
    obtain ⟨bs, hm⟩ := expandSymbols_moved n hT hi ho
    rw [hrun] at hm
    exact flush_ends hm.outputOk

/-- Behind a header that is held HUF_EXPAND reads its count, and decodes what follows with that tree (R130). -/
theorem expandStream_ends (hs : StreamsLegal s) : Ends (expandStream s) := by
  have hrewound : LegalWith s.inp.len { s with inp := rewound s.inp } := inReset_keeps s ⟨hs, rfl⟩
  change Ends ((deser >>= fun _ => readVarint >>= expandFlush) { s with inp := rewound s.inp })
  refine (deser_ends hrewound.inputOk).bind fun _ t hdeser => ?_
  have ht := deser_keeps _ hrewound
  have hheld := deser_reads hrewound.inputOk
  rw [hdeser] at ht hheld
  obtain ⟨T, hT, -⟩ := hheld
  refine (readVarintFrom_ends 4 ht).bind fun n u hcount => ?_
  have hu := (readVarint_keeps t ht).and (after_within readVarint_footprint t)
  rw [readVarint, hcount] at hu
  obtain ⟨hlegal, hw⟩ := hu
  have hcode : u.code = t.code := hw.2 .code (by simp)
  exact expandFlush_ends n (hcode ▸ hT) hlegal.inputOk hlegal.outputOk

end

/-! ### Every command, every step -/

/-- No body stops at a fault in a state with legal streams and a tree or no code. -/
theorem bodyOf_ends (i : Instr) {s : State} (hs : StreamsLegal s) (hc : CodeOk s.code) : Ends (bodyOf i s) := by
  have ⟨_, hi, ho, _⟩ := hs
  cases i with
  | nop | clrErr | sreset | pqSize | freqClear => exact ends_ok
  | rdBit => exact ends_needReader_bind (readOrEos_ends 1 hi fun _ => ends_ok)
  | rdBits => exact ends_needReader_bind (ends_require_bind fun _ => readOrEos_ends _ hi fun _ => ends_ok)
  | rdByte => exact ends_needReader_bind (readOrEos_ends 8 hi fun _ => ends_ok)
  | rdBytes => exact opRdBytes_ends hi
  | rdInt => exact ends_needReader_bind ((readVarintFrom_ends 4 ⟨hs, rfl⟩).bind fun _ _ _ => ends_ok)
  | inLength => exact ends_needReader_bind ends_ok
  | inReset => exact ends_needReader_bind ends_ok
  | wrBit => exact ends_needWriter_bind (ends_require_bind fun _ => putBit_eq_putAll _ ▸ putAll_ends _ ho)
  | wrBits =>
    exact ends_needWriter_bind (ends_require_bind fun _ => ends_require_bind fun _ => putBits_ends _ _ ho)
  | wrByte => exact ends_needWriter_bind (ends_require_bind fun _ => putBits_ends 8 _ ho)
  | wrBytes => exact opWrBytes_ends ho
  | wrInt => exact ends_needWriter_bind (ends_require_bind fun _ => writeVarint_ends _ ho)
  | wrFlush => exact ends_needWriter_bind (flush_ends ho)
  | pqInit =>
    exact ends_require_bind fun _ => ends_require_bind fun _ => ends_require_bind fun _ => ends_require_bind fun _ => ends_ok
  | pqOffer present => exact ends_require_bind fun _ => offer_ends _
  | pqPoll => exact ends_ite (fun _ => ends_ok) fun _ => ends_ok
  | pqPeek => exact ends_ite (fun _ => ends_ok) fun _ => ends_ok
  | pqAt => exact ends_require_bind fun _ => ends_ok
  | freqSet => exact ends_require_bind fun _ => ends_require_bind fun _ => ends_ok
  | freqScan =>
    obtain ⟨f, hrun, -⟩ := scan_run hi
    exact ends_needReader_bind (hrun ▸ ends_ok)
  | hufBuild => exact opHufBuild_ends
  | hufNode => exact opHufNode_ends hc
  | hufLeaf => exact ends_needCode_bind fun _ => ends_require_bind fun _ => ends_ok
  | hufWrhdr => exact opHufWrhdr_ends ho hc
  | hufRdhdr => exact ends_needReader_bind (deser_ends hi)
  | hufEnc => exact opHufEnc_ends ho hc
  | hufDec => exact opHufDec_ends hi hc
  | hufCompress =>
    exact ends_needReader_bind (ends_needWriter_bind (ends_ite (fun _ => ends_ok) fun hlen =>
      compressStream_ends hi ho hlen))
  | hufExpand =>
    exact ends_needReader_bind (ends_needWriter_bind (ends_ite (fun _ => ends_ok) fun _ => expandStream_ends hs))
  | lzwWinit | lzwRinit => exact ends_require_bind fun _ => ends_ok
  | lzwWrite =>
    exact ends_needWriter_bind (ends_require_bind fun _ => ends_require_bind fun _ => ends_require_bind fun _ =>
      (putBits_ends _ _ ho).bind fun _ _ _ => ends_ok)
  | lzwRead =>
    exact ends_needReader_bind (ends_require_bind fun _ => ends_require_bind fun _ => readOrEos_ends _ hi fun _ => ends_ok)

theorem exec_next (i : Instr) {s : State} (hs : StreamsLegal s) (hc : CodeOk s.code) : ∃ t, exec i s = .next t :=
  exec_next_of_ends (bodyOf_ends i hs hc)

/-- The engine answers a next state for every word (30_encoding.md R66, R67). -/
theorem runIssued_next {s : State} (hs : StreamsLegal s) (hc : CodeOk s.code) : ∃ t, runIssued s = .next t := by
  cases hd : decode s.lastCmd with
  | ok i => exact runIssued_ok hd ▸ exec_next i hs hc
  | error e => exact ⟨_, runIssued_error ⟨e, hd⟩⟩

/-- Also a write of CMD is performed (20_memory.md R45, R49). -/
theorem writeReg_performed (r : Reg) (v : Word) {s : State} (hs : StreamsLegal s) (hc : CodeOk s.code) :
    ∃ t, writeReg r v s = .next t := by
  by_cases hr : r = .cmd
  · subst hr
    change ∃ t, writeCmd v s = .next t
    unfold writeCmd
    split
    · exact runIssued_next (s := issue v s) hs hc
    · exact ⟨_, rfl⟩
  · exact writeReg_next hr v s

/-- A host access is performed, or is a bus error (20_memory.md R49). -/
theorem perform_next_or_busError (e : HostEvent) {s : State} (hs : StreamsLegal s) (hc : CodeOk s.code) :
    (∃ t, perform e s = .next t) ∨ perform e s = .fault .busError := by
  cases e with
  | read a n =>
    simp only [perform]
    split
    · exact .inl ⟨_, rfl⟩
    · exact .inr rfl
  | write a n v =>
    simp only [perform, hostWrite]
    split
    case h_2 => exact .inl (writeReg_performed _ v hs hc)
    case h_4 | h_6 => exact .inl ⟨_, rfl⟩
    all_goals exact .inr rfl
  | powerOn => exact .inl ⟨_, rfl⟩

/-- Settles O57: no body stops at a fault where the streams are legal and the code is a tree or absent, so the engine always
answers a next state, and what the host's access can be instead is a bus error. -/
theorem everyCommandCompletes : Obligations.EveryCommandCompletes := by
  unfold Obligations.EveryCommandCompletes
  intro s hs _ hc
  refine ⟨fun i => exec_next i hs hc, ?_⟩
  unfold step advance
  split
  · exact .inl (runIssued_next hs hc)
  · split
    · exact .inl ⟨s, rfl⟩
    · exact perform_next_or_busError _ (s := { s with host := _ }) hs hc

end Sys2Proof.Proofs

/-! PROOFS. Input that no command reads (70_reset_and_hazards.md R155): two runs from states that differ in such bytes of
IN_MEM only end alike, in states that differ in the same bytes only. -/

namespace Sys2Proof.Proofs

open Sys2Proof Sys2Proof.Machine Sys2Proof.Safety Sys2Proof.Laws

/-! ### Hidden bytes -/

/-- Bytes of IN_MEM that are hidden while a stream of `len` bytes is read from byte `first` on (R155). -/
structure Veil where
  first   : Nat
  len     : Word
  hidden  : Nat → Prop
  outside : ∀ a, hidden a → inBase ≤ a ∧ a < outBase ∧ (a < inBase + first ∨ inBase + len.toNat ≤ a)

variable {V : Veil}

/-- A byte of the stream that is still to be read is not hidden. -/
theorem Veil.shows_input {k : Nat} (hfirst : V.first ≤ k) (hlen : k < V.len.toNat) : ¬ V.hidden (inBase + k) := fun h => by
  obtain ⟨-, -, hout⟩ := V.outside _ h
  omega

/-- SCRATCH is not hidden. -/
theorem Veil.shows_scratch (k : Nat) : ¬ V.hidden (scrBase + k) := fun h => by
  obtain ⟨-, hout, -⟩ := V.outside _ h
  have : outBase ≤ scrBase := by decide
  omega

/-- The input unit stands in the stream, behind the bytes that have been passed. -/
structure Veil.Reads (V : Veil) (s : State) : Prop where
  ok    : InputOk s
  first : V.first ≤ s.inp.pos.toNat
  len   : s.inp.len = V.len

/-- Two states that differ in hidden bytes only, and read what is not hidden. -/
def Veil.Alike (V : Veil) (s t : State) : Prop := SameBut V.hidden s t ∧ V.Reads s

theorem Veil.Reads.congr {s t : State} (h : V.Reads s) (hc : t.cfg = s.cfg) (hi : t.inp = s.inp) : V.Reads t where
  ok := inputOk_congr hc hi h.ok
  first := hi ▸ h.first
  len := hi ▸ h.len

theorem Veil.Reads.consumed {s t : State} {bs : List Bool} (h : V.Reads s) (hc : Consumed s t bs) : V.Reads t where
  ok := hc.ok
  first := h.first.trans (hc.pos_le h.ok)
  len := hc.len.trans h.len

/-- A write of one byte to both memories. -/
theorem read_write_alike {m m' : Memory} (h : ∀ a, ¬ V.hidden a → m'.read a = m.read a) (b : Nat) (v : Byte) (a : Nat)
    (ha : ¬ V.hidden a) : (m'.write b v).read a = (m.write b v).read a := by
  rw [read_write, read_write, h a ha]

/-! ### Runs side by side -/

/-- Started from alike states `x` ends in the same way: well in alike states, or with states that differ in hidden bytes. -/
def Hides {α : Type} (V : Veil) (x : Op α) : Prop :=
  ∀ s t, V.Alike s t → Paired (fun _ => V.Alike) (SameBut V.hidden) (x s) (x t)

namespace Hides

variable {α β : Type}

theorem ofPure (a : α) : Hides V (pure a : Op α) := fun _ _ h => .ok h

theorem ofRaise (c : ErrCode) : Hides V (raise c : Op α) := fun _ _ h => .raised h.1

theorem ofHalt (f : Fault) : Hides V (halt f : Op α) := fun _ _ _ => .stopped

theorem ofRequire (p : Prop) [Decidable p] (c : ErrCode) : Hides V (require p c) := fun s t h => by
  rw [require_run, require_run]
  split
  · exact .ok h
  · exact .raised h.1

theorem ofBind {x : Op α} {f : α → Op β} (hx : Hides V x) (hf : ∀ a, Hides V (f a)) : Hides V (x >>= f) :=
  fun s t h => (hx s t h).bind fun a u v huv => hf a u v huv

theorem ofIte (p : Prop) [Decidable p] {x y : Op α} (hx : Hides V x) (hy : Hides V y) : Hides V (if p then x else y) := by
  split <;> assumption

theorem ofGetBind {f : State → Op α}
    (h : ∀ s m, (∀ a, ¬ V.hidden a → m.read a = s.mem.read a) → V.Reads s →
      Paired (fun _ => V.Alike) (SameBut V.hidden) (f s s) (f { s with mem := m } { s with mem := m })) :
    Hides V (get >>= f) := fun s t ⟨⟨ht, hm⟩, hr⟩ => ht ▸ h s t.mem hm hr

/-- A read of anything but memory. -/
theorem ofVisible {f : State → Op α} (hf : ∀ s m, f { s with mem := m } = f s) (h : ∀ s, Hides V (f s)) :
    Hides V (get >>= f) := ofGetBind fun s m hm hr => by
  rw [hf s m]
  exact h s s { s with mem := m } ⟨⟨rfl, hm⟩, hr⟩

/-- A change of anything but memory and the input unit, made from anything but memory. -/
theorem ofModify {f : State → State} (hf : ∀ s m, f { s with mem := m } = { f s with mem := m })
    (hk : ∀ s, (f s).mem = s.mem ∧ (f s).cfg = s.cfg ∧ (f s).inp = s.inp) : Hides V (modify f : Op PUnit) :=
  fun s t ⟨⟨ht, hm⟩, hr⟩ => by
    obtain ⟨hmem, hcfg, hinp⟩ := hk s
    show Paired (fun _ => V.Alike) (SameBut V.hidden) (EStateM.Result.ok PUnit.unit (f s)) (EStateM.Result.ok PUnit.unit (f t))
    rw [ht, hf s t.mem]
    exact .ok ⟨⟨rfl, by rw [hmem]; exact hm⟩, hr.congr hcfg hinp⟩

end Hides

section
open Hides

/-! ### Operands, results and the output stream -/

theorem operand0_hides : Hides V operand0 := ofVisible (fun _ _ => rfl) fun _ => ofPure _

theorem operand1_hides : Hides V operand1 := ofVisible (fun _ _ => rfl) fun _ => ofPure _

theorem signedOperand0_hides : Hides V signedOperand0 := ofVisible (fun _ _ => rfl) fun _ => ofPure _

theorem needReader_hides : Hides V needReader := ofVisible (fun _ _ => rfl) fun _ => ofRequire _ _

theorem needWriter_hides : Hides V needWriter := ofVisible (fun _ _ => rfl) fun _ => ofRequire _ _

theorem needCode_hides : Hides V needCode := ofVisible (fun _ _ => rfl) fun _ => ofRequire _ _

theorem setRes0_hides (v : Word) : Hides V (setRes0 v) := ofModify (fun _ _ => rfl) fun _ => ⟨rfl, rfl, rfl⟩

theorem setRes1_hides (v : Word) : Hides V (setRes1 v) := ofModify (fun _ _ => rfl) fun _ => ⟨rfl, rfl, rfl⟩

theorem setRes2_hides (v : Word) : Hides V (setRes2 v) := ofModify (fun _ _ => rfl) fun _ => ⟨rfl, rfl, rfl⟩

theorem setResEntry_hides (e : Entry) : Hides V (setResEntry e) := ofBind (setRes0_hides _) fun _ => setRes1_hides _

theorem endOfStream_hides : Hides V endOfStream := ofModify (fun _ _ => rfl) fun _ => ⟨rfl, rfl, rfl⟩

theorem emptyQueue_hides : Hides V emptyQueue := ofModify (fun _ _ => rfl) fun _ => ⟨rfl, rfl, rfl⟩

theorem scratchByte_hides (a : Nat) : Hides V (scratchByte a) := ofGetBind fun _ _ hm hr => by
  rw [hm _ (V.shows_scratch a)]
  exact paired_ite (fun _ => .ok ⟨⟨rfl, hm⟩, hr⟩) fun _ => .stopped

theorem setScratchByte_hides (a : Nat) (v : Byte) : Hides V (setScratchByte a v) := ofGetBind fun _ _ hm hr =>
  paired_ite (fun _ => .ok ⟨⟨rfl, read_write_alike hm _ v⟩, hr.congr rfl rfl⟩) fun _ => .stopped

theorem setOutByte_hides (a : Nat) (v : Byte) : Hides V (setOutByte a v) := ofGetBind fun _ _ hm hr =>
  paired_ite (fun _ => .ok ⟨⟨rfl, read_write_alike hm _ v⟩, hr.congr rfl rfl⟩) fun _ => .stopped

theorem storeByte_hides (v : Byte) : Hides V (storeByte v) := ofVisible (fun _ _ => rfl) fun _ =>
  ofBind (setOutByte_hides _ v) fun _ => ofModify (fun _ _ => rfl) fun _ => ⟨rfl, rfl, rfl⟩

theorem putBit_hides (b : Bool) : Hides V (putBit b) := ofGetBind fun s _ hm hr =>
  paired_require_bind ⟨rfl, hm⟩ fun _ =>
    paired_ite (fun _ => storeByte_hides _ s _ ⟨⟨rfl, hm⟩, hr⟩) fun _ => .ok ⟨⟨rfl, hm⟩, hr.congr rfl rfl⟩

theorem putAll_hides (bs : List Bool) : Hides V (putAll bs) := by
  induction bs with
  | nil => exact ofPure _
  | cons b bs ih => exact ofBind (putBit_hides b) fun _ => ih

theorem putBits_hides (n v : Nat) : Hides V (putBits n v) := putBits_eq_putAll n v ▸ putAll_hides _

theorem writeVarint_hides (v : Nat) : Hides V (writeVarint v) := by
  rw [writeVarint, writeVarintFrom_eq_putAll]
  exact putAll_hides _

theorem flush_hides : Hides V flush := ofVisible (fun _ _ => rfl) fun _ =>
  ofIte _ (ofPure _) (ofBind (ofRequire _ _) fun _ => storeByte_hides _)

theorem copyOutput_hides (k : Nat) : ∀ src dst, Hides V (copyOutput k src dst) := by
  induction k with
  | zero => exact fun _ _ => ofPure _
  | succ k ih =>
    exact fun src dst => ofBind (scratchByte_hides src) fun b => ofBind (setOutByte_hides dst b) fun _ => ih _ _

/-! ### The queue, the arena and DSTACK -/

theorem offer_hides (e : Entry) : Hides V (offer e) := ofGetBind fun s m hm hr => by
  dsimp only
  cases offered s.pq e with
  | none => exact .raised ⟨rfl, hm⟩
  | some q => exact .ok ⟨⟨rfl, hm⟩, hr.congr rfl rfl⟩

theorem pollMin_hides : Hides V pollMin := ofGetBind fun _ _ hm hr => .ok ⟨⟨rfl, hm⟩, hr.congr rfl rfl⟩

theorem nodeAt_hides (n : Nat) : Hides V (nodeAt n) := ofVisible (fun _ _ => rfl) fun s => by
  cases nodeOf s.code n with
  | none => exact ofHalt _
  | some nd => exact ofPure _

theorem setParent_hides (n p : NodeIdx) : Hides V (setParent n p) :=
  ofBind (nodeAt_hides _) fun _ => ofModify (fun _ _ => rfl) fun _ => ⟨rfl, rfl, rfl⟩

theorem alloc_hides (leaf : Bool) (sym : Byte) (f : Word) (l r : NodeIdx) : Hides V (alloc leaf sym f l r) :=
  ofGetBind fun _ _ hm hr => paired_require_bind ⟨rfl, hm⟩ fun _ => .ok ⟨⟨rfl, hm⟩, hr.congr rfl rfl⟩

theorem mapLeaf_hides (sym : Nat) (n : NodeIdx) : Hides V (mapLeaf sym n) :=
  ofModify (fun _ _ => rfl) fun _ => ⟨rfl, rfl, rfl⟩

theorem push_hides (e : StackEntry) : Hides V (push e) := ofModify (fun _ _ => rfl) fun _ => ⟨rfl, rfl, rfl⟩

theorem offerLeaf_hides (sym : Nat) : Hides V (offerLeaf sym) := ofVisible (fun _ _ => rfl) fun _ =>
  ofIte _ (ofPure _) <| ofBind (alloc_hides _ _ _ _ _) fun _ => ofBind (mapLeaf_hides _ _) fun _ => offer_hides _

theorem offerLeaves_hides (l : List Nat) : Hides V (offerLeaves l) := by
  induction l with
  | nil => exact ofPure _
  | cons sym rest ih => exact ofBind (offerLeaf_hides sym) fun _ => ih

theorem mergeTwo_hides : Hides V mergeTwo :=
  ofBind pollMin_hides fun _ => ofBind pollMin_hides fun _ => ofBind (alloc_hides _ _ _ _ _) fun _ =>
    ofBind (setParent_hides _ _) fun _ => ofBind (setParent_hides _ _) fun _ => offer_hides _

theorem mergeAll_hides (fuel : Nat) : Hides V (mergeAll fuel) := by
  induction fuel with
  | zero => exact ofPure _
  | succ fuel ih =>
    exact ofVisible (fun _ _ => rfl) fun _ => ofIte _ (ofBind mergeTwo_hides fun _ => ih) (ofPure _)

theorem build_hides : Hides V build :=
  ofBind (ofModify (fun _ _ => rfl) fun _ => ⟨rfl, rfl, rfl⟩) fun _ => ofBind (offerLeaves_hides _) fun _ =>
    ofVisible (fun _ _ => rfl) fun _ => ofBind (mergeAll_hides _) fun _ => ofBind pollMin_hides fun _ =>
      ofModify (fun _ _ => rfl) fun _ => ⟨rfl, rfl, rfl⟩

theorem ser_hides (fuel : Nat) : ∀ n, Hides V (ser fuel n) := by
  induction fuel with
  | zero => exact fun _ => ofHalt _
  | succ fuel ih =>
    exact fun n => ofBind (nodeAt_hides _) fun _ => ofIte _ (ofBind (putBit_hides _) fun _ => putBits_hides 8 _)
      (ofBind (putBit_hides _) fun _ => ofBind (ih _) fun _ => ih _)

theorem serRoot_hides : Hides V serRoot := ofVisible (fun _ _ => rfl) fun _ => ser_hides _ _

theorem pathUp_hides (fuel : Nat) : ∀ n, Hides V (pathUp fuel n) := by
  induction fuel with
  | zero => exact fun _ => ofHalt _
  | succ fuel ih =>
    exact fun n => ofVisible (fun _ _ => rfl) fun _ => ofIte _ (ofPure _) <| ofBind (nodeAt_hides _) fun _ =>
      ofBind (nodeAt_hides _) fun _ => ofBind (ih _) fun _ => ofPure _

theorem encodeSym_hides (sym : Nat) : Hides V (encodeSym sym) := ofVisible (fun _ _ => rfl) fun _ =>
  ofBind (nodeAt_hides _) fun _ => ofIte _ (ofPure _) <|
    ofBind (ofVisible (fun _ _ => rfl) fun _ => ofBind (pathUp_hides _ _) fun _ => ofPure _) fun _ => putAll_hides _

theorem collapse_hides (fuel : Nat) : Hides V (collapse fuel) := by
  induction fuel with
  | zero => exact ofPure _
  | succ fuel ih =>
    refine ofVisible (fun _ _ => rfl) fun s => ?_
    cases collapsible s.dstack with
    | none => exact ofPure _
    | some lr =>
      exact ofBind (ofModify (fun _ _ => rfl) fun _ => ⟨rfl, rfl, rfl⟩) fun _ => ofBind (alloc_hides _ _ _ _ _) fun _ =>
        ofBind (setParent_hides _ _) fun _ => ofBind (setParent_hides _ _) fun _ => ofBind (push_hides _) fun _ => ih

theorem parentMarker_hides : Hides V parentMarker := ofVisible (fun _ _ => rfl) fun _ =>
  ofBind (ofRequire _ _) fun _ => push_hides _

/-! ### The input stream -/

theorem bitsLeft_hides : Hides V bitsLeft := ofVisible (fun _ _ => rfl) fun _ => ofPure _

/-- A byte of the stream that is still to be read is the same in both states. -/
theorem inByte_hides {a : Nat} (hfirst : V.first ≤ a) (hlen : a < V.len.toNat) : Hides V (inByte a) :=
  ofGetBind fun s m hm hr => by
    rw [hm _ (V.shows_input hfirst hlen)]
    exact paired_ite (fun _ => .ok ⟨⟨rfl, hm⟩, hr⟩) fun _ => .stopped

/-- With a bit left the byte that GetBit may fetch is not hidden (41_bitstream_in.md R76). -/
theorem refill_paired {s t : State} (h : V.Alike s t) (h1 : 1 ≤ inBitsLeft s.inp) :
    Paired (fun _ => SameBut V.hidden) (SameBut V.hidden) (refill s) (refill t) := by
  obtain ⟨⟨ht, hm⟩, hr⟩ := h
  rw [ht]
  refine paired_get_bind (paired_ite (fun h0 => ?_) fun _ => .ok ⟨rfl, hm⟩)
  have hpos : s.inp.pos.toNat < V.len.toNat := by
    rw [← hr.len]
    rw [inBitsLeft, h0] at h1
    simp at h1
    omega
  exact (inByte_hides hr.first hpos s { s with mem := t.mem } ⟨⟨rfl, hm⟩, hr⟩).bind fun b u v _ => .ok ⟨rfl, hm⟩

theorem drainBit_paired {s t : State} (h : SameBut V.hidden s t) :
    Paired (fun _ => SameBut V.hidden) (SameBut V.hidden) (drainBit s) (drainBit t) := by
  obtain ⟨ht, hm⟩ := h
  rw [ht]
  exact paired_get_bind (.ok ⟨rfl, hm⟩)

/-- GetBit consumes the same bit in both (R76). -/
theorem getBit_paired {s t : State} (h : V.Alike s t) (h1 : 1 ≤ inBitsLeft s.inp) :
    Paired (fun _ u v => V.Alike u v ∧ inBitsLeft s.inp = 1 + inBitsLeft u.inp) (SameBut V.hidden) (getBit s) (getBit t) := by
  have hafter : After (fun _ u => V.Reads u ∧ inBitsLeft s.inp = 1 + inBitsLeft u.inp) (fun _ => True) (getBit s) := by
    obtain ⟨b, u, hrun, hc⟩ := getBit_consumed h.2.ok h1
    rw [hrun]
    exact ⟨h.2.consumed hc, hc.left⟩
  have hpair : Paired (fun _ => SameBut V.hidden) (SameBut V.hidden) (getBit s) (getBit t) :=
    (refill_paired h h1).bind fun _ _ _ => drainBit_paired
  exact (hpair.and_after hafter).mono (fun _ _ _ ⟨hsame, hr, hleft⟩ => ⟨⟨hsame, hr⟩, hleft⟩) fun _ _ => id

/-- GetBits answers the same number in both (R77). -/
theorem getBitsFrom_paired (n : Nat) : ∀ {v : Nat} {s t : State}, V.Alike s t → n ≤ inBitsLeft s.inp →
    Paired (fun _ u v => V.Alike u v ∧ inBitsLeft s.inp = n + inBitsLeft u.inp) (SameBut V.hidden)
      (getBitsFrom n v s) (getBitsFrom n v t) := by
  induction n with
  | zero => exact fun h _ => .ok ⟨h, (Nat.zero_add _).symm⟩
  | succ n ih =>
    intro v s t h hn
    refine (getBit_paired h (by omega)).bind fun b u w ⟨huw, hleft⟩ => ?_
    exact (ih huw (by omega)).mono (fun _ _ _ ⟨hpq, hrest⟩ => ⟨hpq, by omega⟩) fun _ _ => id

theorem getBits_paired {n : Nat} {s t : State} (h : V.Alike s t) (hn : n ≤ inBitsLeft s.inp) :
    Paired (fun _ u v => V.Alike u v ∧ inBitsLeft s.inp = n + inBitsLeft u.inp) (SameBut V.hidden)
      (getBits n s) (getBits n t) := getBitsFrom_paired n h hn

/-- What stands behind a check that its bits are left. -/
theorem hides_checked {α : Type} {k : Nat} {c : ErrCode} {f : Unit → Op α}
    (h : ∀ s t, V.Alike s t → k ≤ inBitsLeft s.inp → Paired (fun _ => V.Alike) (SameBut V.hidden) (f () s) (f () t)) :
    Hides V (bitsLeft >>= fun n => require (k ≤ n) c >>= f) := fun s t hst => by
  have hinp : t.inp = s.inp := by rw [hst.1.1]
  rw [bitsLeft_bind, bitsLeft_bind, hinp]
  exact paired_require_bind hst.1 (h s t hst)

theorem varintByte_hides : Hides V varintByte := hides_checked fun _ _ h h8 =>
  (getBits_paired h h8).mono (fun _ _ _ huv => huv.1) fun _ _ => id

theorem readVarintFrom_hides (k : Nat) : ∀ sh v, Hides V (readVarintFrom k sh v) := by
  induction k with
  | zero => exact fun sh v => ofBind varintByte_hides fun b => ofBind (ofRequire _ _) fun _ => ofPure _
  | succ k ih => exact fun sh v => ofBind varintByte_hides fun b => ofIte _ (ofPure _) (ih _ _)

theorem readVarint_hides : Hides V readVarint := readVarintFrom_hides 4 0 0

theorem readOrEos_hides (n : Nat) {after : Op Unit} (hafter : Hides V after) : Hides V (readOrEos n after) :=
  fun s t hst => by
    have hinp : t.inp = s.inp := by rw [hst.1.1]
    rw [readOrEos, bitsLeft_bind, bitsLeft_bind, hinp]
    refine paired_ite (fun _ => endOfStream_hides s t hst) fun hn => ?_
    exact (getBits_paired hst (by omega)).bind fun w u v ⟨huv, _⟩ =>
      ofBind (setRes0_hides (BitVec.ofNat 32 w)) (fun _ => hafter) u v huv

/-- A rewound stream is read from byte 0 on (R78). -/
theorem inReset_hides (h0 : V.first = 0) : Hides V inReset := fun s t ⟨⟨ht, hm⟩, hr⟩ => by
  rw [ht]
  exact .ok ⟨⟨rfl, hm⟩, inputOk_rewound hr.ok, h0 ▸ Nat.zero_le _, hr.len⟩

/-- The copy of RD_BYTES reads bytes of the stream that are left (R83). -/
theorem copyInput_hides (k : Nat) : ∀ {src dst : Nat}, V.first ≤ src → src + k ≤ V.len.toNat →
    Hides V (copyInput k src dst) := by
  induction k with
  | zero => exact fun _ _ => ofPure _
  | succ k ih =>
    exact fun hfirst hlen => ofBind (inByte_hides hfirst (by omega)) fun b => ofBind (setScratchByte_hides _ b) fun _ =>
      ih (by omega) (by omega)

/-- So does its move, whose last byte is one of them (R83). -/
theorem moveInput_paired {off k : Nat} {s t : State} (h : V.Alike s t) (hk : 0 < k)
    (hlen : k ≤ s.inp.len.toNat - s.inp.pos.toNat) :
    Paired (fun _ => SameBut V.hidden) (SameBut V.hidden) (moveInput off k s) (moveInput off k t) := by
  have hinp : t.inp = s.inp := by rw [h.1.1]
  have hfirst := h.2.first
  rw [h.2.len] at hlen
  refine paired_get_bind ?_
  rw [hinp]
  refine (copyInput_hides k hfirst (by omega) s t h).bind fun _ u v huv => ?_
  refine (inByte_hides (by omega) (by omega) u v huv).bind fun b p q hpq => ?_
  obtain ⟨⟨hq, hm⟩, -⟩ := hpq
  rw [hq]
  exact .ok ⟨rfl, hm⟩

theorem opRdBytes_paired {s t : State} (h : V.Alike s t) :
    Paired (fun _ => SameBut V.hidden) (SameBut V.hidden) (opRdBytes s) (opRdBytes t) := by
  refine (needReader_hides s t h).bind fun _ s t h => (operand0_hides s t h).bind fun off s t h =>
    (operand1_hides s t h).bind fun n s t h => paired_get_bind ?_
  have hcfg : t.cfg = s.cfg := by rw [h.1.1]
  have hinp : t.inp = s.inp := by rw [h.1.1]
  rw [hcfg, hinp]
  refine paired_require_bind h.1 fun _ => paired_require_bind h.1 fun _ => ?_
  refine paired_ite (fun _ => (setRes0_hides _ s t h).mono (fun _ _ _ h => h.1) fun _ _ => id) fun hn => ?_
  refine paired_ite (fun _ => (endOfStream_hides s t h).mono (fun _ _ _ h => h.1) fun _ _ => id) fun havail => ?_
  exact moveInput_paired h (by omega) (Nat.min_le_right _ _)

/-! ### Scans, headers and codewords -/

theorem countFrom_hides (n : Nat) : ∀ {k : Nat}, V.first ≤ k → k + n ≤ V.len.toNat → Hides V (countFrom n k) := by
  induction n with
  | zero => exact fun _ _ => ofPure _
  | succ n ih =>
    exact fun hfirst hlen => ofBind (inByte_hides hfirst (by omega)) fun b =>
      ofBind (ofModify (fun _ _ => rfl) fun _ => ⟨rfl, rfl, rfl⟩) fun _ => ih (by omega) (by omega)

/-- A scan reads the IN_LEN bytes of the stream (44_huffman_tree.md R110). -/
theorem scan_hides (h0 : V.first = 0) : Hides V scan :=
  ofBind (ofModify (fun _ _ => rfl) fun _ => ⟨rfl, rfl, rfl⟩) fun _ => ofGetBind fun s m hm hr => by
    have hcount : Hides V (countFrom s.inp.len.toNat 0) := countFrom_hides _ h0.le (by rw [hr.len, Nat.zero_add])
    exact ofBind hcount (fun _ => ofBind (inReset_hides h0) fun _ =>
      ofModify (f := fun s => { s with freq := { s.freq with valid := true } }) (fun _ _ => rfl) fun _ => ⟨rfl, rfl, rfl⟩)
      s { s with mem := m } ⟨⟨rfl, hm⟩, hr⟩

theorem leafMarker_hides : Hides V leafMarker := hides_checked fun _ _ h h8 =>
  (getBits_paired h h8).bind fun _ u v ⟨huv, _⟩ =>
    ofVisible (fun _ _ => rfl) (fun _ => ofBind (ofRequire _ _) fun _ => ofBind (alloc_hides _ _ _ _ _) fun _ =>
      ofBind (mapLeaf_hides _ _) fun _ => ofBind (push_hides _) fun _ =>
        ofVisible (fun _ _ => rfl) fun _ => collapse_hides _) u v huv

theorem deserFrom_hides (fuel : Nat) : Hides V (deserFrom fuel) := by
  induction fuel with
  | zero => exact ofRaise _
  | succ fuel ih =>
    refine hides_checked fun s t h h1 => (getBit_paired h h1).bind fun b u v ⟨huv, _⟩ => ?_
    refine ofIte (b = true) (ofBind parentMarker_hides fun _ => ih) (ofBind leafMarker_hides fun _ =>
      ofVisible (fun _ _ => rfl) fun w => ?_) u v huv
    cases soleNode w.dstack with
    | none => exact ih
    | some r => exact ofModify (fun _ _ => rfl) fun _ => ⟨rfl, rfl, rfl⟩

theorem deser_hides : Hides V deser :=
  ofBind (ofModify (fun _ _ => rfl) fun _ => ⟨rfl, rfl, rfl⟩) fun _ => ofBind bitsLeft_hides fun _ => deserFrom_hides _

theorem decodeFrom_hides (fuel : Nat) : ∀ n, Hides V (decodeFrom fuel n) := by
  induction fuel with
  | zero => exact fun n => ofBind (nodeAt_hides _) fun _ => ofIte _ (ofPure _) (ofRaise _)
  | succ fuel ih =>
    exact fun n => ofBind (nodeAt_hides _) fun nd => ofIte _ (ofPure _) <| hides_checked fun s t h h1 =>
      (getBit_paired h h1).bind fun b u v ⟨huv, _⟩ => ofIte (b = true) (ih _) (ih _) u v huv

theorem decodeSym_hides : Hides V decodeSym :=
  ofBind bitsLeft_hides fun _ => ofVisible (fun _ _ => rfl) fun _ => decodeFrom_hides _ _

theorem expandSymbols_hides (n : Nat) : Hides V (expandSymbols n) := by
  induction n with
  | zero => exact ofPure _
  | succ n ih => exact ofBind decodeSym_hides fun _ => ofBind (putBits_hides 8 _) fun _ => ih

theorem expandStream_hides (h0 : V.first = 0) : Hides V expandStream :=
  ofBind (inReset_hides h0) fun _ => ofBind deser_hides fun _ => ofBind readVarint_hides fun _ =>
    ofBind (expandSymbols_hides _) fun _ => flush_hides

/-- The coding loop reads the bytes that are left (46_huffman_stream.md R129). -/
theorem compressBytes_paired (n : Nat) : ∀ {s t : State}, V.Alike s t → 8 * n ≤ inBitsLeft s.inp →
    Paired (fun _ => V.Alike) (SameBut V.hidden) (compressBytes n s) (compressBytes n t) := by
  induction n with
  | zero => exact fun h _ => .ok h
  | succ n ih =>
    intro s t h hn
    refine (getBits_paired h (by omega)).bind fun sym u v ⟨huv, hleft⟩ => ?_
    refine ((encodeSym_hides sym u v huv).and_after (after_within (encodeSym_footprint sym) u)).bind
      fun _ p q ⟨hpq, hw⟩ => ih hpq ?_
    have hinp : p.inp = u.inp := hw.2 .inp (by simp)
    rw [hinp]
    omega

theorem compressStream_hides (h0 : V.first = 0) : Hides V compressStream := ofGetBind fun s m hm hr => by
  refine ofBind (scan_hides h0) (fun _ => ofBind build_hides fun _ => ofBind serRoot_hides fun _ =>
    ofBind (writeVarint_hides _) fun _ u v huv => ?_) s { s with mem := m } ⟨⟨rfl, hm⟩, hr⟩
  have hrewound : Paired _ _ (inReset u) (inReset v) :=
    (inReset_hides h0 u v huv).and_after (P := fun _ w => w.inp = rewound u.inp) (P' := fun _ => True) rfl
  refine hrewound.bind fun _ p q ⟨hpq, hp⟩ => (compressBytes_paired _ hpq ?_).bind fun _ => flush_hides
  have hlen : u.inp.len = s.inp.len := huv.2.len.trans hr.len.symm
  simp [hp, inBitsLeft, rewound, hlen]

/-! ### Every command -/

theorem opWrBytes_hides : Hides V opWrBytes :=
  ofBind needWriter_hides fun _ => ofBind operand0_hides fun _ => ofBind operand1_hides fun _ =>
    ofVisible (fun _ _ => rfl) fun _ => ofBind (ofRequire _ _) fun _ => ofBind (ofRequire _ _) fun _ =>
      ofBind (ofRequire _ _) fun _ => ofBind (copyOutput_hides _ _ _) fun _ =>
        ofModify (fun _ _ => rfl) fun _ => ⟨rfl, rfl, rfl⟩

theorem opPqInit_hides : Hides V opPqInit :=
  ofBind operand0_hides fun _ => ofBind signedOperand0_hides fun _ => ofBind operand1_hides fun _ =>
    ofGetBind fun _ _ hm hr => paired_require_bind ⟨rfl, hm⟩ fun _ => paired_require_bind ⟨rfl, hm⟩ fun _ =>
      paired_require_bind ⟨rfl, hm⟩ fun _ => paired_require_bind ⟨rfl, hm⟩ fun _ => .ok ⟨⟨rfl, hm⟩, hr.congr rfl rfl⟩

theorem opHufNode_hides : Hides V opHufNode :=
  ofBind operand0_hides fun _ => ofVisible (fun _ _ => rfl) fun _ => ofBind (ofRequire _ _) fun _ =>
    ofBind (nodeAt_hides _) fun _ => ofBind (setRes0_hides _) fun _ => ofBind (setRes1_hides _) fun _ => setRes2_hides _

theorem opHufEnc_hides : Hides V opHufEnc :=
  ofBind needWriter_hides fun _ => ofBind needCode_hides fun _ => ofBind operand0_hides fun sym =>
    ofBind (ofRequire _ _) fun _ => ofVisible (fun _ _ => rfl) fun _ => ofBind (ofRequire _ _) fun _ => encodeSym_hides sym

theorem opHufCompress_hides (h0 : V.first = 0) : Hides V opHufCompress :=
  ofBind needReader_hides fun _ => ofBind needWriter_hides fun _ => ofVisible (fun _ _ => rfl) fun _ =>
    ofIte _ (ofPure _) (compressStream_hides h0)

theorem opHufExpand_hides (h0 : V.first = 0) : Hides V opHufExpand :=
  ofBind needReader_hides fun _ => ofBind needWriter_hides fun _ => ofVisible (fun _ _ => rfl) fun _ =>
    ofIte _ (ofPure _) (expandStream_hides h0)

theorem opLzwWrite_hides : Hides V opLzwWrite :=
  ofBind needWriter_hides fun _ => ofVisible (fun _ _ => rfl) fun _ => ofBind (ofRequire _ _) fun _ =>
    ofBind (ofRequire _ _) fun _ => ofBind operand0_hides fun _ => ofBind (ofRequire _ _) fun _ =>
      ofBind (putBits_hides _ _) fun _ => ofModify (fun _ _ => rfl) fun _ => ⟨rfl, rfl, rfl⟩

theorem opLzwRead_hides : Hides V opLzwRead :=
  ofBind needReader_hides fun _ => ofVisible (fun _ _ => rfl) fun _ => ofBind (ofRequire _ _) fun _ =>
    ofBind (ofRequire _ _) fun _ => readOrEos_hides _ <| ofModify (fun _ _ => rfl) fun _ => ⟨rfl, rfl, rfl⟩

/-- The commands that read from IN_POS on (R155). -/
def positionReaders : List Instr := [.rdBit, .rdBits, .rdByte, .rdBytes, .rdInt, .hufRdhdr, .hufDec, .lzwRead]

/-- Every body but SRESET's, which resets the input unit, and RD_BYTES', which leaves the stream where a byte ends. -/
theorem bodyOf_hides (i : Instr) (hsreset : i ≠ .sreset) (hbytes : i ≠ .rdBytes) (h0 : i ∉ positionReaders → V.first = 0) :
    Hides V (bodyOf i) := by
  cases i with
  | nop => exact ofPure _
  | clrErr => exact ofModify (fun _ _ => rfl) fun _ => ⟨rfl, rfl, rfl⟩
  | sreset => exact absurd rfl hsreset
  | rdBit => exact ofBind needReader_hides fun _ => readOrEos_hides 1 (ofPure _)
  | rdBits =>
    exact ofBind needReader_hides fun _ => ofBind operand0_hides fun _ => ofBind (ofRequire _ _) fun _ =>
      readOrEos_hides _ (ofPure _)
  | rdByte => exact ofBind needReader_hides fun _ => readOrEos_hides 8 (ofPure _)
  | rdBytes => exact absurd rfl hbytes
  | rdInt => exact ofBind needReader_hides fun _ => ofBind readVarint_hides fun _ => setRes0_hides _
  | inLength => exact ofBind needReader_hides fun _ => ofVisible (fun _ _ => rfl) fun _ => setRes0_hides _
  | inReset => exact ofBind needReader_hides fun _ => inReset_hides (h0 (by decide))
  | wrBit =>
    exact ofBind needWriter_hides fun _ => ofBind operand0_hides fun _ => ofBind (ofRequire _ _) fun _ => putBit_hides _
  | wrBits =>
    exact ofBind needWriter_hides fun _ => ofBind operand0_hides fun _ => ofBind operand1_hides fun _ =>
      ofBind (ofRequire _ _) fun _ => ofBind (ofRequire _ _) fun _ => putBits_hides _ _
  | wrByte =>
    exact ofBind needWriter_hides fun _ => ofBind operand0_hides fun _ => ofBind (ofRequire _ _) fun _ => putBits_hides _ _
  | wrBytes => exact opWrBytes_hides
  | wrInt =>
    exact ofBind needWriter_hides fun _ => ofBind operand0_hides fun _ => ofBind (ofRequire _ _) fun _ => writeVarint_hides _
  | wrFlush => exact ofBind needWriter_hides fun _ => flush_hides
  | pqInit => exact opPqInit_hides
  | pqOffer => exact ofBind (ofRequire _ _) fun _ => ofVisible (fun _ _ => rfl) fun _ => offer_hides _
  | pqPoll =>
    exact ofVisible (fun _ _ => rfl) fun _ => ofIte _ emptyQueue_hides <| ofBind pollMin_hides fun _ => setResEntry_hides _
  | pqPeek => exact ofVisible (fun _ _ => rfl) fun _ => ofIte _ emptyQueue_hides (setResEntry_hides _)
  | pqSize => exact ofVisible (fun _ _ => rfl) fun _ => setRes0_hides _
  | pqAt =>
    exact ofBind operand0_hides fun _ => ofVisible (fun _ _ => rfl) fun _ => ofBind (ofRequire _ _) fun _ => setResEntry_hides _
  | freqClear => exact ofModify (fun _ _ => rfl) fun _ => ⟨rfl, rfl, rfl⟩
  | freqSet =>
    exact ofBind operand0_hides fun _ => ofBind operand1_hides fun _ => ofBind (ofRequire _ _) fun _ =>
      ofBind (ofRequire _ _) fun _ => ofModify (fun _ _ => rfl) fun _ => ⟨rfl, rfl, rfl⟩
  | freqScan => exact ofBind needReader_hides fun _ => scan_hides (h0 (by decide))
  | hufBuild =>
    exact ofVisible (fun _ _ => rfl) fun _ => ofBind (ofRequire _ _) fun _ => ofBind (ofRequire _ _) fun _ =>
      ofBind (ofRequire _ _) fun _ => build_hides
  | hufNode => exact opHufNode_hides
  | hufLeaf =>
    exact ofBind needCode_hides fun _ => ofBind operand0_hides fun _ => ofBind (ofRequire _ _) fun _ =>
      ofVisible (fun _ _ => rfl) fun _ => setRes0_hides _
  | hufWrhdr => exact ofBind needWriter_hides fun _ => ofBind needCode_hides fun _ => serRoot_hides
  | hufRdhdr => exact ofBind needReader_hides fun _ => deser_hides
  | hufEnc => exact opHufEnc_hides
  | hufDec =>
    exact ofBind needReader_hides fun _ => ofBind needCode_hides fun _ => ofBind decodeSym_hides fun _ => setRes0_hides _
  | hufCompress => exact opHufCompress_hides (h0 (by decide))
  | hufExpand => exact opHufExpand_hides (h0 (by decide))
  | lzwWinit =>
    exact ofBind signedOperand0_hides fun _ => ofBind (ofRequire _ _) fun _ =>
      ofModify (fun _ _ => rfl) fun _ => ⟨rfl, rfl, rfl⟩
  | lzwRinit =>
    exact ofBind signedOperand0_hides fun _ => ofBind (ofRequire _ _) fun _ =>
      ofModify (fun _ _ => rfl) fun _ => ⟨rfl, rfl, rfl⟩
  | lzwWrite => exact opLzwWrite_hides
  | lzwRead => exact opLzwRead_hides

end

theorem softReset_sameBut {hidden : Nat → Prop} {s t : State} (h : SameBut hidden s t) :
    SameBut hidden (softReset s) (softReset t) := by
  obtain ⟨ht, hm⟩ := h
  rw [ht]
  exact ⟨rfl, hm⟩

theorem complete_sameBut {hidden : Nat → Prop} {s t : State} (h : SameBut hidden s t) :
    SameBut hidden (complete s) (complete t) := by
  obtain ⟨ht, hm⟩ := h
  rw [ht]
  exact ⟨rfl, hm⟩

theorem takeError_sameBut {hidden : Nat → Prop} (c : ErrCode) {s t : State} (h : SameBut hidden s t) :
    SameBut hidden (takeError c s) (takeError c t) := by
  obtain ⟨ht, hm⟩ := h
  rw [ht]
  exact ⟨rfl, hm⟩

/-- Every body, run from two states that differ in hidden bytes. -/
theorem bodyOf_paired_hidden (i : Instr) (h0 : i ∉ positionReaders → V.first = 0) {s t : State} (h : V.Alike s t) :
    Paired (fun _ => SameBut V.hidden) (SameBut V.hidden) (bodyOf i s) (bodyOf i t) := by
  by_cases hsreset : i = .sreset
  · subst hsreset
    exact .ok (softReset_sameBut h.1)
  by_cases hbytes : i = .rdBytes
  · subst hbytes
    exact opRdBytes_paired h
  · exact (bodyOf_hides i hsreset hbytes h0 s t h).mono (fun _ _ _ huv => huv.1) fun _ _ => id

/-- The veil over a command's unread input: for a position reader the bytes it has passed are hidden too (R155). -/
def unreadVeil (i : Instr) (u : InUnit) (hidden : Nat → Prop) (h : ∀ a, hidden a → inBase ≤ a ∧ a < outBase ∧
    (inBase + u.len.toNat ≤ a ∨ (i ∈ positionReaders ∧ a < inBase + u.pos.toNat))) : Veil where
  first := if i ∈ positionReaders then u.pos.toNat else 0
  len := u.len
  hidden := hidden
  outside a ha := by
    obtain ⟨hin, hout, hbeyond | ⟨hi, hbefore⟩⟩ := h a ha
    · exact ⟨hin, hout, .inr hbeyond⟩
    · exact ⟨hin, hout, .inl (by rwa [if_pos hi])⟩

theorem unreadVeil_first_le {i : Instr} {u : InUnit} {hidden : Nat → Prop} (h : ∀ a, hidden a →
    inBase ≤ a ∧ a < outBase ∧ (inBase + u.len.toNat ≤ a ∨ (i ∈ positionReaders ∧ a < inBase + u.pos.toNat))) :
    (unreadVeil i u hidden h).first ≤ u.pos.toNat := by
  show (if i ∈ positionReaders then u.pos.toNat else 0) ≤ _
  split
  · exact le_rfl
  · exact Nat.zero_le _

/-- Settles O59: every byte a primitive fetches is one of the stream that is still to be read. -/
theorem unreadInputUnseen : Obligations.UnreadInputUnseen := by
  unfold Obligations.UnreadInputUnseen
  intro i s t s' hidden hok hhidden hst
  have hreads : (unreadVeil i s.inp hidden hhidden).Reads s := ⟨hok, unreadVeil_first_le hhidden, rfl⟩
  have hbodies := bodyOf_paired_hidden i (fun hi => if_neg hi) ⟨hst, hreads⟩
  rw [exec_eq, exec_eq]
  exact (hbodies.command (fun _ _ h => complete_sameBut h) fun c _ _ h => takeError_sameBut c h).1 s'

end Sys2Proof.Proofs

/-! PROOFS. What the host sees of a command word, a reset and an idle block (30_encoding.md R68, 60_exceptions.md R143 to R145,
R151 to R153), and which command moves which resource (70_reset_and_hazards.md R158). -/

namespace Sys2Proof.Proofs

open Sys2Proof Sys2Proof.Machine Sys2Proof.Safety Sys2Proof.Laws

/-- Settles O2: the nine words are the encodings of the nine commands. -/
theorem tableWordsDecode : Obligations.TableWordsDecode := by
  unfold Obligations.TableWordsDecode
  exact ⟨decode_encode .nop, decode_encode .rdBits, decode_encode .wrInt, decode_encode (.pqOffer true),
    decode_encode (.pqOffer false), decode_encode .hufBuild, decode_encode .hufEnc, decode_encode .hufExpand,
    decode_encode .lzwRead⟩

/-! ### Command words -/

/-- A word that is not accepted is ignored (60_exceptions.md R143). -/
theorem step_ignored {s : State} {w : Word} {rest : List HostEvent} (h : NextCommand s w rest) (ha : accepted w s ≠ true) :
    step s = .next (ignore w { s with host := rest }) := by
  rw [step_writeReg (r := .cmd) h rfl (by decide) rfl]
  exact if_neg ha

/-- Settles O5: with ERR = 1 only the opcodes of CLR_ERR and SRESET are accepted, and any other word is ignored. -/
theorem commandIgnoredWhileError : Obligations.CommandIgnoredWhileError := by
  unfold Obligations.CommandIgnoredWhileError
  intro s w rest h herr h2 h3
  have ha : accepted w s ≠ true := fun ha => by
    rcases (accepted_iff w s).mp ha with h | h | h
    · simp [herr] at h
    · exact h2 h
    · exact h3 h
  exact step_ignored h ha

/-- What the step of a CMD write can be: the word is ignored, or illegal, or a command's and executed. -/
theorem step_command {s t : State} {w : Word} {rest : List HostEvent} (h : NextCommand s w rest) (hst : step s = .next t) :
    (accepted w s ≠ true ∧ t = ignore w { s with host := rest }) ∨
      (accepted w s = true ∧ (∃ e, decode w = .error e) ∧
        t = takeError .illegalCommand (issue w { s with host := rest })) ∨
      (accepted w s = true ∧ ∃ i, w = encode i ∧ exec i (issue w { s with host := rest }) = .next t) := by
  by_cases ha : accepted w s = true
  · rw [step_accepted h ha] at hst
    cases hd : decode w with
    | ok i =>
      rw [runIssued_ok (s := issue w { s with host := rest }) hd] at hst
      exact .inr (.inr ⟨ha, i, (decodeInvertsEncode w i).mp hd, hst⟩)
    | error e =>
      rw [runIssued_error (s := issue w { s with host := rest }) ⟨e, hd⟩] at hst
      cases hst
      exact .inr (.inl ⟨ha, ⟨e, rfl⟩, rfl⟩)
  · rw [step_ignored h ha] at hst
    cases hst
    exact .inl ⟨ha, rfl⟩

/-- A word of nothing but the opcode of CLR_ERR or SRESET is a command's. -/
theorem encode_of_low_byte {w : Word} (hlow : w.toNat % 2 ^ 8 = 0x02 ∨ w.toNat % 2 ^ 8 = 0x03) (hhigh : w.toNat / 2 ^ 8 = 0) :
    w = encode .clrErr ∨ w = encode .sreset := by
  refine hlow.imp (fun h => BitVec.eq_of_toNat_eq ?_) fun h => BitVec.eq_of_toNat_eq ?_
  · show w.toNat = 2
    omega
  · show w.toNat = 3
    omega

/-- An illegal word with the opcode of CLR_ERR or SRESET has a bit above it set (30_encoding.md R66). -/
theorem high_ne_zero_of_illegal {w : Word} (hlow : w.toNat % 2 ^ 8 = 0x02 ∨ w.toNat % 2 ^ 8 = 0x03)
    (h : ∃ e, decode w = .error e) : w.toNat / 2 ^ 8 ≠ 0 := fun hhigh => by
  obtain ⟨e, he⟩ := h
  rcases encode_of_low_byte hlow hhigh with rfl | rfl
  · rw [decode_encode] at he
    cases he
  · rw [decode_encode] at he
    cases he

/-- A word with the opcode of CLR_ERR or SRESET is no other command's. -/
theorem eq_of_encode_low_byte {i : Instr}
    (h : (encode i).toNat % 2 ^ 8 = 0x02 ∨ (encode i).toNat % 2 ^ 8 = 0x03) : i = .clrErr ∨ i = .sreset := by
  cases i with
  | clrErr => exact .inl rfl
  | sreset => exact .inr rfl
  | pqOffer present => cases present <;> revert h <;> decide
  | _ => revert h; decide

/-- The two commands of the error state leave it (60_exceptions.md R144). -/
theorem exec_err_false {i : Instr} {s t : State} (hi : i = .clrErr ∨ i = .sreset) (h : exec i s = .next t) :
    t.status.err = false := by
  rcases hi with rfl | rfl
  · rw [exec_clrErr] at h
    cases h
    rfl
  · rw [exec_sreset] at h
    cases h
    rfl

/-- Settles O6: with ERR = 1 an ignored word keeps the error, the two commands that are executed clear it, and what is
left is an illegal word with one of their opcodes. -/
theorem returnFromError : Obligations.ReturnFromError := by
  unfold Obligations.ReturnFromError
  refine ⟨fun s rest h => ?_, fun s t w rest h herr hst hterr hne => ?_⟩
  · rw [stepRunsDecodedCommand.1 s .clrErr rest h (.inr (.inl rfl)), exec_clrErr]
    rfl
  · rcases step_command h hst with ⟨-, rfl⟩ | ⟨ha, hillegal, rfl⟩ | ⟨ha, i, rfl, hexec⟩
    · rcases hne with hne | hne <;> exact absurd rfl hne
    · have hlow : w.toNat % 2 ^ 8 = 0x02 ∨ w.toNat % 2 ^ 8 = 0x03 := by simpa [herr] using (accepted_iff w s).mp ha
      exact ⟨hlow, high_ne_zero_of_illegal hlow hillegal, rfl, rfl⟩
    · have hlow := ((accepted_iff _ s).mp ha).resolve_left (by simp [herr])
      rw [exec_err_false (eq_of_encode_low_byte hlow) hexec] at hterr
      cases hterr

/-! ### The interrupt line (60_exceptions.md R145) -/

/-- A command that ends raises the line where it is enabled; SRESET disables it. -/
theorem exec_irq {i : Instr} {s t : State} (hi : i ≠ .sreset) (h : exec i s = .next t) : irq t = s.ctrl.irqEn := by
  have hctrl : t.ctrl = s.ctrl := exec_samePart h .ctrl (not_mem_footprint_of_issueParts hi (by decide))
  rw [irq, (exec_busy_done h).2, hctrl, Bool.and_true]

/-- Settles O13: every word but SRESET's ends with DONE = 1 and CTRL as it was. -/
theorem interruptLine : Obligations.InterruptLine := by
  unfold Obligations.InterruptLine
  refine ⟨fun _ => rfl, fun s t w rest h hst hw => ?_, fun s t rest h hst => ?_, fun s t v rest h hv hst => ?_,
    fun s t v rest h hst => ?_⟩
  · rcases step_command h hst with ⟨-, rfl⟩ | ⟨-, -, rfl⟩ | ⟨-, i, rfl, hexec⟩
    · exact Bool.and_true _
    · exact Bool.and_true _
    · exact exec_irq (s := issue (encode i) { s with host := rest }) (fun hi : i = .sreset => hw (by rw [hi]; rfl)) hexec
  · rw [stepRunsDecodedCommand.1 s .sreset rest h (.inr (.inr rfl)), exec_sreset] at hst
    cases hst
    rfl
  · rw [step_writeReg (r := .status) h rfl (by decide) rfl] at hst
    cases hst
    simp [irq, flagsHostWrite, hv]
  · rw [step_writeReg (r := .ctrl) h rfl (by decide) rfl] at hst
    cases hst
    rfl

/-! ### Power-on reset and the idle block -/

theorem statusWord_reset : statusWord Status.reset = 0#32 := by decide

theorem ctrlWord_reset : ctrlWord Ctrl.reset = 0#32 := by decide

/-- Settles O7: power-on reset answers the reset state of the next draw, and an idle block has nothing to perform. -/
theorem powerOnAndIdle : Obligations.PowerOnAndIdle := by
  unfold Obligations.PowerOnAndIdle
  refine ⟨fun s rest h => ⟨_, step_nextEvent h, rfl, rfl, rfl, rfl, rfl, rfl, rfl, rfl, rfl, rfl, statusWord_reset,
    ctrlWord_reset, rfl, rfl, rfl, rfl, rfl, fun sym _ => freqAt_reset sym, rfl, rfl, rfl, rfl, rfl, rfl, rfl,
    s.mem.draw + 1, fun _ => rfl⟩, fun s hb hh => ?_⟩
  rw [step, advance, hb, hh]
  rfl

/-! ### Resources and their commands -/

/-- Settles O20: a resource that has changed is a part of the command's footprint. -/
theorem resourcesMovedByTheirCommands : Obligations.ResourcesMovedByTheirCommands := by
  unfold Obligations.ResourcesMovedByTheirCommands
  intro i s t h
  have hmem : ∀ p : Part, ¬ samePart p s t → p ∈ Part.status :: .errInfo :: bodyParts i := fun _ => mem_of_not_samePart h
  refine ⟨fun hne => ?_, fun hne => ?_, fun hne => ?_, fun hne => ?_, fun hne => ?_, fun hne => ?_, fun hne => ?_⟩
  · have hp := hmem .pq hne
    cases i <;> simp [bodyParts] at hp ⊢
  · have hp := hmem .freq hne
    cases i <;> simp [bodyParts] at hp ⊢
  · have hp := hmem .code hne
    cases i <;> simp [bodyParts] at hp ⊢
  · have hp := hmem .inp hne
    cases i <;> simp [bodyParts] at hp ⊢
  · have hp := hmem .out hne
    cases i <;> simp [bodyParts] at hp ⊢
  · have hp := hmem .lzw hne
    cases i <;> simp [bodyParts] at hp ⊢
  · have hp := hmem .dstack hne
    cases i <;> simp [bodyParts] at hp ⊢

end Sys2Proof.Proofs

/-! PROOFS. The errors a command can raise (60_exceptions.md R138), primitive by primitive. -/

namespace Sys2Proof.Proofs

open Sys2Proof Sys2Proof.Machine Sys2Proof.Safety Sys2Proof.Laws

/-- Every error `x` raises is in the list. -/
def RaisesIn {α : Type} (cs : List ErrCode) (x : Op α) : Prop := ∀ s c t, x s = .error (.raise c) t → c ∈ cs

namespace RaisesIn

variable {α β : Type} {cs : List ErrCode}

/-- A primitive that never raises. -/
theorem ofNever {x : Op α} (h : ∀ s, After (fun _ _ => True) (fun _ => False) (x s)) : RaisesIn cs x := fun s c t hx => by
  have hs := h s
  rw [hx] at hs
  exact hs.elim

theorem ofPure (a : α) : RaisesIn cs (pure a : Op α) := ofNever fun _ => trivial

theorem ofHalt (f : Fault) : RaisesIn cs (halt f : Op α) := ofNever fun _ => trivial

theorem ofModify (f : State → State) : RaisesIn cs (modify f : Op PUnit) := ofNever fun _ => trivial

theorem ofSet (t : State) : RaisesIn cs (set t : Op PUnit) := ofNever fun _ => trivial

theorem ofRaise {c : ErrCode} (hc : c ∈ cs) : RaisesIn cs (raise c : Op α) := fun s c' t h => by
  cases h
  exact hc

theorem ofRequire (p : Prop) [Decidable p] {c : ErrCode} (hc : c ∈ cs) : RaisesIn cs (require p c) := fun s c' t h => by
  by_cases hp : p
  · rw [require_pos hp] at h
    cases h
  · rw [require_neg hp] at h
    cases h
    exact hc

theorem ofGet {f : State → Op α} (hf : ∀ s, RaisesIn cs (f s)) : RaisesIn cs (get >>= f) := fun s => hf s s

theorem ofBind {x : Op α} {f : α → Op β} (hx : RaisesIn cs x) (hf : ∀ a, RaisesIn cs (f a)) : RaisesIn cs (x >>= f) :=
  fun s c t h => by
    rcases raise_of_bind h with h | ⟨a, u, -, h⟩
    · exact hx s c t h
    · exact hf a u c t h

theorem ofIte (p : Prop) [Decidable p] {x y : Op α} (hx : RaisesIn cs x) (hy : RaisesIn cs y) :
    RaisesIn cs (if p then x else y) := by split <;> assumption

end RaisesIn

section
open RaisesIn

variable {cs : List ErrCode}

/-! ### Operands, results and the streams -/

theorem operand0_raisesIn : RaisesIn cs operand0 := ofGet fun _ => ofPure _

theorem operand1_raisesIn : RaisesIn cs operand1 := ofGet fun _ => ofPure _

theorem signedOperand0_raisesIn : RaisesIn cs signedOperand0 := ofGet fun _ => ofPure _

theorem setResEntry_raisesIn (e : Entry) : RaisesIn cs (setResEntry e) := ofBind (ofModify _) fun _ => ofModify _

theorem needReader_raisesIn (hc : .nullArgument ∈ cs) : RaisesIn cs needReader := ofGet fun _ => ofRequire _ hc

theorem needWriter_raisesIn (hc : .nullArgument ∈ cs) : RaisesIn cs needWriter := ofGet fun _ => ofRequire _ hc

theorem needCode_raisesIn (hc : .nullArgument ∈ cs) : RaisesIn cs needCode := ofGet fun _ => ofRequire _ hc

theorem bitsLeft_raisesIn : RaisesIn cs bitsLeft := ofGet fun _ => ofPure _

theorem inByte_raisesIn (a : Nat) : RaisesIn cs (inByte a) := ofGet fun _ => ofIte _ (ofPure _) (ofHalt _)

theorem scratchByte_raisesIn (a : Nat) : RaisesIn cs (scratchByte a) := ofGet fun _ => ofIte _ (ofPure _) (ofHalt _)

theorem setScratchByte_raisesIn (a : Nat) (v : Byte) : RaisesIn cs (setScratchByte a v) :=
  ofGet fun _ => ofIte _ (ofSet _) (ofHalt _)

theorem setOutByte_raisesIn (a : Nat) (v : Byte) : RaisesIn cs (setOutByte a v) :=
  ofGet fun _ => ofIte _ (ofSet _) (ofHalt _)

theorem getBit_raisesIn : RaisesIn cs getBit :=
  ofBind (ofGet fun _ => ofIte _ (ofBind (inByte_raisesIn _) fun _ => ofSet _) (ofPure _)) fun _ =>
    ofGet fun _ => ofBind (ofSet _) fun _ => ofPure _

theorem getBitsFrom_raisesIn (n : Nat) : ∀ v, RaisesIn cs (getBitsFrom n v) := by
  induction n with
  | zero => exact fun _ => ofPure _
  | succ n ih => exact fun _ => ofBind getBit_raisesIn fun _ => ih _

theorem getBits_raisesIn (n : Nat) : RaisesIn cs (getBits n) := getBitsFrom_raisesIn n 0

theorem readOrEos_raisesIn (n : Nat) {after : Op Unit} (h : RaisesIn cs after) : RaisesIn cs (readOrEos n after) :=
  ofBind bitsLeft_raisesIn fun _ => ofIte _ (ofModify _) <|
    ofBind (getBits_raisesIn n) fun _ => ofBind (ofModify _) fun _ => h

theorem varintByte_raisesIn (hc : .prematureEos ∈ cs) : RaisesIn cs varintByte :=
  ofBind bitsLeft_raisesIn fun _ => ofBind (ofRequire _ hc) fun _ => getBits_raisesIn 8

theorem readVarintFrom_raisesIn (hf : .invalidFormat ∈ cs) (he : .prematureEos ∈ cs) (k : Nat) :
    ∀ sh v, RaisesIn cs (readVarintFrom k sh v) := by
  induction k with
  | zero => exact fun _ _ => ofBind (varintByte_raisesIn he) fun _ => ofBind (ofRequire _ hf) fun _ => ofPure _
  | succ k ih => exact fun _ _ => ofBind (varintByte_raisesIn he) fun _ => ofIte _ (ofPure _) (ih _ _)

theorem readVarint_raisesIn (hf : .invalidFormat ∈ cs) (he : .prematureEos ∈ cs) : RaisesIn cs readVarint :=
  readVarintFrom_raisesIn hf he 4 0 0

theorem copyInput_raisesIn (k : Nat) : ∀ src dst, RaisesIn cs (copyInput k src dst) := by
  induction k with
  | zero => exact fun _ _ => ofPure _
  | succ k ih =>
    exact fun _ _ => ofBind (inByte_raisesIn _) fun _ => ofBind (setScratchByte_raisesIn _ _) fun _ => ih _ _

theorem moveInput_raisesIn (off k : Nat) : RaisesIn cs (moveInput off k) :=
  ofGet fun _ => ofBind (copyInput_raisesIn _ _ _) fun _ => ofBind (inByte_raisesIn _) fun _ =>
    ofBind (ofModify _) fun _ => ofModify _

theorem copyOutput_raisesIn (k : Nat) : ∀ src dst, RaisesIn cs (copyOutput k src dst) := by
  induction k with
  | zero => exact fun _ _ => ofPure _
  | succ k ih =>
    exact fun _ _ => ofBind (scratchByte_raisesIn _) fun _ => ofBind (setOutByte_raisesIn _ _) fun _ => ih _ _

theorem storeByte_raisesIn (v : Byte) : RaisesIn cs (storeByte v) :=
  ofGet fun _ => ofBind (setOutByte_raisesIn _ v) fun _ => ofModify _

theorem putBit_raisesIn (hc : .outOverflow ∈ cs) (b : Bool) : RaisesIn cs (putBit b) :=
  ofGet fun _ => ofBind (ofRequire _ hc) fun _ => ofIte _ (storeByte_raisesIn _) (ofSet _)

theorem putAll_raisesIn (hc : .outOverflow ∈ cs) (bs : List Bool) : RaisesIn cs (putAll bs) := by
  induction bs with
  | nil => exact ofPure _
  | cons b bs ih => exact ofBind (putBit_raisesIn hc b) fun _ => ih

theorem putBits_raisesIn (hc : .outOverflow ∈ cs) (n v : Nat) : RaisesIn cs (putBits n v) :=
  putBits_eq_putAll n v ▸ putAll_raisesIn hc _

theorem writeVarint_raisesIn (hc : .outOverflow ∈ cs) (v : Nat) : RaisesIn cs (writeVarint v) := by
  rw [writeVarint, writeVarintFrom_eq_putAll]
  exact putAll_raisesIn hc _

theorem flush_raisesIn (hc : .outOverflow ∈ cs) : RaisesIn cs flush :=
  ofGet fun _ => ofIte _ (ofPure _) (ofBind (ofRequire _ hc) fun _ => storeByte_raisesIn _)

/-! ### The queue and the arena -/

theorem offer_raisesIn (hc : .capacityExceeded ∈ cs) (e : Entry) : RaisesIn cs (offer e) := ofGet fun s => by
  cases offered s.pq e with
  | none => exact ofRaise hc
  | some q => exact ofSet _

theorem pollMin_raisesIn : RaisesIn cs pollMin := ofGet fun _ => ofBind (ofSet _) fun _ => ofPure _

theorem nodeAt_raisesIn (n : Nat) : RaisesIn cs (nodeAt n) := ofGet fun s => by
  cases nodeOf s.code n with
  | none => exact ofHalt _
  | some nd => exact ofPure _

theorem setParent_raisesIn (n p : NodeIdx) : RaisesIn cs (setParent n p) := ofBind (nodeAt_raisesIn _) fun _ => ofModify _

theorem alloc_raisesIn (hc : .capacityExceeded ∈ cs) (leaf : Bool) (sym : Byte) (f : Word) (l r : NodeIdx) :
    RaisesIn cs (alloc leaf sym f l r) :=
  ofGet fun _ => ofBind (ofRequire _ hc) fun _ => ofBind (ofSet _) fun _ => ofPure _

theorem countFrom_raisesIn (n : Nat) : ∀ k, RaisesIn cs (countFrom n k) := by
  induction n with
  | zero => exact fun _ => ofPure _
  | succ n ih => exact fun _ => ofBind (inByte_raisesIn _) fun _ => ofBind (ofModify _) fun _ => ih _

theorem scan_raisesIn : RaisesIn cs scan :=
  ofBind (ofModify _) fun _ => ofGet fun _ => ofBind (countFrom_raisesIn _ _) fun _ => ofBind (ofModify _) fun _ => ofModify _

/-! ### Build never runs out of room (44_huffman_tree.md R111, R116) -/

/-- Room that Build's loops keep while at most `n` leaves have been offered: the nodes and the entries are at most as many
as the nodes of the whole tree, and the capacity, which starts at 1, has never grown far beyond the entries. -/
structure BuildRoom (n : Nat) (s : State) : Prop where
  queue : QueueOk s.pq
  nodes : s.code.count.toNat + s.pq.size.toNat ≤ 2 * n
  size  : s.pq.size.toNat ≤ n
  cap   : s.pq.cap.toNat ≤ 2 * n + 1

theorem BuildRoom.mono {n m : Nat} {s : State} (h : BuildRoom n s) (hnm : n ≤ m) : BuildRoom m s where
  queue := h.queue
  nodes := by have := h.nodes; omega
  size := by have := h.size; omega
  cap := by have := h.cap; omega

/-- With an entry and a node to spare Offer takes its entry (43_pqueue.md R99). -/
theorem offer_room {n : Nat} {s : State} (e : Entry) (hn : n ≤ 256) (hqueue : QueueOk s.pq)
    (hnodes : s.code.count.toNat + s.pq.size.toNat + 1 ≤ 2 * n) (hsize : s.pq.size.toNat + 1 ≤ n)
    (hcap : s.pq.cap.toNat ≤ 2 * n + 1) : After (fun _ t => BuildRoom n t) (fun _ => False) (offer e s) := by
  have hfull : s.pq.size = s.pq.cap → s.pq.cap.toNat + 1 ≤ n := fun h => h ▸ hsize
  rw [offer_run]
  cases hr : offered s.pq e with
  | none =>
    rcases offered_cases s.pq e with ⟨-, ho⟩ | ⟨-, -, ho⟩ | ⟨heq, hgrow, -⟩
    · rw [ho] at hr; cases hr
    · rw [ho] at hr; cases hr
    · have : Config.heapPhys = 1023 := rfl
      have := hfull heq
      omega
  | some r =>
    have hgrown : r.cap.toNat ≤ 2 * n + 1 := by
      rcases (offered_some hr).2.2 with ⟨-, hkept⟩ | ⟨heq, hgrown⟩
      · rwa [hkept]
      · have := hfull heq
        omega
    have hr1 : r.size.toNat = s.pq.size.toNat + 1 := offered_size hqueue hr
    refine ⟨offered_queueOk hqueue hr, ?_, ?_, hgrown⟩
    · show s.code.count.toNat + r.size.toNat ≤ 2 * n
      omega
    · show r.size.toNat ≤ n
      omega

/-- Alloc counts the node it writes (R109). -/
theorem count_succ {c : Code} (h : c.count.toNat < Config.nodeCap) : (c.count + 1#10).toNat = c.count.toNat + 1 :=
  allocated_count (freshNode false 0#8 0#32 Config.noNode Config.noNode) h

/-- The next symbol has room for a leaf and an entry. -/
theorem offerLeaf_room {n : Nat} {s : State} (sym : Nat) (hn : n < 256) (h : BuildRoom n s) :
    After (fun _ t => BuildRoom (n + 1) t) (fun _ => False) (offerLeaf sym s) := by
  refine after_get_bind.mpr (after_ite.mpr ⟨fun _ => h.mono (Nat.le_succ n), fun _ => ?_⟩)
  obtain ⟨hqueue, hnodes, hsize, hcap⟩ := h
  have hnodeCap : Config.nodeCap = 511 := rfl
  have halloc : s.code.count.toNat < Config.nodeCap := by omega
  have hcount := count_succ halloc
  have hnodes' : (s.code.count + 1#10).toNat + s.pq.size.toNat + 1 ≤ 2 * (n + 1) := by omega
  refine after_bind.mpr (after_alloc.mpr ⟨fun _ => ?_, fun hfull => hfull halloc⟩)
  exact offer_room _ hn hqueue hnodes' (Nat.succ_le_succ hsize) (hcap.trans (by omega))

theorem offerLeaves_room (l : List Nat) : ∀ {n : Nat} {s : State}, n + l.length ≤ 256 → BuildRoom n s →
    After (fun _ t => BuildRoom 256 t) (fun _ => False) (offerLeaves l s) := by
  induction l with
  | nil => exact fun hn h => h.mono hn
  | cons sym rest ih =>
    intro n s hn h
    rw [List.length_cons] at hn
    exact after_bind.mpr ((offerLeaf_room sym (by omega) h).imp fun _ t ht => ih (by omega) ht)

/-- A merge takes two entries and puts one back, with one more node (R111). -/
theorem mergeTwo_room {s : State} (hs : 2 ≤ s.pq.size.toNat) (h : BuildRoom 256 s) :
    After (fun _ t => BuildRoom 256 t) (fun _ => False) (mergeTwo s) := by
  obtain ⟨hqueue, hnodes, hsize, hcap⟩ := h
  have hnodeCap : Config.nodeCap = 511 := rfl
  have halloc : s.code.count.toNat < Config.nodeCap := by omega
  have hcount := count_succ halloc
  have hone : (polled s.pq).size.toNat = s.pq.size.toNat - 1 := by rw [polled_size, size_pred (by omega)]
  have htwo := polled_twice_size hs
  have hqueue' : QueueOk (polled (polled s.pq)) := polled_queueOk (polled_queueOk hqueue (by omega)) (by omega)
  have hnodes' : (s.code.count + 1#10).toNat + (polled (polled s.pq)).size.toNat + 1 ≤ 2 * 256 := by omega
  have hsize' : (polled (polled s.pq)).size.toNat + 1 ≤ 256 := by omega
  have hcap' : (polled (polled s.pq)).cap.toNat ≤ 2 * 256 + 1 := by simpa using hcap
  refine after_bind.mpr (after_pollMin.mpr (after_bind.mpr (after_pollMin.mpr (after_bind.mpr (after_alloc.mpr
    ⟨fun _ => ?_, fun hfull => hfull halloc⟩)))))
  refine after_bind.mpr (after_setParent.mpr fun _ _ => after_bind.mpr (after_setParent.mpr fun _ _ => ?_))
  exact offer_room _ le_rfl hqueue' hnodes' hsize' hcap'

theorem mergeAll_room (fuel : Nat) : ∀ {s : State}, BuildRoom 256 s →
    After (fun _ t => BuildRoom 256 t) (fun _ => False) (mergeAll fuel s) := by
  induction fuel with
  | zero => exact fun h => h
  | succ fuel ih =>
    exact fun h => after_get_bind.mpr (after_ite.mpr
      ⟨fun hs => after_bind.mpr ((mergeTwo_room hs h).imp fun _ _ => ih), fun _ => h⟩)

/-- The empty queue and arena Build starts with. -/
def buildStart (s : State) : State := { s with code := noCode s.code, pq := freshQueue s.pq Config.hufPqInitCap false }

theorem buildStart_room (s : State) : BuildRoom 0 (buildStart s) where
  queue := by
    constructor
    · exact (by decide : 1 ≤ Config.hufPqInitCap.toNat)
    · exact Nat.zero_le _
  nodes := le_rfl
  size := le_rfl
  cap := le_rfl

/-- 256 symbols fit, and no merge needs more than the leaves it joins. -/
theorem build_raisesIn : RaisesIn cs build := ofNever fun s => by
  refine after_bind.mpr (after_bind.mpr ((offerLeaves_room (List.range 256) (by simp) (buildStart_room s)).imp fun _ t ht => ?_))
  refine after_get_bind.mpr (after_bind.mpr ((mergeAll_room _ ht).imp fun _ u _ => ?_))
  exact after_bind.mpr (after_pollMin.mpr trivial)

/-! ### Headers and codewords (45_huffman_code.md) -/

theorem ser_raisesIn (hc : .outOverflow ∈ cs) (fuel : Nat) : ∀ n, RaisesIn cs (ser fuel n) := by
  induction fuel with
  | zero => exact fun _ => ofHalt _
  | succ fuel ih =>
    exact fun _ => ofBind (nodeAt_raisesIn _) fun _ => ofIte _
      (ofBind (putBit_raisesIn hc _) fun _ => putBits_raisesIn hc 8 _)
      (ofBind (putBit_raisesIn hc _) fun _ => ofBind (ih _) fun _ => ih _)

theorem serRoot_raisesIn (hc : .outOverflow ∈ cs) : RaisesIn cs serRoot := ofGet fun _ => ser_raisesIn hc _ _

theorem pathUp_raisesIn (fuel : Nat) : ∀ n, RaisesIn cs (pathUp fuel n) := by
  induction fuel with
  | zero => exact fun _ => ofHalt _
  | succ fuel ih =>
    exact fun _ => ofGet fun _ => ofIte _ (ofPure _) <| ofBind (nodeAt_raisesIn _) fun _ =>
      ofBind (nodeAt_raisesIn _) fun _ => ofBind (ih _) fun _ => ofPure _

theorem encodeSym_raisesIn (hc : .outOverflow ∈ cs) (sym : Nat) : RaisesIn cs (encodeSym sym) :=
  ofGet fun _ => ofBind (nodeAt_raisesIn _) fun _ => ofIte _ (ofPure _) <|
    ofBind (ofGet fun _ => ofBind (pathUp_raisesIn _ _) fun _ => ofPure _) fun _ => putAll_raisesIn hc _

theorem collapse_raisesIn (hc : .capacityExceeded ∈ cs) (fuel : Nat) : RaisesIn cs (collapse fuel) := by
  induction fuel with
  | zero => exact ofPure _
  | succ fuel ih =>
    refine ofGet fun s => ?_
    cases collapsible s.dstack with
    | none => exact ofPure _
    | some lr =>
      exact ofBind (ofModify _) fun _ => ofBind (alloc_raisesIn hc _ _ _ _ _) fun _ =>
        ofBind (setParent_raisesIn _ _) fun _ => ofBind (setParent_raisesIn _ _) fun _ => ofBind (ofModify _) fun _ => ih

theorem parentMarker_raisesIn (hc : .capacityExceeded ∈ cs) : RaisesIn cs parentMarker :=
  ofGet fun _ => ofBind (ofRequire _ hc) fun _ => ofModify _

theorem leafMarker_raisesIn (hf : .invalidFormat ∈ cs) (hc : .capacityExceeded ∈ cs) : RaisesIn cs leafMarker :=
  ofBind bitsLeft_raisesIn fun _ => ofBind (ofRequire _ hf) fun _ => ofBind (getBits_raisesIn 8) fun _ => ofGet fun _ =>
    ofBind (ofRequire _ hc) fun _ => ofBind (alloc_raisesIn hc _ _ _ _ _) fun _ => ofBind (ofModify _) fun _ =>
      ofBind (ofModify _) fun _ => ofGet fun _ => collapse_raisesIn hc _

theorem deserFrom_raisesIn (hf : .invalidFormat ∈ cs) (hc : .capacityExceeded ∈ cs) (fuel : Nat) :
    RaisesIn cs (deserFrom fuel) := by
  induction fuel with
  | zero => exact ofRaise hf
  | succ fuel ih =>
    refine ofBind bitsLeft_raisesIn fun _ => ofBind (ofRequire _ hf) fun _ => ofBind getBit_raisesIn fun b => ?_
    refine ofIte (b = true) (ofBind (parentMarker_raisesIn hc) fun _ => ih)
      (ofBind (leafMarker_raisesIn hf hc) fun _ => ofGet fun s => ?_)
    cases soleNode s.dstack with
    | none => exact ih
    | some r => exact ofModify _

theorem deser_raisesIn (hf : .invalidFormat ∈ cs) (hc : .capacityExceeded ∈ cs) : RaisesIn cs deser :=
  ofBind (ofModify _) fun _ => ofBind bitsLeft_raisesIn fun _ => deserFrom_raisesIn hf hc _

theorem decodeFrom_raisesIn (he : .prematureEos ∈ cs) (fuel : Nat) : ∀ n, RaisesIn cs (decodeFrom fuel n) := by
  induction fuel with
  | zero => exact fun _ => ofBind (nodeAt_raisesIn _) fun _ => ofIte _ (ofPure _) (ofRaise he)
  | succ fuel ih =>
    exact fun _ => ofBind (nodeAt_raisesIn _) fun _ => ofIte _ (ofPure _) <| ofBind bitsLeft_raisesIn fun _ =>
      ofBind (ofRequire _ he) fun _ => ofBind getBit_raisesIn fun b => ofIte (b = true) (ih _) (ih _)

theorem decodeSym_raisesIn (he : .prematureEos ∈ cs) : RaisesIn cs decodeSym :=
  ofBind bitsLeft_raisesIn fun _ => ofGet fun _ => decodeFrom_raisesIn he _ _

theorem expandSymbols_raisesIn (he : .prematureEos ∈ cs) (ho : .outOverflow ∈ cs) (n : Nat) :
    RaisesIn cs (expandSymbols n) := by
  induction n with
  | zero => exact ofPure _
  | succ n ih => exact ofBind (decodeSym_raisesIn he) fun _ => ofBind (putBits_raisesIn ho 8 _) fun _ => ih

theorem expandStream_raisesIn (hf : .invalidFormat ∈ cs) (he : .prematureEos ∈ cs) (hc : .capacityExceeded ∈ cs)
    (ho : .outOverflow ∈ cs) : RaisesIn cs expandStream :=
  ofBind (ofModify _) fun _ => ofBind (deser_raisesIn hf hc) fun _ => ofBind (readVarint_raisesIn hf he) fun _ =>
    ofBind (expandSymbols_raisesIn he ho _) fun _ => flush_raisesIn ho

theorem compressBytes_raisesIn (ho : .outOverflow ∈ cs) (n : Nat) : RaisesIn cs (compressBytes n) := by
  induction n with
  | zero => exact ofPure _
  | succ n ih => exact ofBind (getBits_raisesIn 8) fun _ => ofBind (encodeSym_raisesIn ho _) fun _ => ih

theorem compressStream_raisesIn (ho : .outOverflow ∈ cs) : RaisesIn cs compressStream :=
  ofGet fun _ => ofBind scan_raisesIn fun _ => ofBind build_raisesIn fun _ => ofBind (serRoot_raisesIn ho) fun _ =>
    ofBind (writeVarint_raisesIn ho _) fun _ => ofBind (ofModify _) fun _ => ofBind (compressBytes_raisesIn ho _) fun _ =>
      flush_raisesIn ho

/-! ### Every command -/

/-- Every body raises what the table allows its command. -/
theorem bodyOf_raisesIn (i : Instr) : RaisesIn (errorsOf i) (bodyOf i) := by
  cases i with
  | nop => exact ofPure _
  | clrErr => exact ofModify _
  | sreset => exact ofModify _
  | rdBit => exact ofBind (needReader_raisesIn (by decide)) fun _ => readOrEos_raisesIn 1 (ofPure _)
  | rdBits =>
    exact ofBind (needReader_raisesIn (by decide)) fun _ => ofBind operand0_raisesIn fun _ =>
      ofBind (ofRequire _ (by decide)) fun _ => readOrEos_raisesIn _ (ofPure _)
  | rdByte => exact ofBind (needReader_raisesIn (by decide)) fun _ => readOrEos_raisesIn 8 (ofPure _)
  | rdBytes =>
    exact ofBind (needReader_raisesIn (by decide)) fun _ => ofBind operand0_raisesIn fun _ =>
      ofBind operand1_raisesIn fun _ => ofGet fun _ => ofBind (ofRequire _ (by decide)) fun _ =>
        ofBind (ofRequire _ (by decide)) fun _ => ofIte _ (ofModify _) (ofIte _ (ofModify _) (moveInput_raisesIn _ _))
  | rdInt =>
    exact ofBind (needReader_raisesIn (by decide)) fun _ => ofBind (readVarint_raisesIn (by decide) (by decide)) fun _ =>
      ofModify _
  | inLength => exact ofBind (needReader_raisesIn (by decide)) fun _ => ofGet fun _ => ofModify _
  | inReset => exact ofBind (needReader_raisesIn (by decide)) fun _ => ofModify _
  | wrBit =>
    exact ofBind (needWriter_raisesIn (by decide)) fun _ => ofBind operand0_raisesIn fun _ =>
      ofBind (ofRequire _ (by decide)) fun _ => putBit_raisesIn (by decide) _
  | wrBits =>
    exact ofBind (needWriter_raisesIn (by decide)) fun _ => ofBind operand0_raisesIn fun _ =>
      ofBind operand1_raisesIn fun _ => ofBind (ofRequire _ (by decide)) fun _ =>
        ofBind (ofRequire _ (by decide)) fun _ => putBits_raisesIn (by decide) _ _
  | wrByte =>
    exact ofBind (needWriter_raisesIn (by decide)) fun _ => ofBind operand0_raisesIn fun _ =>
      ofBind (ofRequire _ (by decide)) fun _ => putBits_raisesIn (by decide) _ _
  | wrBytes =>
    exact ofBind (needWriter_raisesIn (by decide)) fun _ => ofBind operand0_raisesIn fun _ =>
      ofBind operand1_raisesIn fun _ => ofGet fun _ => ofBind (ofRequire _ (by decide)) fun _ =>
        ofBind (ofRequire _ (by decide)) fun _ => ofBind (ofRequire _ (by decide)) fun _ =>
          ofBind (copyOutput_raisesIn _ _ _) fun _ => ofModify _
  | wrInt =>
    exact ofBind (needWriter_raisesIn (by decide)) fun _ => ofBind operand0_raisesIn fun _ =>
      ofBind (ofRequire _ (by decide)) fun _ => writeVarint_raisesIn (by decide) _
  | wrFlush => exact ofBind (needWriter_raisesIn (by decide)) fun _ => flush_raisesIn (by decide)
  | pqInit =>
    exact ofBind operand0_raisesIn fun _ => ofBind signedOperand0_raisesIn fun _ => ofBind operand1_raisesIn fun _ =>
      ofGet fun _ => ofBind (ofRequire _ (by decide)) fun _ => ofBind (ofRequire _ (by decide)) fun _ =>
        ofBind (ofRequire _ (by decide)) fun _ => ofBind (ofRequire _ (by decide)) fun _ => ofSet _
  | pqOffer =>
    exact ofBind (ofRequire _ (by simp [errorsOf])) fun _ => ofGet fun _ => offer_raisesIn (by simp [errorsOf]) _
  | pqPoll => exact ofGet fun _ => ofIte _ (ofModify _) (ofBind pollMin_raisesIn fun _ => setResEntry_raisesIn _)
  | pqPeek => exact ofGet fun _ => ofIte _ (ofModify _) (setResEntry_raisesIn _)
  | pqSize => exact ofGet fun _ => ofModify _
  | pqAt =>
    exact ofBind operand0_raisesIn fun _ => ofGet fun _ => ofBind (ofRequire _ (by decide)) fun _ => setResEntry_raisesIn _
  | freqClear => exact ofModify _
  | freqSet =>
    exact ofBind operand0_raisesIn fun _ => ofBind operand1_raisesIn fun _ => ofBind (ofRequire _ (by decide)) fun _ =>
      ofBind (ofRequire _ (by decide)) fun _ => ofModify _
  | freqScan => exact ofBind (needReader_raisesIn (by decide)) fun _ => scan_raisesIn
  | hufBuild =>
    exact ofGet fun _ => ofBind (ofRequire _ (by decide)) fun _ => ofBind (ofRequire _ (by decide)) fun _ =>
      ofBind (ofRequire _ (by decide)) fun _ => build_raisesIn
  | hufNode =>
    exact ofBind operand0_raisesIn fun _ => ofGet fun _ => ofBind (ofRequire _ (by decide)) fun _ =>
      ofBind (nodeAt_raisesIn _) fun _ => ofBind (ofModify _) fun _ => ofBind (ofModify _) fun _ => ofModify _
  | hufLeaf =>
    exact ofBind (needCode_raisesIn (by decide)) fun _ => ofBind operand0_raisesIn fun _ =>
      ofBind (ofRequire _ (by decide)) fun _ => ofGet fun _ => ofModify _
  | hufWrhdr =>
    exact ofBind (needWriter_raisesIn (by decide)) fun _ => ofBind (needCode_raisesIn (by decide)) fun _ =>
      serRoot_raisesIn (by decide)
  | hufRdhdr => exact ofBind (needReader_raisesIn (by decide)) fun _ => deser_raisesIn (by decide) (by decide)
  | hufEnc =>
    exact ofBind (needWriter_raisesIn (by decide)) fun _ => ofBind (needCode_raisesIn (by decide)) fun _ =>
      ofBind operand0_raisesIn fun _ => ofBind (ofRequire _ (by decide)) fun _ => ofGet fun _ =>
        ofBind (ofRequire _ (by decide)) fun _ => encodeSym_raisesIn (by decide) _
  | hufDec =>
    exact ofBind (needReader_raisesIn (by decide)) fun _ => ofBind (needCode_raisesIn (by decide)) fun _ =>
      ofBind (decodeSym_raisesIn (by decide)) fun _ => ofModify _
  | hufCompress =>
    exact ofBind (needReader_raisesIn (by decide)) fun _ => ofBind (needWriter_raisesIn (by decide)) fun _ =>
      ofGet fun _ => ofIte _ (ofPure _) (compressStream_raisesIn (by decide))
  | hufExpand =>
    exact ofBind (needReader_raisesIn (by decide)) fun _ => ofBind (needWriter_raisesIn (by decide)) fun _ =>
      ofGet fun _ => ofIte _ (ofPure _) (expandStream_raisesIn (by decide) (by decide) (by decide) (by decide))
  | lzwWinit | lzwRinit =>
    exact ofBind signedOperand0_raisesIn fun _ => ofBind (ofRequire _ (by decide)) fun _ => ofModify _
  | lzwWrite =>
    exact ofBind (needWriter_raisesIn (by decide)) fun _ => ofGet fun _ => ofBind (ofRequire _ (by decide)) fun _ =>
      ofBind (ofRequire _ (by decide)) fun _ => ofBind operand0_raisesIn fun _ => ofBind (ofRequire _ (by decide)) fun _ =>
        ofBind (putBits_raisesIn (by decide) _ _) fun _ => ofModify _
  | lzwRead =>
    exact ofBind (needReader_raisesIn (by decide)) fun _ => ofGet fun _ => ofBind (ofRequire _ (by decide)) fun _ =>
      ofBind (ofRequire _ (by decide)) fun _ => readOrEos_raisesIn _ (ofModify _)

end

/-- A body keeps ERR, or it is the body of a command that clears it. -/
theorem bodyOf_keeps_err_false (i : Instr) {s : State} (h : s.status.err = false) :
    After (fun _ t => t.status.err = false) (fun _ => True) (bodyOf i s) := by
  by_cases hc : i = .clrErr
  · subst hc
    exact (rfl : (Machine.returnFromError s).status.err = false)
  · by_cases hr : i = .sreset
    · subst hr
      exact (rfl : (softReset s).status.err = false)
    · refine (bodyOf_flagged hc hr s).mono (fun _ t ht => ?_) fun _ _ => trivial
      rcases ht with ht | ⟨ht, -⟩ | ⟨ht, -⟩ <;> rw [ht] <;> exact h

/-- A command that ends with ERR = 1, and did not start with it, has taken an error its body raised (R140). -/
theorem raised_of_exec {i : Instr} {s t : State} (herr : s.status.err = false) (h : exec i s = .next t)
    (ht : t.status.err = true) : ∃ c u, bodyOf i s = .error (.raise c) u ∧ t = takeError c u := by
  rw [exec_eq] at h
  rcases command_next h with ⟨u, hu, rfl⟩ | hraised
  · have hkept := bodyOf_keeps_err_false i herr
    rw [hu] at hkept
    exact absurd (hkept.symm.trans ht) (by decide)
  · exact hraised

/-- Settles O16: the error taken is one the body raised. -/
theorem errorCodesAsTabled : Obligations.ErrorCodesAsTabled := by
  unfold Obligations.ErrorCodesAsTabled
  refine ⟨⟨rfl, rfl, rfl, rfl, rfl, rfl, rfl, rfl⟩, fun i s t herr h ht => ?_⟩
  obtain ⟨c, u, hraise, rfl⟩ := raised_of_exec herr h ht
  exact ⟨c, bodyOf_raisesIn i s c u hraise, rfl⟩

end Sys2Proof.Proofs

/-! PROOFS. Before it raises a command has written no result and no flag (60_exceptions.md R140), and a sentinel is all that
the command which sets it does (R139). -/

namespace Sys2Proof.Proofs

open Sys2Proof Sys2Proof.Machine Sys2Proof.Safety Sys2Proof.Laws

/-! ### Raises -/

/-- What may have changed when a command raises (60_exceptions.md R141): no result, no flag and no command register. -/
def quietParts : List Part := [.inp, .out, .mem, .freq, .code, .pq, .dstack, .lzw]

/-- Where `x` raises it has changed none but these. -/
def RaisesQuietly {α : Type} (x : Op α) : Prop := ∀ s c t, x s = .error (.raise c) t → Within quietParts s t

namespace RaisesQuietly

variable {α β : Type}

theorem ofFootprint {x : Op α} (h : Footprint quietParts x) : RaisesQuietly x := fun s c t hx => by
  have hw := h s
  rwa [hx] at hw

theorem ofNever {x : Op α} (h : RaisesIn [] x) : RaisesQuietly x := fun s c t hx => absurd (h s c t hx) (by simp)

theorem ofBind {x : Op α} {f : α → Op β} (hx : Footprint quietParts x) (hf : ∀ a, RaisesQuietly (f a)) :
    RaisesQuietly (x >>= f) := fun s c t h => by
  rcases raise_of_bind h with h | ⟨a, u, hu, h⟩
  · exact ofFootprint hx s c t h
  · have hw := hx s
    rw [hu] at hw
    exact hw.trans (hf a u c t h)

theorem ofGet {f : State → Op α} (hf : ∀ s, RaisesQuietly (f s)) : RaisesQuietly (get >>= f) := fun s => hf s s

theorem ofCheck {p : Prop} [Decidable p] {c : ErrCode} {f : Unit → Op α} (hf : RaisesQuietly (f ())) :
    RaisesQuietly (require p c >>= f) := ofBind (.ofRequire _ _) fun _ => hf

end RaisesQuietly

section
open RaisesQuietly

/-- A body writes its results and its flag last, where it raises no more. -/
theorem bodyOf_raisesQuietly (i : Instr) : RaisesQuietly (bodyOf i) := by
  by_cases hq : bodyParts i ⊆ quietParts
  · exact ofFootprint ((bodyOf_footprint i).mono hq)
  · cases i with
    | clrErr => exact ofNever (bodyOf_raisesIn .clrErr)
    | sreset => exact ofNever (bodyOf_raisesIn .sreset)
    | pqPoll => exact ofNever (bodyOf_raisesIn .pqPoll)
    | pqPeek => exact ofNever (bodyOf_raisesIn .pqPeek)
    | pqSize => exact ofNever (bodyOf_raisesIn .pqSize)
    | rdBit => exact ofBind needReader_footprint fun _ => ofNever (readOrEos_raisesIn 1 (.ofPure _))
    | rdBits =>
      exact ofBind needReader_footprint fun _ => ofBind operand0_footprint fun _ => ofCheck <|
        ofNever (readOrEos_raisesIn _ (.ofPure _))
    | rdByte => exact ofBind needReader_footprint fun _ => ofNever (readOrEos_raisesIn 8 (.ofPure _))
    | rdBytes =>
      exact ofBind needReader_footprint fun _ => ofBind operand0_footprint fun _ => ofBind operand1_footprint fun _ =>
        ofGet fun _ => ofCheck <| ofCheck <| ofNever <|
          .ofIte _ (.ofModify _) (.ofIte _ (.ofModify _) (moveInput_raisesIn _ _))
    | rdInt =>
      exact ofBind needReader_footprint fun _ => ofBind (readVarint_footprint.mono (by decide)) fun _ => ofNever (.ofModify _)
    | inLength => exact ofBind needReader_footprint fun _ => ofGet fun _ => ofNever (.ofModify _)
    | pqAt => exact ofBind operand0_footprint fun _ => ofGet fun _ => ofCheck <| ofNever (setResEntry_raisesIn _)
    | hufNode =>
      exact ofBind operand0_footprint fun _ => ofGet fun _ => ofCheck <| ofNever <|
        .ofBind (nodeAt_raisesIn _) fun _ => .ofBind (.ofModify _) fun _ => .ofBind (.ofModify _) fun _ => .ofModify _
    | hufLeaf =>
      exact ofBind needCode_footprint fun _ => ofBind operand0_footprint fun _ => ofCheck <| ofGet fun _ =>
        ofNever (.ofModify _)
    | hufDec =>
      exact ofBind needReader_footprint fun _ => ofBind needCode_footprint fun _ =>
        ofBind (decodeSym_footprint.mono (by decide)) fun _ => ofNever (.ofModify _)
    | lzwRead =>
      exact ofBind needReader_footprint fun _ => ofGet fun _ => ofCheck <| ofCheck <| ofNever <|
        readOrEos_raisesIn _ (.ofModify _)
    | _ => exact absurd (by simp [bodyParts, quietParts]) hq

end

/-- Settles O15: the command has taken an error of its body, which had written no result and no flag. -/
theorem raiseRecordsError : Obligations.RaiseRecordsError := by
  unfold Obligations.RaiseRecordsError
  refine ⟨fun _ _ => rfl, fun i s t herr h ht => ?_⟩
  obtain ⟨c, u, hraise, rfl⟩ := raised_of_exec herr h ht
  have hsame : ∀ p, p ∉ quietParts → samePart p s u := (bodyOf_raisesQuietly i s c u hraise).2
  have hstatus : u.status = s.status := hsame .status (by decide)
  have heos : u.status.eos = s.status.eos := congrArg Status.eos hstatus
  have hempty : u.status.empty = s.status.empty := congrArg Status.empty hstatus
  have hign : u.status.ign = s.status.ign := congrArg Status.ign hstatus
  obtain ⟨hmin, hmax⟩ := errCodeByte_range c
  exact ⟨hsame .lastCmd (by decide), hmin, hmax, rfl, rfl, heos, hempty, hign, hsame .res0 (by decide),
    hsame .res1 (by decide), hsame .res2 (by decide)⟩

/-! ### Sentinels -/

/-- The end-of-stream sentinel, and nothing else (R139). -/
def eosState (s : State) : State := { s with res0 := Config.eosValue, status := flagsEos s.status }

/-- The empty-queue sentinel, and nothing else (R139). -/
def emptyState (s : State) : State := { s with res0 := 0#32, res1 := 0#32, status := flagsEmpty s.status }

/-- Where a body that ends well leaves STATUS: as it was, or with a sentinel's flag, and then the sentinel is all. -/
inductive Ended (i : Instr) (s t : State) : Prop
  | quiet (h : t.status = s.status)
  | eos (hi : i = .rdBit ∨ i = .rdBits ∨ i = .rdByte ∨ i = .rdBytes ∨ i = .lzwRead) (h : t = eosState s)
  | empty (hi : i = .pqPoll ∨ i = .pqPeek) (h : t = emptyState s)

theorem readOrEos_ended {i : Instr} (hi : i = .rdBit ∨ i = .rdBits ∨ i = .rdByte ∨ i = .rdBytes ∨ i = .lzwRead)
    {τ : List Part} (n : Nat) {after : Op Unit} (h : Footprint τ after) (hp : .status ∉ τ) (s : State) :
    After (fun _ => Ended i s) (fun _ => True) (readOrEos n after s) := by
  refine after_bind.mpr (after_ite.mpr ⟨fun _ => .eos hi rfl, fun _ => ?_⟩)
  have hread : Footprint (.inp :: .res0 :: τ) (getBits n >>= fun v => setRes0 (BitVec.ofNat 32 v) >>= fun _ => after) :=
    .ofBind ((getBits_footprint n).mono (by simp)) fun v => .ofBind ((setRes0_footprint _).mono (by simp)) fun _ =>
      h.mono (by simp)
  exact (after_within hread s).mono (fun _ t ht => .quiet (ht.2 .status (by simp [hp]))) fun _ _ => trivial

theorem opRdBytes_ended (s : State) : After (fun _ => Ended .rdBytes s) (fun _ => True) (opRdBytes s) := by
  refine after_needReader_bind.mpr ⟨fun _ => ?_, fun _ => trivial⟩
  rw [after_bind, operand0_run, after_ok, after_bind, operand1_run, after_ok, after_get_bind, after_require_bind]
  refine ⟨fun _ => after_require_bind.mpr ⟨fun _ => ?_, fun _ => trivial⟩, fun _ => trivial⟩
  refine after_ite.mpr ⟨fun _ => .quiet rfl, fun _ => after_ite.mpr ⟨fun _ => .eos (by simp) rfl, fun _ => ?_⟩⟩
  exact (after_within (moveInput_footprint _ _) s).mono (fun _ t ht => .quiet (ht.2 .status (by simp))) fun _ _ => trivial

theorem bodyOf_ended {i : Instr} (hc : i ≠ .clrErr) (hr : i ≠ .sreset) (s : State) :
    After (fun _ => Ended i s) (fun _ => True) (bodyOf i s) := by
  by_cases hp : Part.status ∈ bodyParts i
  · cases i with
    | rdBit =>
      refine after_needReader_bind.mpr ⟨fun _ => ?_, fun _ => trivial⟩
      exact readOrEos_ended (τ := []) (by simp) 1 (.ofPure _) (by simp) s
    | rdBits =>
      refine after_needReader_bind.mpr ⟨fun _ => ?_, fun _ => trivial⟩
      rw [after_bind, operand0_run, after_ok, after_require_bind]
      exact ⟨fun _ => readOrEos_ended (τ := []) (by simp) _ (.ofPure _) (by simp) s, fun _ => trivial⟩
    | rdByte =>
      refine after_needReader_bind.mpr ⟨fun _ => ?_, fun _ => trivial⟩
      exact readOrEos_ended (τ := []) (by simp) 8 (.ofPure _) (by simp) s
    | rdBytes => exact opRdBytes_ended s
    | pqPoll =>
      refine after_get_bind.mpr (after_ite.mpr ⟨fun _ => .empty (by simp) rfl, fun _ => ?_⟩)
      exact after_bind.mpr (after_pollMin.mpr (.quiet rfl))
    | pqPeek => exact after_get_bind.mpr (after_ite.mpr ⟨fun _ => .empty (by simp) rfl, fun _ => .quiet rfl⟩)
    | lzwRead =>
      refine after_needReader_bind.mpr ⟨fun _ => after_get_bind.mpr (after_require_bind.mpr
        ⟨fun _ => after_require_bind.mpr ⟨fun _ => ?_, fun _ => trivial⟩, fun _ => trivial⟩), fun _ => trivial⟩
      exact readOrEos_ended (by simp) _ (.ofModify fun t => within_lzw t _) (by simp) s
    | clrErr => exact absurd rfl hc
    | sreset => exact absurd rfl hr
    | _ => exact absurd hp (by simp [bodyParts])
  · exact (after_within (bodyOf_footprint i) s).mono (fun _ t ht => .quiet (ht.2 .status hp)) fun _ _ => trivial

/-- Neither CLR_ERR nor SRESET sets a sentinel's flag, and no command that raises does; any other completes where its
body ended. -/
theorem exec_ended {i : Instr} {s t : State} (h : exec i s = .next t) :
    ((t.status.eos = true → s.status.eos = true) ∧ (t.status.empty = true → s.status.empty = true)) ∨
      ∃ u, Ended i s u ∧ t = complete u := by
  by_cases hc : i = .clrErr
  · subst hc
    rw [exec_clrErr] at h
    cases h
    exact .inl ⟨id, id⟩
  by_cases hr : i = .sreset
  · subst hr
    rw [exec_sreset] at h
    cases h
    exact .inl ⟨fun h => absurd h Bool.false_ne_true, fun h => absurd h Bool.false_ne_true⟩
  rw [exec_eq] at h
  rcases command_next h with ⟨u, hu, rfl⟩ | ⟨c, u, hu, rfl⟩
  · have hended := bodyOf_ended hc hr s
    rw [hu] at hended
    exact .inr ⟨u, hended, rfl⟩
  · have hstatus : u.status = s.status := (bodyOf_raisesQuietly i s c u hu).2 .status (by decide)
    exact .inl ⟨fun h => hstatus ▸ h, fun h => hstatus ▸ h⟩

/-- Settles O17: a flag that is set anew is set with its sentinel, by one of its commands. -/
theorem sentinelsAreNotErrors : Obligations.SentinelsAreNotErrors := by
  unfold Obligations.SentinelsAreNotErrors
  refine ⟨fun i s t hs h ht => ?_, fun i s t hs h ht => ?_⟩
  · rcases exec_ended h with ⟨hkept, -⟩ | ⟨u, hended, rfl⟩
    · exact absurd (hkept ht) (by simp [hs])
    · cases hended with
      | quiet hu => exact absurd ht (by simp [hu, hs])
      | eos hi hu => exact ⟨hi, hu ▸ rfl⟩
      | empty hi hu => exact absurd ht (by simp [hu, emptyState, hs])
  · rcases exec_ended h with ⟨-, hkept⟩ | ⟨u, hended, rfl⟩
    · exact absurd (hkept ht) (by simp [hs])
    · cases hended with
      | quiet hu => exact absurd ht (by simp [hu, hs])
      | eos hi hu => exact absurd ht (by simp [hu, eosState, hs])
      | empty hi hu => exact ⟨hi, hu ▸ rfl⟩

end Sys2Proof.Proofs
